-- ==== Sys2Proof/Word.lean ====
section
/-! DEFINITION. Words, counts and tables: the plainest types of the IM-640 model and the three table operations
(`look`, `put`, `each`) through which every register bank of the part is read and written. -/

namespace Sys2Proof

/-- One byte of a frame payload or of the configuration memory (R189). -/
abbrev Byte := BitVec 8

/-- A Timebase time: the 32-bit count of whole microseconds, which wraps at 2^32 (R83, R112). -/
abbrev Time := BitVec 32

/-- A node number, 0–63 (R181). -/
abbrev Node := Fin 64

/-- A site number, 0–7. -/
abbrev Site := Fin 8

/-- A net id, 0–4095 (R59). -/
abbrev NetId := Fin 4096

/-- A pin line, P0–P31 (R1). -/
abbrev Pin := Fin 32

/-- A backplane trunk, T0–T15. -/
abbrev Trunk := Fin 16

/-- A local bus, L0 or L1. -/
abbrev Bus := Fin 2

/-- A resource of the link: 0–15 the trunks, 16 the monitor bus MON (R84). -/
abbrev Resource := Fin 17

/-- A resource code of STATUS and READ_FAULT: 0–15 trunks, 16 MON, 17 L0, 18 L1 (R190). -/
abbrev ResCode := Fin 19

/-- A relay index, 0–639 (R2). -/
abbrev Relay := Fin 640

/-- An index of the net table, 0–63 (R59). -/
abbrev Entry := Fin 64

/-- A wear-store block, 0–39 (R160). -/
abbrev Block := Fin 40

/-- A bank of `n` like registers. -/
abbrev Table (n : Nat) (α : Type) := Vector α n

/-- The register of a bank at an index. -/
def look {α : Type} {n : Nat} (t : Table n α) (i : Fin n) : α := t[i.val]

/-- The bank with one register replaced. -/
def put {α : Type} {n : Nat} (t : Table n α) (i : Fin n) (x : α) : Table n α := t.set i.val x

/-- The bank with every register replaced by a function of its index and its content. -/
def each {α β : Type} {n : Nat} (f : Fin n → α → β) (t : Table n α) : Table n β :=
  Vector.ofFn (fun i => f i (look t i))

/-- A bank with one content everywhere. -/
def fill {α : Type} (n : Nat) (x : α) : Table n α := Vector.replicate n x

@[simp] theorem look_put_same {α : Type} {n : Nat} (t : Table n α) (i : Fin n) (x : α) :
    look (put t i x) i = x := by simp [look, put]

@[simp] theorem look_put_ne {α : Type} {n : Nat} (t : Table n α) {i j : Fin n} (x : α) (h : i ≠ j) :
    look (put t i x) j = look t j := by
  have : i.val ≠ j.val := fun e => h (Fin.ext e)
  simp [look, put, this]

theorem look_put {α : Type} {n : Nat} (t : Table n α) (i j : Fin n) (x : α) :
    look (put t i x) j = if i = j then x else look t j := by
  by_cases h : i = j
  · subst h; simp
  · simp [h]

@[simp] theorem look_each {α β : Type} {n : Nat} (f : Fin n → α → β) (t : Table n α) (i : Fin n) :
    look (each f t) i = f i (look t i) := by simp [look, each]

@[simp] theorem look_fill {α : Type} {n : Nat} (x : α) (i : Fin n) : look (fill n x) i = x := by
  simp [look, fill]

theorem table_ext {α : Type} {n : Nat} {t u : Table n α} (h : ∀ i, look t i = look u i) : t = u := by
  apply Vector.ext
  intro i hi
  exact h ⟨i, hi⟩

/-- The indices of a bank whose registers meet a test, ascending. -/
def indices {α : Type} {n : Nat} (t : Table n α) (p : Fin n → α → Bool) : List (Fin n) :=
  (List.finRange n).filter (fun i => p i (look t i))

theorem mem_indices {α : Type} {n : Nat} {t : Table n α} {p : Fin n → α → Bool} {i : Fin n} :
    i ∈ indices t p ↔ p i (look t i) = true := by simp [indices]

/-- A number as an index below `n`, where it is one. -/
def inRange (n x : Nat) : Option (Fin n) := if h : x < n then some ⟨x, h⟩ else none

/-- A deadline or settle end is reached once the Timebase count has come up to it, counts compared modulo 2^32 (R83, R124). -/
def reached (now due : Time) : Bool := decide ((now - due).toNat < 2147483648)

/-- The Timebase time a number of microseconds after another. -/
def later (now : Time) (micros : Nat) : Time := now + BitVec.ofNat 32 micros

/-- The Timebase time a number of milliseconds after another. -/
def laterMs (now : Time) (millis : Nat) : Time := later now (millis * 1000)

end Sys2Proof
end

