-- ==== Sys2Proof/Syntax.lean ====
section
/-! DEFINITION. Syntax: frames as they stand on the backplane link, and `Instr`, the commands of the block: one
constructor for each row of spec/opcode_table.json. Every command carries `dt`, the whole microseconds of the Timebase that
pass between the command before it and this one; the rest of its operands are what the outside alone decides at that event. -/

namespace Sys2Proof

/-- The sixteen frame kinds (R32). -/
inductive Kind where
  | source | abort | claim | release | cancel | beacon | clear | route
  | unroute | monitor | fence | maint | status | ready | note | maintDone
deriving DecidableEq, Repr

/-- A frame: priority, kind, source node and payload (R18). Its length field is the payload's length. -/
structure Frame where
  prio : Fin 4
  kind : Kind
  src : Node
  payload : List Byte
deriving DecidableEq, Repr

/-- A frame as a receiver has sampled it up to the end of its check field: the length field as read (13 to 15 are framed as
twelve payload bytes, R20) and the sixteen check bits as read. -/
structure Sampled where
  prio : Fin 4
  kind : Kind
  src : Node
  length : Fin 16
  payload : List Byte
  check : BitVec 16
deriving DecidableEq, Repr

/-- How the configuration memory answers a read (R167, R168, R182). -/
inductive MemAnswer where
  /-- it acknowledges its address and the whole of the read -/
  | acknowledged
  /-- it does not acknowledge its address -/
  | noAddress
  /-- it acknowledges its address and then fails during the read -/
  | noData
deriving DecidableEq, Repr

/-- The commands of the IM-640: the rows of spec/opcode_table.json, in the table's order. -/
inductive Instr where
  | powerOnReset (dt : Nat) (straps : Node)
  | coldPinReset (dt : Nat) (straps : Node)
  | warmKeep (dt : Nat) (straps : Node)
  | configurationLoadEnd (dt : Nat) (record : MemAnswer)
  | wearBlockRead (dt : Nat) (record block : MemAnswer)
  | listenPeriodEnd (dt : Nat)
  | idlePoint (dt : Nat)
  | deferredFrameStart (dt : Nat)
  | lostContention (dt : Nat)
  | readbackFault (dt : Nat)
  | checkFieldEnd (dt : Nat) (heard : Sampled)
  | objectionSlotRead (dt : Nat) (driven : Bool)
  | source (dt : Nat)
  | abort (dt : Nat)
  | claim (dt : Nat)
  | release (dt : Nat)
  | cancel (dt : Nat)
  | beacon (dt : Nat)
  | clear (dt : Nat)
  | route (dt : Nat)
  | unroute (dt : Nat)
  | monitor (dt : Nat)
  | fence (dt : Nat)
  | saveWear (dt : Nat)
  | readWear (dt : Nat)
  | clearMarks (dt : Nat)
  | readFault (dt : Nat)
  | clearFault (dt : Nat)
  | status (dt : Nat)
  | ready (dt : Nat)
  | note (dt : Nat)
  | maintDone (dt : Nat)
  | arbiterDispatch (dt : Nat)
  | beaconPeriodBoundary (dt : Nat)
  | creditBoundary (dt : Nat)
  | settleEnd (dt : Nat) (relay : Relay)
  | connectHoldExpiry (dt : Nat) (entry : Entry)
  | disconnectHoldExpiry (dt : Nat) (entry : Entry)
  | awaitResourceDeadline (dt : Nat) (entry : Entry)
  | awaitAnchorDeadline (dt : Nat) (entry : Entry)
  | awaitOpenedDeadline (dt : Nat) (entry : Entry)
  | monitorClaimWaitExpiry (dt : Nat) (entry : Entry)
  | coolingEnd (dt : Nat) (resource : Resource)
  | senseEnd (dt : Nat) (high : Bool)
  | stepEnd (dt : Nat)
  | blockWriteEnd (dt : Nat)
  | blockWriteFailure (dt : Nat)
  | resetAsserted (dt : Nat)
  | maintForAnotherTargetNode (dt : Nat)
deriving DecidableEq, Repr

/-- The microseconds that pass before a command's event. -/
def Instr.elapsed : Instr → Nat
  | .powerOnReset dt _ | .coldPinReset dt _ | .warmKeep dt _ | .configurationLoadEnd dt _ | .wearBlockRead dt _ _
  | .listenPeriodEnd dt | .idlePoint dt | .deferredFrameStart dt | .lostContention dt | .readbackFault dt
  | .checkFieldEnd dt _ | .objectionSlotRead dt _ | .source dt | .abort dt | .claim dt | .release dt | .cancel dt
  | .beacon dt | .clear dt | .route dt | .unroute dt | .monitor dt | .fence dt | .saveWear dt | .readWear dt
  | .clearMarks dt | .readFault dt | .clearFault dt | .status dt | .ready dt | .note dt | .maintDone dt
  | .arbiterDispatch dt | .beaconPeriodBoundary dt | .creditBoundary dt | .settleEnd dt _ | .connectHoldExpiry dt _
  | .disconnectHoldExpiry dt _ | .awaitResourceDeadline dt _ | .awaitAnchorDeadline dt _ | .awaitOpenedDeadline dt _
  | .monitorClaimWaitExpiry dt _ | .coolingEnd dt _ | .senseEnd dt _ | .stepEnd dt | .blockWriteEnd dt
  | .blockWriteFailure dt | .resetAsserted dt | .maintForAnotherTargetNode dt => dt

end Sys2Proof
end

