-- ==== Sys2Proof/Config.lean ====
section
/-! DEFINITION. Config: the parameters a configuration load gives the part (R4, R5, R37, R58, R111, R172, R182) with their
defaults, and the free values: what the manual leaves to the memory outside, as constants with no body. -/

namespace Sys2Proof

/-- The four relay classes (section 1.2), in the order of the configuration record. -/
inductive RelayClass where
  | xpt | tap | ser | mon
deriving DecidableEq, Repr

/-- The six parameters of a class (R4): times in µs, cost in credit units, wear in weighted cycles. -/
structure ClassParams where
  operate : Nat
  release : Nat
  bounce : Nat
  cost : Nat
  threshold : Nat
  life : Nat
deriving DecidableEq, Repr

/-- One site of the site table (R37). -/
structure SiteParams where
  start : Nat
  stop : Nat
  cls : Fin 4
  trunks : BitVec 16
  reserved : BitVec 16
deriving DecidableEq, Repr

/-- The active configuration: every parameter a load gives. -/
structure Configuration where
  xpt : ClassParams
  tap : ClassParams
  ser : ClassParams
  mon : ClassParams
  cmax : Nat
  refill : Nat
  weighted : Bool
  weights : Table 4 Nat
  severe : Bool
  claimWait : Nat
  holdLimit : Nat
  releaseWait : Nat
  abortGrace : Nat
  period : Nat
  sites : Table 8 SiteParams
deriving DecidableEq, Repr

/-- The parameters of a class. -/
def Configuration.params (c : Configuration) : RelayClass → ClassParams
  | .xpt => c.xpt
  | .tap => c.tap
  | .ser => c.ser
  | .mon => c.mon

/-- The configuration of a defaulted record (R182): the class table of R5, the site table of R37, and the defaults by letter. -/
def Configuration.defaulted : Configuration where
  xpt := ⟨300, 100, 200, 1, 5000000, 10000000⟩
  tap := ⟨2000, 1000, 500, 6, 1000000, 2000000⟩
  ser := ⟨2000, 1000, 500, 6, 1000000, 2000000⟩
  mon := ⟨300, 100, 200, 1, 5000000, 10000000⟩
  cmax := 48
  refill := 8
  weighted := true
  weights := #v[8, 4, 2, 1]
  severe := false
  claimWait := 500
  holdLimit := 200
  releaseWait := 100
  abortGrace := 20
  period := 50
  sites := Vector.ofFn (fun s => ⟨128 * s.val, 128 * s.val + 128, 0, 0xFFFF#16, 0#16⟩)

/-- What the memory holds of a block whose write it did not acknowledge (R165): all of it, the block as it was, or a torn copy. -/
inductive Residue where
  | stored | kept | torn
deriving DecidableEq, Repr, Inhabited

/-- FREE VALUE. What a failed block write leaves in the configuration memory, for the n-th such failure: the manual gives
the three outcomes and no rule of choice (R165). -/
opaque Config.failedWrite : Nat → Residue

/-- FREE VALUE. What the sense select field of a pattern holds at an instant at which no sense is in progress: the manual gives
its content for a sense in progress only (R148). -/
opaque Config.idleSelect : Time → BitVec 10

end Sys2Proof
end

