-- ==== Sys2Proof/Machine/State.lean ====
section
/-! DEFINITION. The state of the IM-640 as plain data: one structure for each of its twelve blocks (00_scope.md, Block
overview), the configuration memory on the card, the queue of commands that wait, and `State.reset`, the part right after a
power-on reset. -/

namespace Sys2Proof.Machine

/-! ### Reasons a step can stop -/

/-- No command of the IM-640 ends in a fault: the manual gives every event an effect. The type has no constructor. -/
inductive Fault where
deriving DecidableEq, Repr

/-- Why a command could be refused. -/
inductive Refusal where
  /-- Raised by an arm of `exec` whose command has no meaning yet; safe. No arm answers it in this model. -/
  | notModelled (mnemonic : String)
deriving DecidableEq, Repr

/-! ### Relay Map (RM) -/

/-- The state of a relay (R6): `opened` and `closed` are OPEN and CLOSED. -/
inductive RelayState where
  | opened | closing | closed | opening
deriving DecidableEq, Repr

/-- The record of one relay (R6). -/
structure RelayRec where
  state : RelayState
  owner : Option Entry
  suspect : Bool
  slow : Bool
  settleEnd : Option Time
deriving DecidableEq, Repr

/-- The Relay Map: 640 records, and whether the RM is ready (R10). -/
structure Rm where
  relays : Table 640 RelayRec
  ready : Bool
deriving DecidableEq, Repr

/-! ### Link Interface Unit (LIU) -/

/-- The link states (section 2.4). -/
inductive LinkState where
  | active | muted | duplicateLatch
deriving DecidableEq, Repr

/-- Node kinds of the roster (R33). -/
inductive NodeKind where
  | matrix | sequencer | instrument | unknown
deriving DecidableEq, Repr

/-- A roster entry (R33): presence, kind, misses, heard and live mask. -/
structure RosterEntry where
  present : Bool
  kind : NodeKind
  misses : Nat
  heard : Bool
  live : BitVec 16
deriving DecidableEq, Repr

/-- The owed marks from which a frame of the part's own can be made (R35). -/
inductive Owed where
  | claim (e : Entry) (r : Resource)
  | release (e : Entry) (r : Resource)
  | cancel (e : Entry)
  | beacon
  | status (e : Entry)
  | siteStatus (s : Site)
  | ready (s : Site)
  | note (c : Fin 8)
  | wearAnswer
  | saveEnd
  | faultAnswer
deriving DecidableEq, Repr

/-- The part's own frame on the line: the mark it was made from, its content and its check as fixed at its start (R19, R21),
the instant of its start bit, and what became of the mark since: `renewed` when a newer cause set the mark again, `withdrawn`
when the claim it carries was ended (R92). -/
structure OwnFrame where
  owed : Owed
  frame : Frame
  check : BitVec 16
  start : Time
  renewed : Bool
  withdrawn : Bool
deriving DecidableEq, Repr

/-- A heard frame between the end of its check field and its objection slot: `none` for a damaged frame, whether the part
drives the slot (R24), and the instant at which the slot begins. -/
structure Hearing where
  frame : Option Frame
  objecting : Bool
  slot : Time
deriving DecidableEq, Repr

/-- The Link Interface Unit. `synced` says that the part receives: an idle point has been reached since the load (R20); `idle`
that the idle point of this idle line has been reached; `idleFrom` is the instant from which its released bit times count; and
`discarding` that what follows of an abandoned frame is discarded (R23). -/
structure Liu where
  link : LinkState
  objections : Nat
  cleans : Nat
  rx : List Frame
  roster : Table 64 RosterEntry
  synced : Bool
  idle : Bool
  idleFrom : Time
  discarding : Bool
  own : Option OwnFrame
  hearing : Option Hearing
deriving DecidableEq, Repr

/-! ### Site Queue Unit (SQU) -/

/-- The resource request of a ROUTE (R32). -/
inductive Request where
  | trunk (t : Trunk)
  | any
  | localBus
deriving DecidableEq, Repr

/-- The flags of a ROUTE that staging compares (R42). -/
structure RouteFlags where
  hot : Bool
  verify : Bool
  quiet : Bool
deriving DecidableEq, Repr

/-- The role of a card in a net (R59). -/
inductive Role where
  | anchor | participant
deriving DecidableEq, Repr

/-- An OPEN staging record (R42): nodes and pins ascending, with no repeats. -/
structure Staging where
  net : NetId
  flags : RouteFlags
  request : Request
  frames : Nat
  nodes : List Node
  pins : List Pin
deriving DecidableEq, Repr

/-- The contents of a ROUTE record (R39). -/
structure RouteRecord where
  net : NetId
  flags : RouteFlags
  request : Request
  role : Role
  anchor : Node
  peers : List Node
  pins : List Pin
deriving DecidableEq, Repr

/-- The four kinds of record (R39). -/
inductive QueueBody where
  | route (r : RouteRecord)
  | unroute (n : NetId)
  | monitor (n : NetId) (on : Bool)
  | fence (token : Fin 255)
deriving DecidableEq, Repr

/-- A record of a site queue with its removed mark (R39). -/
structure QueueRecord where
  body : QueueBody
  removed : Bool
deriving DecidableEq, Repr

/-- The circular queue of one site's area: head word, tail word, used words, and its records from the head on (R39). -/
structure SiteQueue where
  head : Nat
  tail : Nat
  used : Nat
  records : List QueueRecord
deriving DecidableEq, Repr

/-- The content of a READY (R50). -/
structure ReadyMark where
  token : Nat
  held : Nat
  refusals : Nat
  faults : Nat
deriving DecidableEq, Repr

/-- The Site Queue Unit. `abortWait` marks the sites whose READY 255 waits for its moment (R52). -/
structure Squ where
  valid : Table 8 Bool
  queues : Table 8 SiteQueue
  staging : Table 8 (Option Staging)
  refusals : Table 8 Nat
  faults : Table 8 Nat
  ready : Table 8 (Option ReadyMark)
  abortWait : Table 8 Bool
  lastServed : Table 4 (Option Site)
  budgets : Table 4 Nat
deriving DecidableEq, Repr

/-! ### Net Engine (NE) -/

/-- The twelve states of an entry (R61). -/
inductive EntryState where
  | free | awaitResource | awaitAnchor | connectInner | verifying | connectOuter | connected
  | disconnectOuter | disconnectInner | awaitOpened | releaseBlocked | faulted
deriving DecidableEq, Repr

/-- The resource field of an entry (R59). -/
inductive NetResource where
  | trunk (t : Trunk)
  | bus (l : Bus)
deriving DecidableEq, Repr

/-- The monitor sub-states (R59). -/
inductive MonitorState where
  | off | claiming | closing | on | opening
deriving DecidableEq, Repr

/-- Release-pending, when it is present (R70). -/
inductive ReleasePending where
  | plain | cancel
deriving DecidableEq, Repr

/-- The reason codes (R190), in code order. -/
inductive Reason where
  | none | siteInvalid | badRoute | netExists | pinBusy | relaySuspect | segmentBusy | trunkNotPermitted
  | trunkReserved | noTrunk | noBus | anchorSilent | holdTimeout | incomplete | contactFail | anchorLost
  | selfOpen | claimClash | resetInFlight | resetLostTrunk | hotBreak | aborted | cancelled | notConnected | monBusy
deriving DecidableEq, Repr

/-- The outcome codes of STATUS (R190), in code order. -/
inductive StatusOutcome where
  | connected | opened | refused | fault | monitorOn | monitorOff
deriving DecidableEq, Repr

/-- The content of a STATUS (R63). -/
structure Report where
  site : Site
  net : NetId
  outcome : StatusOutcome
  reason : Reason
  resource : Option ResCode
  relay : Option Relay
deriving DecidableEq, Repr

/-- An entry of the net table (R59). `request` is the resource request of its ROUTE record, `reported` says that the closing
report of its release handshake is owed or was owed (R73, R74), `winding` that it is being wound up after a warm keep (R187). -/
structure NetEntry where
  state : EntryState
  site : Site
  net : NetId
  role : Role
  anchor : Node
  request : Request
  resource : Option NetResource
  pins : List Pin
  peers : List Node
  awaited : List Node
  hot : Bool
  verify : Bool
  quiet : Bool
  monitor : MonitorState
  monitorOffPending : Bool
  releasePending : Option ReleasePending
  deadline : Option Time
  reason : Option Reason
  reasonRelay : Option Relay
  reported : Bool
  winding : Bool
deriving DecidableEq, Repr

/-- The Net Engine: the net table, the pin binding, and the marks of R62. -/
structure Ne where
  entries : Table 64 NetEntry
  binding : Table 32 (Option Entry)
  status : Table 64 (Option Report)
  cancel : Table 64 (Option (Site × NetId))
  siteStatus : Table 8 (Option Report)
deriving DecidableEq, Repr

/-! ### Resource Claim Unit (RCU) -/

/-- A view entry (R84). `net` is present when the source is CLAIMED and absent when it is BEACON. -/
structure ViewEntry where
  holder : Option Node
  net : Option (Site × NetId)
  claimed : Bool
  misses : Nat
  refreshed : Bool
  cooling : Option Time
deriving DecidableEq, Repr

/-- The Resource Claim Unit: view, own holdings each tied to its entry, kept holdings not yet confirmed (R100), the beacon
failure count, whether a BEACON is owed and whether one was sent in this period (R102), the owed CLAIM of each entry (R91)
and the owed RELEASE of each resource (R93). -/
structure Rcu where
  view : Table 17 ViewEntry
  holdings : Table 17 (Option Entry)
  unconfirmed : Table 17 Bool
  failures : Nat
  beaconOwed : Bool
  beaconSent : Bool
  claims : Table 64 (Option Resource)
  releases : Table 17 Bool
deriving DecidableEq, Repr

/-! ### Interlock Unit (ILU) -/

/-- A set hold record (R132). `connect` says that the wave is a connect wave. -/
structure Hold where
  trunk : Trunk
  connect : Bool
  deadline : Time
  abortGrace : Bool
  held : Bool
deriving DecidableEq, Repr

/-- The Interlock Unit: one hold record for each net entry. -/
structure Ilu where
  holds : Table 64 (Option Hold)
deriving DecidableEq, Repr

/-! ### Wave Scheduler (WSU) -/

/-- The owner of a wave (R108). -/
inductive WaveOwner where
  | entry (e : Entry)
  | sweep
  | recovery
deriving DecidableEq, Repr

/-- The phase of a wave (R108). -/
inductive Phase where
  | innerConnect | outerConnect | monitorClose | outerDisconnect | innerDisconnect | monitorOpen | sweep | recovery
deriving DecidableEq, Repr

/-- A wave record (R108): `todo` are its relays from `next` on, `done` those before it in list order; a relay is paired with
`true` for a closing pulse. Its place is the list of `Wsu` it stands in. -/
structure Wave where
  owner : WaveOwner
  phase : Phase
  done : List (Relay × Bool)
  todo : List (Relay × Bool)
  trunk : Option Trunk
  queried : Bool
  forcedHot : Bool
  abortMark : Bool
  settle : Option Time
deriving DecidableEq, Repr

/-- One pattern shifted down the coil drive chain (R9, R148): the active driver position, if one is fired, and the relay that
the sense select field names while a sense lasts. `ChainPattern.positions` gives its 1290 positions. -/
structure ChainPattern where
  driver : Option (Fin 1280)
  select : Option Relay
deriving DecidableEq, Repr

/-- The Wave Scheduler: queue, held set and settling set, the coil credit meter (absent until a load has ended, R111), the
instant at which the head stopped for credit, whether the credit boundary of this instant was taken, the relays of the
recovery wave's parts not yet settled (R128), and the patterns shifted down the chain at this instant, in order. -/
structure Wsu where
  queue : List Wave
  held : List Wave
  settling : List Wave
  credit : Option Nat
  creditStop : Option Time
  creditTaken : Bool
  recovery : List (Relay × Entry)
  chain : List ChainPattern
deriving DecidableEq, Repr

/-! ### Sense Unit (SNU) -/

/-- A sense job (R146). `stepEnd` is present in STEPPING. -/
structure Job where
  relay : Relay
  entry : Entry
  senses : Nat
  stepEnd : Option Time
deriving DecidableEq, Repr

/-- A verification record (R146). -/
structure Verification where
  remaining : Nat
  suspects : List Relay
  discard : Bool
deriving DecidableEq, Repr

/-- The Sense Unit: the sense queue, the job in SENSING with the end of its sense, the jobs in STEPPING, the admission list
and the verification records; and `ended`, the job whose sense ended at the instant of its entry's discard, the discard taken
first, until SENSE_END brings its sample (R153, notes/assumptions/48.md). -/
structure Snu where
  queue : List Job
  sensing : Option Job
  senseEnd : Option Time
  stepping : List Job
  admission : List (Entry × List Relay)
  verifications : Table 64 (Option Verification)
  ended : Option Job
deriving DecidableEq, Repr

/-! ### Fault Capture Unit (FCU) -/

/-- The ten capture causes (R171), in code order. -/
inductive Cause where
  | contactFail | anchorLost | resetInFlight | resetLostTrunk | claimClash | selfOpen | hotBreak
  | releaseBlocked | duplicateNode | muted
deriving DecidableEq, Repr

/-- A capture (R171). -/
structure Capture where
  cause : Cause
  net : Option (Site × NetId)
  resource : Option ResCode
  relay : Option Relay
  kind : Option Kind
deriving DecidableEq, Repr

/-- A FULL first-fault record (R173). -/
structure FaultRecord where
  capture : Capture
  time : BitVec 32
  count : Nat
deriving DecidableEq, Repr

/-- The content of a MAINT_DONE of the part (R192). -/
inductive MaintAnswer where
  | saveStarted (dirty : Nat)
  | saveDone (written : Nat)
  | saveFailed (written : Nat) (block : Option Block)
  | saveBusy
  | readWear (relay : Relay) (count : Nat) (slow suspect : Bool)
  | readWearBadArg
  | clearMarksBadArg
  | clearMarksDone
  | readFault (record : FaultRecord)
  | readFaultEmpty
  | clearFault (count : Nat)
deriving DecidableEq, Repr

/-- The Fault Capture Unit: the first-fault record, the millisecond count, the pending notes with their details in the order
of R178, its MAINT_DONE mark, and the captures held from a reset to the end of its load. -/
structure Fcu where
  record : Option FaultRecord
  millis : BitVec 32
  notes : Table 8 (Option (BitVec 16))
  answer : Option MaintAnswer
  held : List Capture
deriving DecidableEq, Repr

/-! ### Wear Unit (WRU) -/

/-- A save in flight (R162, R163): walk position, written count, the block being written with its start and its bytes. -/
structure Save where
  walk : Nat
  written : Nat
  block : Block
  start : Time
  bytes : List Byte
deriving DecidableEq, Repr

/-- The Wear Unit. -/
structure Wru where
  counts : Table 640 Nat
  dirty : Table 40 Bool
  save : Option Save
  storeAbsent : Bool
  answer : Option MaintAnswer
  saveEnd : Option MaintAnswer
deriving DecidableEq, Repr

/-! ### Configuration Loader (CFL), Timebase (TB), configuration memory -/

/-- The three kinds of reset (R180). -/
inductive ResetKind where
  | powerOn | coldPin | warmKeep
deriving DecidableEq, Repr

/-- Where the part stands in its start: in reset, loading its configuration, or running (R180–R183). -/
inductive RunPhase where
  | inReset | loading | running
deriving DecidableEq, Repr

/-- A judged configuration record (R182): the parameters, and the note its judging makes pending with its detail. -/
structure Judged where
  config : Configuration
  note : Option (Fin 8 × BitVec 16)
deriving DecidableEq, Repr

/-- The Configuration Loader: the active configuration, the start's phase, the kind of the last reset, whether a power-on load
has yet to end (R180), the record as judged during the load, the next wear-store block the load takes, whether the listen
period lasts and when it ends, whether the first BEACON after a warm keep is still to be sent (R184), and the node number. -/
structure Cfl where
  config : Configuration
  phase : RunPhase
  kind : ResetKind
  powerOnLoad : Bool
  judged : Option Judged
  nextBlock : Nat
  listen : Bool
  listenEnd : Time
  firstBeacon : Bool
  node : Node
deriving DecidableEq, Repr

/-- The Timebase: the µs count, and the next beacon-period boundary (R101, R112). -/
structure Tb where
  count : Time
  nextBeacon : Time
deriving DecidableEq, Repr

/-- The configuration memory on the card: its bytes in canonical form (see `Memory.wf`), and the wear-store blocks of which
it holds a torn copy, whose check fails (R165, R166). -/
structure ConfigMemory where
  cells : List Host.Cell
  torn : Table 40 Bool
deriving DecidableEq, Repr

/-! ### The whole state -/

/-- The state of the part, of the configuration memory on its card, and the commands that wait, first in, first out. `free`
is the model's own counter: how many free values the run has used. -/
structure State where
  liu : Liu
  squ : Squ
  ne : Ne
  rcu : Rcu
  ilu : Ilu
  wsu : Wsu
  rm : Rm
  snu : Snu
  wru : Wru
  fcu : Fcu
  cfl : Cfl
  tb : Tb
  memory : ConfigMemory
  free : Nat
  pending : List Instr
deriving DecidableEq, Repr

/-! ### Reset values -/

/-- A roster entry in its reset value (R33). -/
def RosterEntry.reset : RosterEntry := ⟨false, .unknown, 0, false, 0#16⟩

/-- The LIU after each of the three resets (R31, R33): the line is taken to be busy (R20). -/
def Liu.reset : Liu := ⟨.active, 0, 0, [], fill 64 RosterEntry.reset, false, false, 0, false, none, none⟩

/-- A queue with nothing in it whose area starts at a word. -/
def SiteQueue.empty (start : Nat) : SiteQueue := ⟨start, start, 0, []⟩

/-- The SQU after a reset (R39, R42, R51, R53, R58); there is no site table until the load has ended (R37). -/
def Squ.reset : Squ where
  valid := fill 8 false
  queues := fill 8 (SiteQueue.empty 0)
  staging := fill 8 none
  refusals := fill 8 0
  faults := fill 8 0
  ready := fill 8 none
  abortWait := fill 8 false
  lastServed := fill 4 none
  budgets := fill 4 0

/-- A FREE entry; its other fields carry no meaning (R59). -/
def NetEntry.free : NetEntry where
  state := .free
  site := 0
  net := 0
  role := .participant
  anchor := 0
  request := .any
  resource := none
  pins := []
  peers := []
  awaited := []
  hot := false
  verify := false
  quiet := false
  monitor := .off
  monitorOffPending := false
  releasePending := none
  deadline := none
  reason := none
  reasonRelay := none
  reported := false
  winding := false

/-- The NE after a power-on reset or a cold pin reset (R60). -/
def Ne.reset : Ne := ⟨fill 64 NetEntry.free, fill 32 none, fill 64 none, fill 64 none, fill 8 none⟩

/-- A cleared view entry with no cooling mark (R84). -/
def ViewEntry.cleared : ViewEntry := ⟨none, none, false, 0, false, none⟩

/-- The RCU after a power-on reset or a cold pin reset (R84, R85, R102). -/
def Rcu.reset : Rcu where
  view := fill 17 ViewEntry.cleared
  holdings := fill 17 none
  unconfirmed := fill 17 false
  failures := 0
  beaconOwed := false
  beaconSent := false
  claims := fill 64 none
  releases := fill 17 false

/-- The ILU after each of the three resets (R132). -/
def Ilu.reset : Ilu := ⟨fill 64 none⟩

/-- The WSU after each of the three resets, with no meter until the load has ended (R111, R129). -/
def Wsu.reset : Wsu := ⟨[], [], [], none, none, false, [], []⟩

/-- A relay record after a power-on reset (R10). The marks come with the load; that they stand clear until then is a DESIGN
CHOICE (notes/assumptions/2.md). -/
def RelayRec.reset : RelayRec := ⟨.opening, none, false, false, none⟩

/-- The RM after a power-on reset: not ready (R10). -/
def Rm.reset : Rm := ⟨fill 640 RelayRec.reset, false⟩

/-- The SNU after each of the three resets (R146, R154). -/
def Snu.reset : Snu := ⟨[], none, none, [], [], fill 64 none, none⟩

/-- The WRU after a power-on reset: marks clear, blocks clean; the counts are taken by the load (R156, R160, R161). The zero
they stand at until then, and the store-absent flag clear until block 0 is read, are DESIGN CHOICES (notes/assumptions/2.md). -/
def Wru.reset : Wru := ⟨fill 640 0, fill 40 false, none, false, none, none⟩

/-- The FCU after a power-on reset (R173, R175, R179). -/
def Fcu.reset : Fcu := ⟨none, 0, fill 8 none, none, []⟩

/-- The CFL right after a power-on reset: the load has yet to end. The configuration it shows until then (DESIGN CHOICE, the
defaulted one) and node number 0 (DESIGN CHOICE, the straps) are named in notes/assumptions/2.md and 3.md. -/
def Cfl.reset : Cfl where
  config := Configuration.defaulted
  phase := .loading
  kind := .powerOn
  powerOnLoad := true
  judged := none
  nextBlock := 0
  listen := false
  listenEnd := 0
  firstBeacon := false
  node := 0

/-- The Timebase after a power-on reset (R112). -/
def Tb.reset : Tb := ⟨0, 0⟩

/-- A configuration memory to which nothing has been written (notes/assumptions/4.md). -/
def ConfigMemory.blank : ConfigMemory := ⟨[], fill 40 false⟩

/-- The part right after a power-on reset, with nothing written to its configuration memory and no command waiting. -/
def State.reset : State where
  liu := Liu.reset
  squ := Squ.reset
  ne := Ne.reset
  rcu := Rcu.reset
  ilu := Ilu.reset
  wsu := Wsu.reset
  rm := Rm.reset
  snu := Snu.reset
  wru := Wru.reset
  fcu := Fcu.reset
  cfl := Cfl.reset
  tb := Tb.reset
  memory := ConfigMemory.blank
  free := 0
  pending := []

end Sys2Proof.Machine
end

