-- ==== Sys2Proof/Machine/Ops.lean ====
section
/-! DEFINITION. The operations shared by every block: the passing of time, the frame and block check, the configuration
memory, relay indices and classes, the relay records, the live test, and `Work`, the state of one event under way. -/

namespace Sys2Proof.Machine

/-! ### Time -/

/-- How many multiples of 1000 the Timebase count has taken from its start, seen without its wrap: the count is a multiple of
1000 at 0, 1000, …, 4294967000, and at 0 again after each wrap (R112, R173). -/
def thousands (u : Nat) : Nat := (u / 4294967296) * 4294968 + ((u % 4294967296) / 1000 + 1)

/-- The part after `dt` µs in which nothing happens: the Timebase count and the millisecond count run on through every phase
(R112, R173). The patterns of the instant before are over, and a credit boundary may fall anew. -/
def advance (dt : Nat) (s : State) : State :=
  if dt = 0 then s else
    { s with
      tb := { s.tb with count := later s.tb.count dt }
      fcu := { s.fcu with
        millis := s.fcu.millis
          + BitVec.ofNat 32 (thousands (s.tb.count.toNat + dt) - thousands s.tb.count.toNat) }
      wsu := { s.wsu with creditTaken := false, chain := [] } }

/-- Now: the Timebase count. -/
def State.now (s : State) : Time := s.tb.count

/-- The part takes part in events: no reset lasts and the load has ended. -/
def State.running (s : State) : Bool := decide (s.cfl.phase = .running)

/-! ### The check (R19, R194) -/

/-- One bit fed into the check register: generator x^16 + x^12 + x^5 + 1 (R19). -/
def crcBit (c : BitVec 16) (b : Bool) : BitVec 16 :=
  if (c.msb ^^ b) then (c <<< 1) ^^^ 0x1021#16 else c <<< 1

/-- The bits of a number, most significant first (R18). -/
def bitsOf (width x : Nat) : List Bool := (List.range width).reverse.map (fun i => x.testBit i)

/-- The bits of some bytes in line order (R189). -/
def bytesBits (bs : List Byte) : List Bool := bs.flatMap (fun b => bitsOf 8 b.toNat)

/-- The check register after some bits: set to all ones, with no final inversion (R19). -/
def crc (bits : List Bool) : BitVec 16 := bits.foldl crcBit 0xFFFF#16

/-- The codes of the kinds (R32). -/
def Kind.code : Kind → Fin 16
  | .source => 0 | .abort => 1 | .claim => 2 | .release => 3 | .cancel => 4 | .beacon => 5 | .clear => 6 | .route => 7
  | .unroute => 8 | .monitor => 9 | .fence => 10 | .maint => 11 | .status => 12 | .ready => 13 | .note => 14 | .maintDone => 15

/-- The priority of a kind (R32). -/
def Kind.prio : Kind → Fin 4
  | .source | .abort => 0
  | .claim | .release | .cancel | .beacon | .clear => 1
  | .route | .unroute | .monitor | .fence | .maint => 2
  | .status | .ready | .note | .maintDone => 3

/-- The arbitration value: priority × 1024 + kind × 64 + source node (R18). -/
def arbitration (prio : Fin 4) (kind : Kind) (src : Node) : Nat :=
  prio.val * 1024 + (Kind.code kind).val * 64 + src.val

/-- The arbitration value of a frame. -/
def arbitrationValue (f : Frame) : Nat := arbitration f.prio f.kind f.src

/-- The check of a frame: over its arbitration field, length field and payload (R19). -/
def frameCheck (prio : Fin 4) (kind : Kind) (src : Node) (length : Nat) (payload : List Byte) : BitVec 16 :=
  crc (bitsOf 12 (arbitration prio kind src) ++ bitsOf 4 length ++ bytesBits payload)

/-- The bit times a frame lasts: 42 + 8n for a payload of n bytes (R18). -/
def frameBits (f : Frame) : Nat := 42 + 8 * f.payload.length

/-- The bit times of the shortest frame (R18). -/
def shortestFrame : Nat := 42

/-- The bits of a frame in line order as its sender sends them, `false` driven and `true` released (R17, R18, R19): start,
arbitration, length, payload, check, and the released bits of the objection slot and of the end. -/
def sentBits (f : Frame) (check : BitVec 16) : List Bool :=
  false :: (bitsOf 12 (arbitrationValue f) ++ bitsOf 4 f.payload.length ++ bytesBits f.payload ++ bitsOf 16 check.toNat
    ++ List.replicate 9 true)

/-! ### The configuration memory -/

/-- What a byte of the memory reads as to which nothing has been written (DESIGN CHOICE, notes/assumptions/4.md). -/
def memoryBlank : Byte := 0xFF#8

/-- Memory is in canonical form when its addresses rise strictly and no cell holds what an unlisted address reads as. -/
def Memory.wf : List Host.Cell → Bool
  | [] => true
  | (a, b) :: rest =>
    decide (b ≠ memoryBlank) && (match rest with | [] => true | (a', _) :: _ => decide (a < a')) && Memory.wf rest

/-- The byte at an address. -/
def Memory.read : List Host.Cell → Nat → Byte
  | [], _ => memoryBlank
  | (a, b) :: rest, x => if x = a then b else if x < a then memoryBlank else Memory.read rest x

/-- The memory with one byte written, in canonical form. -/
def Memory.write : List Host.Cell → Nat → Byte → List Host.Cell
  | [], x, v => if v = memoryBlank then [] else [(x, v)]
  | (a, b) :: rest, x, v =>
    if x = a then (if v = memoryBlank then rest else (x, v) :: rest)
    else if x < a then (if v = memoryBlank then (a, b) :: rest else (x, v) :: (a, b) :: rest)
    else (a, b) :: Memory.write rest x v

/-- Consecutive bytes written from an address on. -/
def Memory.writeAll : List Host.Cell → Nat → List Byte → List Host.Cell
  | m, _, [] => m
  | m, x, v :: vs => Memory.writeAll (Memory.write m x v) (x + 1) vs

/-- Consecutive bytes read from an address on. -/
def Memory.readAll (m : List Host.Cell) (x n : Nat) : List Byte := (List.range n).map (fun i => Memory.read m (x + i))

/-- The memory offset of a wear-store block (R194). -/
def blockOffset (b : Nat) : Nat := 256 + 66 * b

/-! ### Relay indices and classes (R2) -/

/-- X(p,t). -/
def relayX (p : Pin) (t : Trunk) : Relay := ⟨p.val * 16 + t.val, by omega⟩

/-- Y(p,l). -/
def relayY (p : Pin) (l : Bus) : Relay := ⟨512 + p.val * 2 + l.val, by omega⟩

/-- A(t). -/
def relayA (t : Trunk) : Relay := ⟨576 + t.val, by omega⟩

/-- S(p). -/
def relayS (p : Pin) : Relay := ⟨592 + p.val, by omega⟩

/-- M(t). -/
def relayM (t : Trunk) : Relay := ⟨624 + t.val, by omega⟩

/-- The class of a relay (section 1.2). -/
def classOf (r : Relay) : RelayClass :=
  if r.val < 576 then .xpt else if r.val < 592 then .tap else if r.val < 624 then .ser else .mon

/-- A crosspoint, X or Y. -/
def isCrosspoint (r : Relay) : Bool := decide (r.val < 576)

/-- The relays of segment t (R3). -/
def segmentRelays (t : Trunk) : List Relay := (List.finRange 32).map (fun p => relayX p t) ++ [relayA t, relayM t]

/-- The relays of local bus l (R3). -/
def busRelays (l : Bus) : List Relay := (List.finRange 32).map (fun p => relayY p l)

/-- The monitor path (R3). -/
def monitorRelays : List Relay := (List.finRange 16).map relayM

/-- The relays of pin line p (R3). -/
def pinRelays (p : Pin) : List Relay :=
  (List.finRange 16).map (fun t => relayX p t) ++ [relayY p 0, relayY p 1, relayS p]

/-- The wear-store block of a relay (R160). -/
def blockOf (r : Relay) : Block := ⟨r.val / 16, by omega⟩

/-- All relay indices, ascending. -/
def allRelays : List Relay := List.finRange 640

/-- The parameters of a relay's class as loaded (R4). -/
def State.classParams (s : State) (r : Relay) : ClassParams := s.cfl.config.params (classOf r)

/-! ### Relay records -/

/-- The record of a relay. -/
def State.relay (s : State) (r : Relay) : RelayRec := look s.rm.relays r

/-- The state with the record of a relay replaced. -/
def State.setRelay (s : State) (r : Relay) (x : RelayRec) : State :=
  { s with rm := { s.rm with relays := put s.rm.relays r x } }

/-- The state with a relay's wear-store block made dirty (R160). -/
def State.dirtyBlock (s : State) (b : Block) : State :=
  { s with wru := { s.wru with dirty := put s.wru.dirty b true } }

/-- Every relay an entry owns that is OPEN loses its owner (R8). -/
def State.dropOpenOwners (s : State) (e : Entry) : State :=
  { s with rm := { s.rm with
      relays := each (fun _ x => if x.owner = some e ∧ x.state = .opened then { x with owner := none } else x) s.rm.relays } }

/-- The unpulsed relays of a discarded wave that are OPEN lose their owner (R8). -/
def State.dropListed (s : State) (rs : List Relay) : State :=
  rs.foldl (fun s r => if (s.relay r).state = .opened then s.setRelay r { s.relay r with owner := none } else s) s

/-- An entry's relays are all OPEN: it owns none that is not (R78). -/
def State.relaysOpen (s : State) (e : Entry) : Bool :=
  s.rm.relays.toList.all (fun x => !(decide (x.owner = some e) && decide (x.state ≠ .opened)))

/-! ### The live test (R130) -/

/-- Trunk t is live: the listen period lasts, or some PRESENT node not MATRIX has flag t in its live mask. -/
def State.live (s : State) (t : Trunk) : Bool :=
  s.cfl.listen || s.liu.roster.toList.any (fun n => n.present && decide (n.kind ≠ .matrix) && n.live.getLsbD t.val)

/-! ### Entries, marks and holdings -/

/-- The net entry at an index. -/
def State.entry (s : State) (e : Entry) : NetEntry := look s.ne.entries e

/-- The state with a net entry replaced. -/
def State.setEntry (s : State) (e : Entry) (x : NetEntry) : State :=
  { s with ne := { s.ne with entries := put s.ne.entries e x } }

/-- The non-FREE entry of a net, the lowest index first (at most one exists, R64). -/
def State.findNet (s : State) (site : Site) (net : NetId) : Option Entry :=
  (List.finRange 64).find? (fun e =>
    let x := s.entry e
    decide (x.state ≠ .free) && decide (x.site = site) && decide (x.net = net))

/-- The resources an entry holds, lowest first (R85). -/
def State.held (s : State) (e : Entry) : List Resource := indices s.rcu.holdings (fun _ h => decide (h = some e))

/-- The entry's CLAIM is on the line (R75). -/
def State.claimOnLine (s : State) (e : Entry) : Bool :=
  match s.liu.own with
  | some o => match o.owed with
    | .claim e' _ => decide (e' = e)
    | _ => false
  | none => false

/-- The code of an entry's resource in a STATUS (R190). -/
def NetResource.code : NetResource → ResCode
  | .trunk t => ⟨t.val, by omega⟩
  | .bus l => ⟨17 + l.val, by omega⟩

/-- A trunk as a resource of the link. -/
def trunkResource (t : Trunk) : Resource := ⟨t.val, by omega⟩

/-- A link resource as a resource code. -/
def resourceCode (r : Resource) : ResCode := ⟨r.val, by omega⟩

/-- The trunk a resource field names. -/
def NetResource.trunk? : NetResource → Option Trunk
  | .trunk t => some t
  | .bus _ => none

/-- The trunk of an entry's net. -/
def NetEntry.trunk (x : NetEntry) : Option Trunk := x.resource.bind NetResource.trunk?

/-- The reasons a refused anchor or a held connect leaves in the reason field (R63). -/
def Reason.isRefusal : Reason → Bool
  | .noTrunk | .noBus | .holdTimeout | .trunkNotPermitted | .trunkReserved => true
  | _ => false

/-- The fault reasons (R78, R60). -/
def Reason.isFault : Reason → Bool
  | .contactFail | .anchorLost | .claimClash | .selfOpen | .resetLostTrunk | .resetInFlight => true
  | _ => false

/-- A DISCONNECT_OUTER entry whose reason is a fault reason is heading to FAULTED (R61). -/
def NetEntry.headingToFaulted (x : NetEntry) : Bool :=
  decide (x.state = .disconnectOuter) && (match x.reason with | some r => r.isFault | none => false)

/-- The entry's reason is a refusal reason, so that it owes no OPENED (R63). -/
def NetEntry.refused (x : NetEntry) : Bool := match x.reason with | some r => r.isRefusal | none => false

/-- The transitional states, which hold back a FENCE (R50, R61). -/
def EntryState.transitional : EntryState → Bool
  | .connected | .faulted | .releaseBlocked | .free => false
  | _ => true

/-- The reason an OPENED carries (R63). -/
def openedReason (r : Option Reason) : Reason :=
  match r with
  | some .cancelled => .cancelled
  | some .hotBreak => .hotBreak
  | some .aborted => .aborted
  | _ => .none

/-! ### Events under way -/

/-- One event under way: the state so far, the waves built at this event that have yet to join the queue (R109), whether a
choice pass is due (R86), and whether the head of the wave queue is to be served (R110). -/
structure Work where
  st : State
  joining : List Wave
  pass : Bool
  serve : Bool

/-- An event that begins in a state. -/
def Work.start (s : State) : Work := ⟨s, [], false, false⟩

/-- An act on the state alone. -/
def Work.upd (f : State → State) (w : Work) : Work := { w with st := f w.st }

/-- The entry at an index, as it stands at this point of the event. -/
def Work.ent (w : Work) (e : Entry) : NetEntry := w.st.entry e

/-- The event with one entry changed. -/
def Work.modEnt (e : Entry) (f : NetEntry → NetEntry) (w : Work) : Work :=
  { w with st := w.st.setEntry e (f (w.st.entry e)) }

/-- The entry leaves its state for another, and a choice pass is due (R86). -/
def Work.setState (e : Entry) (q : EntryState) (w : Work) : Work :=
  { w.modEnt e (fun x => { x with state := q }) with pass := true }

end Sys2Proof.Machine
end

