-- ==== Sys2Proof/Machine/Sense.lean ====
section
/-! DEFINITION. The Sense Unit's operations: sense jobs, the start and end of a sense, steps, admission, marks and discard
(R145–R155). None of them acts on a net entry: the Net Engine acts on the ends they report. -/

namespace Sys2Proof.Machine

/-- The jobs the SNU holds (R146). -/
def Snu.jobs (u : Snu) : Nat := u.queue.length + (if u.sensing.isSome then 1 else 0) + u.stepping.length

/-- One job per crosspoint of a batch, with senses 0 (R147). -/
def batchJobs (e : Entry) (rs : List Relay) : List Job := rs.map (fun r => ⟨r, e, 0, none⟩)

/-- Batches are admitted from the front of the admission list while the front batch fits (R147): `n` is the number of jobs
held. Answers the jobs admitted and the batches that still wait. -/
def admitFrom : Nat → List (Entry × List Relay) → List Job × List (Entry × List Relay)
  | _, [] => ([], [])
  | n, (e, rs) :: rest =>
    if n + rs.length ≤ 64 then
      let (js, left) := admitFrom (n + rs.length) rest
      (batchJobs e rs ++ js, left)
    else ([], (e, rs) :: rest)

/-- Jobs made at their admission join the tail of the queue, and each counts in the record of its entry (R146, R147). -/
def admitJobs (js : List Job) (s : State) : State :=
  { s with snu := { s.snu with
      queue := s.snu.queue ++ js
      verifications := each (fun e v => v.map (fun v =>
        { v with remaining := v.remaining + js.countP (fun j => decide (j.entry = e)) })) s.snu.verifications } }

/-- The admission list is looked at, at an event at which a job ends (R147). -/
def admitWaiting (s : State) : State :=
  let (js, left) := admitFrom s.snu.jobs s.snu.admission
  admitJobs js { s with snu := { s.snu with admission := left } }

/-- The head job is started while no job is in SENSING: the select is shifted with no driver active, and the pulse patterns of
this instant carry it too (R148). -/
def startSense (s : State) : State :=
  match s.snu.sensing, s.snu.queue with
  | none, j :: rest =>
    { s with
      snu := { s.snu with queue := rest, sensing := some j, senseEnd := some (later s.now 20) }
      wsu := { s.wsu with
        chain := s.wsu.chain.map (fun p => { p with select := some j.relay }) ++ [⟨none, some j.relay⟩] } }
  | _, _ => s

/-- The entry's verification record is made, with no job and nothing SUSPECT (R146). -/
def openVerification (e : Entry) (s : State) : State :=
  { s with snu := { s.snu with verifications := put s.snu.verifications e (some ⟨0, [], false⟩) } }

/-- A batch joins the tail of the admission list (R147). -/
def waitAdmission (e : Entry) (rs : List Relay) (s : State) : State :=
  { s with snu := { s.snu with admission := s.snu.admission ++ [(e, rs)] } }

/-- A batch is handed over: it is admitted where it fits and no earlier batch waits, and joins the admission list otherwise
(R145–R148). -/
def handOver (e : Entry) (rs : List Relay) (s : State) : State :=
  if s.snu.admission = [] ∧ s.snu.jobs + rs.length ≤ 64 then startSense (admitJobs (batchJobs e rs) (openVerification e s))
  else waitAdmission e rs (openVerification e s)

/-- The sense select field of a pattern, most significant bit first: the relay named, or, while no sense is in progress, a free
value (R148, notes/assumptions/39.md). -/
def ChainPattern.selectBits (p : ChainPattern) (at_ : Time) : List Bool :=
  match p.select with
  | some r => bitsOf 10 r.val
  | none => bitsOf 10 (Config.idleSelect at_).toNat

/-- The 1290 positions of a pattern in chain order, `true` active: 1280 drivers and the sense select field (R9, R148). -/
def ChainPattern.positions (p : ChainPattern) (at_ : Time) : List Bool :=
  (List.finRange 1280).map (fun i => decide (p.driver = some i)) ++ p.selectBits at_

/-- The re-sense step (R149). -/
def State.senseStep (s : State) : Nat := (s.cfl.config.xpt.operate + 3) / 4

/-- A relay takes SLOW or SUSPECT; a change of a mark dirties its block (R150). -/
def markRelay (r : Relay) (f : RelayRec → RelayRec) (s : State) : State :=
  if f (s.relay r) = s.relay r then s else (s.setRelay r (f (s.relay r))).dirtyBlock (blockOf r)

/-- A suspect crosspoint joins a list in ascending order. -/
def insertRelay (r : Relay) : List Relay → List Relay
  | [] => [r]
  | a :: rest => if r = a then a :: rest else if r < a then r :: a :: rest else a :: insertRelay r rest

/-- How a sense leaves its job (R149, R153). -/
inductive JobEnd where
  | passed | slow | suspect | stepping | dropped
deriving DecidableEq, Repr

/-- The outcome of a sense by its level, the senses made with it, and whether the verification was discarded. -/
def jobEnd (high : Bool) (senses : Nat) (discarded : Bool) : JobEnd :=
  if high then (if senses ≤ 1 then .passed else .slow)
  else if 4 ≤ senses then .suspect
  else if discarded then .dropped else .stepping

/-- The entry's record with one job ended. -/
def endJob (e : Entry) (r : Relay) (how : JobEnd) (s : State) : State :=
  match look s.snu.verifications e with
  | none => s
  | some v =>
    let v' : Verification := { v with
      remaining := v.remaining - 1
      suspects := if how = .suspect then insertRelay r v.suspects else v.suspects }
    { s with snu := { s.snu with verifications := put s.snu.verifications e (some v') } }

/-- The mark a job sets when it ends (R150). -/
def jobMark (r : Relay) (how : JobEnd) (s : State) : State :=
  match how with
  | .slow => markRelay r (fun x => { x with slow := true }) s
  | .suspect => markRelay r (fun x => { x with suspect := true }) s
  | _ => s

/-- The job in SENSING takes the outcome of its sense and leaves SENSING; the next head is started (R148, R149). -/
def finishSense (high : Bool) (j : Job) (s : State) : State :=
  let n := j.senses + 1
  let discarded := match look s.snu.verifications j.entry with | some v => v.discard | none => false
  let how := jobEnd high n discarded
  let s : State := { s with snu := { s.snu with sensing := none, senseEnd := none } }
  let s := match how with
    | .stepping => { s with snu := { s.snu with
        stepping := s.snu.stepping ++ [{ j with senses := n, stepEnd := some (later s.now s.senseStep) }] } }
    | _ => admitWaiting (endJob j.entry j.relay how (jobMark j.relay how s))
  startSense s

/-- The entry's verification has ended: its last job has, and its batch does not wait for admission (R147, R152). -/
def State.verified (s : State) (e : Entry) : Bool :=
  match look s.snu.verifications e with
  | some v => decide (v.remaining = 0) && !s.snu.admission.any (fun b => decide (b.1 = e))
  | none => false

/-- The crosspoints the entry's verification marked SUSPECT. -/
def State.suspects (s : State) (e : Entry) : List Relay :=
  match look s.snu.verifications e with
  | some v => v.suspects
  | none => []

/-- The entry's verification record is removed at its report (R152). -/
def dropVerification (e : Entry) (s : State) : State :=
  { s with snu := { s.snu with verifications := put s.snu.verifications e none } }

/-- The entry is being verified: its record stands. -/
def State.verifying (s : State) (e : Entry) : Bool := (look s.snu.verifications e).isSome

/-- A job of the entry is in SENSING. -/
def State.sensingOf (s : State) (e : Entry) : Bool :=
  match s.snu.sensing with
  | some j => decide (j.entry = e)
  | none => false

/-- The entry has a job in the queue or in STEPPING. -/
def State.jobsOf (s : State) (e : Entry) : Bool := (s.snu.queue ++ s.snu.stepping).any (fun j => decide (j.entry = e))

/-- The end of the sense in progress is reached (R148). -/
def State.senseReached (s : State) : Bool :=
  match s.snu.senseEnd with
  | some t => reached s.now t
  | none => false

/-- The sense of the entry's job in SENSING ends at this instant. -/
def State.lastSense (s : State) (e : Entry) : Bool := s.sensingOf e && s.senseReached

/-- The entry's job whose sense has ended leaves SENSING, its sample still to come with SENSE_END (R153). -/
def leaveSensing (e : Entry) (s : State) : State :=
  if s.lastSense e then
    { s with snu := { s.snu with sensing := none, senseEnd := none, ended := s.snu.sensing } }
  else s

/-- The entry's jobs but the one in SENSING, and its waiting batch, are gone; the record goes with them, or counts the one job that
is left and is marked discarded (R153). -/
def dropJobs (e : Entry) (v : Verification) (s : State) : State :=
  { s with snu := { s.snu with
      queue := s.snu.queue.filter (fun j => decide (j.entry ≠ e))
      stepping := s.snu.stepping.filter (fun j => decide (j.entry ≠ e))
      admission := s.snu.admission.filter (fun b => decide (b.1 ≠ e))
      verifications := put s.snu.verifications e
        (if s.sensingOf e then some { v with remaining := 1, discard := true } else none) } }

/-- The SNU discards an entry's verification (R153): waiting, queued and stepping jobs go, a job in SENSING completes its sense,
unless that has ended at this instant; where nothing of the entry is in SENSING the verification ends at this event. Where a job
ended, its place counts for admission (R147). A second discard changes nothing. -/
def discardVerification (e : Entry) (s : State) : State :=
  match look s.snu.verifications e with
  | none => s
  | some v =>
    if v.discard then s
    else if s.jobsOf e || s.lastSense e then startSense (admitWaiting (dropJobs e v (leaveSensing e s)))
    else dropJobs e v s

/-- The sample of a sense that had ended when its entry's verification was discarded: the mark it sets stands, and any other
failure ends with no mark (R153). -/
def sampleEnded (high : Bool) (j : Job) (s : State) : State :=
  jobMark j.relay (jobEnd high (j.senses + 1) true) { s with snu := { s.snu with ended := none } }

/-- A job into a list in ascending relay index. -/
def insertJob (j : Job) : List Job → List Job
  | [] => [j]
  | a :: rest => if j.relay ≤ a.relay then j :: a :: rest else a :: insertJob j rest

/-- The jobs whose step end is reached rejoin the tail of the queue in ascending relay index (R149, R151). -/
def finishSteps (s : State) : State :=
  let due := fun (j : Job) => match j.stepEnd with | some t => reached s.now t | none => false
  let back := ((s.snu.stepping.filter due).foldr insertJob []).map (fun j => { j with stepEnd := none })
  startSense { s with snu := { s.snu with
    queue := s.snu.queue ++ back
    stepping := s.snu.stepping.filter (fun j => !due j) } }

/-- A step end is reached. -/
def State.stepDue (s : State) : Bool :=
  s.snu.stepping.any (fun j => match j.stepEnd with | some t => reached s.now t | none => false)

end Sys2Proof.Machine
end

