-- ==== Sys2Proof/Machine/Flags.lean ====
section
/-! DEFINITION. The part's flags: captures and the first-fault record with FAULT_N (R171–R174), pending notes (R178), the
refusal and fault counts (R51), and the owed marks of STATUS, CANCEL, READY and MAINT_DONE (R53, R62). -/

namespace Sys2Proof.Machine

/-! ### Captures (R171–R174) -/

/-- The causes that qualify under the capture mode SEVERE (R172). -/
def Cause.severe : Cause → Bool
  | .contactFail | .claimClash | .selfOpen | .hotBreak | .releaseBlocked | .duplicateNode => true
  | .anchorLost | .resetInFlight | .resetLostTrunk | .muted => false

/-- A capture qualifies under the capture mode in force (R172). -/
def qualifies (severe : Bool) (c : Capture) : Bool := !severe || c.cause.severe

/-- A capture judged against the record (R173): it fills an EMPTY record, or raises the count of a FULL one. -/
def judgeCapture (severe : Bool) (c : Capture) (f : Fcu) : Fcu :=
  if qualifies severe c then
    match f.record with
    | none => { f with record := some ⟨c, f.millis, 1⟩ }
    | some r => { f with record := some { r with count := min 255 (r.count + 1) } }
  else f

/-- A capture that reaches the FCU: held from a reset until its load has ended, judged at once otherwise (R171). -/
def capture (c : Capture) (s : State) : State :=
  if s.running then { s with fcu := judgeCapture s.cfl.config.severe c s.fcu }
  else { s with fcu := { s.fcu with held := s.fcu.held ++ [c] } }

/-- FAULT_N is driven low while the first-fault record is FULL (R174). -/
def State.faultDriven (s : State) : Bool := s.fcu.record.isSome

/-! ### Notes (R178) -/

/-- The frame on the line was made from this mark, and the mark is set anew (R179, R62). -/
def State.renew (m : Owed) (s : State) : State :=
  match s.liu.own with
  | some o => if o.owed = m then { s with liu := { s.liu with own := some { o with renewed := true } } } else s
  | none => s

/-- The note causes by their codes (R178, R190). -/
def noteDuplicateNode : Fin 8 := 0
def noteStoreAbsent : Fin 8 := 1
def noteConfigDefaulted : Fin 8 := 2
def noteConfigClamped : Fin 8 := 3
def noteWearBlockLost : Fin 8 := 4
def noteSelfOpen : Fin 8 := 5
def noteWearLimit : Fin 8 := 6
def noteMutedLeft : Fin 8 := 7

/-- A note cause becomes pending with a detail, or takes the newer detail (R178). -/
def pendNote (c : Fin 8) (detail : BitVec 16) (s : State) : State :=
  ({ s with fcu := { s.fcu with notes := put s.fcu.notes c (some detail) } } : State).renew (.note c)

/-- A DUPLICATE_NODE capture, which also makes its note pending in any capture mode (R171, R178). -/
def captureDuplicate (k : Kind) (s : State) : State :=
  pendNote noteDuplicateNode (BitVec.ofNat 16 (Kind.code k).val) (capture ⟨.duplicateNode, none, none, none, some k⟩ s)

/-- A capture with an entry's site and net (R171). -/
def captureEntry (c : Cause) (x : NetEntry) (res : Option ResCode) (relay : Option Relay) (s : State) : State :=
  capture ⟨c, some (x.site, x.net), res, relay, none⟩ s

/-! ### Site counts (R51) -/

/-- The site's refusal count rises by one, and stays at 255. -/
def countRefusal (site : Site) (s : State) : State :=
  { s with squ := { s.squ with refusals := put s.squ.refusals site (min 255 (look s.squ.refusals site + 1)) } }

/-- The site's fault count rises by one, and stays at 255. -/
def countFault (site : Site) (s : State) : State :=
  { s with squ := { s.squ with faults := put s.squ.faults site (min 255 (look s.squ.faults site + 1)) } }

/-- The count that a STATUS raises when it becomes owed (R51, R62). -/
def countReport (r : Report) (s : State) : State :=
  match r.outcome with
  | .refused => countRefusal r.site s
  | .fault => countFault r.site s
  | _ => s

/-! ### STATUS, CANCEL and READY marks (R53, R62) -/

/-- A STATUS becomes owed in the mark of an index; a newer one replaces an unsent one (R62). -/
def owe (e : Entry) (r : Report) (s : State) : State :=
  (countReport r { s with ne := { s.ne with status := put s.ne.status e (some r) } }).renew (.status e)

/-- A STATUS becomes owed in the site mark (R62). -/
def oweSite (r : Report) (s : State) : State :=
  (countReport r { s with ne := { s.ne with siteStatus := put s.ne.siteStatus r.site (some r) } }).renew (.siteStatus r.site)

/-- A STATUS of an entry with its resource field and no relay (R63). -/
def oweEntry (e : Entry) (o : StatusOutcome) (reason : Reason) (s : State) : State :=
  let x := s.entry e
  owe e ⟨x.site, x.net, o, reason, x.resource.map NetResource.code, none⟩ s

/-- The entry's REFUSED, which an entry whose reason is ABORTED does not owe (R63, R139). -/
def oweRefused (e : Entry) (reason : Reason) (s : State) : State :=
  if (s.entry e).reason = some .aborted then s else oweEntry e .refused reason s

/-- The entry's OPENED, with the reason it carries (R63). -/
def oweOpened (e : Entry) (s : State) : State := oweEntry e .opened (openedReason (s.entry e).reason) s

/-- MONITOR_ON or MONITOR_OFF of an entry, with the net's trunk (R63). -/
def oweMonitor (e : Entry) (o : StatusOutcome) (reason : Reason) (s : State) : State :=
  let x := s.entry e
  owe e ⟨x.site, x.net, o, reason, x.trunk.map (fun t => (NetResource.trunk t).code), none⟩ s

/-- CANCEL becomes owed for an entry's net (R62, R75). -/
def oweCancel (e : Entry) (s : State) : State :=
  let x := s.entry e
  ({ s with ne := { s.ne with cancel := put s.ne.cancel e (some (x.site, x.net)) } } : State).renew (.cancel e)

/-- READY becomes owed for a site with a token and a nets-held count; the counts it carries restart at 0 (R50, R51, R53). -/
def oweReady (site : Site) (token held : Nat) (s : State) : State :=
  ({ s with squ := { s.squ with
      ready := put s.squ.ready site (some ⟨token, held, look s.squ.refusals site, look s.squ.faults site⟩)
      refusals := put s.squ.refusals site 0
      faults := put s.squ.faults site 0 } } : State).renew (.ready site)

/-- How many entries of a site meet a test on their state. -/
def State.countEntries (s : State) (site : Site) (p : EntryState → Bool) : Nat :=
  (s.ne.entries.toList.filter (fun x => decide (x.site = site) && p x.state)).length

/-- The moment of R52 and R143: a site whose READY 255 waits has no entry but FREE and RELEASE_BLOCKED ones. -/
def abortReady (site : Site) (s : State) : State :=
  if look s.squ.abortWait site
      ∧ s.countEntries site (fun q => decide (q ≠ .free) && decide (q ≠ .releaseBlocked)) = 0 then
    oweReady site 255 (s.countEntries site (fun q => decide (q = .releaseBlocked)))
      { s with squ := { s.squ with abortWait := put s.squ.abortWait site false } }
  else s

/-- The card owes a MAINT_DONE in any of its three marks (R24, R161, R175). -/
def State.maintOwed (s : State) : Bool := s.wru.answer.isSome || s.wru.saveEnd.isSome || s.fcu.answer.isSome

/-! ### READ_FAULT and CLEAR_FAULT (R176, R177) -/

/-- READ_FAULT: an answer fixed from the record as it stands. -/
def readFault (s : State) : State :=
  { s with fcu := { s.fcu with answer := some (match s.fcu.record with
    | some r => .readFault r
    | none => .readFaultEmpty) } }

/-- The occurrence count the record holds, 0 when it is EMPTY (R177). -/
def Fcu.occurrences (f : Fcu) : Nat :=
  match f.record with
  | some r => r.count
  | none => 0

/-- CLEAR_FAULT: the record is emptied, and the answer carries the count it held. -/
def clearFault (s : State) : State :=
  { s with fcu := { s.fcu with answer := some (.clearFault s.fcu.occurrences), record := none } }

end Sys2Proof.Machine
end

