-- ==== Sys2Proof/Machine/Operands.lean ====
section
/-! DEFINITION. The payload layouts of the sixteen frame kinds (R190–R192): reading a heard frame into a message, with every
test that makes it malformed (R27), and writing the payload of each frame the part sends. -/

namespace Sys2Proof.Machine

/-! ### Reading -/

/-- The MAINT operations with their arguments (R190, R191). -/
inductive MaintOp where
  | saveWear
  | readWear (relay : Nat)
  | clearMarks (first last : Nat)
  | readFault
  | clearFault
deriving DecidableEq, Repr

/-- What a well-formed frame says. -/
inductive Msg where
  | source (t : Trunk) (live : Bool)
  | abort (s : Site)
  | claim (r : Resource) (s : Site) (n : NetId)
  | release (r : Resource) (s : Site) (n : NetId)
  | cancel (s : Site) (n : NetId)
  | beacon (k : NodeKind) (held : BitVec 24) (live : BitVec 16)
  | clear (r : Resource)
  | route (s : Site) (more : Bool) (flags : RouteFlags) (q : Request) (n : NetId) (ends : List (Node × Pin))
  | unroute (s : Site) (n : NetId)
  | monitor (s : Site) (n : NetId) (on : Bool)
  | fence (s : Site) (token : Fin 255)
  | maint (target : Node) (op : MaintOp)
  | status (s : Site) (n : NetId) (o : StatusOutcome)
  | ready
  | note
  | maintDone
deriving DecidableEq, Repr

/-- A byte of a payload as a number. -/
def byteAt (p : List Byte) (i : Nat) : Nat := (p.getD i 0#8).toNat

/-- Two bytes of a payload, most significant first (R189). -/
def wordAt (p : List Byte) (i : Nat) : Nat := byteAt p i * 256 + byteAt p (i + 1)

/-- Three bytes of a payload, most significant first (R189). -/
def tripleAt (p : List Byte) (i : Nat) : Nat := byteAt p i * 65536 + wordAt p (i + 1)

/-- The value when the test holds. -/
def guarded {α : Type} (c : Bool) (x : Option α) : Option α := if c then x else none

/-- A site field and the net field after it. -/
def siteNetAt (p : List Byte) (i : Nat) : Option (Site × NetId) :=
  (inRange 8 (byteAt p i)).bind fun s => (inRange 4096 (wordAt p (i + 1))).map fun n => (s, n)

/-- The resource request of a ROUTE (R190). -/
def requestOf (x : Nat) : Option Request :=
  if x = 16 then some .any else if x = 17 then some .localBus else (inRange 16 x).map .trunk

/-- The node kind of a BEACON (R190). -/
def nodeKindOf (x : Nat) : Option NodeKind :=
  match x with
  | 0 => some .matrix
  | 1 => some .sequencer
  | 2 => some .instrument
  | _ => none

/-- The outcome of a STATUS (R190). -/
def outcomeOf (x : Nat) : Option StatusOutcome :=
  match x with
  | 0 => some .connected
  | 1 => some .opened
  | 2 => some .refused
  | 3 => some .fault
  | 4 => some .monitorOn
  | 5 => some .monitorOff
  | _ => none

/-- The MAINT operation of a payload (R191): no argument is tested here. -/
def maintOpOf (p : List Byte) : Option MaintOp :=
  match byteAt p 1 with
  | 1 => some .saveWear
  | 2 => some (.readWear (wordAt p 2))
  | 3 => some (.clearMarks (wordAt p 2) (wordAt p 4))
  | 4 => some .readFault
  | 5 => some .clearFault
  | _ => none

/-- The n endpoints of a ROUTE from byte i on (R191). -/
def endpointsAt (p : List Byte) : Nat → Nat → Option (List (Node × Pin))
  | 0, _ => some []
  | n + 1, i =>
    (inRange 64 (byteAt p i)).bind fun node => (inRange 32 (byteAt p (i + 1))).bind fun pin =>
      (endpointsAt p n (i + 2)).map fun rest => (node, pin) :: rest

/-- A resource code of STATUS and READ_FAULT: 0–18, or 31 for none (R190). -/
def codeOk (x : Nat) : Bool := decide (x ≤ 18) || decide (x = 31)

/-- The ten bytes of READ_FAULT DONE hold values in their ranges (R192). -/
def faultDataOk (p : List Byte) : Bool :=
  let cause := byteAt p 2 / 16
  let kind := byteAt p 2 % 16
  let net := wordAt p 3
  let res := wordAt p 5
  decide (cause ≤ 9) && (decide (kind = 0) || decide (cause = 8)) && (decide (32768 ≤ net) || decide (net = 0))
    && codeOk (res % 32768 / 1024)
    && (if 32768 ≤ res then decide (res % 1024 ≤ 639) else decide (res % 1024 = 0)) && decide (1 ≤ byteAt p 11)

/-- A MAINT_DONE payload is one of the pairs of R192 with its data length and ranges. -/
def maintDoneOk (p : List Byte) : Bool :=
  match byteAt p 0, byteAt p 1, p.length with
  | 1, 0, 3 => decide (byteAt p 2 ≤ 40)
  | 1, 1, 3 => decide (byteAt p 2 ≤ 40)
  | 1, 2, 4 => decide (byteAt p 2 ≤ 40) && (decide (byteAt p 3 ≤ 39) || decide (byteAt p 3 = 255))
  | 1, 3, 2 => true
  | 2, 1, 8 => decide (wordAt p 2 ≤ 639) && decide (byteAt p 7 ≤ 3)
  | 2, 4, 2 => true
  | 3, 4, 2 => true
  | 3, 1, 2 => true
  | 4, 1, 12 => faultDataOk p
  | 4, 5, 2 => true
  | 5, 1, 3 => true
  | _, _, _ => false

/-- The message of a payload of a kind, or none where the length or a field makes it malformed (R27, R191). -/
def parsePayload (k : Kind) (p : List Byte) : Option Msg :=
  match k with
  | .source => guarded (decide (p.length = 2) && decide (byteAt p 1 ≤ 1))
      ((inRange 16 (byteAt p 0)).map fun t => .source t (decide (byteAt p 1 = 1)))
  | .abort => guarded (decide (p.length = 1)) ((inRange 8 (byteAt p 0)).map .abort)
  | .claim => guarded (decide (p.length = 4))
      ((inRange 17 (byteAt p 0)).bind fun r => (siteNetAt p 1).map fun sn => .claim r sn.1 sn.2)
  | .release => guarded (decide (p.length = 4))
      ((inRange 17 (byteAt p 0)).bind fun r => (siteNetAt p 1).map fun sn => .release r sn.1 sn.2)
  | .cancel => guarded (decide (p.length = 3)) ((siteNetAt p 0).map fun sn => .cancel sn.1 sn.2)
  | .beacon => guarded (decide (p.length = 6) && decide (tripleAt p 1 < 131072))
      ((nodeKindOf (byteAt p 0)).map fun k => .beacon k (BitVec.ofNat 24 (tripleAt p 1)) (BitVec.ofNat 16 (wordAt p 4)))
  | .clear => guarded (decide (p.length = 1)) ((inRange 17 (byteAt p 0)).map .clear)
  | .route => guarded (decide (p.length = 6) || decide (p.length = 8) || decide (p.length = 10) || decide (p.length = 12))
      ((inRange 8 (byteAt p 0 / 16)).bind fun s => (requestOf (byteAt p 1)).bind fun q =>
        (inRange 4096 (wordAt p 2)).bind fun n => (endpointsAt p ((p.length - 4) / 2) 4).map fun ends =>
          .route s ((byteAt p 0).testBit 3) ⟨(byteAt p 0).testBit 2, (byteAt p 0).testBit 1, (byteAt p 0).testBit 0⟩ q n ends)
  | .unroute => guarded (decide (p.length = 3)) ((siteNetAt p 0).map fun sn => .unroute sn.1 sn.2)
  | .monitor => guarded (decide (p.length = 4) && decide (byteAt p 3 ≤ 1))
      ((siteNetAt p 0).map fun sn => .monitor sn.1 sn.2 (decide (byteAt p 3 = 1)))
  | .fence => guarded (decide (p.length = 2))
      ((inRange 8 (byteAt p 0)).bind fun s => (inRange 255 (byteAt p 1)).map fun t => .fence s t)
  | .maint => guarded (decide (p.length = 6))
      ((inRange 64 (byteAt p 0)).bind fun n => (maintOpOf p).map fun op => .maint n op)
  | .status => guarded (decide (p.length = 8) && decide (byteAt p 4 ≤ 24) && codeOk (byteAt p 5)
        && (decide (wordAt p 6 ≤ 639) || decide (wordAt p 6 = 65535)))
      ((siteNetAt p 0).bind fun sn => (outcomeOf (byteAt p 3)).map fun o => .status sn.1 sn.2 o)
  | .ready => guarded (decide (p.length = 5) && decide (byteAt p 0 ≤ 7) && decide (byteAt p 2 ≤ 64)) (some .ready)
  | .note => guarded (decide (p.length = 3) && decide (byteAt p 0 ≤ 7)) (some .note)
  | .maintDone => guarded (maintDoneOk p) (some .maintDone)

/-- The message of a delivered frame, or none for a malformed one (R27): its priority must be its kind's. -/
def parse (f : Frame) : Option Msg := guarded (decide (f.prio = Kind.prio f.kind)) (parsePayload f.kind f.payload)

/-! ### Writing -/

/-- A number as one byte. -/
def byte (x : Nat) : Byte := BitVec.ofNat 8 x

/-- A number as two bytes, most significant first. -/
def bytes2 (x : Nat) : List Byte := [byte (x / 256), byte x]

/-- A number as three bytes, most significant first. -/
def bytes3 (x : Nat) : List Byte := [byte (x / 65536), byte (x / 256), byte x]

/-- A number as four bytes, most significant first. -/
def bytes4 (x : Nat) : List Byte := [byte (x / 16777216), byte (x / 65536), byte (x / 256), byte x]

/-- Site and net as they stand in a payload. -/
def siteNetBytes (s : Site) (n : NetId) : List Byte := byte s.val :: bytes2 n.val

/-- The outcome codes (R190). -/
def StatusOutcome.code : StatusOutcome → Nat
  | .connected => 0 | .opened => 1 | .refused => 2 | .fault => 3 | .monitorOn => 4 | .monitorOff => 5

/-- The reason codes (R190). -/
def Reason.code : Reason → Nat
  | .none => 0 | .siteInvalid => 1 | .badRoute => 2 | .netExists => 3 | .pinBusy => 4 | .relaySuspect => 5
  | .segmentBusy => 6 | .trunkNotPermitted => 7 | .trunkReserved => 8 | .noTrunk => 9 | .noBus => 10
  | .anchorSilent => 11 | .holdTimeout => 12 | .incomplete => 13 | .contactFail => 14 | .anchorLost => 15
  | .selfOpen => 16 | .claimClash => 17 | .resetInFlight => 18 | .resetLostTrunk => 19 | .hotBreak => 20
  | .aborted => 21 | .cancelled => 22 | .notConnected => 23 | .monBusy => 24

/-- The capture cause codes (R190). -/
def Cause.code : Cause → Nat
  | .contactFail => 0 | .anchorLost => 1 | .resetInFlight => 2 | .resetLostTrunk => 3 | .claimClash => 4
  | .selfOpen => 5 | .hotBreak => 6 | .releaseBlocked => 7 | .duplicateNode => 8 | .muted => 9

/-- A resource code byte, 31 for none (R190). -/
def codeByte (r : Option ResCode) : Nat := match r with | some c => c.val | none => 31

/-- The payload of a STATUS (R191). -/
def statusPayload (r : Report) : List Byte :=
  siteNetBytes r.site r.net ++ [byte r.outcome.code, byte r.reason.code, byte (codeByte r.resource)]
    ++ bytes2 (match r.relay with | some x => x.val | none => 65535)

/-- The payload of a READY (R191). -/
def readyPayload (s : Site) (m : ReadyMark) : List Byte :=
  [byte s.val, byte m.token, byte m.held, byte m.refusals, byte m.faults]

/-- A held mask as its 24-bit value, bit r for resource r (R191). -/
def heldMask (held : Table 17 (Option Entry)) : Nat :=
  (List.finRange 17).foldl (fun acc r => if (look held r).isSome then acc + 2 ^ r.val else acc) 0

/-- The payload of the part's own BEACON: kind MATRIX and an empty live mask (R32, R101). -/
def beaconPayload (held : Table 17 (Option Entry)) : List Byte := byte 0 :: bytes3 (heldMask held) ++ bytes2 0

/-- The ten data bytes of READ_FAULT DONE (R192). -/
def faultData (r : FaultRecord) : List Byte :=
  let kind := match r.capture.kind with | some k => if r.capture.cause = .duplicateNode then (Kind.code k).val else 0 | none => 0
  let net := match r.capture.net with | some (s, n) => 32768 + s.val * 4096 + n.val | none => 0
  let res := (match r.capture.relay with | some x => 32768 + x.val | none => 0) + codeByte r.capture.resource * 1024
  byte (r.capture.cause.code * 16 + kind) :: bytes2 net ++ bytes2 res ++ bytes4 r.time.toNat ++ [byte r.count]

/-- The payload of a MAINT_DONE of the part: operation, result and data (R190, R192). -/
def maintPayload : MaintAnswer → List Byte
  | .saveStarted n => [byte 1, byte 0, byte n]
  | .saveDone n => [byte 1, byte 1, byte n]
  | .saveFailed n b => [byte 1, byte 2, byte n, byte (match b with | some x => x.val | none => 255)]
  | .saveBusy => [byte 1, byte 3]
  | .readWear r c slow suspect =>
      [byte 2, byte 1] ++ bytes2 r.val ++ bytes3 c ++ [byte ((if slow then 1 else 0) + (if suspect then 2 else 0))]
  | .readWearBadArg => [byte 2, byte 4]
  | .clearMarksBadArg => [byte 3, byte 4]
  | .clearMarksDone => [byte 3, byte 1]
  | .readFault r => [byte 4, byte 1] ++ faultData r
  | .readFaultEmpty => [byte 4, byte 5]
  | .clearFault n => [byte 5, byte 1, byte n]

/-- A frame of the part: its kind's priority and its own node number (R32, R189). -/
def ownFrame (node : Node) (k : Kind) (payload : List Byte) : Frame := ⟨Kind.prio k, k, node, payload⟩

end Sys2Proof.Machine
end

