-- ==== Sys2Proof/Machine/Wear.lean ====
section
/-! DEFINITION. The Wear Unit's operations: counting pulses (R157–R159), wear-store blocks as bytes (R194), the save walk
(R162–R166), the load of the store (R167, R168), and the answers to READ_WEAR and CLEAR_MARKS (R169, R170). -/

namespace Sys2Proof.Machine

/-- The kind with which a pulse is reported (R117). -/
inductive PulseKind where
  | cold | hot | sweep | recovery
deriving DecidableEq, Repr

/-- The largest wear count (R156). -/
def wearMax : Nat := 16777215

/-- The weight of a pulse by its kind and direction (R157). -/
def pulseWeight : PulseKind → Bool → Nat
  | .cold, closing => if closing then 1 else 0
  | .hot, _ => 8
  | .sweep, _ => 0
  | .recovery, _ => 8

/-- The count after a pulse of a weight, saturating (R157). -/
def wornCount (count weight : Nat) : Nat := min wearMax (count + weight)

/-- The WRU takes a pulse report: the weight is added, a changed count dirties the block, and a count that reaches its class
life limit hands WEAR_LIMIT to the FCU (R157, R159, R160). -/
def addWear (r : Relay) (closing : Bool) (k : PulseKind) (s : State) : State :=
  let before := look s.wru.counts r
  let after := wornCount before (pulseWeight k closing)
  if after = before then s
  else
    let s1 : State := ({ s with wru := { s.wru with counts := put s.wru.counts r after } } : State).dirtyBlock (blockOf r)
    if before < (s.classParams r).life ∧ (s.classParams r).life ≤ after then
      pendNote noteWearLimit (BitVec.ofNat 16 r.val) s1
    else s1

/-! ### Blocks as bytes (R194) -/

/-- The marks byte of a relay: bit 0 SLOW, bit 1 SUSPECT, 0 for a relay that is no crosspoint. -/
def marksByte (r : Relay) (x : RelayRec) : Byte :=
  if isCrosspoint r then byte ((if x.slow then 1 else 0) + (if x.suspect then 2 else 0)) else 0#8

/-- Relay i of a block (R160). -/
def blockRelay (b : Block) (i : Fin 16) : Relay := ⟨16 * b.val + i.val, by omega⟩

/-- The 64 bytes of a block's counts and marks. -/
def blockBody (s : State) (b : Block) : List Byte :=
  (List.finRange 16).flatMap (fun i =>
    let r := blockRelay b i
    bytes3 (look s.wru.counts r) ++ [marksByte r (s.relay r)])

/-- A body with its check after it. -/
def withCheck (body : List Byte) : List Byte := body ++ bytes2 (crc (bytesBits body)).toNat

/-- The 66 bytes a save writes of a block. -/
def blockBytes (s : State) (b : Block) : List Byte := withCheck (blockBody s b)

/-- The check of a block as read holds. -/
def blockSound (bytes : List Byte) : Bool := decide ((crc (bytesBits (bytes.take 64))).toNat = wordAt bytes 64)

/-! ### Saving (R162–R166) -/

/-- How many blocks are dirty. -/
def State.dirtyCount (s : State) : Nat := (indices s.wru.dirty (fun _ d => d)).length

/-- The first dirty block at or above a walk position. -/
def State.nextDirty (s : State) (walk : Nat) : Option Block :=
  (List.finRange 40).find? (fun b => decide (walk ≤ b.val) && look s.wru.dirty b)

/-- The walk goes on from its position: the next dirty block's write starts, or the save ends DONE (R163, R165). -/
def saveAdvance (walk written : Nat) (s : State) : State :=
  match s.nextDirty walk with
  | some b =>
    { s with wru := { s.wru with
        save := some ⟨b.val + 1, written, b, s.now, blockBytes s b⟩
        dirty := put s.wru.dirty b false } }
  | none =>
    ({ s with wru := { s.wru with save := none, saveEnd := some (.saveDone written) } } : State).renew .saveEnd

/-- SAVE_WEAR by the save state (R162). -/
def saveWear (s : State) : State :=
  if s.wru.save.isSome then { s with wru := { s.wru with answer := some .saveBusy } }
  else if s.wru.storeAbsent then { s with wru := { s.wru with answer := some (.saveFailed 0 none) } }
  else saveAdvance 0 0 { s with wru := { s.wru with answer := some (.saveStarted s.dirtyCount) } }

/-- The memory with a block's bytes stored. -/
def storeBlock (b : Block) (bytes : List Byte) (m : ConfigMemory) : ConfigMemory :=
  { m with cells := Memory.writeAll m.cells (blockOffset b.val) bytes, torn := put m.torn b false }

/-- The save ends FAILED at a block, which is dirty again (R163, R165). -/
def saveFail (v : Save) (s : State) : State :=
  ({ s with wru := { s.wru with
      save := none
      dirty := put s.wru.dirty v.block true
      saveEnd := some (.saveFailed v.written (some v.block)) } } : State).renew .saveEnd

/-- What a failed write leaves in the memory, by the free value (R165). -/
def residueMemory (x : Residue) (v : Save) (m : ConfigMemory) : ConfigMemory :=
  match x with
  | .stored => storeBlock v.block v.bytes m
  | .kept => m
  | .torn => { m with torn := put m.torn v.block true }

/-- A reset cuts a save in flight short: the transfer is cut, the memory holds a torn copy, and FAILED is owed (R166). -/
def cutSave (s : State) : State :=
  match s.wru.save with
  | none => s
  | some v => { saveFail v s with memory := { s.memory with torn := put s.memory.torn v.block true } }

/-! ### Loading (R167, R168) -/

/-- The relays of a block take counts and marks. -/
def takeBlock (b : Block) (count : Relay → Nat) (slow suspect : Relay → Bool) (s : State) : State :=
  { s with
    wru := { s.wru with counts := each (fun r c => if blockOf r = b then count r else c) s.wru.counts }
    rm := { s.rm with
      relays := each (fun r x => if blockOf r = b then { x with slow := slow r, suspect := suspect r } else x) s.rm.relays } }

/-- Byte i of relay r's four bytes in its block. -/
def storedByte (bytes : List Byte) (r : Relay) (i : Nat) : Nat := byteAt bytes (4 * (r.val % 16) + i)

/-- A block whose check passes gives its stored counts and, for crosspoints, its marks (R167, R194). -/
def takeSound (b : Block) (bytes : List Byte) (s : State) : State :=
  takeBlock b (fun r => tripleAt bytes (4 * (r.val % 16)))
    (fun r => isCrosspoint r && (storedByte bytes r 3).testBit 0)
    (fun r => isCrosspoint r && (storedByte bytes r 3).testBit 1) s

/-- A lost block is taken at its classes' wear thresholds with clear marks (R167). -/
def takeLost (cfg : Configuration) (b : Block) (s : State) : State :=
  takeBlock b (fun r => (cfg.params (classOf r)).threshold) (fun _ => false) (fun _ => false) s

/-- Every count at its class wear threshold and every mark clear: the store is absent (R168). -/
def takeAbsent (cfg : Configuration) (s : State) : State :=
  { s with
    wru := { s.wru with
      counts := each (fun r _ => (cfg.params (classOf r)).threshold) s.wru.counts
      storeAbsent := true }
    rm := { s.rm with relays := each (fun _ x => { x with slow := false, suspect := false }) s.rm.relays } }

/-! ### READ_WEAR and CLEAR_MARKS (R169, R170) -/

/-- READ_WEAR of a relay index. -/
def readWear (i : Nat) (s : State) : State :=
  match inRange 640 i with
  | none => { s with wru := { s.wru with answer := some .readWearBadArg } }
  | some r =>
    { s with wru := { s.wru with
        answer := some (.readWear r (look s.wru.counts r) (s.relay r).slow (s.relay r).suspect) } }

/-- A relay index lies in a range. -/
def inSpan (first last : Nat) (r : Relay) : Bool := decide (first ≤ r.val) && decide (r.val ≤ last)

/-- Marks cleared over a range, its blocks dirty, and the answer owed. -/
def clearSpan (first last : Nat) (s : State) : State :=
  { s with
    rm := { s.rm with
      relays := each (fun r x => if inSpan first last r then { x with slow := false, suspect := false } else x) s.rm.relays }
    wru := { s.wru with
      dirty := each (fun b d => d || (decide (first / 16 ≤ b.val) && decide (b.val ≤ last / 16))) s.wru.dirty
      answer := some .clearMarksDone } }

/-- CLEAR_MARKS over first to last. -/
def clearMarks (first last : Nat) (s : State) : State :=
  if first ≤ last ∧ last ≤ 639 then clearSpan first last s
  else { s with wru := { s.wru with answer := some .clearMarksBadArg } }

/-- Some relay of a range carries SUSPECT. -/
def State.suspectIn (s : State) (first last : Nat) : Bool :=
  allRelays.any (fun r => inSpan first last r && (s.relay r).suspect)

end Sys2Proof.Machine
end

