-- ==== Sys2Proof/Machine/Waves.lean ====
section
/-! DEFINITION. Waves: building one from the relay records (R13, R14, R108), the pulse of one relay (R116, R117, R122, R123),
the settle end of one relay (R8, R124), and the discard of a wave (R121). None of them serves the queue or acts on an entry's
course. -/

namespace Sys2Proof.Machine

/-! ### Building (R13, R14, R108) -/

/-- The relays of a phase of an entry, in the order a wave lists them: M(t) first in an inner disconnect, otherwise ascending. -/
def phaseRelays (x : NetEntry) : Phase → List Relay
  | .innerConnect => match x.resource with
    | some (.trunk t) => x.pins.map (fun p => relayX p t) ++ [relayA t]
    | some (.bus l) => x.pins.map (fun p => relayY p l)
    | none => []
  | .innerDisconnect => match x.resource with
    | some (.trunk t) => relayM t :: x.pins.map (fun p => relayX p t) ++ [relayA t]
    | some (.bus l) => x.pins.map (fun p => relayY p l)
    | none => []
  | .outerConnect | .outerDisconnect => x.pins.map relayS
  | .monitorClose | .monitorOpen => match x.trunk with
    | some t => [relayM t]
    | none => []
  | .sweep | .recovery => []

/-- The phases whose waves close relays. -/
def Phase.closes : Phase → Bool
  | .innerConnect | .outerConnect | .monitorClose => true
  | _ => false

/-- The connect phases, whose holds are CONNECT holds (R132). -/
def Phase.connects : Phase → Bool
  | .innerConnect | .outerConnect => true
  | _ => false

/-- The phases whose waves are queried for a COLD trunk net (R108). -/
def Phase.switches : Phase → Bool
  | .innerConnect | .outerConnect | .outerDisconnect | .innerDisconnect => true
  | _ => false

/-- A new wave record of an entry (R108); every wave an entry builds with reason ABORTED carries the abort mark (R141). A warm
keep that overwrites the reason ends that (DEDUCED, notes/assumptions/47.md). -/
def newWave (e : Entry) (x : NetEntry) (ph : Phase) (rs : List Relay) : Wave where
  owner := .entry e
  phase := ph
  done := []
  todo := rs.map (fun r => (r, ph.closes))
  trunk := x.trunk
  queried := ph.switches && x.trunk.isSome && !x.hot
  forcedHot := false
  abortMark := decide (x.reason = some .aborted)
  settle := none

/-- The entry becomes the owner of the relays of its closing wave (R13). -/
def ownRelays (e : Entry) (rs : List Relay) (s : State) : State :=
  rs.foldl (fun s r => s.setRelay r { s.relay r with owner := some e }) s

/-- The relays a wave of a phase would pulse: for a closing wave the relays of the phase that are OPEN (R13), for an opening
wave those the entry owns in CLOSED (R14). -/
def qualifying (s : State) (e : Entry) (ph : Phase) : List Relay :=
  (phaseRelays (s.entry e) ph).filter (fun r =>
    if ph.closes then decide ((s.relay r).state = .opened)
    else decide ((s.relay r).owner = some e) && decide ((s.relay r).state = .closed))

/-- The relays of an opening phase that the entry owns in OPEN were never pulsed and lose their owner (R14). -/
def unpulsedOwned (s : State) (e : Entry) (ph : Phase) : List Relay :=
  (phaseRelays (s.entry e) ph).filter (fun r =>
    decide ((s.relay r).owner = some e) && decide ((s.relay r).state = .opened))

/-- The NE builds the wave of a phase (R13, R14); it joins the queue with the other waves of the event (R109). -/
def buildWave (e : Entry) (ph : Phase) (w : Work) : Work :=
  let rs := qualifying w.st e ph
  let st := if ph.closes then ownRelays e rs w.st else w.st.dropListed (unpulsedOwned w.st e ph)
  if rs = [] then { w with st := st, pass := true }
  else { w with st := st, pass := true, joining := w.joining ++ [newWave e (w.st.entry e) ph rs] }

/-- A wave of the entry is built and has not settled: in the queue, the held set, the settling set, or about to join; or its
part of the recovery wave has not settled (R109, R128). -/
def Work.inFlight (w : Work) (e : Entry) : Bool :=
  let mine := fun (v : Wave) => decide (v.owner = .entry e)
  w.joining.any mine || w.st.wsu.queue.any mine || w.st.wsu.held.any mine || w.st.wsu.settling.any mine
    || w.st.wsu.recovery.any (fun p => decide (p.2 = e))

/-! ### The pulse (R116, R117, R122, R123) -/

/-- The margin count of a closing pulse: wear at or above the class threshold, and SLOW (R123). -/
def State.margin (s : State) (r : Relay) : Nat :=
  (if (s.classParams r).threshold ≤ look s.wru.counts r then 1 else 0) + (if (s.relay r).slow then 1 else 0)

/-- The settle time of a pulse (R122). -/
def State.settleTime (s : State) (r : Relay) (closing : Bool) : Nat :=
  let c := s.classParams r
  if closing then c.operate + c.bounce + s.margin r * ((c.operate + 3) / 4) else c.release

/-- The kind with which a pulse of a wave is reported (R117). -/
def State.pulseKind (s : State) (v : Wave) : PulseKind :=
  match v.owner with
  | .sweep => .sweep
  | .recovery => .recovery
  | .entry _ => match v.trunk with
    | some t => if s.live t then .hot else .cold
    | none => .cold

/-- The drive position of a pulse: 2i the set driver, 2i + 1 the reset driver (R9). -/
def driverOf (r : Relay) (closing : Bool) : Fin 1280 := ⟨2 * r.val + (if closing then 0 else 1), by split <;> omega⟩

/-- The pattern of a pulse, with the select of the sense in progress, if one is (R9, R148). -/
def State.pulsePattern (s : State) (r : Relay) (closing : Bool) : ChainPattern :=
  ⟨some (driverOf r closing), s.snu.sensing.map Job.relay⟩

/-- The later of a wave's settle field and a new settle end (R116 step 6). -/
def laterSettle (now : Time) (field : Option Time) (new : Time) : Time :=
  match field with
  | none => new
  | some t => if reached now t then new else if (t - now).toNat < (new - now).toNat then new else t

/-- The record of a relay at its pulse (R8). -/
def pulsedRecord (x : RelayRec) (closing : Bool) (until_ : Time) : RelayRec :=
  { x with state := if closing then .closing else .opening, settleEnd := some until_ }

/-- The WSU makes a pulse of one relay of a wave: credit, settle time, record, pattern, report (R116 steps 1 to 5). -/
def pulse (v : Wave) (r : Relay) (closing : Bool) (s : State) : State :=
  let due := later s.now (s.settleTime r closing)
  let s1 : State := { s with wsu := { s.wsu with
    credit := s.wsu.credit.map (fun c => c - (s.classParams r).cost)
    chain := s.wsu.chain ++ [s.pulsePattern r closing] } }
  addWear r closing (s.pulseKind v) (s1.setRelay r (pulsedRecord (s.relay r) closing due))

/-- The wave moved past a relay it pulsed (R116 step 6). -/
def Wave.pulsed (v : Wave) (now due : Time) (p : Relay × Bool) (rest : List (Relay × Bool)) : Wave :=
  { v with done := v.done ++ [p], todo := rest, settle := some (laterSettle now v.settle due) }

/-- Why the head stopped. -/
inductive Stop where
  | finished | credit | live
deriving DecidableEq, Repr

/-- A start wave passes over a relay that has reached OPEN by its own settle end (R128). -/
def passesOver (s : State) (v : Wave) (r : Relay) : Bool :=
  (decide (v.owner = .recovery) || decide (v.owner = .sweep)) && decide ((s.relay r).state = .opened)

/-- A queried wave that is not forced hot meets a live trunk (R118). -/
def State.blocked (s : State) (v : Wave) : Bool :=
  v.queried && !v.forcedHot && (match v.trunk with | some t => s.live t | none => false)

/-- The head takes its relays in list order and makes one pulse after another, until all are done, the credit does not reach
the next cost, or the interlock answers live (R110, R113, R118). -/
def pulseRun : List (Relay × Bool) → Wave → State → State × Wave × Stop
  | [], v, s => (s, { v with todo := [] }, .finished)
  | (r, closing) :: rest, v, s =>
    if passesOver s v r then
      pulseRun rest { v with done := v.done ++ [(r, closing)], todo := rest }
        { s with wsu := { s.wsu with recovery := s.wsu.recovery.filter (fun p => decide (p.1 ≠ r)) } }
    else if s.wsu.credit.getD 0 < (s.classParams r).cost then (s, { v with todo := (r, closing) :: rest }, .credit)
    else if s.blocked v then (s, { v with todo := (r, closing) :: rest }, .live)
    else
      pulseRun rest (v.pulsed s.now (later s.now (s.settleTime r closing)) (r, closing) rest) (pulse v r closing s)

/-! ### Settle ends (R8, R124) -/

/-- A relay's settle end is reached. -/
def State.settleDue (s : State) (r : Relay) : Bool :=
  match (s.relay r).settleEnd with
  | some t => reached s.now t
  | none => false

/-- A relay record at its settle end: CLOSING becomes CLOSED, OPENING becomes OPEN and loses its owner (R8). -/
def settledRecord (x : RelayRec) : RelayRec :=
  match x.state with
  | .closing => { x with state := .closed, settleEnd := none }
  | .opening => { x with state := .opened, owner := none, settleEnd := none }
  | _ => { x with settleEnd := none }

/-- The monitor of an entry whose M(t) settles OPEN in its inner disconnect is OFF (R71). -/
def monitorOpened (r : Relay) (owner : Option Entry) (s : State) : State :=
  match owner with
  | some e =>
    let x := s.entry e
    if 624 ≤ r.val ∧ (x.state = .disconnectInner ∨ x.state = .faulted) then s.setEntry e { x with monitor := .off } else s
  | none => s

/-- A relay whose settle end is reached changes (R124); a relay becoming OPEN makes a choice pass due (R86). -/
def settleRelay (r : Relay) (w : Work) : Work :=
  if w.st.settleDue r then
    let x := w.st.relay r
    let st := w.st.setRelay r (settledRecord x)
    if x.state = .opening then { w with st := monitorOpened r x.owner st, pass := true } else { w with st := st }
  else w

/-- Every relay of a list whose settle end is reached changes. -/
def settleRelays (rs : List Relay) (w : Work) : Work := rs.foldl (fun w r => settleRelay r w) w

/-! ### Discard (R121) -/

/-- An entry's hold record is cleared (R132). -/
def clearHold (e : Entry) (s : State) : State := { s with ilu := { s.ilu with holds := put s.ilu.holds e none } }

/-- A connect wave of an entry that has left its list is cut short: its unpulsed relays lose their owner, and it settles with
those it has pulsed, or is gone (R121). -/
def cutWave (e : Entry) (v : Wave) (w : Work) : Work :=
  let w1 : Work := { w with st := (clearHold e w.st).dropListed (v.todo.map Prod.fst), pass := true }
  match v.done, v.settle with
  | [], _ => w1
  | _, none => w1
  | _, some t =>
    if reached w1.st.now t then settleRelays (v.done.map Prod.fst) w1
    else { w1 with st := { w1.st with wsu := { w1.st.wsu with settling := w1.st.wsu.settling ++ [{ v with todo := [] }] } } }

/-- The entry's HELD connect wave, if it has one, is discarded (R70, R78, R121). -/
def discardHeld (e : Entry) (w : Work) : Work :=
  let mine := fun (v : Wave) => decide (v.owner = .entry e) && v.phase.connects
  match w.st.wsu.held.find? mine with
  | none => w
  | some v =>
    cutWave e v { w with st := { w.st with wsu := { w.st.wsu with held := w.st.wsu.held.filter (fun u => !mine u) } } }

end Sys2Proof.Machine
end

