-- ==== Sys2Proof/Machine/NetEngine.lean ====
section
/-! DEFINITION. The Net Engine: the course of a net entry from its connect to its end (R65–R79, R81, R82, R87–R90 as far as
an entry acts on them). The acts stand in layers, each calling only those before it, so that no recursion is needed: the
release handshake, the end of a course, the FAULTED state, the disconnect phases, release-pending, faults, connect. -/

namespace Sys2Proof.Machine

/-! ### Claims and releases of an entry (R91, R93) -/

/-- The owed CLAIM mark of the entry is cleared (R91). -/
def unclaim (e : Entry) (s : State) : State := { s with rcu := { s.rcu with claims := put s.rcu.claims e none } }

/-- The frame on the line was made from an owed CLAIM of the entry, and that claim is ended (R91, R92). -/
def State.withdrawOwn (e : Entry) (s : State) : State :=
  match s.liu.own with
  | some o => match o.owed with
    | .claim e' _ => if e' = e then { s with liu := { s.liu with own := some { o with withdrawn := true } } } else s
    | _ => s
  | none => s

/-- The entry's owed CLAIM is withdrawn, its resource field kept (R75, R81). -/
def endClaim (e : Entry) (s : State) : State := (unclaim e s).withdrawOwn e

/-- The entry's owed CLAIM is withdrawn, and a resource field that held the claimed trunk is cleared (R91). -/
def withdrawClaim (e : Entry) (w : Work) : Work :=
  let x := w.ent e
  let clear := match look w.st.rcu.claims e, x.trunk with
    | some r, some t => decide (r = trunkResource t)
    | _, _ => false
  let w := w.upd (endClaim e)
  if clear then { w.modEnt e (fun x => { x with resource := none }) with pass := true } else w

/-- A monitor in CLAIMING returns to OFF with its claim withdrawn (R76, R78, R82). -/
def endMonitorClaim (e : Entry) (w : Work) : Work :=
  if (w.ent e).monitor = .claiming then
    { (w.upd (endClaim e)).modEnt e (fun x => { x with monitor := .off, deadline := none }) with pass := true }
  else w

/-- RELEASE becomes owed for every resource the entry holds (R73). -/
def oweReleases (e : Entry) (s : State) : State :=
  { s with rcu := { s.rcu with
    releases := each (fun r b => b || decide (look s.rcu.holdings r = some e)) s.rcu.releases } }

/-- RELEASE MON becomes owed when the entry holds MON (R81, R82). -/
def oweReleaseMon (e : Entry) (s : State) : State :=
  if look s.rcu.holdings 16 = some e then { s with rcu := { s.rcu with releases := put s.rcu.releases 16 true } } else s

/-- The entry holds a resource, or its CLAIM is on the line (R72, R73). -/
def State.holding (s : State) (e : Entry) : Bool := !(s.held e).isEmpty || s.claimOnLine e

/-! ### FREE and the release handshake (R72–R74) -/

/-- The entry becomes FREE: its pins are unbound and its OPEN relays lose their owner; a READY 255 may be owed (R8, R16, R143). -/
def freeEntry (e : Entry) (w : Work) : Work :=
  let site := (w.ent e).site
  let s := endClaim e (w.st.dropOpenOwners e)
  let s := { s with ne := { s.ne with
    entries := put s.ne.entries e NetEntry.free
    binding := each (fun _ b => if b = some e then none else b) s.ne.binding } }
  { w with st := abortReady site s, pass := true }

/-- The closing report of the handshake is owed, unless it was or the reason is a refusal reason (R73, R74). A refusal reason that
an ABORT overwrites later in the handshake leaves it still to be owed (R142). -/
def closingReport (e : Entry) (w : Work) : Work :=
  let x := w.ent e
  if x.reported || x.refused then w else (w.upd (oweOpened e)).modEnt e (fun x => { x with reported := true })

/-- An AWAIT_OPENED or RELEASE_BLOCKED entry that holds nothing and has no CLAIM on the line becomes FREE (R73, R74). -/
def tryFree (e : Entry) (w : Work) : Work :=
  let x := w.ent e
  if (x.state = .awaitOpened ∨ x.state = .releaseBlocked) ∧ w.st.holding e = false then
    freeEntry e (closingReport e w)
  else w

/-- The awaited set is empty: RELEASE for each resource held, the closing report, and FREE where nothing is held (R73, R74). -/
def handshake (e : Entry) (w : Work) : Work :=
  let x := w.ent e
  if x.awaited = [] ∧ (x.state = .awaitOpened ∨ x.state = .releaseBlocked) then
    tryFree e (closingReport e (w.upd (oweReleases e)))
  else w

/-- The anchor enters AWAIT_OPENED with deadline now + Q (R72, R75, R76). -/
def awaitOpened (e : Entry) (w : Work) : Work :=
  let q := w.st.cfl.config.releaseWait
  handshake e ((w.setState e .awaitOpened).modEnt e
    (fun x => { x with deadline := some (laterMs w.st.now q), reported := false }))

/-- The inner disconnect of an entry has settled: it ends its course by role and holding (R72). -/
def endCourse (e : Entry) (w : Work) : Work :=
  let x := w.ent e
  match x.role with
  | .participant =>
    freeEntry e (w.upd (if x.reason = some .holdTimeout then oweRefused e .holdTimeout else oweOpened e))
  | .anchor =>
    if x.request ≠ .localBus ∧ w.st.holding e then awaitOpened e w
    else freeEntry e (if x.refused then w else w.upd (oweOpened e))

/-! ### FAULTED (R70, R76–R78, R142) -/

/-- A FAULTED entry ends by an UNROUTE, a CANCEL or an ABORT (R76, R77, R142). -/
def endFaulted (e : Entry) (k : ReleasePending) (w : Work) : Work :=
  let w := w.modEnt e (fun x =>
    let reason := if x.reason = some .aborted then x.reason else match k with
      | .plain => none
      | .cancel => some .cancelled
    { x with releasePending := none, reason := reason, reasonRelay := none })
  if (w.ent e).role = .anchor ∧ w.st.holding e then awaitOpened e w else freeEntry e (w.upd (oweOpened e))

/-- Release-pending is taken at the first moment at which the entry is FAULTED, its relays are all OPEN and its STATUS mark is
clear (R70). -/
def takeFaulted (e : Entry) (w : Work) : Work :=
  let x := w.ent e
  match x.releasePending with
  | none => w
  | some k =>
    if x.state = .faulted ∧ x.winding = false ∧ w.inFlight e = false ∧ w.st.relaysOpen e ∧ look w.st.ne.status e = none then
      endFaulted e k w
    else w

/-- Every relay of a FAULTED entry is OPEN: FAULT is owed, unless the entry was aborted (R78, R142). Its monitor sub-state is
OFF from here at the latest (DESIGN CHOICE where a warm keep made the entry FAULTED, notes/assumptions/54.md). -/
def faultedOpen (e : Entry) (w : Work) : Work :=
  let w := w.modEnt e (fun x => { x with monitor := .off, monitorOffPending := false, winding := false })
  let x := w.ent e
  let w := match x.reason with
    | some .aborted => w
    | reason => w.upd (owe e ⟨x.site, x.net, .fault, reason.getD .none, x.resource.map NetResource.code,
        if reason = some .contactFail then x.reasonRelay else none⟩)
  takeFaulted e w

/-! ### Disconnect (R71) -/

/-- The inner disconnect phase: its wave, or its end at once where no relay qualifies (R14, R71). -/
def disconnectInner (e : Entry) (w : Work) : Work :=
  let w := buildWave e .innerDisconnect w
  if w.inFlight e then w
  else if (w.ent e).state = .faulted then faultedOpen e w else endCourse e w

/-- The outer disconnect phase has settled (R71, R78, R187). -/
def outerDone (e : Entry) (w : Work) : Work :=
  let x := w.ent e
  match x.state with
  | .disconnectOuter =>
    if x.headingToFaulted then disconnectInner e ((w.setState e .faulted).upd (fun s => s.dropOpenOwners e))
    else disconnectInner e (w.setState e .disconnectInner)
  | .faulted => disconnectInner e w
  | _ => w

/-- The entry waits until its wave has settled and its verification has ended, and then builds its outer disconnect wave (R71). -/
def proceedOuter (e : Entry) (w : Work) : Work :=
  if w.inFlight e || w.st.verifying e then w
  else
    let w := buildWave e .outerDisconnect w
    if w.inFlight e then w else outerDone e w

/-- The entry enters DISCONNECT_OUTER, a monitor in CLAIMING returned to OFF (R71, R76). -/
def disconnectOuter (e : Entry) (w : Work) : Work :=
  proceedOuter e (endMonitorClaim e (w.setState e .disconnectOuter))

/-! ### Release-pending (R70) -/

/-- Release-pending is taken: CANCEL gives the reason CANCELLED when it is absent, and the entry disconnects (R70). -/
def takeRelease (e : Entry) (w : Work) : Work :=
  let w := w.modEnt e (fun x => { x with
    releasePending := none
    reason := if x.releasePending = some .cancel ∧ x.reason = none then some .cancelled else x.reason })
  disconnectOuter e w

/-- Release-pending is set, and acts by the entry's state (R70, R76, R77): a HELD connect wave and a verification are
discarded, and the field is taken at once when nothing is in flight. -/
def setReleasePending (e : Entry) (k : ReleasePending) (w : Work) : Work :=
  let w := w.modEnt e (fun x => { x with
    releasePending := match x.releasePending, k with
      | none, k => some k
      | some _, .cancel => some .cancel
      | some j, .plain => some j })
  match (w.ent e).state with
  | .connectInner | .connectOuter =>
    let w := discardHeld e w
    if w.inFlight e then w else takeRelease e w
  | .verifying =>
    let w := w.upd (discardVerification e)
    if w.st.verifying e then w else takeRelease e w
  | .connected => if (w.ent e).monitor = .closing ∨ (w.ent e).monitor = .opening then w else takeRelease e w
  | .disconnectOuter | .faulted => takeFaulted e w
  | _ => w

/-! ### Faults (R78) -/

/-- A fault may be taken (R78). -/
def NetEntry.takesFault (x : NetEntry) : Bool :=
  (decide (x.state = .connectInner) || decide (x.state = .verifying) || decide (x.state = .connectOuter)
    || decide (x.state = .connected)) && decide (x.releasePending = none) && decide (x.reason ≠ some .aborted)

/-- A fault reaches an entry: where it is taken, it is captured (the yield and the self-open are captured by their own), the
reason is set, a held connect wave, a claim of MON and a verification end, and the entry heads to FAULTED (R78, R171). -/
def fault (e : Entry) (reason : Reason) (relay : Option Relay) (cap : Option Capture) (w : Work) : Work :=
  if (w.ent e).takesFault then
    let w := match cap with
      | some c => w.upd (capture c)
      | none => w
    let w := (w.setState e .disconnectOuter).modEnt e (fun x => { x with reason := some reason, reasonRelay := relay })
    proceedOuter e ((discardHeld e (endMonitorClaim e w)).upd (discardVerification e))
  else w

/-! ### Connect (R67–R69) -/

/-- The entry enters CONNECTED and owes CONNECTED unless quiet (R63, R69). -/
def connected (e : Entry) (w : Work) : Work :=
  let w := w.setState e .connected
  if (w.ent e).quiet then w else w.upd (oweEntry e .connected .none)

/-- The entry enters CONNECT_OUTER and builds its outer connect wave (R69). -/
def connectOuter (e : Entry) (w : Work) : Work :=
  let w := buildWave e .outerConnect (w.setState e .connectOuter)
  if w.inFlight e then w else connected e w

/-- The inner connect wave has settled with release-pending absent: verification, or the outer wave (R67, R145). -/
def innerConnected (e : Entry) (batch : List Relay) (w : Work) : Work :=
  if (w.ent e).verify ∧ batch ≠ [] then (w.setState e .verifying).upd (handOver e batch) else connectOuter e w

/-- The entry enters CONNECT_INNER and builds its inner connect wave (R67). -/
def connectInner (e : Entry) (w : Work) : Work :=
  let w := buildWave e .innerConnect ((w.setState e .connectInner).modEnt e (fun x => { x with deadline := none }))
  if w.inFlight e then w else innerConnected e [] w

/-- The report of the SNU that the entry's verification has ended (R68, R152). -/
def verificationEnded (e : Entry) (w : Work) : Work :=
  let found := w.st.suspects e
  let w := w.upd (dropVerification e)
  let x := w.ent e
  match x.state with
  | .verifying =>
    if x.releasePending.isSome then takeRelease e w
    else match found with
      | [] => connectOuter e w
      | r :: _ => fault e .contactFail (some r)
          (some ⟨.contactFail, some (x.site, x.net), x.resource.map NetResource.code, some r, none⟩) w
  | .disconnectOuter => proceedOuter e w
  | _ => w

/-! ### Waves settled (R67, R69, R71, R81, R82, R125) -/

/-- The monitor close wave has settled (R81). -/
def monitorClosed (e : Entry) (w : Work) : Work :=
  let x := w.ent e
  if x.state ≠ .connected then proceedOuter e (w.modEnt e (fun x => { x with monitor := .on, monitorOffPending := false }))
  else if x.releasePending.isSome then
    takeRelease e (w.modEnt e (fun x => { x with monitor := .on, monitorOffPending := false }))
  else if x.monitorOffPending then
    buildWave e .monitorOpen (w.modEnt e (fun x => { x with monitor := .opening, monitorOffPending := false }))
  else (w.modEnt e (fun x => { x with monitor := .on })).upd (oweMonitor e .monitorOn .none)

/-- The monitor is OFF with its relay OPEN: RELEASE MON is owed, and MONITOR_OFF unless the entry is being ended (R82, R11). -/
def monitorOpenedWave (e : Entry) (reason : Reason) (w : Work) : Work :=
  let x := w.ent e
  let w := { (w.modEnt e (fun x => { x with monitor := .off, monitorOffPending := false })).upd (oweReleaseMon e) with pass := true }
  if x.state ≠ .connected then proceedOuter e w
  else if x.releasePending.isSome then takeRelease e w
  else w.upd (oweMonitor e .monitorOff reason)

/-- A wave of an entry has settled: the entry goes on by the wave's phase and its own state (R125). `batch` holds the
crosspoints of the wave. -/
def waveSettled (e : Entry) (ph : Phase) (batch : List Relay) (w : Work) : Work :=
  let w := w.upd (clearHold e)
  let x := w.ent e
  match ph with
  | .innerConnect | .outerConnect =>
    match x.state with
    | .connectInner => if x.releasePending.isSome then takeRelease e w else innerConnected e batch w
    | .connectOuter => if x.releasePending.isSome then takeRelease e w else connected e w
    | .disconnectOuter => proceedOuter e w
    | _ => w
  | .outerDisconnect => outerDone e w
  | .innerDisconnect =>
    if x.state = .faulted then faultedOpen e w
    else if x.state = .disconnectInner then endCourse e w else w
  | .monitorClose => monitorClosed e w
  | .monitorOpen => monitorOpenedWave e .none w
  | .sweep | .recovery => w

/-- The entry owns its M(t) in CLOSED. -/
def State.monitorClosedOf (s : State) (e : Entry) : Bool :=
  match (s.entry e).trunk with
  | some t => decide ((s.relay (relayM t)).owner = some e) && decide ((s.relay (relayM t)).state = .closed)
  | none => false

/-- The monitor of an entry is in motion. -/
def NetEntry.monitorMoving (x : NetEntry) : Bool := decide (x.monitor = .closing) || decide (x.monitor = .opening)

/-- The monitor of an entry that a warm keep found in motion is OFF: RELEASE MON and MONITOR_OFF with RESET_IN_FLIGHT are owed
(R11). -/
def monitorRecovered (e : Entry) (w : Work) : Work :=
  { ((w.modEnt e (fun x => { x with monitor := .off, monitorOffPending := false })).upd (oweReleaseMon e)).upd
      (oweMonitor e .monitorOff .resetInFlight) with pass := true }

/-- The entry's part of the recovery wave has settled, or counts as settled at the end of the load (R11, R128, R129, R187). An
entry that took a fault meanwhile goes on with its disconnect (R71). A monitor found OPEN owes MONITOR_OFF with RESET_IN_FLIGHT by
R11 also in an entry with release-pending or heading to FAULTED (DEDUCED, notes/assumptions/52.md). An M(t) that stands CLOSED since the wave did not list it is
opened by a wave of its own (DESIGN CHOICE, notes/assumptions/50.md). -/
def partSettled (e : Entry) (w : Work) : Work :=
  let x := w.ent e
  match x.state with
  | .faulted => if x.winding then proceedOuter e w else w
  | .connected =>
    if x.monitorMoving = false then w
    else if w.st.monitorClosedOf e then buildWave e .monitorOpen (w.modEnt e (fun x => { x with monitor := .opening }))
    else
      let w := monitorRecovered e w
      if x.releasePending.isSome then takeRelease e w else w
  | .disconnectOuter =>
    proceedOuter e (if x.monitorMoving && !w.st.monitorClosedOf e then monitorRecovered e w else w)
  | _ => w

/-! ### Abandonment and holds (R67, R75, R134–R136) -/

/-- An anchor is refused after its dispatch (R75). -/
def abandon (e : Entry) (reason : Reason) (w : Work) : Work :=
  let w := w.modEnt e (fun x => { x with reason := some reason })
  let w := w.upd (oweRefused e reason)
  let w := if (w.ent e).request ≠ .localBus then w.upd (oweCancel e) else w
  if (w.ent e).state = .awaitResource then
    if w.st.claimOnLine e then awaitOpened e (w.upd (endClaim e))
    else freeEntry e (withdrawClaim e w)
  else setReleasePending e .plain w

/-- A connect hold has run out: the net is refused (R134). -/
def connectHoldExpired (e : Entry) (w : Work) : Work :=
  match (w.ent e).role with
  | .anchor => abandon e .holdTimeout w
  | .participant => setReleasePending e .plain (w.modEnt e (fun x => { x with reason := some .holdTimeout }))

/-- A disconnect hold or a hold with abort grace has run out: the wave is forced hot and rejoins the queue (R120, R135). -/
def disconnectHoldExpired (e : Entry) (t : Trunk) (w : Work) : Work :=
  let mine := fun (v : Wave) => decide (v.owner = .entry e)
  match w.st.wsu.held.find? mine with
  | none => w
  | some v =>
    let s := clearHold e w.st
    let s := { s with wsu := { s.wsu with held := s.wsu.held.filter (fun u => !mine u) } }
    let s := captureEntry .hotBreak (s.entry e) (some (NetResource.trunk t).code) none s
    let w := { w with st := s, joining := w.joining ++ [{ v with forcedHot := true }] }
    w.modEnt e (fun x =>
      if x.reason = none ∨ x.reason = some .cancelled then { x with reason := some .hotBreak } else x)

/-- The hold of an entry's wave has expired (R133). -/
def holdExpired (e : Entry) (w : Work) : Work :=
  match look w.st.ilu.holds e with
  | none => w
  | some h => if h.connect ∧ h.abortGrace = false then connectHoldExpired e w else disconnectHoldExpired e h.trunk w

/-- The WSU reports that an entry's wave is held (R118, R132): the record is set or kept, and a deadline already reached
expires at this event. -/
def holdWave (e : Entry) (v : Wave) (t : Trunk) (w : Work) : Work :=
  let s := w.st
  let limit := if v.abortMark then s.cfl.config.abortGrace else s.cfl.config.holdLimit
  let h : Hold := match look s.ilu.holds e with
    | none => ⟨t, v.phase.connects, laterMs s.now limit, v.abortMark, true⟩
    | some h => { h with held := true }
  let s := { s with
    ilu := { s.ilu with holds := put s.ilu.holds e (some h) }
    wsu := { s.wsu with held := s.wsu.held ++ [v] } }
  let w := { w with st := s }
  if reached s.now h.deadline then holdExpired e w else w

/-- A connect wave whose net is already being ended is discarded where it would be held (R136). -/
def discardsAtQuery (x : NetEntry) (v : Wave) : Bool :=
  v.phase.connects && (x.releasePending.isSome || x.headingToFaulted || v.abortMark)

/-- The head wave of an entry meets a live trunk (R118, R136). -/
def waveMetLive (e : Entry) (v : Wave) (t : Trunk) (w : Work) : Work :=
  if discardsAtQuery (w.ent e) v then
    let w := cutWave e v w
    if w.inFlight e then w else waveSettled e v.phase [] w
  else holdWave e v t w

end Sys2Proof.Machine
end

