-- ==== Sys2Proof/Machine/NetRequests.lean ====
section
/-! DEFINITION. What reaches a net entry from outside the Net Engine: ROUTE, UNROUTE and MONITOR records (R64, R76, R81, R82),
a claim of its anchor (R66), CANCEL (R77), ABORT (R139–R142), STATUS (R73), a dropped holding (R79), and a change of the trunk
view (R80, R106). -/

namespace Sys2Proof.Machine

/-! ### Free tests and SUSPECT (R7, R12) -/

/-- A relay is OPEN with no owner, or owned by e. -/
def State.relayFree (s : State) (e : Entry) (r : Relay) : Bool :=
  (decide ((s.relay r).state = .opened) && decide ((s.relay r).owner = none)) || decide ((s.relay r).owner = some e)

/-- No other entry has a resource while in a state other than FREE or FAULTED (R12). -/
def State.resourceFree (s : State) (e : Entry) (q : NetResource) : Bool :=
  (List.finRange 64).all (fun i =>
    decide (i = e) || decide ((s.entry i).resource ≠ some q)
      || decide ((s.entry i).state = .free) || decide ((s.entry i).state = .faulted))

/-- Segment t is free for e (R12). -/
def State.segmentFree (s : State) (e : Entry) (t : Trunk) : Bool :=
  (segmentRelays t).all (s.relayFree e) && s.resourceFree e (.trunk t)

/-- Local bus l is free for e (R12). -/
def State.busFree (s : State) (e : Entry) (l : Bus) : Bool :=
  (busRelays l).all (s.relayFree e) && s.resourceFree e (.bus l)

/-- The monitor path is free for e (R12). -/
def State.monitorFree (s : State) (e : Entry) : Bool :=
  monitorRelays.all (s.relayFree e)
    && (List.finRange 64).all (fun i => decide (i = e) || decide ((s.entry i).monitor = .off))

/-- The lowest X(p,t) of some pins that carries SUSPECT (R66, R87). -/
def State.suspectX (s : State) (pins : List Pin) (t : Trunk) : Option Relay :=
  (pins.map (fun p => relayX p t)).find? (fun r => (s.relay r).suspect)

/-- Some Y(p,l) of some pins carries SUSPECT (R89). -/
def State.suspectY (s : State) (pins : List Pin) (l : Bus) : Bool := pins.any (fun p => (s.relay (relayY p l)).suspect)

/-- Trunk t is in the site's trunk mask (R37). -/
def State.permitted (s : State) (site : Site) (t : Trunk) : Bool :=
  (look s.cfl.config.sites site).trunks.getLsbD t.val

/-- Trunk t is reserved to the site (R37). -/
def State.reservedTo (s : State) (site : Site) (t : Trunk) : Bool :=
  (look s.cfl.config.sites site).reserved.getLsbD t.val

/-- Trunk t is reserved to another site (R87, R88). -/
def State.reservedElsewhere (s : State) (site : Site) (t : Trunk) : Bool :=
  (List.finRange 8).any (fun i => decide (i ≠ site) && s.reservedTo i t)

/-! ### ROUTE records (R64, R66) -/

/-- A participant acts on its anchor's claim of trunk t: SUSPECT, then the free test, then connect (R66). -/
def participantClaim (e : Entry) (t : Trunk) (w : Work) : Work :=
  let x := w.ent e
  let refuse := fun (reason : Reason) (relay : Option Relay) =>
    freeEntry e (w.upd (owe e ⟨x.site, x.net, .refused, reason, some (NetResource.trunk t).code, relay⟩))
  match w.st.suspectX x.pins t with
  | some r => refuse .relaySuspect (some r)
  | none =>
    if w.st.segmentFree e t then connectInner e (w.modEnt e (fun x => { x with resource := some (.trunk t) }))
    else refuse .segmentBusy none

/-- The lowest FREE index whose STATUS and CANCEL marks are clear, or else the lowest FREE index (R64). -/
def State.freeIndex (s : State) : Option Entry :=
  let free := (List.finRange 64).filter (fun e => decide ((s.entry e).state = .free))
  match free.find? (fun e => decide (look s.ne.status e = none) && decide (look s.ne.cancel e = none)) with
  | some e => some e
  | none => free.head?

/-- A local pin of the record is bound to an entry (R16). -/
def State.pinsBusy (s : State) (pins : List Pin) : Bool := pins.any (fun p => (look s.ne.binding p).isSome)

/-- The fields an entry takes from its record (R59). -/
def newEntry (site : Site) (r : RouteRecord) : NetEntry :=
  { NetEntry.free with
    site := site, net := r.net, role := r.role, anchor := r.anchor, request := r.request, pins := r.pins
    peers := r.peers, awaited := r.peers, hot := r.flags.hot, verify := r.flags.verify, quiet := r.flags.quiet }

/-- The view shows a trunk claimed by a node for a net (R64): the lowest, where it shows several (DESIGN CHOICE,
notes/assumptions/44.md). -/
def State.claimedTrunk (s : State) (n : Node) (net : Site × NetId) : Option Trunk :=
  (List.finRange 16).find? (fun t =>
    let v := look s.rcu.view (trunkResource t)
    decide (v.holder = some n) && v.claimed && decide (v.net = some net))

/-- An anchor's dispatch: its wait begins, and a named trunk that its site may not use is refused at the first choice
(R64, R65, R88). -/
def dispatchAnchor (e : Entry) (w : Work) : Work :=
  let w := (w.setState e .awaitResource).modEnt e
    (fun x => { x with deadline := some (laterMs w.st.now w.st.cfl.config.claimWait) })
  let x := w.ent e
  match x.request with
  | .trunk t =>
    if w.st.permitted x.site t = false then abandon e .trunkNotPermitted w
    else if w.st.reservedElsewhere x.site t then abandon e .trunkReserved w
    else w
  | _ => w

/-- A participant's dispatch: its wait begins, and a claim already in the view acts at once (R64). -/
def dispatchParticipant (e : Entry) (w : Work) : Work :=
  let w := (w.setState e .awaitAnchor).modEnt e
    (fun x => { x with deadline := some (laterMs w.st.now (w.st.cfl.config.claimWait + 100)) })
  let x := w.ent e
  match w.st.claimedTrunk x.anchor (x.site, x.net) with
  | some t => participantClaim e t w
  | none => w

/-- A ROUTE record handed to the NE (R64). -/
def dispatchRoute (site : Site) (r : RouteRecord) (w : Work) : Work :=
  let refuse := fun (reason : Reason) => w.upd (oweSite ⟨site, r.net, .refused, reason, none, none⟩)
  if (w.st.findNet site r.net).isSome then refuse .netExists
  else if w.st.pinsBusy r.pins then refuse .pinBusy
  else match w.st.freeIndex with
    | none => w
    | some e =>
      let s := w.st.setEntry e (newEntry site r)
      let s := { s with ne := { s.ne with
        binding := each (fun p b => if p ∈ r.pins then some e else b) s.ne.binding } }
      let w := { w with st := s }
      match r.role with
      | .anchor => dispatchAnchor e w
      | .participant => dispatchParticipant e w

/-! ### UNROUTE and CANCEL (R76, R77) -/

/-- An anchor leaves AWAIT_RESOURCE by an UNROUTE or an ABORT (R75, R76, R140). -/
def leaveAwaitResource (e : Entry) (w : Work) : Work :=
  let trunkNet := decide ((w.ent e).request ≠ .localBus)
  if w.st.claimOnLine e then awaitOpened e (w.upd (fun s => oweCancel e (endClaim e s)))
  else
    let w := withdrawClaim e w
    let w := if trunkNet then w.upd (oweCancel e) else w
    freeEntry e (w.upd (oweOpened e))

/-- An UNROUTE record handed to the NE, for the entry of its net (R76). -/
def unrouteEntry (e : Entry) (w : Work) : Work :=
  let x := w.ent e
  match x.state with
  | .awaitResource => leaveAwaitResource e w
  | .awaitAnchor => freeEntry e (w.upd (oweOpened e))
  | .connectInner | .verifying | .connectOuter | .connected | .faulted => setReleasePending e .plain w
  | .disconnectOuter => if x.headingToFaulted then setReleasePending e .plain w else w
  | .disconnectInner | .awaitOpened | .releaseBlocked | .free => w

/-- A CANCEL of its anchor reaches a participant entry (R77). -/
def cancelEntry (e : Entry) (w : Work) : Work :=
  let x := w.ent e
  let note := w.modEnt e (fun x => if x.reason = none then { x with reason := some .cancelled } else x)
  match x.state with
  | .awaitAnchor => freeEntry e w
  | .connectInner | .verifying | .connectOuter | .connected | .faulted => setReleasePending e .cancel w
  | .disconnectOuter => if x.headingToFaulted then setReleasePending e .cancel w else note
  | .disconnectInner => note
  | .awaitResource | .awaitOpened | .releaseBlocked | .free => w

/-! ### MONITOR records (R81, R82) -/

/-- The anchor entry of a net, where the card has one. -/
def State.anchorOf (s : State) (site : Site) (net : NetId) : Option Entry :=
  (s.findNet site net).filter (fun e => decide ((s.entry e).role = .anchor))

/-- MONITOR on, for the anchor entry of its net (R81). -/
def monitorOn (e : Entry) (w : Work) : Work :=
  let x := w.ent e
  if x.request = .localBus then w.upd (oweRefused e .badRoute)
  else if x.state ≠ .connected ∨ x.releasePending.isSome then w.upd (oweRefused e .notConnected)
  else match x.monitor with
    | .off =>
      { w.modEnt e (fun x => { x with
          monitor := .claiming, deadline := some (laterMs w.st.now w.st.cfl.config.claimWait) }) with pass := true }
    | .claiming | .closing => w.modEnt e (fun x => { x with monitorOffPending := false })
    | .on => w.upd (oweMonitor e .monitorOn .none)
    | .opening => w

/-- MONITOR off, for the anchor entry of its net (R82). An entry that is no longer CONNECTED opens its M(t) in its inner
disconnect and builds no monitor wave beside the wave it has (R61). -/
def monitorOff (e : Entry) (w : Work) : Work :=
  let x := w.ent e
  match x.monitor with
  | .off => w.upd (oweMonitor e .monitorOff .none)
  | .claiming => (endMonitorClaim e w).upd (oweMonitor e .monitorOff .none)
  | .closing => w.modEnt e (fun x => { x with monitorOffPending := true })
  | .on =>
    if x.state = .connected then buildWave e .monitorOpen (w.modEnt e (fun x => { x with monitor := .opening })) else w
  | .opening => w

/-- A MONITOR record handed to the NE (R81, R82). -/
def dispatchMonitor (site : Site) (net : NetId) (on : Bool) (w : Work) : Work :=
  match w.st.anchorOf site net with
  | some e => if on then monitorOn e w else monitorOff e w
  | none =>
    if on then w.upd (oweSite ⟨site, net, .refused, .notConnected, none, none⟩)
    else w.upd (oweSite ⟨site, net, .monitorOff, .none, none, none⟩)

/-! ### ABORT (R139–R142) -/

/-- What an ABORT does to the STATUS mark of an entry: its unsent CONNECTED or REFUSED is withdrawn, its unsent OPENED carries
ABORTED (R63, R139). -/
def abortReport (x : NetEntry) (m : Option Report) : Option Report :=
  match m with
  | some r =>
    if r.site = x.site ∧ r.net = x.net then
      match r.outcome with
      | .connected | .refused => none
      | .opened => some { r with reason := .aborted }
      | _ => some r
    else some r
  | none => none

/-- The deadline of a hold record after an ABORT: the earlier of its deadline and now + G (R141). -/
def abortHold (now : Time) (grace : Nat) (h : Hold) : Hold :=
  if h.connect then h
  else if reached now h.deadline then h
  else if grace * 1000 < (h.deadline - now).toNat then { h with deadline := laterMs now grace, abortGrace := true }
  else h

/-- The waves of an entry take the abort mark (R141). -/
def markWaves (e : Entry) (vs : List Wave) : List Wave :=
  vs.map (fun v => if v.owner = .entry e then { v with abortMark := true } else v)

/-- The reason becomes ABORTED, and the entry's STATUS mark is withdrawn or changed with it (R63, R139). An OPENED on the line when
its mark takes ABORTED leaves the new content owed (DEDUCED, notes/assumptions/45.md). -/
def abortStatus (e : Entry) (s : State) : State :=
  let x := s.entry e
  let before := look s.ne.status e
  let after := abortReport x before
  let t := s.setEntry e { x with reason := some .aborted, reasonRelay := none }
  let t := { t with ne := { t.ne with status := put t.ne.status e after } }
  if after.isSome ∧ after ≠ before then t.renew (.status e) else t

/-- The entry's waves take the abort mark, and its hold record the limit G (R141). -/
def abortWaves (e : Entry) (s : State) : State :=
  { s with
    wsu := { s.wsu with
      queue := markWaves e s.wsu.queue
      held := markWaves e s.wsu.held
      settling := markWaves e s.wsu.settling }
    ilu := { s.ilu with
      holds := put s.ilu.holds e ((look s.ilu.holds e).map (abortHold s.now s.cfl.config.abortGrace)) } }

/-- What an ABORT does to every entry it acts on, before the entry acts by its state (R139, R141). -/
def abortMarks (e : Entry) (s : State) : State := abortWaves e (abortStatus e s)

/-- A non-FREE entry of the site acts on the ABORT (R140–R142). -/
def abortEntry (e : Entry) (w : Work) : Work :=
  let heading := (w.ent e).headingToFaulted
  let w := { w.upd (abortMarks e) with joining := markWaves e w.joining }
  match (w.ent e).state with
  | .awaitAnchor => freeEntry e w
  | .awaitResource => leaveAwaitResource e w
  | .connectInner | .verifying | .connectOuter | .connected | .faulted => setReleasePending e .plain w
  | .disconnectOuter => if heading then w.modEnt e (fun x => { x with releasePending := none }) else w
  | .disconnectInner | .awaitOpened | .releaseBlocked | .free => w

/-- The NE's part of an ABORT: each non-FREE entry of the site, ascending (R139). -/
def abortSite (site : Site) (w : Work) : Work :=
  (List.finRange 64).foldl (fun w e =>
    if (w.ent e).state ≠ .free ∧ (w.ent e).site = site then abortEntry e w else w) w

/-! ### STATUS of another node (R73) -/

/-- A STATUS from a node reaches the anchor entry of its net (R73, R74). -/
def statusHeard (n : Node) (site : Site) (net : NetId) (o : StatusOutcome) (w : Work) : Work :=
  match w.st.anchorOf site net with
  | none => w
  | some e =>
    if (o = .opened ∨ o = .refused) ∧ n ∈ (w.ent e).awaited then
      handshake e (w.modEnt e (fun x => { x with awaited := x.awaited.filter (fun m => decide (m ≠ n)) }))
    else w

/-! ### Dropped holdings and the participant watch (R79, R80, R106) -/

/-- An entry that has yielded its trunk and waits on, for MON, has it no longer as its resource, so that the relay records alone
decide whether another entry may use the segment (R12). -/
def dropYielded (e : Entry) (r : Resource) (w : Work) : Work :=
  let x := w.ent e
  if (x.state = .awaitOpened ∨ x.state = .releaseBlocked) ∧ x.trunk.map trunkResource = some r then
    { w.modEnt e (fun x => { x with resource := none }) with pass := true }
  else w

/-- A holding of an entry has been dropped; the entry acts by its state (R79). -/
def holdingDropped (e : Entry) (r : Resource) (reason : Reason) (w : Work) : Work :=
  let x := w.ent e
  let cap := if reason = .resetLostTrunk then
      some (⟨.resetLostTrunk, some (x.site, x.net), some (resourceCode r), none, none⟩ : Capture)
    else none
  match x.state with
  | .awaitOpened | .releaseBlocked => dropYielded e r (tryFree e w)
  | _ => fault e reason none cap w

/-- A view entry no longer shows a participant's anchor with its net (R80). -/
def lostAnchor (x : NetEntry) (v : ViewEntry) : Bool :=
  decide (v.holder ≠ some x.anchor) || (v.claimed && decide (v.net ≠ some (x.site, x.net)))

/-- The view entry of trunk t is reported to the participants that use it (R80, R106). -/
def watch (r : Resource) (w : Work) : Work :=
  (List.finRange 64).foldl (fun w e =>
    let x := w.ent e
    let uses := match x.trunk with
      | some t => decide (trunkResource t = r)
      | none => false
    if x.role = .participant ∧ x.state ≠ .free ∧ uses = true ∧ lostAnchor x (look w.st.rcu.view r) = true then
      fault e .anchorLost none
        (some ⟨.anchorLost, some (x.site, x.net), x.resource.map NetResource.code, none, none⟩) w
    else w) w

end Sys2Proof.Machine
end

