-- ==== Sys2Proof/Machine/Schedule.lean ====
section
/-! DEFINITION. What every event ends with: the choice pass of the RCU (R86–R90), the join of the waves built (R109), and the
service of the wave queue (R110–R114); and the settling of waves (R124, R125, R128), the resumption of held waves (R119, R131)
and the credit boundary (R112). -/

namespace Sys2Proof.Machine

/-! ### The choice pass (R86–R90) -/

/-- The view entry of a resource. -/
def State.viewOf (s : State) (r : Resource) : ViewEntry := look s.rcu.view r

/-- No node holds a resource in the view, and it is not cooling (R87, R90). -/
def State.unclaimed (s : State) (r : Resource) : Bool :=
  decide ((s.viewOf r).holder = none) && decide ((s.viewOf r).cooling = none)

/-- Trunk t meets every condition of the choice for an anchor entry (R87, R88). -/
def State.candidate (s : State) (e : Entry) (t : Trunk) : Bool :=
  let x := s.entry e
  s.permitted x.site t && s.unclaimed (trunkResource t) && !s.reservedElsewhere x.site t && s.segmentFree e t
    && (s.suspectX x.pins t).isNone

/-- The trunk chosen for an anchor entry: a trunk reserved to its own site before any other, the lowest first; a named trunk is
its only candidate (R87, R88). -/
def State.chooseTrunk (s : State) (e : Entry) : Option Trunk :=
  let all := (List.finRange 16).filter (fun t => s.candidate e t)
  match (s.entry e).request with
  | .trunk t => all.find? (fun u => decide (u = t))
  | _ => match all.find? (fun t => s.reservedTo (s.entry e).site t) with
    | some t => some t
    | none => all.head?

/-- The local bus chosen for an anchor entry: the lower candidate (R89). -/
def State.chooseBus (s : State) (e : Entry) : Option Bus :=
  (List.finRange 2).find? (fun l => s.busFree e l && !s.suspectY (s.entry e).pins l)

/-- MON is a candidate for an anchor entry (R90). -/
def State.monitorCandidate (s : State) (e : Entry) : Bool := s.unclaimed 16 && s.monitorFree e

/-- CLAIM becomes owed for an entry (R91). -/
def oweClaim (e : Entry) (r : Resource) (s : State) : State :=
  { s with rcu := { s.rcu with claims := put s.rcu.claims e (some r) } }

/-- An anchor entry of a trunk net chooses: it keeps a resource that still meets its conditions, or withdraws its claim and
chooses afresh (R86–R88). -/
def passTrunk (e : Entry) (w : Work) : Work :=
  let keeps := match (w.ent e).trunk with
    | some t => w.st.candidate e t
    | none => false
  if keeps then w
  else
    let w := if (look w.st.rcu.claims e).isSome then withdrawClaim e w else w
    match w.st.chooseTrunk e with
    | some t => (w.modEnt e (fun x => { x with resource := some (.trunk t) })).upd (oweClaim e (trunkResource t))
    | none => w

/-- An anchor entry of a LOCAL net chooses; a bus found moves it to CONNECT_INNER at this event (R65, R89). -/
def passBus (e : Entry) (w : Work) : Work :=
  match w.st.chooseBus e with
  | some l => connectInner e (w.modEnt e (fun x => { x with resource := some (.bus l) }))
  | none => w

/-- A waiting anchor entry chooses (R86–R89). -/
def passEntry (e : Entry) (w : Work) : Work :=
  if (w.ent e).state = .awaitResource then
    if (w.ent e).request = .localBus then passBus e w else passTrunk e w
  else w

/-- An anchor entry whose monitor waits for its claim chooses MON, or withdraws its claim; a claim so withdrawn while its
frame is on the line is not ended by that (R90, R92). -/
def passMonitor (e : Entry) (w : Work) : Work :=
  let x := w.ent e
  if x.monitor = .claiming ∧ x.deadline.isSome then
    if w.st.monitorCandidate e then w.upd (oweClaim e 16)
    else if look w.st.rcu.claims e = some 16 then w.upd (unclaim e) else w
  else w

/-- The choice pass: trunks and buses in ascending entry index, then MON (R86). -/
def choicePass (w : Work) : Work :=
  let w := (List.finRange 64).foldl (fun w e => passEntry e w) { w with pass := false }
  (List.finRange 64).foldl (fun w e => passMonitor e w) w

/-! ### Joining the queue (R109) -/

/-- The place of a wave among those that join at one event: by entry index. -/
def Wave.rank (v : Wave) : Nat :=
  match v.owner with
  | .entry e => e.val
  | .sweep => 64
  | .recovery => 65

/-- A wave into a list in ascending entry index, after those of its own rank. -/
def insertWave (v : Wave) : List Wave → List Wave
  | [] => [v]
  | u :: rest => if v.rank < u.rank then v :: u :: rest else u :: insertWave v rest

/-- Waves in ascending entry index. -/
def sortWaves (vs : List Wave) : List Wave := vs.foldl (fun acc v => insertWave v acc) []

/-- The waves of the event join the tail of the queue; where the queue was empty, its head is to be served (R109, R110). Waves
built and HELD waves that resume at one event join as one group (DESIGN CHOICE, notes/assumptions/46.md). -/
def flush (w : Work) : Work :=
  if w.joining.isEmpty then w
  else
    { w with
      st := { w.st with wsu := { w.st.wsu with queue := w.st.wsu.queue ++ sortWaves w.joining } }
      joining := []
      serve := w.serve || w.st.wsu.queue.isEmpty }

/-! ### Service (R110, R113) -/

/-- The entries whose part of the recovery wave had relays before and has none left, ascending (R128). -/
def partsGone (before after : List (Relay × Entry)) : List Entry :=
  (List.finRange 64).filter (fun e =>
    before.any (fun p => decide (p.2 = e)) && !after.any (fun p => decide (p.2 = e)))

/-- Each of some entries is told that its part of the recovery wave has settled (R128). -/
def tellParts (es : List Entry) (w : Work) : Work := es.foldl (fun w e => partSettled e w) w

/-- The sweep has settled: the RM is ready (R10, R125). -/
def ready (w : Work) : Work := w.upd (fun s => { s with rm := { s.rm with ready := true } })

/-- The settle field of a wave is reached, or it pulsed nothing. -/
def Wave.settleReached (v : Wave) (now : Time) : Bool :=
  match v.settle with
  | some t => reached now t
  | none => true

/-- A wave that has made its last pulse enters the settling set; a start wave with nothing left to settle settles at once
(R110, R127, R128). -/
def waveFinished (v : Wave) (w : Work) : Work :=
  let settling := w.upd (fun s => { s with wsu := { s.wsu with settling := s.wsu.settling ++ [v] } })
  match v.owner with
  | .entry _ => settling
  | .sweep => if v.settleReached w.st.now then ready (settleRelays (v.done.map Prod.fst) w) else settling
  | .recovery => if w.st.wsu.recovery = [] then w else settling

/-- The head of the queue is served, and leaves it when it has made its last pulse or its trunk is live (R110, R118). -/
def serveHead (w : Work) : Work :=
  match w.st.wsu.queue with
  | [] => { w with serve := false }
  | v :: rest =>
    let before := w.st.wsu.recovery
    let (s, v', why) := pulseRun v.todo v w.st
    let gone := partsGone before s.wsu.recovery
    match why with
    | .credit =>
      tellParts gone { w with
        st := { s with wsu := { s.wsu with queue := v' :: rest, creditStop := some s.now } }
        serve := false }
    | .finished =>
      tellParts gone (waveFinished v' { w with
        st := { s with wsu := { s.wsu with queue := rest, creditStop := none } } })
    | .live =>
      let w := { w with st := { s with wsu := { s.wsu with queue := rest, creditStop := none } } }
      match v.owner, v.trunk with
      | .entry e, some t => waveMetLive e v' t w
      | _, _ => w

/-- What an event leads to at its own instant: passes and services, and, once the service has stopped, the join of every wave
built so far, until none is due (R109, R110). -/
def settleDown : Nat → Work → Work
  | 0, w => w
  | fuel + 1, w =>
    if w.pass then settleDown fuel (choicePass w)
    else if w.serve && w.st.wsu.credit.isSome then settleDown fuel (serveHead w)
    else if w.joining.isEmpty = false then settleDown fuel (flush w)
    else w

/-- More rounds than one event can take. -/
def rounds : Nat := 4096

/-- The state an event ends in. -/
def finish (w : Work) : State := (settleDown rounds w).st

/-! ### Held waves resume (R119, R131) -/

/-- A held wave's trunk is not live. -/
def State.resumes (s : State) (v : Wave) : Bool :=
  match v.trunk with
  | some t => !s.live t
  | none => true

/-- The hold record of a wave that resumes is kept with held no (R132). -/
def keepHold (v : Wave) (s : State) : State :=
  match v.owner with
  | .entry e => { s with ilu := { s.ilu with
      holds := put s.ilu.holds e ((look s.ilu.holds e).map (fun h => { h with held := false })) } }
  | _ => s

/-- Every HELD wave whose trunk is SAFE rejoins the queue (R119, R131). -/
def resumeHeld (w : Work) : Work :=
  let back := w.st.wsu.held.filter w.st.resumes
  let s := back.foldl (fun s v => keepHold v s) w.st
  { w with
    st := { s with wsu := { s.wsu with held := s.wsu.held.filter (fun v => !w.st.resumes v) } }
    joining := w.joining ++ back }

/-! ### Settle ends (R124, R125, R128) -/

/-- A wave holds a relay among those it has pulsed. -/
def Wave.holds (v : Wave) (r : Relay) : Bool := v.done.any (fun p => decide (p.1 = r))

/-- The crosspoints of a wave, in the order of its list (R125). -/
def Wave.crosspoints (v : Wave) : List Relay := (v.done.map Prod.fst).filter isCrosspoint

/-- The wave of the settling set that settles with a relay, if its settle field is reached: not the recovery wave, which
settles by its parts. -/
def State.settlingWave (s : State) (r : Relay) : Option Wave :=
  s.wsu.settling.find? (fun v => v.holds r && decide (v.owner ≠ .recovery) && v.settleReached s.now)

/-- The recovery wave has made the pulse of a relay (R128). -/
def State.recovered (s : State) (r : Relay) : Bool :=
  (s.wsu.queue ++ s.wsu.settling).any (fun v => decide (v.owner = .recovery) && v.holds r)

/-- A relay of the recovery wave has settled: its part loses it, and the wave's place is freed with its last part (R128). -/
def recoverRelay (r : Relay) (w : Work) : Work :=
  if w.st.recovered r then
    let before := w.st.wsu.recovery
    let after := before.filter (fun p => decide (p.1 ≠ r))
    let settling := if after = [] then w.st.wsu.settling.filter (fun v => decide (v.owner ≠ .recovery)) else w.st.wsu.settling
    tellParts (partsGone before after)
      (w.upd (fun s => { s with wsu := { s.wsu with recovery := after, settling := settling } }))
  else w

/-- A settled wave's owner is told (R125). -/
def tellOwner (v : Wave) (w : Work) : Work :=
  match v.owner with
  | .entry e => waveSettled e v.phase v.crosspoints w
  | .sweep => ready w
  | .recovery => w

/-- A settle end of a relay: the relays of its wave that settle at this instant change, and a wave whose settle field is
reached leaves the settling set and its owner is told (R124, R125). -/
def settle (r : Relay) (w : Work) : Work :=
  match w.st.settlingWave r with
  | some v =>
    let w := settleRelays (v.done.map Prod.fst) w
    tellOwner v (w.upd (fun s => { s with wsu := { s.wsu with
      settling := s.wsu.settling.filter (fun u => decide (u.owner ≠ v.owner)) } }))
  | none => recoverRelay r (settleRelay r w)

/-! ### The credit boundary (R112) -/

/-- A credit boundary falls at this instant and has not been taken. -/
def State.boundaryDue (s : State) : Bool :=
  decide (s.now.toNat % 100 = 0) && !s.wsu.creditTaken && s.wsu.credit.isSome

/-- The meter after a refill (R112). -/
def refilled (c : Configuration) (credit : Nat) : Nat := min c.cmax (credit + c.refill)

/-- The refill, and the service of a head that stopped for credit at an earlier instant (R112, R113). -/
def creditBoundary (w : Work) : Work :=
  let stopped := match w.st.wsu.creditStop with
    | some t => decide (t ≠ w.st.now)
    | none => false
  { w.upd (fun s => { s with wsu := { s.wsu with
      credit := s.wsu.credit.map (refilled s.cfl.config)
      creditTaken := true } }) with
    serve := w.serve || stopped }

end Sys2Proof.Machine
end

