-- ==== Sys2Proof/Machine/Claims.lean ====
section
/-! DEFINITION. The Resource Claim Unit: heard CLAIM, RELEASE, BEACON and CLEAR (R94–R97), clashes and warm-start losses
(R98–R100), the outcomes of the card's own CLAIM, RELEASE and BEACON (R92, R93, R100), and what it does at a beacon-period
boundary (R101–R104) and at the end of a cooling mark (R105). -/

namespace Sys2Proof.Machine

/-! ### The view and the holdings (R84, R85) -/

/-- The state with a view entry replaced. -/
def State.setView (s : State) (r : Resource) (v : ViewEntry) : State :=
  { s with rcu := { s.rcu with view := put s.rcu.view r v } }

/-- A view entry cleared: its cooling mark stays as it is (R84). -/
def ViewEntry.clear (v : ViewEntry) : ViewEntry :=
  { v with holder := none, net := none, claimed := false, misses := 0, refreshed := false }

/-- A holder installed by a CLAIM (R94), or by a BEACON where no net is given (R96); a cooling mark stays. -/
def ViewEntry.install (n : Node) (net : Option (Site × NetId)) (v : ViewEntry) : ViewEntry :=
  { v with holder := some n, net := net, claimed := net.isSome, misses := 0, refreshed := true }

/-- The holder's frame names the resource again (R96, R104). -/
def ViewEntry.refresh (v : ViewEntry) : ViewEntry := { v with misses := 0, refreshed := true }

/-- The card holds r, an owed RELEASE for it and its unconfirmed mark gone with it (R79, R98). -/
def dropHolding (r : Resource) (s : State) : State :=
  { s with rcu := { s.rcu with
      holdings := put s.rcu.holdings r none
      releases := put s.rcu.releases r false
      unconfirmed := put s.rcu.unconfirmed r false } }

/-- Every owed CLAIM of the card for a resource is withdrawn (R94). -/
def withdrawFor (r : Resource) (w : Work) : Work :=
  (List.finRange 64).foldl (fun w e => if look w.st.rcu.claims e = some r then withdrawClaim e w else w) w

/-- BEACON becomes owed, replacing an unsent one (R101). -/
def oweBeacon (s : State) : State := { s with rcu := { s.rcu with beaconOwed := true } }

/-! ### A resource named by another node (R94, R96, R98–R100) -/

/-- What naming does: the holding dropped with its entry and reason, if one is, and whether the view's holder, site or net
changed. -/
structure Naming where
  dropped : Option (Entry × Reason)
  changed : Bool
deriving DecidableEq, Repr

/-- Node n names resource r in a CLAIM (with a net) or a BEACON (without): the RCU's own part, which yields, keeps or loses an
own holding, or installs or refreshes the holder (R94, R96, R98, R99, R100). -/
def named (n : Node) (r : Resource) (net : Option (Site × NetId)) (s : State) : State × Naming :=
  let v := s.viewOf r
  match look s.rcu.holdings r with
  | some e =>
    let clash := captureEntry .claimClash (s.entry e) (some (resourceCode r)) none
    if look s.rcu.unconfirmed r then
      ((dropHolding r s).setView r (v.install n net), ⟨some (e, .resetLostTrunk), true⟩)
    else if n < s.cfl.node then
      (clash ((dropHolding r s).setView r (v.install n net)), ⟨some (e, .claimClash), true⟩)
    else (oweBeacon (clash s), ⟨none, false⟩)
  | none =>
    match net with
    | some sn => (s.setView r (v.install n net), ⟨none, decide (v.holder ≠ some n) || decide (v.net ≠ some sn)⟩)
    | none =>
      if v.holder = none then (s.setView r (v.install n none), ⟨none, true⟩)
      else if v.holder = some n then (s.setView r v.refresh, ⟨none, false⟩)
      else (s, ⟨none, false⟩)

/-- The NE's part of a naming: claims of the card for the resource are withdrawn, the entry whose holding was dropped acts, and
the participants that watch the resource are told (R79, R94, R106, R107). -/
def actNamed (r : Resource) (o : Naming) (w : Work) : Work :=
  let w := if o.changed then { withdrawFor r w with pass := true } else w
  let w := match o.dropped with
    | some (e, reason) => holdingDropped e r reason w
    | none => w
  if o.changed then watch r w else w

/-- The participant entries that wait for a claim of node n for a net (R66). -/
def State.awaitingClaim (s : State) (n : Node) (site : Site) (net : NetId) : List Entry :=
  indices s.ne.entries (fun _ x => decide (x.state = .awaitAnchor) && decide (x.anchor = n)
    && decide (x.site = site) && decide (x.net = net))

/-- A CLAIM from node n (R94, R66). -/
def claimHeard (n : Node) (r : Resource) (site : Site) (net : NetId) (w : Work) : Work :=
  let (s, o) := named n r (some (site, net)) w.st
  let w := actNamed r o { w with st := s }
  match inRange 16 r.val with
  | some t => (w.st.awaitingClaim n site net).foldl (fun w e => participantClaim e t w) w
  | none => w

/-- A view entry held by node n is cleared, with no cooling (R95, R96). -/
def clearView (n : Node) (r : Resource) (s : State) : State × Naming :=
  if (s.viewOf r).holder = some n then (s.setView r (s.viewOf r).clear, ⟨none, true⟩) else (s, ⟨none, false⟩)

/-- A RELEASE from node n (R95). -/
def releaseHeard (n : Node) (r : Resource) (w : Work) : Work :=
  let (s, o) := clearView n r w.st
  actNamed r o { w with st := s }

/-- The RCU's part of a BEACON for one resource (R96). -/
def beaconResource (n : Node) (mask : BitVec 24) (r : Resource) (s : State) : State × Naming :=
  if mask.getLsbD r.val then named n r none s else clearView n r s

/-- The RCU's part of a BEACON, resource by resource, with what each naming led to (R96, R107). -/
def beaconView (n : Node) (mask : BitVec 24) : List Resource → State → State × List (Resource × Naming)
  | [], s => (s, [])
  | r :: rest, s =>
    let (s1, o) := beaconResource n mask r s
    let (s2, os) := beaconView n mask rest s1
    (s2, (r, o) :: os)

/-- A BEACON from node n: the whole view first, then each report to the NE (R96, R107). -/
def beaconHeard (n : Node) (mask : BitVec 24) (w : Work) : Work :=
  let (s, os) := beaconView n mask (List.finRange 17) w.st
  os.foldl (fun w p => actNamed p.1 p.2 w) { w with st := s }

/-- A CLEAR: a RELEASE_BLOCKED entry that holds the resource empties its awaited set and owes its RELEASEs (R74, R97). -/
def clearHeard (r : Resource) (w : Work) : Work :=
  match look w.st.rcu.holdings r with
  | some e =>
    if (w.ent e).state = .releaseBlocked then handshake e (w.modEnt e (fun x => { x with awaited := [] })) else w
  | none => w

/-! ### Outcomes of the card's own frames (R92, R93, R100–R102) -/

/-- The holding and the view entry a CLAIM sent without objection gives (R92). -/
def addHolding (e : Entry) (r : Resource) (net : Site × NetId) (s : State) : State :=
  let s := s.setView r { s.viewOf r with
    holder := some s.cfl.node, net := some net, claimed := true, misses := 0, refreshed := false }
  { s with rcu := { s.rcu with
      holdings := put s.rcu.holdings r (some e)
      unconfirmed := put s.rcu.unconfirmed r false
      claims := put s.rcu.claims e none } }

/-- A MON CLAIM has been sent without objection: CLOSING while its wait runs; otherwise RELEASE MON is owed at once, with
REFUSED MON_BUSY where the wait had passed (R81, R82, R92). -/
def monitorClaimed (e : Entry) (withdrawn : Bool) (w : Work) : Work :=
  let x := w.ent e
  if withdrawn then w.upd (oweReleaseMon e)
  else if x.monitor = .claiming ∧ x.deadline.isSome then
    buildWave e .monitorClose (w.modEnt e (fun x => { x with monitor := .closing, deadline := none }))
  else if x.monitor = .claiming then
    ((w.modEnt e (fun x => { x with monitor := .off })).upd (oweReleaseMon e)).upd (oweRefused e .monBusy)
  else w.upd (oweReleaseMon e)

/-- A trunk CLAIM has been sent without objection: the waiting entry connects, an abandoned one goes on with its handshake
(R65, R73, R75, R92). -/
def trunkClaimed (e : Entry) (t : Trunk) (w : Work) : Work :=
  match (w.ent e).state with
  | .awaitResource => connectInner e (w.modEnt e (fun x => { x with resource := some (.trunk t) }))
  | _ => handshake e w

/-- The card's CLAIM has been sent without objection (R92). -/
def claimSent (e : Entry) (r : Resource) (withdrawn : Bool) (w : Work) : Work :=
  let x := w.ent e
  let w := { w.upd (addHolding e r (x.site, x.net)) with pass := true }
  match inRange 16 r.val with
  | some t => trunkClaimed e t w
  | none => handshake e (monitorClaimed e withdrawn w)

/-- The claim of an abandoned entry is withdrawn with the outcome of its frame: its resource field is cleared where it names
a trunk that the entry does not hold (R75, R91). -/
def dropClaimed (e : Entry) (w : Work) : Work :=
  let x := w.ent e
  match x.trunk with
  | some t =>
    if (x.state = .awaitOpened ∨ x.state = .releaseBlocked) ∧ look w.st.rcu.holdings (trunkResource t) ≠ some e then
      { w.modEnt e (fun x => { x with resource := none }) with pass := true }
    else w
  | none => w

/-- The card's CLAIM is no longer on the line and was not sent: an entry that waited for its outcome acts (R75, R81, R92). -/
def claimOff (e : Entry) (w : Work) : Work :=
  let x := w.ent e
  if x.monitor = .claiming ∧ x.deadline = none then
    { (w.upd (endClaim e)).modEnt e (fun x => { x with monitor := .off }) with pass := true }.upd (oweRefused e .monBusy)
  else tryFree e (dropClaimed e w)

/-- The card's CLAIM was objected: a choice pass follows (R86, R92). -/
def claimObjected (e : Entry) (w : Work) : Work := { claimOff e w with pass := true }

/-- The card's RELEASE has been sent without objection (R93). -/
def releaseSent (e : Entry) (r : Resource) (w : Work) : Work :=
  let held := decide (look w.st.rcu.holdings r = some e)
  let own := decide ((w.st.viewOf r).holder = some w.st.cfl.node)
  let w := if held then w.upd (dropHolding r) else w
  let w := if held || own then
      watch r { w.upd (fun s => s.setView r (s.viewOf r).clear) with pass := true }
    else w
  if held then tryFree e w else w

/-- The card's BEACON has been sent without objection: kept holdings are confirmed (R100–R102, R184). -/
def beaconSent (s : State) : State :=
  { s with
    rcu := { s.rcu with beaconOwed := false, beaconSent := true, unconfirmed := fill 17 false }
    cfl := { s.cfl with firstBeacon := false } }

/-! ### Beacon-period boundaries (R101–R104) -/

/-- The beacon failure count after a boundary (R102). -/
def failureCount (sent : Bool) (count : Nat) : Nat := if sent then 0 else min 2 (count + 1)

/-- A view entry of another holder at a boundary (R104). -/
def agedView (now : Time) (period : Nat) (v : ViewEntry) : ViewEntry :=
  if v.refreshed then { v with refreshed := false }
  else if v.misses + 1 < 3 then { v with misses := v.misses + 1 }
  else { v.clear with cooling := some (laterMs now period) }

/-- The view after aging: own holdings and cleared entries are not aged (R104). An entry is taken for an own holding's by the
holder it shows, which differs from the holdings after a warm keep that reads another node number (DESIGN CHOICE,
notes/assumptions/55.md). -/
def ageView (s : State) : State :=
  { s with rcu := { s.rcu with view := each (fun _ v =>
      if v.holder = none ∨ v.holder = some s.cfl.node then v
      else agedView s.now s.cfl.config.period v) s.rcu.view } }

/-- The resources whose holder differs between two states. -/
def changedHolders (s s' : State) : List Resource :=
  (List.finRange 17).filter (fun r => decide ((s.viewOf r).holder ≠ (s'.viewOf r).holder))

/-- Changes of the view are reported to the NE, resource by resource (R106). -/
def reportChanges (rs : List Resource) (w : Work) : Work :=
  rs.foldl (fun w r => actNamed r ⟨none, true⟩ w) w

/-- The resources in the card's own holdings, ascending, each with its entry. -/
def State.ownHoldings (s : State) : List (Resource × Entry) :=
  (List.finRange 17).filterMap (fun r => (look s.rcu.holdings r).map (fun e => (r, e)))

/-- The RCU's own part of a self-open: every holding and its view entry go, SELF_OPEN is captured and noted (R103). -/
def dropAll (s : State) : State :=
  let own := s.ownHoldings
  let s := own.foldl (fun s p => (dropHolding p.1 s).setView p.1 (s.viewOf p.1).clear) s
  pendNote noteSelfOpen (BitVec.ofNat 16 own.length) (capture ⟨.selfOpen, none, none, none, none⟩ s)

/-- The card self-opens (R103): nothing happens where it holds nothing. -/
def selfOpen (w : Work) : Work :=
  let own := w.st.ownHoldings
  if own = [] then w
  else
    let w := { w.upd dropAll with pass := true }
    own.foldl (fun w p => actNamed p.1 ⟨some (p.2, .selfOpen), true⟩ w) w

/-- What the RCU does at a beacon-period boundary (R101): the failure count, the BEACON, the aging, and then the self-open. -/
def rcuBoundary (w : Work) : Work :=
  let before := w.st
  let w := w.upd (fun s => ageView { s with rcu := { s.rcu with
    failures := failureCount s.rcu.beaconSent s.rcu.failures
    beaconSent := false
    beaconOwed := true } })
  let w := reportChanges (changedHolders before w.st) w
  if w.st.rcu.failures = 2 then selfOpen w else w

/-! ### Cooling (R105) -/

/-- The cooling mark of a resource is reached. -/
def State.coolingDue (s : State) (r : Resource) : Bool :=
  match (s.viewOf r).cooling with
  | some t => reached s.now t
  | none => false

/-- The cooling mark is removed, and a choice pass follows (R105). -/
def coolingEnd (r : Resource) (w : Work) : Work :=
  { w.upd (fun s => s.setView r { s.viewOf r with cooling := none }) with pass := true }

end Sys2Proof.Machine
end

