-- ==== Sys2Proof/Machine/Queues.lean ====
section
/-! DEFINITION. The Site Queue Unit: records and circular queues (R39–R41), staging (R42–R45), the other requests (R46–R49,
R52), the room test (R48), and the dispatch arbiter (R50, R54–R58). -/

namespace Sys2Proof.Machine

/-! ### Records and queues (R39, R40) -/

/-- The size of a record in words (R39). -/
def QueueBody.words : QueueBody → Nat
  | .route r => 2 + (r.pins.length + 3) / 4
  | .unroute _ => 1
  | .monitor _ _ => 1
  | .fence _ => 1

/-- The queue of a site. -/
def State.queueOf (s : State) (site : Site) : SiteQueue := look s.squ.queues site

/-- The state with a site's queue replaced. -/
def State.setQueue (s : State) (site : Site) (q : SiteQueue) : State :=
  { s with squ := { s.squ with queues := put s.squ.queues site q } }

/-- The parameters of a site (R37). -/
def State.siteParams (s : State) (site : Site) : SiteParams := look s.cfl.config.sites site

/-- The size of an area in words. -/
def areaSize (p : SiteParams) : Nat := p.stop - p.start

/-- The word some words after another in an area: after the last comes the start (R39). -/
def wrapWord (p : SiteParams) (word : Nat) : Nat := if p.stop ≤ word then word - areaSize p else word

/-- The room of a queue: the area's size less its used count (R39). -/
def SiteQueue.room (p : SiteParams) (q : SiteQueue) : Nat := areaSize p - q.used

/-- A record goes in at the tail (R40). -/
def SiteQueue.push (p : SiteParams) (b : QueueBody) (q : SiteQueue) : SiteQueue :=
  { q with
    tail := wrapWord p (q.tail + b.words)
    used := q.used + b.words
    records := q.records ++ [⟨b, false⟩] }

/-- The head record leaves (R40). -/
def SiteQueue.drop (p : SiteParams) (q : SiteQueue) : SiteQueue :=
  match q.records with
  | [] => q
  | r :: rest =>
    { q with head := wrapWord p (q.head + r.body.words), used := q.used - r.body.words, records := rest }

/-- Removed records at the head are skipped (R40). -/
def SiteQueue.skip (p : SiteParams) : Nat → SiteQueue → SiteQueue
  | 0, q => q
  | fuel + 1, q => match q.records with
    | r :: _ => if r.removed then SiteQueue.skip p fuel (q.drop p) else q
    | [] => q

/-- The removed records at the head of a queue all go. -/
def SiteQueue.settle (p : SiteParams) (q : SiteQueue) : SiteQueue := q.skip p q.records.length

/-- A record is written where its queue has room for it; without room it is dropped (R40, R48). -/
def writeRecord (site : Site) (b : QueueBody) (s : State) : State :=
  let p := s.siteParams site
  if b.words ≤ (s.queueOf site).room p then s.setQueue site ((s.queueOf site).push p b) else s

/-- The record is a ROUTE record of a net without the removed mark. -/
def QueueRecord.routes (n : NetId) (r : QueueRecord) : Bool :=
  match r.body with
  | .route x => decide (x.net = n) && !r.removed
  | _ => false

/-- The record is a ROUTE record of a net with role ANCHOR and without the removed mark. -/
def QueueRecord.anchors (n : NetId) (r : QueueRecord) : Bool :=
  match r.body with
  | .route x => decide (x.net = n) && decide (x.role = .anchor) && !r.removed
  | _ => false

/-- The oldest ROUTE record of a net takes the removed mark (R49). -/
def removeOldest (n : NetId) : List QueueRecord → List QueueRecord
  | [] => []
  | r :: rest => if r.routes n then { r with removed := true } :: rest else r :: removeOldest n rest

/-- A CANCEL purges the oldest queued ROUTE record of its net; removed records that stand at the head are skipped at once
(R40, R49). -/
def purge (site : Site) (n : NetId) (s : State) : State :=
  let q := s.queueOf site
  s.setQueue site ({ q with records := removeOldest n q.records }.settle (s.siteParams site))

/-! ### Staging (R42–R45) -/

/-- A number into an ascending list with no repeats. -/
def insertFin {n : Nat} (x : Fin n) : List (Fin n) → List (Fin n)
  | [] => [x]
  | a :: rest => if x = a then a :: rest else if x < a then x :: a :: rest else a :: insertFin x rest

/-- One endpoint joins a staging record (R43). -/
def Staging.add (me : Node) (g : Staging) (p : Node × Pin) : Staging :=
  { g with
    nodes := insertFin p.1 g.nodes
    pins := if p.1 = me then insertFin p.2 g.pins else g.pins }

/-- The state with a site's staging record replaced. -/
def State.setStaging (s : State) (site : Site) (g : Option Staging) : State :=
  { s with squ := { s.squ with staging := put s.squ.staging site g } }

/-- A refusal of the SQU, in the site STATUS mark, with no resource and no relay (R44, R45). -/
def refuseSite (site : Site) (n : NetId) (reason : Reason) (s : State) : State :=
  oweSite ⟨site, n, .refused, reason, none, none⟩ s

/-- An OPEN staging breaks: a card with staged pins reports INCOMPLETE (R44). -/
def breakStaging (site : Site) (s : State) : State :=
  match look s.squ.staging site with
  | none => s
  | some g =>
    let s := s.setStaging site none
    if g.pins = [] then s else refuseSite site g.net .incomplete s

/-- A ROUTE frame of a net continues a staging (R43). -/
def Staging.continues (g : Staging) (n : NetId) (fl : RouteFlags) (q : Request) : Bool :=
  decide (g.net = n) && decide (g.flags = fl) && decide (g.request = q) && decide (g.frames < 8)

/-- The lowest endpoint node of a staging record is its least node (R42). -/
def Staging.lowest (g : Staging) (me : Node) : Node := g.nodes.headD me

/-- The ROUTE record of a committed staging (R45). -/
def Staging.record (me : Node) (g : Staging) : RouteRecord where
  net := g.net
  flags := g.flags
  request := g.request
  role := if g.lowest me = me then .anchor else .participant
  anchor := g.lowest me
  peers := if g.lowest me = me then g.nodes.filter (fun n => decide (n ≠ me)) else []
  pins := g.pins

/-- Why a commit refuses a route in which the card takes part, by the checks in their order (R45). -/
def commitRefusal (valid : Bool) (g : Staging) : Option Reason :=
  if valid = false then some .siteInvalid
  else if g.request = .localBus ∧ 1 < g.nodes.length then some .badRoute
  else if g.request = .localBus ∧ g.pins.length < 2 then some .badRoute
  else none

/-- A staging commits (R45): nothing for a card that takes no part, a refusal, or a ROUTE record. -/
def commit (site : Site) (g : Staging) (s : State) : State :=
  if g.pins = [] then s
  else match commitRefusal (look s.squ.valid site) g with
    | some reason => refuseSite site g.net reason s
    | none => writeRecord site (.route (g.record s.cfl.node)) s

/-- What a ROUTE frame leaves staged: the record continued, or opened afresh, with the frame's endpoints added (R43). -/
def stagedWith (me : Node) (old : Option Staging) (fl : RouteFlags) (q : Request) (n : NetId) (ends : List (Node × Pin)) :
    Staging :=
  let base := match old with
    | some g => if g.continues n fl q then { g with frames := g.frames + 1 } else ⟨n, fl, q, 1, [], []⟩
    | none => ⟨n, fl, q, 1, [], []⟩
  ends.foldl (fun g p => g.add me p) base

/-- A ROUTE frame breaks an OPEN staging that it does not continue (R43, R44). -/
def breakUnless (site : Site) (fl : RouteFlags) (q : Request) (n : NetId) (s : State) : State :=
  match look s.squ.staging site with
  | some g => if g.continues n fl q then s else breakStaging site s
  | none => s

/-- A ROUTE frame dispatched to the SQU (R43–R45). -/
def routeHeard (site : Site) (more : Bool) (fl : RouteFlags) (q : Request) (n : NetId) (ends : List (Node × Pin)) (s : State) :
    State :=
  let s := breakUnless site fl q n s
  let g := stagedWith s.cfl.node (look s.squ.staging site) fl q n ends
  if more then s.setStaging site (some g) else commit site g (s.setStaging site none)

/-! ### Other requests (R46, R47, R49, R52) -/

/-- The queue of a site holds a record that meets a test. -/
def State.queued (s : State) (site : Site) (p : QueueRecord → Bool) : Bool := (s.queueOf site).records.any p

/-- An UNROUTE finds something to act on (R46). -/
def State.unrouteQueues (s : State) (site : Site) (n : NetId) : Bool :=
  (s.findNet site n).isSome || s.queued site (QueueRecord.routes n)

/-- A MONITOR finds something to act on (R46). -/
def State.monitorQueues (s : State) (site : Site) (n : NetId) : Bool :=
  (s.anchorOf site n).isSome || s.queued site (QueueRecord.anchors n)

/-- An UNROUTE frame dispatched to the SQU (R46). -/
def unrouteHeard (site : Site) (n : NetId) (s : State) : State :=
  let s := breakStaging site s
  if look s.squ.valid site && s.unrouteQueues site n then writeRecord site (.unroute n) s else s

/-- A MONITOR frame dispatched to the SQU (R46). -/
def monitorHeard (site : Site) (n : NetId) (on : Bool) (s : State) : State :=
  let s := breakStaging site s
  if look s.squ.valid site && s.monitorQueues site n then writeRecord site (.monitor n on) s else s

/-- A FENCE frame dispatched to the SQU: an INVALID site is answered at once (R47). -/
def fenceHeard (site : Site) (token : Fin 255) (s : State) : State :=
  let s := breakStaging site s
  if look s.squ.valid site then writeRecord site (.fence token) s else oweReady site token.val 0 s

/-- The SQU's part of an ABORT: queue and staging are emptied, and READY 255 waits for its moment (R52). -/
def emptySite (site : Site) (s : State) : State :=
  { s with squ := { s.squ with
      queues := put s.squ.queues site (SiteQueue.empty (s.siteParams site).start)
      staging := put s.squ.staging site none
      abortWait := put s.squ.abortWait site true } }

/-- An ABORT: the SQU, then each entry of the site, then the moment of READY 255 where it has come (R52, R139, R143). -/
def abortHeard (site : Site) (w : Work) : Work :=
  (abortSite site (w.upd (emptySite site))).upd (abortReady site)

/-- The participant entry a CANCEL of node n acts on (R77). -/
def State.cancels (s : State) (n : Node) (site : Site) (net : NetId) : Option Entry :=
  (s.findNet site net).filter (fun e =>
    decide ((s.entry e).role = .participant) && decide ((s.entry e).anchor = n))

/-- A CANCEL from node n: the SQU purges a queued ROUTE record, the NE acts on the participant entry (R49, R77). -/
def cancelHeard (n : Node) (site : Site) (net : NetId) (w : Work) : Work :=
  let w := w.upd (purge site net)
  match w.st.cancels n site net with
  | some e => cancelEntry e w
  | none => w

/-! ### Room (R48) -/

/-- The record a request frame would write, judged on a state: none for a frame that writes no record (R48). -/
def wouldWrite (s : State) (m : Msg) : Option (Site × QueueBody) :=
  match m with
  | .route site more fl q n ends =>
    let s := breakUnless site fl q n s
    let g := stagedWith s.cfl.node (look s.squ.staging site) fl q n ends
    if more || g.pins.isEmpty || (commitRefusal (look s.squ.valid site) g).isSome then none
    else some (site, .route (g.record s.cfl.node))
  | .unroute site n => if look s.squ.valid site && s.unrouteQueues site n then some (site, .unroute n) else none
  | .monitor site n on => if look s.squ.valid site && s.monitorQueues site n then some (site, .monitor n on) else none
  | .fence site token => if look s.squ.valid site then some (site, .fence token) else none
  | _ => none

/-- A request frame lacks room (R48). -/
def State.lacksRoom (s : State) (m : Msg) : Bool :=
  match wouldWrite s m with
  | some (site, b) => decide ((s.queueOf site).room (s.siteParams site) < b.words)
  | none => false

/-! ### Areas (R38) -/

/-- Two areas share a word. -/
def areasOverlap (a b : SiteParams) : Bool := decide (a.start < b.stop) && decide (b.start < a.stop)

/-- An area meets the tests that do not look at other areas (R38). -/
def areaSound (p : SiteParams) : Bool :=
  decide (p.start < p.stop) && decide (p.stop ≤ 1024) && decide (16 ≤ areaSize p)

/-- The areas tested in site order against those already found VALID (R38). -/
def validFrom : List SiteParams → List SiteParams → List Bool
  | _, [] => []
  | found, p :: rest =>
    let ok := areaSound p && found.all (fun f => !areasOverlap p f)
    ok :: validFrom (if ok then p :: found else found) rest

/-- Which areas are VALID (R38). -/
def validAreas (sites : Table 8 SiteParams) : Table 8 Bool :=
  let oks := validFrom [] sites.toList
  Vector.ofFn (fun s => oks.getD s.val false)

/-! ### The arbiter (R50, R54–R58) -/

/-- The head record of a queue is eligible (R54). -/
def State.headEligible (s : State) (site : Site) : Bool :=
  match (s.queueOf site).records with
  | [] => false
  | r :: _ => match r.body with
    | .route _ => s.rm.ready && s.freeIndex.isSome
    | .unroute _ => true
    | .monitor _ _ => true
    | .fence _ => decide (s.countEntries site EntryState.transitional = 0)

/-- A site is eligible for dispatch (R54). -/
def State.eligible (s : State) (site : Site) : Bool :=
  s.running && !s.cfl.listen && look s.squ.valid site && s.headEligible site

/-- The sites in the order of the rotation after the one last served (R56). -/
def rotation (last : Option Site) : List Site :=
  match last with
  | none => List.finRange 8
  | some l => (List.finRange 8).map (fun i => l + 1 + i)

/-- The eligible site of a class that comes next (R56). -/
def State.nextSite (s : State) (c : Fin 4) : Option Site :=
  (rotation (look s.squ.lastServed c)).find? (fun i => s.eligible i && decide ((s.siteParams i).cls = c))

/-- The lowest class that meets a test and has an eligible site, with that site. -/
def State.nextClass (s : State) (p : Fin 4 → Bool) : Option (Fin 4 × Site) :=
  (List.finRange 4).findSome? (fun c => if p c then (s.nextSite c).map (fun i => (c, i)) else none)

/-- A new round: every class's budget is its weight (R57). -/
def newRound (s : State) : State := { s with squ := { s.squ with budgets := s.cfl.config.weights } }

/-- The class and site the arbiter selects, with the state in which it serves them: in WEIGHTED mode a new round starts where
no eligible site has budget (R56, R57). -/
def select (s : State) : Option (Fin 4 × Site × State) :=
  if s.cfl.config.weighted then
    match s.nextClass (fun c => decide (0 < look s.squ.budgets c)) with
    | some (c, i) => some (c, i, s)
    | none =>
      let s := newRound s
      (s.nextClass (fun c => decide (0 < look s.squ.budgets c))).map (fun p => (p.1, p.2, s))
  else (s.nextClass (fun _ => true)).map (fun p => (p.1, p.2, s))

/-- The selection is noted: the class's last-served site, and in WEIGHTED mode one unit of its budget (R56, R57). -/
def noteServed (c : Fin 4) (i : Site) (s : State) : State :=
  { s with squ := { s.squ with
      lastServed := put s.squ.lastServed c (some i)
      budgets := if s.cfl.config.weighted then put s.squ.budgets c (look s.squ.budgets c - 1) else s.squ.budgets } }

/-- A record leaves its queue and acts: the NE takes it, or a FENCE passes (R50, R55). -/
def actRecord (site : Site) (b : QueueBody) (w : Work) : Work :=
  match b with
  | .route r => dispatchRoute site r w
  | .unroute n => match w.st.findNet site n with
    | some e => unrouteEntry e w
    | none => w
  | .monitor n on => dispatchMonitor site n on w
  | .fence token => w.upd (fun s => oweReady site token.val (s.countEntries site (fun q => decide (q ≠ .free))) s)

/-- The head record of a site leaves the queue, removed records behind it with it (R40, R55). -/
def popHead (site : Site) (s : State) : State :=
  let p := s.siteParams site
  s.setQueue site (((s.queueOf site).drop p).settle p)

/-- One dispatch of the arbiter, where some site is eligible (R55). -/
def arbitrate (w : Work) : Work :=
  match select w.st with
  | none => w
  | some (c, i, s) =>
    match (s.queueOf i).records with
    | [] => w
    | r :: _ => actRecord i r.body { w with st := popHead i (noteServed c i s), pass := true }

end Sys2Proof.Machine
end

