-- ==== Sys2Proof/Machine/Link.lean ====
section
/-! DEFINITION. The Link Interface Unit: owed frames and their selection (R35, R36), the start of a frame (R20, R21, R26), lost
contention and readback faults (R21, R23), objection and delivery (R24, R25, R29–R31), the roster (R33, R34), and the dispatch
of a heard frame to the blocks (R26–R28, R32). -/

namespace Sys2Proof.Machine

/-! ### Owed frames (R35, R36) -/

/-- The state with the LIU's own fields changed. -/
def State.updLiu (f : Liu → Liu) (s : State) : State := { s with liu := f s.liu }

/-- The owed RELEASE marks of an entry, lower resource first (R93). -/
def State.releaseMarks (s : State) (e : Entry) : List Owed :=
  ((s.held e).filter (fun r => look s.rcu.releases r)).map (fun r => .release e r)

/-- Every owed mark, in the order in which the LIU takes them: by kind, entries before others, then as R36, R62, R93, R161 and
R178 give. -/
def State.owedMarks (s : State) : List Owed :=
  (List.finRange 64).filterMap (fun e => (look s.rcu.claims e).map (fun r => .claim e r))
  ++ (List.finRange 64).flatMap s.releaseMarks
  ++ (indices s.ne.cancel (fun _ m => m.isSome)).map .cancel
  ++ (if s.rcu.beaconOwed then [.beacon] else [])
  ++ (indices s.ne.status (fun _ m => m.isSome)).map .status
  ++ (indices s.ne.siteStatus (fun _ m => m.isSome)).map .siteStatus
  ++ (indices s.squ.ready (fun _ m => m.isSome)).map .ready
  ++ (indices s.fcu.notes (fun _ m => m.isSome)).map .note
  ++ (if s.wru.answer.isSome then [.wearAnswer] else [])
  ++ (if s.wru.saveEnd.isSome then [.saveEnd] else [])
  ++ (if s.fcu.answer.isSome then [.faultAnswer] else [])

/-- The mark the LIU chooses (R36): none in MUTED and DUPLICATE_LATCH, and during the listen period only the first BEACON
after a warm keep (R184). -/
def State.chosen (s : State) : Option Owed :=
  if s.liu.link ≠ .active then none
  else if s.cfl.listen then (if s.cfl.firstBeacon && s.rcu.beaconOwed then some .beacon else none)
  else s.owedMarks.head?

/-- The kind of the frame behind a mark. -/
def Owed.kind : Owed → Kind
  | .claim _ _ => .claim
  | .release _ _ => .release
  | .cancel _ => .cancel
  | .beacon => .beacon
  | .status _ => .status
  | .siteStatus _ => .status
  | .ready _ => .ready
  | .note _ => .note
  | .wearAnswer => .maintDone
  | .saveEnd => .maintDone
  | .faultAnswer => .maintDone

/-- The payload of the frame behind a mark as the state stands (R191). -/
def State.payloadOf (s : State) : Owed → List Byte
  | .claim e r => byte r.val :: siteNetBytes (s.entry e).site (s.entry e).net
  | .release e r => byte r.val :: siteNetBytes (s.entry e).site (s.entry e).net
  | .cancel e => (look s.ne.cancel e).elim [] (fun p => siteNetBytes p.1 p.2)
  | .beacon => beaconPayload s.rcu.holdings
  | .status e => (look s.ne.status e).elim [] statusPayload
  | .siteStatus i => (look s.ne.siteStatus i).elim [] statusPayload
  | .ready i => (look s.squ.ready i).elim [] (readyPayload i)
  | .note c => (look s.fcu.notes c).elim [] (fun d => byte c.val :: bytes2 d.toNat)
  | .wearAnswer => s.wru.answer.elim [] maintPayload
  | .saveEnd => s.wru.saveEnd.elim [] maintPayload
  | .faultAnswer => s.fcu.answer.elim [] maintPayload

/-- The frame behind a mark, its content fixed from the state (R21). -/
def State.frameOf (s : State) (m : Owed) : Frame := ownFrame s.cfl.node m.kind (s.payloadOf m)

/-! ### Starting a frame (R20, R21, R26) -/

/-- A frame of the part as it starts now from an owed mark: its content and its check fixed (R19, R21). -/
def State.ownFrameOf (s : State) (m : Owed) : OwnFrame :=
  let f := s.frameOf m
  ⟨m, f, frameCheck f.prio f.kind f.src f.payload.length f.payload, s.now, false, false⟩

/-- The part starts the frame it has chosen, if it owes one (R21, R36). -/
def startFrame (s : State) : State :=
  match s.chosen with
  | none => s
  | some m => s.updLiu (fun u => { u with own := some (s.ownFrameOf m) })

/-- The part drives the line in the bit time that begins now, so that LINK_EN is asserted (R17): its own frame has a driven bit
there, or it drives the two bits of an objection slot (R24). In a reset and in DUPLICATE_LATCH it drives nothing (R31, R180). -/
def State.linkDriven (s : State) : Bool :=
  decide (s.cfl.phase ≠ .inReset) && decide (s.liu.link ≠ .duplicateLatch) && (match s.liu.own, s.liu.hearing with
    | some o, _ => !((sentBits o.frame o.check).getD (s.now - o.start).toNat true)
    | none, some h => h.objecting && decide ((s.now - h.slot).toNat < 2)
    | none, none => false)

/-- The line is idle as far as the part can tell: it sends nothing and has no heard frame before its objection slot. -/
def State.quietLine (s : State) : Bool := s.running && s.liu.own.isNone && s.liu.hearing.isNone

/-- The released bit times of idle counted so far, up to the 11 of the idle point (R17, R20). -/
def State.idleCount (s : State) : Nat :=
  if s.liu.idle then 11 else if reached s.now s.liu.idleFrom then min 11 (s.now - s.liu.idleFrom).toNat else 0

/-- The idle point is reached: 11 released bit times have been counted on an idle line (R20). -/
def State.idleReached (s : State) : Bool := s.quietLine && decide (s.idleCount = 11)

/-- The idle point (R20): a frame is started unless the receive buffer holds one delivered before it (R26). -/
def idlePoint (s : State) : State :=
  if s.idleReached then
    let s := s.updLiu (fun u => { u with synced := true, idle := true, discarding := false })
    if s.liu.rx = [] then startFrame s else s
  else s

/-- A later bit time of the same idle line, at which the receive buffer is empty (R21, R26). -/
def deferredStart (s : State) : State :=
  if s.quietLine && s.liu.synced && s.liu.idle && s.liu.rx.isEmpty then startFrame s else s

/-! ### The part's own frame (R21, R23, R25, R29) -/

/-- The line is no longer the part's, and the count of idle bits starts afresh at an instant (R20). -/
def leaveLine (idle : Time) (s : State) : State := s.updLiu (fun u => { u with own := none, idle := false, idleFrom := idle })

/-- The end of the end bits after an objection slot that has just been read (R18, R20). -/
def State.afterEnd (s : State) : Time := later s.now 7

/-- The earliest instant from which idle bits count once the part has left the line within a frame: the shortest frame has ended,
and it is not in the past (R18, R20; DEDUCED, notes/assumptions/51.md). -/
def State.frameOver (s : State) (o : OwnFrame) : Time :=
  if reached s.now (later o.start shortestFrame) then s.now else later o.start shortestFrame

/-- A frame off the line with no outcome: an ended CLAIM is treated as not sent (R75, R91, R92). -/
def offLine (m : Owed) (w : Work) : Work :=
  match m with
  | .claim e _ => claimOff e w
  | _ => w

/-- A lost contention (R21): the part stops driving and keeps its mark. -/
def lostContention (s : State) : State :=
  match s.liu.own with
  | some o => if s.running then finish (offLine o.owed (Work.start (leaveLine (s.frameOver o) s))) else s
  | none => s

/-- An objection of which no bit has been driven yet is not made (R31): the slot begins at this instant. One whose first bit has
been driven has voided the frame (R25; DEDUCED, notes/assumptions/53.md). -/
def Hearing.silenced (now : Time) (h : Hearing) : Hearing := if h.slot = now then { h with objecting := false } else h

/-- The LIU enters DUPLICATE_LATCH, with both counts at 0 and no objection from then on, and DUPLICATE_NODE is captured (R23, R28,
R31). -/
def latch (k : Kind) (s : State) : State :=
  captureDuplicate k (s.updLiu (fun u => { u with
    link := .duplicateLatch, objections := 0, cleans := 0, hearing := u.hearing.map (Hearing.silenced s.now) }))

/-- What follows of the abandoned frame is discarded (R23). -/
def discardRest (s : State) : State := s.updLiu (fun u => { u with discarding := true })

/-- A readback fault (R23): the frame is abandoned, what follows of it is discarded, its mark stays set, and the LIU latches. -/
def readbackFault (s : State) : State :=
  match s.liu.own with
  | some o =>
    if s.running then
      finish (offLine o.owed (Work.start
        (latch o.frame.kind (discardRest (leaveLine (s.frameOver o) s)))))
    else s
  | none => s

/-- A table with one mark cleared. -/
def clearMark {α : Type} {n : Nat} (i : Fin n) (t : Table n (Option α)) : Table n (Option α) := put t i none

/-- The marks of a frame sent without objection are cleared unless they were set anew meanwhile (R25, R62, R179). -/
def clearSent (o : OwnFrame) (s : State) : State :=
  if o.renewed then s
  else match o.owed with
    | .cancel e => { s with ne := { s.ne with cancel := clearMark e s.ne.cancel } }
    | .status e => { s with ne := { s.ne with status := clearMark e s.ne.status } }
    | .siteStatus i => { s with ne := { s.ne with siteStatus := clearMark i s.ne.siteStatus } }
    | .ready i => { s with squ := { s.squ with ready := clearMark i s.squ.ready } }
    | .note c => { s with fcu := { s.fcu with notes := clearMark c s.fcu.notes } }
    | .wearAnswer => { s with wru := { s.wru with answer := none } }
    | .saveEnd => { s with wru := { s.wru with saveEnd := none } }
    | .faultAnswer => { s with fcu := { s.fcu with answer := none } }
    | .claim _ _ => s
    | .release _ _ => s
    | .beacon => s

/-- The producing block of a frame sent without objection acts on it (R25). -/
def sent (o : OwnFrame) (w : Work) : Work :=
  let w := w.upd (clearSent o)
  match o.owed with
  | .claim e r => claimSent e r o.withdrawn w
  | .release e r => releaseSent e r w
  | .beacon => w.upd beaconSent
  | .status e => takeFaulted e w
  | _ => w

/-- The producing block of an objected frame acts on it (R25, R92). -/
def objected (o : OwnFrame) (w : Work) : Work :=
  match o.owed with
  | .claim e _ => claimObjected e w
  | _ => w

/-- The consecutive-objection count after one more objected frame; at 16 the LIU enters MUTED (R29). -/
def countObjection (s : State) : State :=
  if s.liu.link ≠ .active then s
  else if s.liu.objections + 1 < 16 then s.updLiu (fun u => { u with objections := u.objections + 1 })
  else
    capture ⟨.muted, none, none, none, none⟩
      (s.updLiu (fun u => { u with link := .muted, objections := 0, cleans := 0 }))

/-- The outcome of the part's own frame (R25, R29). -/
def ownOutcome (o : OwnFrame) (driven : Bool) (s : State) : State :=
  let s := leaveLine s.afterEnd s
  if driven then finish (objected o (Work.start (countObjection s)))
  else finish (sent o (Work.start (s.updLiu (fun u => { u with objections := 0 }))))

/-! ### The roster (R33, R34) -/

/-- A live mask with the flag of one trunk set or cleared. -/
def setFlag (mask : BitVec 16) (t : Trunk) (on : Bool) : BitVec 16 :=
  if on then mask ||| (1#16 <<< t.val) else mask &&& ~~~(1#16 <<< t.val)

/-- The roster entry of a node after a well-formed frame of it (R33). -/
def heardFrom (m : Msg) (x : RosterEntry) : RosterEntry :=
  let x := { x with present := true, misses := 0, heard := true }
  match m with
  | .beacon k _ live => { x with kind := k, live := live }
  | .source t on => { x with live := setFlag x.live t on }
  | _ => x

/-- The roster takes a well-formed frame of node n (R33). -/
def hear (n : Node) (m : Msg) (s : State) : State :=
  s.updLiu (fun u => { u with roster := put u.roster n (heardFrom m (look u.roster n)) })

/-- A roster entry at a beacon-period boundary (R34). -/
def agedEntry (x : RosterEntry) : RosterEntry :=
  if x.present = false then x
  else if x.heard then { x with heard := false }
  else if x.misses + 1 < 3 then { x with misses := x.misses + 1 }
  else RosterEntry.reset

/-- The roster is aged (R34). -/
def ageRoster (s : State) : State := s.updLiu (fun u => { u with roster := each (fun _ x => agedEntry x) u.roster })

/-! ### Dispatch (R26–R28, R32) -/

/-- A MAINT for this node: dropped in DUPLICATE_LATCH while a MAINT_DONE is owed (R161, R175); otherwise it goes to the WRU or
the FCU (R32). A SUSPECT cleared makes a choice pass due (R170). -/
def maintHeard (op : MaintOp) (w : Work) : Work :=
  if w.st.liu.link = .duplicateLatch ∧ w.st.maintOwed then w
  else match op with
    | .saveWear => w.upd saveWear
    | .readWear i => w.upd (readWear i)
    | .clearMarks first last =>
      { w.upd (clearMarks first last) with
        pass := w.pass || (decide (first ≤ last ∧ last ≤ 639) && w.st.suspectIn first last) }
    | .readFault => w.upd readFault
    | .clearFault => w.upd clearFault

/-- The blocks named for a frame's kind act on it (R32). -/
def act (n : Node) (m : Msg) (w : Work) : Work :=
  match m with
  | .source _ _ => w
  | .abort site => abortHeard site w
  | .claim r site net => claimHeard n r site net w
  | .release r _ _ => releaseHeard n r w
  | .cancel site net => cancelHeard n site net w
  | .beacon _ mask _ => beaconHeard n mask w
  | .clear r => clearHeard r w
  | .route site more fl q net ends => w.upd (routeHeard site more fl q net ends)
  | .unroute site net => w.upd (unrouteHeard site net)
  | .monitor site net on => w.upd (monitorHeard site net on)
  | .fence site token => w.upd (fenceHeard site token)
  | .maint target op => if target = w.st.cfl.node then maintHeard op w else w
  | .status site net o => statusHeard n site net o w
  | .ready => w
  | .note => w
  | .maintDone => w

/-- A well-formed frame of another node: the roster, the held waves it lets go, and the blocks it concerns (R26, R32, R131). -/
def takeMsg (n : Node) (m : Msg) (s : State) : State := finish (act n m (resumeHeld (Work.start (hear n m s))))

/-- A frame taken from the receive buffer: a malformed one is discarded, one of the own number latches (R27, R28). -/
def takeFrame (f : Frame) (s : State) : State :=
  match parse f with
  | none => s
  | some m => if f.src = s.cfl.node then latch f.kind s else takeMsg f.src m s

/-- The receive buffer without its front frame. -/
def popFrame (s : State) : State := s.updLiu (fun u => { u with rx := u.rx.tail })

/-- The frame at the front of the buffer is dispatched where it is of the row commanded. -/
def dispatchFront (fits : State → Frame → Bool) (s : State) : State :=
  match s.liu.rx with
  | [] => s
  | f :: _ => if s.running && fits s f then takeFrame f (popFrame s) else s

/-- The state as it will stand once every frame in the receive buffer has been dispatched (R24). -/
def State.afterBuffer (s : State) : State := s.liu.rx.foldl (fun s f => takeFrame f (popFrame s)) s

/-- The rows of the table a frame of a kind belongs to. -/
def isKind (k : Kind) (_ : State) (f : Frame) : Bool := decide (f.kind = k)

/-- A MAINT frame whose operation meets a test and whose target is this node; a malformed MAINT fits every MAINT row. -/
def isMaint (p : MaintOp → Bool) (s : State) (f : Frame) : Bool :=
  decide (f.kind = .maint) && (match parse f with
    | some (.maint target op) => decide (target = s.cfl.node) && p op
    | _ => true)

/-- A MAINT frame for another target node, or a malformed one. -/
def isMaintElsewhere (s : State) (f : Frame) : Bool :=
  decide (f.kind = .maint) && (match parse f with
    | some (.maint target _) => decide (target ≠ s.cfl.node)
    | _ => true)

/-! ### Objection and delivery (R24, R25, R30) -/

/-- The frame of some sampled bits. -/
def sampledFrame (h : Sampled) : Frame := ⟨h.prio, h.kind, h.src, h.payload⟩

/-- A damaged frame: its check failed, or its length field reads over 12 (R24). -/
def sampledDamaged (h : Sampled) : Bool :=
  decide (12 < h.length.val) || decide (frameCheck h.prio h.kind h.src h.length.val h.payload ≠ h.check)

/-- The part has cause to object to an undamaged frame: its buffer is full, a request lacks room, or a MAINT for this node
comes while a MAINT_DONE is owed (R24). -/
def State.objectsTo (s : State) (f : Frame) : Bool :=
  decide (4 ≤ s.liu.rx.length) || (match parse f with
    | some (.maint target _) => decide (target = s.cfl.node) && s.afterBuffer.maintOwed
    | some m => decide (f.src ≠ s.cfl.node) && s.afterBuffer.lacksRoom m
    | none => false)

/-- The consecutive-clean count in MUTED; at 32 the LIU returns to ACTIVE and MUTED_LEFT is noted (R30). -/
def countClean (damaged : Bool) (s : State) : State :=
  if s.liu.link ≠ .muted then s
  else if damaged then s.updLiu (fun u => { u with cleans := 0 })
  else if s.liu.cleans + 1 < 32 then s.updLiu (fun u => { u with cleans := u.cleans + 1 })
  else pendNote noteMutedLeft 0#16 (s.updLiu (fun u => { u with link := .active, objections := 0, cleans := 0 }))

/-- The end of a heard frame's check field: the part decides whether it objects, and in DUPLICATE_LATCH drives nothing
(R24, R31). The end of what is discarded of an abandoned frame decides nothing, and its slot and end bits follow (R23). -/
def checkFieldEnd (h : Sampled) (s : State) : State :=
  if s.quietLine && s.liu.synced then
    if s.liu.discarding then
      s.updLiu (fun u => { u with discarding := false, idle := false, idleFrom := later s.now 9 })
    else
      let objects := decide (s.liu.link ≠ .duplicateLatch) && (sampledDamaged h || s.objectsTo (sampledFrame h))
      let heard : Hearing := ⟨if sampledDamaged h then none else some (sampledFrame h), objects, s.now⟩
      (countClean (sampledDamaged h) s).updLiu (fun u => { u with hearing := some heard, idle := false })
  else s

/-- A heard frame whose slot read released joins the receive buffer; a full buffer loses it to this card (R25, R26, R31). The
idle line begins at an instant. -/
def deliver (idle : Time) (h : Hearing) (driven : Bool) (u : Liu) : Liu :=
  let u := { u with hearing := none, idleFrom := idle }
  match h.frame with
  | some f => if driven || h.objecting || decide (4 ≤ u.rx.length) then u else { u with rx := u.rx ++ [f] }
  | none => u

/-- Both bits of an objection slot are read (R25). -/
def slotRead (driven : Bool) (s : State) : State :=
  if s.running then
    match s.liu.own, s.liu.hearing with
    | some o, _ => ownOutcome o driven s
    | none, some h => s.updLiu (deliver s.afterEnd h driven)
    | none, none => s
  else s

/-! ### Beacon-period boundaries (R34, R101) -/

/-- A beacon-period boundary is due. -/
def State.beaconDue (s : State) : Bool := s.running && reached s.now s.tb.nextBeacon

/-- A beacon-period boundary: the next one is a period later; the LIU ages the roster and held waves resume, and the RCU takes
its steps (R34, R101). -/
def beaconBoundary (s : State) : State :=
  if s.beaconDue then
    let s : State := { s with tb := { s.tb with nextBeacon := laterMs s.tb.nextBeacon s.cfl.config.period } }
    finish (rcuBoundary (resumeHeld (Work.start (ageRoster s))))
  else s

end Sys2Proof.Machine
end

