-- ==== Sys2Proof/Machine/Start.lean ====
section
/-! DEFINITION. Resets, the configuration load and the listen period: judging the configuration record (R5, R37, R182, R193),
taking the wear store (R167, R168), the end of the load (R183, R184, R127, R128), and the three kinds of reset with the
assertion before them (R60, R84, R100, R129, R166, R180). -/

namespace Sys2Proof.Machine

/-! ### The configuration record (R5, R182, R193) -/

/-- A field taken from the record: its value, and the offsets of the fields changed so far. -/
abbrev Taken (α : Type) := α × List Nat

/-- A value clamped to the nearer end of a range; a change is noted with the field's offset (R193). -/
def clampField (lo hi offset x : Nat) : Taken Nat :=
  if x < lo then (lo, [offset]) else if hi < x then (hi, [offset]) else (x, [])

/-- Class c of the record, with Cmax already clamped: each cost into 1–63 and then to Cmax, each threshold before its life
limit (R5). -/
def takeClass (b : List Byte) (cmax c : Nat) : Taken ClassParams :=
  let o := 2 + 13 * c
  let operate := clampField 50 10000 o (wordAt b o)
  let release := clampField 20 10000 (o + 2) (wordAt b (o + 2))
  let bounce := clampField 0 2000 (o + 4) (wordAt b (o + 4))
  let cost := clampField 1 (min 63 cmax) (o + 6) (byteAt b (o + 6))
  let threshold := clampField 1 16777215 (o + 7) (tripleAt b (o + 7))
  let life := clampField threshold.1 16777215 (o + 10) (tripleAt b (o + 10))
  (⟨operate.1, release.1, bounce.1, cost.1, threshold.1, life.1⟩,
    operate.2 ++ release.2 ++ bounce.2 ++ cost.2 ++ threshold.2 ++ life.2)

/-- The trunks reserved to a site lower than s by the record (R37). -/
def reservedBelow (b : List Byte) (s : Nat) : BitVec 16 :=
  (List.range s).foldl (fun m i => m ||| BitVec.ofNat 16 (wordAt b (72 + 9 * i + 7))) 0#16

/-- Site s of the record; a trunk reserved to a lower site leaves its reserved mask (R37, R193). -/
def takeSite (b : List Byte) (s : Nat) : Taken SiteParams :=
  let o := 72 + 9 * s
  let start := clampField 0 1023 o (wordAt b o)
  let stop := clampField 0 1024 (o + 2) (wordAt b (o + 2))
  let cls := clampField 0 3 (o + 4) (byteAt b (o + 4))
  let trunks := BitVec.ofNat 16 (wordAt b (o + 5))
  let asked := BitVec.ofNat 16 (wordAt b (o + 7))
  let reserved := asked &&& ~~~(reservedBelow b s)
  (⟨start.1, stop.1, Fin.ofNat 4 cls.1, trunks, reserved⟩,
    start.2 ++ stop.2 ++ cls.2 ++ (if reserved = asked then [] else [o + 7]))

/-- A bank of fields, with every offset changed. -/
def takeBank {α : Type} (n : Nat) (f : Nat → Taken α) : Taken (Table n α) :=
  (Vector.ofFn (fun i : Fin n => (f i.val).1), (List.range n).flatMap (fun i => (f i).2))

/-- Every field of a sound record, with the offsets of the fields changed (R182 step 4). -/
def takeRecord (b : List Byte) : Taken Configuration :=
  let cmax := clampField 8 1023 54 (wordAt b 54)
  let xpt := takeClass b cmax.1 0
  let tap := takeClass b cmax.1 1
  let ser := takeClass b cmax.1 2
  let mon := takeClass b cmax.1 3
  let refill := clampField 1 255 56 (byteAt b 56)
  let mode := clampField 0 1 57 (byteAt b 57)
  let weights := takeBank 4 (fun k => clampField 1 15 (58 + k) (byteAt b (58 + k)))
  let capture := clampField 0 1 62 (byteAt b 62)
  let claimWait := clampField 10 5000 63 (wordAt b 63)
  let holdLimit := clampField 0 2000 65 (wordAt b 65)
  let releaseWait := clampField 10 2000 67 (wordAt b 67)
  let abortGrace := clampField 0 500 69 (wordAt b 69)
  let period := clampField 10 250 71 (byteAt b 71)
  let sites := takeBank 8 (takeSite b)
  ({ xpt := xpt.1, tap := tap.1, ser := ser.1, mon := mon.1, cmax := cmax.1, refill := refill.1
     weighted := decide (mode.1 = 1), weights := weights.1, severe := decide (capture.1 = 1)
     claimWait := claimWait.1, holdLimit := holdLimit.1, releaseWait := releaseWait.1
     abortGrace := abortGrace.1, period := period.1, sites := sites.1 },
   xpt.2 ++ tap.2 ++ ser.2 ++ mon.2 ++ cmax.2 ++ refill.2 ++ mode.2 ++ weights.2 ++ capture.2 ++ claimWait.2
     ++ holdLimit.2 ++ releaseWait.2 ++ abortGrace.2 ++ period.2 ++ sites.2)

/-- A defaulted record, with the detail of CONFIG_DEFAULTED (R182). -/
def defaultedRecord (detail : Nat) : Judged :=
  ⟨Configuration.defaulted, some (noteConfigDefaulted, BitVec.ofNat 16 detail)⟩

/-- The sum of some bytes modulo 256 (R182). -/
def byteSum (b : List Byte) : Nat := (b.foldl (fun n x => n + x.toNat) 0) % 256

/-- The bytes of a record judged: signature and format, check sum, fields (R182). -/
def judgeBytes (b : List Byte) : Judged :=
  if byteAt b 0 ≠ 0xA7 ∨ byteAt b 1 ≠ 1 then defaultedRecord 2
  else if byteSum b ≠ 0 then defaultedRecord 3
  else
    let c := takeRecord b
    ⟨c.1, c.2.min?.map (fun o => (noteConfigClamped, BitVec.ofNat 16 o))⟩

/-- The configuration record as the memory answers its read (R182). -/
def judgeRecord (a : MemAnswer) (m : ConfigMemory) : Judged :=
  match a with
  | .acknowledged => judgeBytes (Memory.readAll m.cells 0 256)
  | _ => defaultedRecord 1

/-! ### The wear store at a power-on load (R167, R168) -/

/-- The record is judged before the first block is taken (R167). -/
def ensureJudged (record : MemAnswer) (s : State) : State :=
  match s.cfl.judged with
  | some _ => s
  | none => { s with cfl := { s.cfl with judged := some (judgeRecord record s.memory) } }

/-- The configuration a load has judged. -/
def State.judgedConfig (s : State) : Configuration := (s.cfl.judged.map Judged.config).getD s.cfl.config

/-- The block at the load's position is taken as the memory answers (R167). -/
def takeNext (b : Block) (answer : MemAnswer) (s : State) : State :=
  let bytes := Memory.readAll s.memory.cells (blockOffset b.val) 66
  if answer = .acknowledged ∧ look s.memory.torn b = false ∧ blockSound bytes = true then takeSound b bytes s
  else pendNote noteWearBlockLost (BitVec.ofNat 16 b.val) (takeLost s.judgedConfig b s)

/-- A block read of a power-on load (R167, R168): the store is absent where block 0's address is not acknowledged. -/
def wearBlockRead (record block : MemAnswer) (s : State) : State :=
  if s.cfl.phase = .loading ∧ s.cfl.powerOnLoad then
    match inRange 40 s.cfl.nextBlock with
    | none => s
    | some b =>
      let s := ensureJudged record s
      if b.val = 0 ∧ block = .noAddress then
        let s := pendNote noteStoreAbsent 0#16 (takeAbsent s.judgedConfig s)
        { s with cfl := { s.cfl with nextBlock := 40 } }
      else
        let s := if b.val = 0 then { s with wru := { s.wru with storeAbsent := false } } else s
        let s := takeNext b block s
        { s with cfl := { s.cfl with nextBlock := b.val + 1 } }
  else s

/-! ### The end of the load (R183) -/

/-- The load can end: a power-on load has taken every block (R167). -/
def State.loadDone (s : State) : Bool :=
  decide (s.cfl.phase = .loading) && (!s.cfl.powerOnLoad || decide (s.cfl.nextBlock = 40))

/-- The blocks take their parameters: areas and queues at their starts, a fresh arbiter, a full meter, the first boundary, the
listen period, and the count of idle bits from now on (R38, R39, R58, R101, R111, R181, R183). -/
def takeParameters (c : Configuration) (s : State) : State :=
  { s with
    cfl := { s.cfl with
      config := c, phase := .running, powerOnLoad := false, judged := none, nextBlock := 0
      listen := true, listenEnd := laterMs s.now (c.period + 10), firstBeacon := decide (s.cfl.kind = .warmKeep) }
    squ := { s.squ with
      valid := validAreas c.sites
      queues := Vector.ofFn (fun i => SiteQueue.empty (look c.sites i).start)
      lastServed := fill 4 none
      budgets := c.weights }
    rcu := { s.rcu with beaconOwed := decide (s.cfl.kind = .warmKeep), beaconSent := false }
    wsu := { s.wsu with credit := some c.cmax, creditStop := none, creditTaken := false }
    liu := { s.liu with idle := false, idleFrom := s.now }
    tb := { s.tb with nextBeacon := laterMs s.now c.period } }

/-- The note the record's judging gave becomes pending (R182). -/
def noteRecord (n : Option (Fin 8 × BitVec 16)) (s : State) : State :=
  match n with
  | some p => pendNote p.1 p.2 s
  | none => s

/-- The captures held since the reset are judged under the mode just loaded (R171). -/
def judgeHeld (s : State) : State :=
  { s with fcu := s.fcu.held.foldl (fun f c => judgeCapture s.cfl.config.severe c f) { s.fcu with held := [] } }

/-- The start sweep over the relays not OPEN, in ascending index order (R127). -/
def sweepWave (s : State) : Wave where
  owner := .sweep
  phase := .sweep
  done := []
  todo := (allRelays.filter (fun r => decide ((s.relay r).state ≠ .opened))).map (fun r => (r, false))
  trunk := none
  queried := false
  forcedHot := false
  abortMark := false
  settle := none

/-- The recovery wave over the relays listed at the warm keep (R128). -/
def recoveryWave (s : State) : Wave where
  owner := .recovery
  phase := .recovery
  done := []
  todo := s.wsu.recovery.map (fun p => (p.1, false))
  trunk := none
  queried := false
  forcedHot := false
  abortMark := false
  settle := none

/-- The start wave of the load, if one is due, is queued and served (R127, R128). -/
def queueStart (w : Work) : Work :=
  let queue := fun (v : Wave) =>
    { w.upd (fun s => { s with wsu := { s.wsu with queue := s.wsu.queue ++ [v] } }) with serve := true }
  if w.st.rm.ready = false then queue (sweepWave w.st)
  else if w.st.wsu.recovery = [] then w
  else queue (recoveryWave w.st)

/-- The entries that own no relay of the recovery wave, ascending: their part counts as settled at the end of the load (R128). -/
def unlisted (s : State) : List Entry :=
  (List.finRange 64).filter (fun e => !s.wsu.recovery.any (fun p => decide (p.2 = e)))

/-- The event that ends the load (R182, R183). -/
def loadEnd (record : MemAnswer) (s : State) : State :=
  if s.loadDone then
    let j := match s.cfl.judged with
      | some j => j
      | none => judgeRecord record s.memory
    let s := judgeHeld (noteRecord j.note (takeParameters j.config s))
    let w := tellParts (unlisted s) (Work.start s)
    finish (queueStart w)
  else s

/-! ### The end of the listen period (R183) -/

/-- After a warm keep, the view entry of each trunk is reported to the participants that use it (R106, R188). -/
def watchAll (w : Work) : Work := (List.finRange 16).foldl (fun w t => watch (trunkResource t) w) w

/-- The listen period has run out. -/
def State.listenDue (s : State) : Bool := s.running && s.cfl.listen && reached s.now s.cfl.listenEnd

/-- The end of the listen period (R183). -/
def listenEnd (s : State) : State :=
  if s.listenDue then
    let s : State := { s with cfl := { s.cfl with listen := false, firstBeacon := false } }
    let w := resumeHeld (Work.start s)
    finish (if s.cfl.kind = .warmKeep then watchAll w else w)
  else s

/-! ### Resets (R180) -/

/-- The sense in progress ends with no sample (R154). -/
def cutSense (s : State) : State := { s with snu := { s.snu with sensing := none, senseEnd := none, ended := none } }

/-- The part's own frame on the line is cut off and counts as objected (R25). -/
def cutFrame (s : State) : State :=
  match s.liu.own with
  | some o => ownOutcome o true s
  | none => s

/-- The part is in reset: what is captured from then on is held until the load has ended (R171, R180). -/
def enterReset (s : State) : State := { s with cfl := { s.cfl with phase := .inReset } }

/-- The reset is asserted: the frame on the line, the save in flight and the sense in progress end, and nothing is driven or
fired until the reset has ended (R25, R154, R166, R180). -/
def resetAsserted (s : State) : State :=
  if s.cfl.phase = .inReset then s
  else
    let s := cutSense (cutSave (cutFrame (enterReset s)))
    { s with liu := { s.liu with hearing := none } }

/-- The CFL at the end of a reset: the straps are read and the load begins (R181, R182). -/
def Cfl.start (k : ResetKind) (straps : Node) (c : Cfl) : Cfl :=
  { c with
    phase := .loading, kind := k, powerOnLoad := decide (k = .powerOn), judged := none, nextBlock := 0
    listen := false, firstBeacon := false, node := straps }

/-- The power-on reset: all state takes its power-on values; the configuration memory keeps what it holds (R180). -/
def powerOn (straps : Node) (s : State) : State :=
  let s := resetAsserted s
  { State.reset with
    cfl := Cfl.start .powerOn straps Cfl.reset
    memory := s.memory
    free := s.free
    pending := s.pending }

/-- A relay record after a cold pin reset: OPENING, its marks kept (R10). -/
def coldRelay (x : RelayRec) : RelayRec := { x with state := .opening, owner := none, settleEnd := none }

/-- The WRU after a pin reset: the answer mark is cleared (R156, R160, R161). -/
def Wru.pinReset (u : Wru) : Wru := { u with answer := none, save := none }

/-- The FCU after a pin reset: its MAINT_DONE mark is cleared (R173, R175, R179). -/
def Fcu.pinReset (u : Fcu) : Fcu := { u with answer := none }

/-- The cold pin reset (R10, R60, R84, R180). -/
def coldPin (straps : Node) (s : State) : State :=
  let s := resetAsserted s
  { s with
    liu := Liu.reset
    squ := Squ.reset
    ne := Ne.reset
    rcu := Rcu.reset
    ilu := Ilu.reset
    wsu := Wsu.reset
    rm := ⟨each (fun _ x => coldRelay x) s.rm.relays, false⟩
    snu := Snu.reset
    wru := s.wru.pinReset
    fcu := s.fcu.pinReset
    cfl := s.cfl.start .coldPin straps }

/-! ### Warm keep (R11, R60, R84, R85, R100, R128, R129) -/

/-- The states a warm keep keeps (R60). -/
def EntryState.kept : EntryState → Bool
  | .free | .connected | .faulted | .releaseBlocked => true
  | _ => false

/-- The entry has an owed CLAIM for the trunk in its resource field, which goes with it (R60, R91). -/
def State.claimsTrunk (s : State) (e : Entry) : Bool :=
  match look s.rcu.claims e, (s.entry e).trunk with
  | some r, some t => decide (r = trunkResource t)
  | _, _ => false

/-- An entry at a warm keep, by its state (R60, R129, R187): a FAULTED entry whose relays are not all OPEN is wound up again.
Of an entry it makes FAULTED, monitor-off pending is cleared and the monitor sub-state stands: R60 does not name these two
fields (DESIGN CHOICE, notes/assumptions/54.md). -/
def warmEntry (s : State) (e : Entry) (x : NetEntry) : NetEntry :=
  match x.state with
  | .free => x
  | .releaseBlocked => x
  | .connected => if x.monitor = .claiming then { x with monitor := .off, deadline := none } else x
  | .faulted => { x with winding := x.winding || !s.relaysOpen e }
  | _ =>
    { x with
      state := .faulted
      resource := if s.claimsTrunk e then none else x.resource
      monitorOffPending := false
      releasePending := none
      deadline := none
      reason := some .resetInFlight
      reasonRelay := none
      reported := false
      winding := true }

/-- The entry was in flight at the warm keep. -/
def State.inFlightEntry (s : State) (e : Entry) : Bool := !(s.entry e).state.kept

/-- The NE after a warm keep (R60): in-flight entries lose their STATUS and CANCEL marks, site marks are cleared. -/
def warmNe (s : State) : Ne where
  entries := each (warmEntry s) s.ne.entries
  binding := s.ne.binding
  status := each (fun e m => if s.inFlightEntry e then none else m) s.ne.status
  cancel := each (fun e m => if s.inFlightEntry e then none else m) s.ne.cancel
  siteStatus := fill 8 none

/-- The RCU after a warm keep: holdings and their view entries are kept, unconfirmed; the rest of the view is cleared and no
cooling mark stands; an in-flight entry owes no RELEASE (R60, R84, R85, R100). -/
def warmRcu (s : State) : Rcu where
  view := each (fun r v => if (look s.rcu.holdings r).isSome then { v with cooling := none } else ViewEntry.cleared) s.rcu.view
  holdings := s.rcu.holdings
  unconfirmed := each (fun r _ => (look s.rcu.holdings r).isSome) s.rcu.unconfirmed
  failures := 0
  beaconOwed := false
  beaconSent := false
  claims := fill 64 none
  releases := each (fun r b => b && (match look s.rcu.holdings r with
    | some e => !s.inFlightEntry e
    | none => false)) s.rcu.releases

/-- The relay is on its way. -/
def RelayRec.moving (x : RelayRec) : Bool := decide (x.state = .closing) || decide (x.state = .opening)

/-- The relays of the recovery wave, each with its owner: those in CLOSING or OPENING that have one (R128). -/
def recoveryList (s : State) : List (Relay × Entry) :=
  allRelays.filterMap (fun r => if (s.relay r).moving then (s.relay r).owner.map (fun e => (r, e)) else none)

/-- A start sweep had not settled: some relay in CLOSING or OPENING has no owner (R11). -/
def sweepUnfinished (s : State) : Bool := allRelays.any (fun r => (s.relay r).moving && (s.relay r).owner.isNone)

/-- The unpulsed relays of every wave, which lose their owner where they are OPEN (R129). -/
def unpulsedRelays (s : State) : List Relay :=
  (s.wsu.queue ++ s.wsu.held).flatMap (fun v => v.todo.map Prod.fst)

/-- The RESET_IN_FLIGHT captures of a warm keep, in ascending entry index, held until the load has ended (R171). -/
def captureInFlight (es : List Entry) (s : State) : State :=
  es.foldl (fun s e =>
    captureEntry .resetInFlight (s.entry e) ((s.entry e).resource.map NetResource.code) none s) s

/-- The warm keep (R180), each block by its own chapter. -/
def warmKeep (straps : Node) (s : State) : State :=
  let s := resetAsserted s
  let flying := (List.finRange 64).filter (fun e => s.inFlightEntry e)
  let t := s.dropListed (unpulsedRelays s)
  captureInFlight flying { t with
    liu := Liu.reset
    squ := { Squ.reset with abortWait := s.squ.abortWait }
    ne := warmNe t
    rcu := warmRcu t
    ilu := Ilu.reset
    wsu := { Wsu.reset with recovery := recoveryList t }
    rm := { t.rm with ready := !sweepUnfinished t }
    snu := Snu.reset
    wru := t.wru.pinReset
    fcu := t.fcu.pinReset
    cfl := t.cfl.start .warmKeep straps }

/-- A reset by its kind: any reset before the load of a power-on reset has ended is a power-on reset (R180). -/
def reset (k : ResetKind) (straps : Node) (s : State) : State :=
  match k with
  | .powerOn => powerOn straps s
  | .coldPin => if s.cfl.powerOnLoad then powerOn straps s else coldPin straps s
  | .warmKeep => if s.cfl.powerOnLoad then powerOn straps s else warmKeep straps s

end Sys2Proof.Machine
end

