-- ==== Sys2Proof/Machine/Timers.lean ====
section
/-! DEFINITION. The commands of the family of times that pass and of work the part does by itself: the arbiter, the credit
boundary, settle ends, hold expiries, deadlines, cooling, senses and block writes. A command whose event has not come about
lets its time pass and does nothing else (notes/assumptions/5.md). -/

namespace Sys2Proof.Machine

/-- What a command answers: no command of the part faults or is refused. -/
abbrev Answer := Host.Outcome State Fault Refusal

/-- An event: after its time has passed, where its condition holds, what it does and all it leads to. -/
def event (dt : Nat) (due : State → Bool) (f : Work → Work) (s : State) : Answer :=
  let s := advance dt s
  .next (if due s then finish (f (Work.start s)) else s)

/-- An event that acts on the state alone. -/
def plainEvent (dt : Nat) (f : State → State) (s : State) : Answer := .next (f (advance dt s))

/-- Some site's head record is eligible (R55). -/
def State.arbiterDue (s : State) : Bool := (select s).isSome

/-- ARBITER_DISPATCH (R55). -/
def execArbiterDispatch (dt : Nat) (s : State) : Answer := event dt State.arbiterDue arbitrate s

/-- BEACON_PERIOD_BOUNDARY (R101). -/
def execBeaconPeriodBoundary (dt : Nat) (s : State) : Answer := plainEvent dt beaconBoundary s

/-- CREDIT_BOUNDARY (R112). -/
def execCreditBoundary (dt : Nat) (s : State) : Answer :=
  event dt (fun s => s.running && s.boundaryDue) creditBoundary s

/-- The settle end of a relay is reached and no reset lasts (R124). -/
def State.settles (s : State) (r : Relay) : Bool := decide (s.cfl.phase ≠ .inReset) && s.settleDue r

/-- SETTLE_END of a relay (R124). -/
def execSettleEnd (dt : Nat) (r : Relay) (s : State) : Answer := event dt (fun s => s.settles r) (settle r) s

/-- The hold of an entry expires (R133): its wave is in the held set and its deadline is reached. -/
def State.holdDue (s : State) (e : Entry) : Bool :=
  s.running && (match look s.ilu.holds e with
    | some h => h.held && reached s.now h.deadline
    | none => false)

/-- The hold of an entry is a CONNECT hold without abort grace (R133). -/
def State.connectHold (s : State) (e : Entry) : Bool :=
  match look s.ilu.holds e with
  | some h => h.connect && !h.abortGrace
  | none => false

/-- CONNECT_HOLD_EXPIRY of an entry (R134). -/
def execConnectHoldExpiry (dt : Nat) (e : Entry) (s : State) : Answer :=
  event dt (fun s => s.holdDue e && s.connectHold e) (holdExpired e) s

/-- DISCONNECT_HOLD_EXPIRY of an entry (R135). -/
def execDisconnectHoldExpiry (dt : Nat) (e : Entry) (s : State) : Answer :=
  event dt (fun s => s.holdDue e && !s.connectHold e) (holdExpired e) s

/-- The deadline of an entry is reached in a state (R83). -/
def State.deadlineDue (s : State) (q : EntryState) (e : Entry) : Bool :=
  s.running && decide ((s.entry e).state = q) && (match (s.entry e).deadline with
    | some t => reached s.now t
    | none => false)

/-- An anchor's wait for a trunk or bus has run out (R65). -/
def resourceWaitOver (e : Entry) (w : Work) : Work :=
  abandon e (if (w.ent e).request = .localBus then .noBus else .noTrunk) w

/-- AWAIT_RESOURCE_DEADLINE of an entry (R65). -/
def execAwaitResourceDeadline (dt : Nat) (e : Entry) (s : State) : Answer :=
  event dt (fun s => s.deadlineDue .awaitResource e) (resourceWaitOver e) s

/-- A participant's wait for its anchor's claim has run out (R66). -/
def anchorWaitOver (e : Entry) (w : Work) : Work := freeEntry e (w.upd (oweEntry e .refused .anchorSilent))

/-- AWAIT_ANCHOR_DEADLINE of an entry (R66). -/
def execAwaitAnchorDeadline (dt : Nat) (e : Entry) (s : State) : Answer :=
  event dt (fun s => s.deadlineDue .awaitAnchor e) (anchorWaitOver e) s

/-- An anchor's release wait has run out: RELEASE_BLOCKED, the closing report, after which no report is left to be owed, and a
capture where nodes are still awaited (R74). -/
def releaseWaitOver (e : Entry) (w : Work) : Work :=
  let w := closingReport e ((w.setState e .releaseBlocked).modEnt e (fun x => { x with deadline := none }))
  let w := w.modEnt e (fun x => { x with reported := true })
  let x := w.ent e
  let w := if x.awaited = [] then w
    else w.upd (captureEntry .releaseBlocked x (x.resource.map NetResource.code) none)
  w.upd (abortReady x.site)

/-- AWAIT_OPENED_DEADLINE of an entry (R74). -/
def execAwaitOpenedDeadline (dt : Nat) (e : Entry) (s : State) : Answer :=
  event dt (fun s => s.deadlineDue .awaitOpened e) (releaseWaitOver e) s

/-- The claim wait of an entry's monitor is over (R81). -/
def State.monitorWaitDue (s : State) (e : Entry) : Bool :=
  s.deadlineDue .connected e && decide ((s.entry e).monitor = .claiming)

/-- A monitor's claim wait has run out: OFF and MON_BUSY, or, with its CLAIM on the line, a wait for that frame's outcome
(R81). -/
def monitorWaitOver (e : Entry) (w : Work) : Work :=
  if w.st.claimOnLine e then w.modEnt e (fun x => { x with deadline := none })
  else (endMonitorClaim e w).upd (oweRefused e .monBusy)

/-- MONITOR_CLAIM_WAIT_EXPIRY of an entry (R81). -/
def execMonitorClaimWaitExpiry (dt : Nat) (e : Entry) (s : State) : Answer :=
  event dt (fun s => s.monitorWaitDue e) (monitorWaitOver e) s

/-- COOLING_END of a resource (R105). -/
def execCoolingEnd (dt : Nat) (r : Resource) (s : State) : Answer :=
  event dt (fun s => s.running && s.coolingDue r) (coolingEnd r) s

/-- The sense in progress has lasted 20 µs (R148), or the sample of one that had ended at a discard is to come (R153). -/
def State.senseDue (s : State) : Bool :=
  s.running && (s.snu.ended.isSome || s.snu.sensing.isSome && s.senseReached)

/-- The end of a sense: the job takes its outcome, and an entry whose last job has ended is told (R148, R149, R152). A sense that
had ended at a discard leaves its mark alone (R153). -/
def senseOver (high : Bool) (w : Work) : Work :=
  match w.st.snu.ended, w.st.snu.sensing with
  | some j, _ => w.upd (sampleEnded high j)
  | none, some j =>
    let w := w.upd (finishSense high j)
    if w.st.verified j.entry then verificationEnded j.entry w else w
  | none, none => w

/-- SENSE_END with the level sampled on SENSE (R148). -/
def execSenseEnd (dt : Nat) (high : Bool) (s : State) : Answer := event dt State.senseDue (senseOver high) s

/-- STEP_END (R149, R151). -/
def execStepEnd (dt : Nat) (s : State) : Answer :=
  event dt (fun s => s.running && s.stepDue) (Work.upd finishSteps) s

/-- A block write the memory acknowledges within its 10 ms: the bytes are stored and the walk goes on (R163). -/
def writeEnd (s : State) : State :=
  match s.wru.save with
  | some v =>
    if s.running ∧ (s.now - v.start).toNat ≤ 10000 then
      saveAdvance v.walk (v.written + 1) { s with memory := storeBlock v.block v.bytes s.memory }
    else s
  | none => s

/-- BLOCK_WRITE_END (R163). -/
def execBlockWriteEnd (dt : Nat) (s : State) : Answer := plainEvent dt writeEnd s

/-- A block write fails: the save ends, and what the memory holds of the block is a free value (R163, R165). -/
def writeFailure (s : State) : State :=
  match s.wru.save with
  | some v =>
    if s.running then
      { saveFail v s with
        memory := residueMemory (Config.failedWrite s.free) v s.memory
        free := s.free + 1 }
    else s
  | none => s

/-- BLOCK_WRITE_FAILURE (R163). -/
def execBlockWriteFailure (dt : Nat) (s : State) : Answer := plainEvent dt writeFailure s

end Sys2Proof.Machine
end

