-- ==== Sys2Proof/Machine/Frames.lean ====
section
/-! DEFINITION. The commands of the family of heard frames: each dispatches the frame at the front of the receive buffer where
that frame is of its row. The frame's fields are those of the buffer, so the commands carry none. -/

namespace Sys2Proof.Machine

/-- The operation is SAVE_WEAR. -/
def MaintOp.isSaveWear : MaintOp → Bool
  | .saveWear => true
  | _ => false

/-- The operation is READ_WEAR. -/
def MaintOp.isReadWear : MaintOp → Bool
  | .readWear _ => true
  | _ => false

/-- The operation is CLEAR_MARKS. -/
def MaintOp.isClearMarks : MaintOp → Bool
  | .clearMarks _ _ => true
  | _ => false

/-- The operation is READ_FAULT. -/
def MaintOp.isReadFault : MaintOp → Bool
  | .readFault => true
  | _ => false

/-- The operation is CLEAR_FAULT. -/
def MaintOp.isClearFault : MaintOp → Bool
  | .clearFault => true
  | _ => false

/-- SOURCE (R131). -/
def execSource (dt : Nat) (s : State) : Answer := plainEvent dt (dispatchFront (isKind .source)) s

/-- ABORT (R139). -/
def execAbort (dt : Nat) (s : State) : Answer := plainEvent dt (dispatchFront (isKind .abort)) s

/-- CLAIM (R94). -/
def execClaim (dt : Nat) (s : State) : Answer := plainEvent dt (dispatchFront (isKind .claim)) s

/-- RELEASE (R95). -/
def execRelease (dt : Nat) (s : State) : Answer := plainEvent dt (dispatchFront (isKind .release)) s

/-- CANCEL (R77). -/
def execCancel (dt : Nat) (s : State) : Answer := plainEvent dt (dispatchFront (isKind .cancel)) s

/-- BEACON (R96). -/
def execBeacon (dt : Nat) (s : State) : Answer := plainEvent dt (dispatchFront (isKind .beacon)) s

/-- CLEAR (R97). -/
def execClear (dt : Nat) (s : State) : Answer := plainEvent dt (dispatchFront (isKind .clear)) s

/-- ROUTE (R43). -/
def execRoute (dt : Nat) (s : State) : Answer := plainEvent dt (dispatchFront (isKind .route)) s

/-- UNROUTE (R46). -/
def execUnroute (dt : Nat) (s : State) : Answer := plainEvent dt (dispatchFront (isKind .unroute)) s

/-- MONITOR (R46). -/
def execMonitor (dt : Nat) (s : State) : Answer := plainEvent dt (dispatchFront (isKind .monitor)) s

/-- FENCE (R47). -/
def execFence (dt : Nat) (s : State) : Answer := plainEvent dt (dispatchFront (isKind .fence)) s

/-- SAVE_WEAR (R162). -/
def execSaveWear (dt : Nat) (s : State) : Answer := plainEvent dt (dispatchFront (isMaint MaintOp.isSaveWear)) s

/-- READ_WEAR (R169). -/
def execReadWear (dt : Nat) (s : State) : Answer := plainEvent dt (dispatchFront (isMaint MaintOp.isReadWear)) s

/-- CLEAR_MARKS (R170). -/
def execClearMarks (dt : Nat) (s : State) : Answer := plainEvent dt (dispatchFront (isMaint MaintOp.isClearMarks)) s

/-- READ_FAULT (R176). -/
def execReadFault (dt : Nat) (s : State) : Answer := plainEvent dt (dispatchFront (isMaint MaintOp.isReadFault)) s

/-- CLEAR_FAULT (R177). -/
def execClearFault (dt : Nat) (s : State) : Answer := plainEvent dt (dispatchFront (isMaint MaintOp.isClearFault)) s

/-- STATUS (R73). -/
def execStatus (dt : Nat) (s : State) : Answer := plainEvent dt (dispatchFront (isKind .status)) s

/-- READY (R33). -/
def execReady (dt : Nat) (s : State) : Answer := plainEvent dt (dispatchFront (isKind .ready)) s

/-- NOTE (R33). -/
def execNote (dt : Nat) (s : State) : Answer := plainEvent dt (dispatchFront (isKind .note)) s

/-- MAINT_DONE (R33). -/
def execMaintDone (dt : Nat) (s : State) : Answer := plainEvent dt (dispatchFront (isKind .maintDone)) s

/-- MAINT_FOR_ANOTHER_TARGET_NODE (R32). -/
def execMaintForAnotherTargetNode (dt : Nat) (s : State) : Answer := plainEvent dt (dispatchFront isMaintElsewhere) s

end Sys2Proof.Machine
end

