-- ==== Sys2Proof/Machine/LinkEvents.lean ====
section
/-! DEFINITION. The commands of the family of link events: what happens on the line to the part's own frames and to those it
hears. -/

namespace Sys2Proof.Machine

/-- IDLE_POINT (R20). -/
def execIdlePoint (dt : Nat) (s : State) : Answer := plainEvent dt idlePoint s

/-- DEFERRED_FRAME_START (R21, R26). -/
def execDeferredFrameStart (dt : Nat) (s : State) : Answer := plainEvent dt deferredStart s

/-- LOST_CONTENTION (R21). -/
def execLostContention (dt : Nat) (s : State) : Answer := plainEvent dt lostContention s

/-- READBACK_FAULT (R23). -/
def execReadbackFault (dt : Nat) (s : State) : Answer := plainEvent dt readbackFault s

/-- CHECK_FIELD_END of a heard frame, with its bits as sampled (R24). -/
def execCheckFieldEnd (dt : Nat) (heard : Sampled) (s : State) : Answer := plainEvent dt (checkFieldEnd heard) s

/-- OBJECTION_SLOT_READ, with whether another node drives a bit of the slot (R25). -/
def execObjectionSlotRead (dt : Nat) (driven : Bool) (s : State) : Answer := plainEvent dt (slotRead driven) s

end Sys2Proof.Machine
end

