-- ==== Sys2Proof/Machine/Resets.lean ====
section
/-! DEFINITION. The commands of the family of resets and start: the three resets and their assertion, the wear-store reads of a
power-on load, the end of the load, and the end of the listen period. -/

namespace Sys2Proof.Machine

/-- POWER_ON_RESET with the node straps as read (R180, R181). -/
def execPowerOnReset (dt : Nat) (straps : Node) (s : State) : Answer := plainEvent dt (reset .powerOn straps) s

/-- COLD_PIN_RESET with the node straps as read (R180, R181). -/
def execColdPinReset (dt : Nat) (straps : Node) (s : State) : Answer := plainEvent dt (reset .coldPin straps) s

/-- WARM_KEEP with the node straps as read (R180, R181). -/
def execWarmKeep (dt : Nat) (straps : Node) (s : State) : Answer := plainEvent dt (reset .warmKeep straps) s

/-- CONFIGURATION_LOAD_END, with the memory's answer to the read of the record where the load has not judged it yet (R182). -/
def execConfigurationLoadEnd (dt : Nat) (record : MemAnswer) (s : State) : Answer := plainEvent dt (loadEnd record) s

/-- WEAR_BLOCK_READ, with the memory's answers to the read of the record (before the first block) and of the block (R167). -/
def execWearBlockRead (dt : Nat) (record block : MemAnswer) (s : State) : Answer :=
  plainEvent dt (wearBlockRead record block) s

/-- LISTEN_PERIOD_END (R183). -/
def execListenPeriodEnd (dt : Nat) (s : State) : Answer := plainEvent dt listenEnd s

/-- RESET_ASSERTED (R180). -/
def execResetAsserted (dt : Nat) (s : State) : Answer := plainEvent dt resetAsserted s

end Sys2Proof.Machine
end

