-- ==== Sys2Proof/Machine/Dispatch.lean ====
section
/-! DEFINITION. Dispatch: one arm per command, each one direct call of its meaning. -/

namespace Sys2Proof.Machine

/-- The effect of a command on everything but the queue. -/
def exec (i : Instr) (s : State) : Host.Outcome State Fault Refusal :=
  match i with
  | .powerOnReset dt straps => Sys2Proof.Machine.execPowerOnReset dt straps s
  | .coldPinReset dt straps => Sys2Proof.Machine.execColdPinReset dt straps s
  | .warmKeep dt straps => Sys2Proof.Machine.execWarmKeep dt straps s
  | .configurationLoadEnd dt record => Sys2Proof.Machine.execConfigurationLoadEnd dt record s
  | .wearBlockRead dt record block => Sys2Proof.Machine.execWearBlockRead dt record block s
  | .listenPeriodEnd dt => Sys2Proof.Machine.execListenPeriodEnd dt s
  | .idlePoint dt => Sys2Proof.Machine.execIdlePoint dt s
  | .deferredFrameStart dt => Sys2Proof.Machine.execDeferredFrameStart dt s
  | .lostContention dt => Sys2Proof.Machine.execLostContention dt s
  | .readbackFault dt => Sys2Proof.Machine.execReadbackFault dt s
  | .checkFieldEnd dt heard => Sys2Proof.Machine.execCheckFieldEnd dt heard s
  | .objectionSlotRead dt driven => Sys2Proof.Machine.execObjectionSlotRead dt driven s
  | .source dt => Sys2Proof.Machine.execSource dt s
  | .abort dt => Sys2Proof.Machine.execAbort dt s
  | .claim dt => Sys2Proof.Machine.execClaim dt s
  | .release dt => Sys2Proof.Machine.execRelease dt s
  | .cancel dt => Sys2Proof.Machine.execCancel dt s
  | .beacon dt => Sys2Proof.Machine.execBeacon dt s
  | .clear dt => Sys2Proof.Machine.execClear dt s
  | .route dt => Sys2Proof.Machine.execRoute dt s
  | .unroute dt => Sys2Proof.Machine.execUnroute dt s
  | .monitor dt => Sys2Proof.Machine.execMonitor dt s
  | .fence dt => Sys2Proof.Machine.execFence dt s
  | .saveWear dt => Sys2Proof.Machine.execSaveWear dt s
  | .readWear dt => Sys2Proof.Machine.execReadWear dt s
  | .clearMarks dt => Sys2Proof.Machine.execClearMarks dt s
  | .readFault dt => Sys2Proof.Machine.execReadFault dt s
  | .clearFault dt => Sys2Proof.Machine.execClearFault dt s
  | .status dt => Sys2Proof.Machine.execStatus dt s
  | .ready dt => Sys2Proof.Machine.execReady dt s
  | .note dt => Sys2Proof.Machine.execNote dt s
  | .maintDone dt => Sys2Proof.Machine.execMaintDone dt s
  | .arbiterDispatch dt => Sys2Proof.Machine.execArbiterDispatch dt s
  | .beaconPeriodBoundary dt => Sys2Proof.Machine.execBeaconPeriodBoundary dt s
  | .creditBoundary dt => Sys2Proof.Machine.execCreditBoundary dt s
  | .settleEnd dt relay => Sys2Proof.Machine.execSettleEnd dt relay s
  | .connectHoldExpiry dt entry => Sys2Proof.Machine.execConnectHoldExpiry dt entry s
  | .disconnectHoldExpiry dt entry => Sys2Proof.Machine.execDisconnectHoldExpiry dt entry s
  | .awaitResourceDeadline dt entry => Sys2Proof.Machine.execAwaitResourceDeadline dt entry s
  | .awaitAnchorDeadline dt entry => Sys2Proof.Machine.execAwaitAnchorDeadline dt entry s
  | .awaitOpenedDeadline dt entry => Sys2Proof.Machine.execAwaitOpenedDeadline dt entry s
  | .monitorClaimWaitExpiry dt entry => Sys2Proof.Machine.execMonitorClaimWaitExpiry dt entry s
  | .coolingEnd dt resource => Sys2Proof.Machine.execCoolingEnd dt resource s
  | .senseEnd dt high => Sys2Proof.Machine.execSenseEnd dt high s
  | .stepEnd dt => Sys2Proof.Machine.execStepEnd dt s
  | .blockWriteEnd dt => Sys2Proof.Machine.execBlockWriteEnd dt s
  | .blockWriteFailure dt => Sys2Proof.Machine.execBlockWriteFailure dt s
  | .resetAsserted dt => Sys2Proof.Machine.execResetAsserted dt s
  | .maintForAnotherTargetNode dt => Sys2Proof.Machine.execMaintForAnotherTargetNode dt s

end Sys2Proof.Machine
end

