-- ==== Sys2Proof/Safety.lean ====
section
/-! DEFINITION. The terms in which statements about the block are made: what one event's consequences leave alone, the front of
the receive buffer, and the invariants of the part. -/

namespace Sys2Proof.Machine

/-- The state with everything blanked that the consequences of an event (the courses of net entries, the choice pass, the wave
queue) may change by themselves. What is left stands through them: the link state and its counts, the frame on the line, the
receive buffer, the roster and the heard frame; areas, queues, staging and arbiter; view, holdings and beacon marks; the save
state, the store-absent flag and the WRU's and FCU's answers; the millisecond count and every note but WEAR_LIMIT; configuration,
phase and node; the Timebase; the configuration memory; the commands that wait. -/
def State.base (s : State) : State :=
  { s with
    liu := { s.liu with own := s.liu.own.map (fun o => { o with renewed := false, withdrawn := false }) }
    squ := { s.squ with refusals := fill 8 0, faults := fill 8 0, ready := fill 8 none, abortWait := fill 8 false }
    ne := Ne.reset
    rcu := { s.rcu with claims := fill 64 none, releases := fill 17 false }
    ilu := Ilu.reset
    wsu := { Wsu.reset with creditTaken := s.wsu.creditTaken }
    rm := Rm.reset
    snu := Snu.reset
    wru := { s.wru with counts := fill 640 0, dirty := fill 40 false }
    fcu := { s.fcu with record := none, notes := put s.fcu.notes noteWearLimit none, held := [] } }

/-- The base, the credit meter and the wear counts: what the Net Engine and the choice pass leave alone. -/
def State.core (s : State) : State × Option Nat × Table 640 Nat := (s.base, s.wsu.credit, s.wru.counts)

/-- Every wear count lies in its range (R156). -/
def State.countsInRange (s : State) : Prop := ∀ r, look s.wru.counts r ≤ wearMax

/-- Credit is spent, not gained: the meter stands after exactly where it stood before, and no higher (R113). -/
def State.creditSpent (s t : State) : Prop :=
  t.wsu.credit.isSome = s.wsu.credit.isSome ∧ ∀ c', t.wsu.credit = some c' → ∃ c, s.wsu.credit = some c ∧ c' ≤ c

/-- No wear count falls (R158), and none leaves its range. -/
def State.countsRise (s t : State) : Prop :=
  s.countsInRange → (∀ r, look s.wru.counts r ≤ look t.wru.counts r) ∧ t.countsInRange

/-- What the consequences of an event are, whatever they do: the base stands, credit is only spent, and wear only rises. -/
structure Follows (s t : State) : Prop where
  base : t.base = s.base
  credit : s.creditSpent t
  counts : s.countsRise t

/-! ### The configuration record (R5, R193) -/

/-- A field of a configuration record: its offset, its range, the value the record holds and the value taken. -/
structure RecordField where
  offset : Nat
  lo : Nat
  hi : Nat
  read : Nat
  taken : Nat

/-- The fields of class c, the cost bounded by Cmax and the life limit from the threshold on (R5, R193). -/
def classFields (b : List Byte) (c cmax : Nat) (p : ClassParams) : List RecordField :=
  let o := 2 + 13 * c
  [⟨o, 50, 10000, wordAt b o, p.operate⟩, ⟨o + 2, 20, 10000, wordAt b (o + 2), p.release⟩,
    ⟨o + 4, 0, 2000, wordAt b (o + 4), p.bounce⟩, ⟨o + 6, 1, min 63 cmax, byteAt b (o + 6), p.cost⟩,
    ⟨o + 7, 1, 16777215, tripleAt b (o + 7), p.threshold⟩, ⟨o + 10, p.threshold, 16777215, tripleAt b (o + 10), p.life⟩]

/-- The fields of site i that have a range (R37, R193). -/
def siteFields (b : List Byte) (i : Site) (p : SiteParams) : List RecordField :=
  let o := 72 + 9 * i.val
  [⟨o, 0, 1023, wordAt b o, p.start⟩, ⟨o + 2, 0, 1024, wordAt b (o + 2), p.stop⟩,
    ⟨o + 4, 0, 3, byteAt b (o + 4), p.cls.val⟩]

/-- The fields of a record before its site table, with what a configuration holds for each (R193). -/
def cardFields (b : List Byte) (c : Configuration) : List RecordField :=
  classFields b 0 c.cmax c.xpt ++ classFields b 1 c.cmax c.tap ++ classFields b 2 c.cmax c.ser ++ classFields b 3 c.cmax c.mon
  ++ [⟨54, 8, 1023, wordAt b 54, c.cmax⟩, ⟨56, 1, 255, byteAt b 56, c.refill⟩, ⟨57, 0, 1, byteAt b 57, c.weighted.toNat⟩]
  ++ (List.finRange 4).map (fun k => ⟨58 + k.val, 1, 15, byteAt b (58 + k.val), look c.weights k⟩)
  ++ [⟨62, 0, 1, byteAt b 62, c.severe.toNat⟩, ⟨63, 10, 5000, wordAt b 63, c.claimWait⟩,
    ⟨65, 0, 2000, wordAt b 65, c.holdLimit⟩, ⟨67, 10, 2000, wordAt b 67, c.releaseWait⟩,
    ⟨69, 0, 500, wordAt b 69, c.abortGrace⟩, ⟨71, 10, 250, byteAt b 71, c.period⟩]

/-- Every field of a record that has a range (R193). -/
def recordFields (b : List Byte) (c : Configuration) : List RecordField :=
  cardFields b c ++ (List.finRange 8).flatMap (fun i => siteFields b i (look c.sites i))

/-- The offsets of the fields of a list that are taken otherwise than read. -/
def changedOffsets (fs : List RecordField) : List Nat :=
  (fs.filter (fun f => decide (f.taken ≠ f.read))).map RecordField.offset

/-- The offsets of the fields that a configuration holds otherwise than the record, reserved masks among them (R193). -/
def changedFields (b : List Byte) (c : Configuration) : List Nat :=
  changedOffsets (cardFields b c) ++ (List.finRange 8).flatMap (fun i =>
    changedOffsets (siteFields b i (look c.sites i))
    ++ if (look c.sites i).reserved = BitVec.ofNat 16 (wordAt b (79 + 9 * i.val)) then [] else [79 + 9 * i.val])

/-! ### Where nothing else is set in motion -/

/-- No anchor waits for a resource and no monitor for its claim: a choice pass finds nothing to choose (R86). -/
def State.noWaiter (s : State) : Prop := ∀ e, (s.entry e).state ≠ .awaitResource ∧ (s.entry e).monitor ≠ .claiming

/-- No other entry waits for a resource or for MON. -/
def State.noOtherWaiter (s : State) (e : Entry) : Prop :=
  ∀ i, i ≠ e → (s.entry i).state ≠ .awaitResource ∧ (s.entry i).monitor ≠ .claiming

/-- The S relays of an entry's pins that are its own and CLOSED: what its outer disconnect wave opens (R14, R71). -/
def State.closedSeries (s : State) (e : Entry) : List Relay :=
  ((s.entry e).pins.map relayS).filter (fun r =>
    decide ((s.relay r).owner = some e) && decide ((s.relay r).state = .closed))

/-- The outer disconnect wave of an entry with some content over some relays (R71, R108). -/
def outerWave (e : Entry) (a : NetEntry) (opens : List Relay) : Wave :=
  ⟨.entry e, .outerDisconnect, [], opens.map (fun r => (r, false)), a.trunk, a.trunk.isSome && !a.hot, false,
    decide (a.reason = some .aborted), none⟩

/-- A CONNECTED entry with nothing in flight, which takes a fault that reaches it (R78). -/
structure State.atRest (s : State) (e : Entry) : Prop where
  state : (s.entry e).state = .connected
  monitor : (s.entry e).monitor = .off ∨ (s.entry e).monitor = .on
  pending : (s.entry e).releasePending = none
  reason : (s.entry e).reason ≠ some .aborted
  verification : look s.snu.verifications e = none
  waves : ∀ v ∈ s.wsu.queue ++ s.wsu.held ++ s.wsu.settling, v.owner ≠ .entry e
  recovery : ∀ p ∈ s.wsu.recovery, p.2 ≠ e

/-- From s to t an entry at rest takes a fault: its reason is the fault's, and it enters DISCONNECT_OUTER with its outer disconnect
wave at the tail of the queue (R71, R78). -/
def State.faults (s t : State) (e : Entry) (why : Reason) : Prop :=
  t.entry e = { s.entry e with state := .disconnectOuter, reason := some why, reasonRelay := none } ∧
    t.wsu.queue = s.wsu.queue ++ [outerWave e (t.entry e) (s.closedSeries e)]

/-- From s to t one capture is made, at a millisecond count: an EMPTY record is filled where the cause qualifies in the mode in
force, and a FULL one counts it (R172, R173). -/
def State.captures (s t : State) (c : Capture) (millis : BitVec 32) : Prop :=
  t.fcu.record =
    if s.cfl.config.severe = true ∧ c.cause.severe = false then s.fcu.record
    else match s.fcu.record with
      | none => some ⟨c, millis, 1⟩
      | some p => some { p with count := min 255 (p.count + 1) }

/-- Once a wave has settled at an instant, a relay is CLOSED: it was, or it was CLOSING in the wave and its settle end is reached
(R8, R124). -/
abbrev Wave.closedAfter (v : Wave) (s : State) (r : Relay) : Prop :=
  (s.relay r).state = .closed ∨ (s.relay r).state = .closing ∧ (∃ p ∈ v.done, p.1 = r) ∧ s.settleDue r = true

/-- The monitor of an entry once a monitor wave of it has settled with release-pending set (R81, R82). -/
def Wave.monitorAfter (v : Wave) (a : NetEntry) : NetEntry :=
  match v.phase with
  | .monitorClose => { a with monitor := .on, monitorOffPending := false }
  | .monitorOpen => { a with monitor := .off, monitorOffPending := false }
  | _ => a

/-- The view of trunk k does not show a participant's anchor with its net (R80, R106). -/
def State.anchorGone (s : State) (e : Entry) (k : Trunk) : Prop :=
  (s.viewOf (trunkResource k)).holder ≠ some (s.entry e).anchor ∨
    (s.viewOf (trunkResource k)).claimed = true ∧
      (s.viewOf (trunkResource k)).net ≠ some ((s.entry e).site, (s.entry e).net)

/-- Every participant of the card finds its anchor in the view of its trunk (R80, R106). -/
def State.anchorsShown (s : State) : Prop :=
  ∀ e k, (s.entry e).role = .participant → (s.entry e).state ≠ .free → (s.entry e).trunk = some k → ¬ s.anchorGone e k

/-- No wave of an entry is in flight but what the held set holds, no part of the recovery wave is its own, and its relays are
all OPEN: nothing of it has been pulsed (R109). -/
def State.unpulsed (s : State) (e : Entry) : Prop :=
  (∀ v ∈ s.wsu.queue ++ s.wsu.settling, v.owner ≠ .entry e) ∧ (∀ p ∈ s.wsu.recovery, p.2 ≠ e)
    ∧ ∀ r, (s.relay r).owner = some e → (s.relay r).state = .opened

/-! ### Heard frames -/

/-- The part runs, and the frame at the front of its receive buffer is a well-formed one of another node with this message. -/
structure State.Front (s : State) (f : Frame) (m : Msg) : Prop where
  running : s.running = true
  front : s.liu.rx.head? = some f
  message : parse f = some m
  other : f.src ≠ s.cfl.node

/-- The state in which the blocks take a heard frame: the time has passed, the frame has left the buffer, and the roster has
it (R26, R33). -/
def State.heard (s : State) (dt : Nat) (f : Frame) (m : Msg) : State := hear f.src m (popFrame (advance dt s))

/-- The command that dispatches a frame at a node: the row of the frame's kind, and for a MAINT the row of its operation, or
that of another target node. -/
def frameCommand (dt : Nat) (node : Node) (f : Frame) : Instr :=
  match f.kind with
  | .source => .source dt
  | .abort => .abort dt
  | .claim => .claim dt
  | .release => .release dt
  | .cancel => .cancel dt
  | .beacon => .beacon dt
  | .clear => .clear dt
  | .route => .route dt
  | .unroute => .unroute dt
  | .monitor => .monitor dt
  | .fence => .fence dt
  | .status => .status dt
  | .ready => .ready dt
  | .note => .note dt
  | .maintDone => .maintDone dt
  | .maint => match parse f with
    | some (.maint target op) =>
      if target = node then
        match op with
        | .saveWear => .saveWear dt
        | .readWear _ => .readWear dt
        | .clearMarks _ _ => .clearMarks dt
        | .readFault => .readFault dt
        | .clearFault => .clearFault dt
      else .maintForAnotherTargetNode dt
    | _ => .maintForAnotherTargetNode dt

/-! ### Invariants -/

/-- The costs of a configuration do not exceed its Cmax (R115). -/
def costsOk (c : Configuration) : Prop := ∀ k, (c.params k).cost ≤ c.cmax

/-- The wear thresholds of a configuration are counts (R5, R156). -/
def thresholdsOk (c : Configuration) : Prop := ∀ k, (c.params k).threshold ≤ wearMax

/-- The coil credit meter stands between 0 and Cmax, and no class cost exceeds Cmax, in force or judged for the load under way
(R111, R115). -/
structure State.creditOk (s : State) : Prop where
  meter : ∀ c, s.wsu.credit = some c → c ≤ s.cfl.config.cmax
  costs : costsOk s.cfl.config
  judged : ∀ j, s.cfl.judged = some j → costsOk j.config

/-- Every wear count is one of 0 to 16,777,215, and so is every threshold that a load could set one to (R156, R167). -/
structure State.wearOk (s : State) : Prop where
  counts : s.countsInRange
  thresholds : thresholdsOk s.cfl.config
  judged : ∀ j, s.cfl.judged = some j → thresholdsOk j.config

/-- The link counts stand below the ends they act at, the receive buffer holds up to 4 frames, and in DUPLICATE_LATCH both
counts are 0 (R26, R29, R30, R31). -/
structure State.linkOk (s : State) : Prop where
  objections : s.liu.objections < 16
  cleans : s.liu.cleans < 32
  buffer : s.liu.rx.length ≤ 4
  latched : s.liu.link = .duplicateLatch → s.liu.objections = 0 ∧ s.liu.cleans = 0

/-- The words of the records of a queue. -/
def SiteQueue.wordsHeld (q : SiteQueue) : Nat := (q.records.map (fun r => r.body.words)).sum

/-- A queue lies inside its area: head and tail are words of the area, and the used count is the words of its records and does
not pass the area's size (R39, R41). -/
structure SiteQueue.inside (p : SiteParams) (q : SiteQueue) : Prop where
  used : q.used = q.wordsHeld
  fits : q.used ≤ areaSize p
  head : p.start ≤ q.head ∧ q.head < p.stop
  tail : p.start ≤ q.tail ∧ q.tail < p.stop

/-- Every VALID site's area is sound and its queue lies inside it (R38, R41). -/
def State.queuesOk (s : State) : Prop :=
  ∀ i, look s.squ.valid i = true → areaSound (s.siteParams i) = true ∧ (s.queueOf i).inside (s.siteParams i)

/-- Only crosspoints carry marks, and every sense job the SNU holds or has waiting is of a crosspoint (R6, R146, R147). -/
structure State.marksOk (s : State) : Prop where
  marks : ∀ r, isCrosspoint r = false → (s.relay r).slow = false ∧ (s.relay r).suspect = false
  queue : ∀ j ∈ s.snu.queue, isCrosspoint j.relay = true
  sensing : ∀ j, s.snu.sensing = some j → isCrosspoint j.relay = true
  ended : ∀ j, s.snu.ended = some j → isCrosspoint j.relay = true
  stepping : ∀ j ∈ s.snu.stepping, isCrosspoint j.relay = true
  admission : ∀ b ∈ s.snu.admission, ∀ r ∈ b.2, isCrosspoint r = true

/-- The commands that may lower a wear count: a power-on load takes the stored counts, and a power-on reset, or a pin reset taken
as one, begins it (R158, R180). -/
def lowersWear (s : State) : Instr → Prop
  | .powerOnReset _ _ => True
  | .wearBlockRead _ _ _ => True
  | .coldPinReset _ _ => s.cfl.powerOnLoad = true
  | .warmKeep _ _ => s.cfl.powerOnLoad = true
  | _ => False

end Sys2Proof.Machine
end

