-- ==== Sys2Proof/Certificates/Slice0/Obligations.lean ====
section
/-! DEFINITION. The statements for the provers. In each, `advance dt s` is the state once the command's time has passed, and
`Follows s t` says that from s to t the base stands, credit is only spent and wear only rises. -/

open Sys2Proof Sys2Proof.Machine

/-! ### The step -/

/-- The command at the front of the queue runs, with the rest of the queue waiting. -/
def Obligations.StepRunsFrontCommand : Prop :=
  ∀ (c : Instr) (rest : List Instr) (s : State), s.pending = c :: rest → step s = exec c { s with pending := rest }

/-- No command of the part stops it, on any state and any operands. -/
def Obligations.EveryCommandAnswersNext : Prop :=
  ∀ (c : Instr) (s : State), ∃ t, exec c s = .next t

/-! ### Resets and start -/

/-- RESET_ASSERTED (R25, R29, R154, R166, R180): the part's own frame leaves the line and counts as objected, nothing is driven
or sensed from then on, a save in flight ends FAILED, the memory's bytes stand, and nothing else changes where no frame of the
part's own and no save was under way. In a reset the time alone passes. That the memory then holds a torn copy of the block is
the model's reading of R166 (notes/assumptions/10.md). -/
def Obligations.ResetAssertedCutsWork : Prop :=
  ∀ (dt : Nat) (s : State),
    (s.cfl.phase = .inReset → exec (.resetAsserted dt) s = .next (advance dt s)) ∧
    (s.cfl.phase ≠ .inReset → ∃ t, exec (.resetAsserted dt) s = .next t ∧
      t.cfl = { s.cfl with phase := .inReset } ∧ t.liu.own = none ∧ t.liu.hearing = none ∧
      t.snu.sensing = none ∧ t.snu.senseEnd = none ∧ t.snu.ended = none ∧
      t.memory.cells = s.memory.cells ∧ t.wru.save = none ∧
      (∀ v, s.wru.save = some v → look t.memory.torn v.block = true ∧ look t.wru.dirty v.block = true ∧
        t.wru.saveEnd = some (.saveFailed v.written (some v.block))) ∧
      (s.liu.own ≠ none → s.liu.link = .active →
        (s.liu.objections + 1 < 16 → t.liu.objections = s.liu.objections + 1 ∧ t.liu.link = .active) ∧
        (16 ≤ s.liu.objections + 1 → t.liu.objections = 0 ∧ t.liu.link = .muted)) ∧
      (s.liu.own = none → s.wru.save = none →
        t = { advance dt s with
          liu := { s.liu with hearing := none }
          snu := { s.snu with sensing := none, senseEnd := none, ended := none }
          cfl := { s.cfl with phase := .inReset } }))

/-- POWER_ON_RESET (R180): every block takes its reset values, the configuration memory keeps its bytes, and the node straps are
read (R181). That a block whose write the reset cut is torn is the model's reading of R166 (notes/assumptions/10.md). -/
def Obligations.PowerOnResetGivesResetState : Prop :=
  ∀ (dt : Nat) (straps : Node) (s : State), ∃ t, exec (.powerOnReset dt straps) s = .next t ∧
    t.liu = Liu.reset ∧ t.squ = Squ.reset ∧ t.ne = Ne.reset ∧ t.rcu = Rcu.reset ∧ t.ilu = Ilu.reset ∧ t.wsu = Wsu.reset ∧
    t.rm = Rm.reset ∧ t.snu = Snu.reset ∧ t.wru = Wru.reset ∧ t.fcu = Fcu.reset ∧ t.tb = Tb.reset ∧
    t.cfl.node = straps ∧ t.cfl.phase = .loading ∧ t.cfl.kind = .powerOn ∧ t.cfl.powerOnLoad = true ∧
    t.memory.cells = s.memory.cells ∧
    (∀ b, look t.memory.torn b =
      (look s.memory.torn b || (decide (s.cfl.phase ≠ .inReset) && decide (s.wru.save.map Save.block = some b)))) ∧
    t.free = s.free ∧ t.pending = s.pending

/-- COLD_PIN_RESET (R10, R31, R60, R84, R129, R132, R156, R161, R175, R179, R180): over the state r that the assertion leaves,
every relay is OPENING with its marks kept and the RM is not ready, the net table, the link, the queues, the view and the waves
take their reset values, and wear counts, dirty marks, the save-end mark, the first-fault record, notes, memory and Timebase
are kept. Before the load of a power-on reset has ended it is a power-on reset. -/
def Obligations.ColdPinResetKeepsWearAndRecord : Prop :=
  ∀ (dt : Nat) (straps : Node) (s : State),
    (s.cfl.powerOnLoad = true → exec (.coldPinReset dt straps) s = exec (.powerOnReset dt straps) s) ∧
    (s.cfl.powerOnLoad = false → ∀ r, r = resetAsserted (advance dt s) →
      ∃ t, exec (.coldPinReset dt straps) s = .next t ∧
        t.liu = Liu.reset ∧ t.squ = Squ.reset ∧ t.ne = Ne.reset ∧ t.rcu = Rcu.reset ∧ t.ilu = Ilu.reset ∧ t.wsu = Wsu.reset ∧
        t.snu = Snu.reset ∧ t.rm.ready = false ∧
        (∀ x, t.relay x = ⟨.opening, none, (r.relay x).suspect, (r.relay x).slow, none⟩) ∧
        t.wru = { r.wru with answer := none, save := none } ∧ t.fcu = { r.fcu with answer := none } ∧
        t.cfl.node = straps ∧ t.cfl.phase = .loading ∧ t.cfl.kind = .coldPin ∧ t.cfl.powerOnLoad = false ∧
        t.tb = r.tb ∧ t.memory = r.memory ∧ t.free = r.free ∧ t.pending = r.pending)

/-- WARM_KEEP (R11, R60, R85, R100, R128, R129, R180): over the state r that the assertion leaves, FREE, CONNECTED, FAULTED and
RELEASE_BLOCKED entries keep their state, any other is FAULTED with RESET_IN_FLIGHT and its marks cleared; holdings are kept and
unconfirmed, with their view entries, every other view entry is cleared, and no cooling mark stands; no CLAIM is owed; every relay
keeps its state, marks and settle end, and its owner unless it is OPEN and listed unpulsed by a wave that is gone; the recovery list
holds the owned relays on their way, ascending; the RM is ready unless a relay on its way has no owner. -/
def Obligations.WarmKeepKeepsRestedEntries : Prop :=
  ∀ (dt : Nat) (straps : Node) (s : State),
    (s.cfl.powerOnLoad = true → exec (.warmKeep dt straps) s = exec (.powerOnReset dt straps) s) ∧
    (s.cfl.powerOnLoad = false → ∀ r, r = resetAsserted (advance dt s) →
      ∃ t, exec (.warmKeep dt straps) s = .next t ∧
        (∀ e, (r.entry e).state.kept = true → (t.entry e).state = (r.entry e).state ∧ (t.entry e).site = (r.entry e).site ∧
          (t.entry e).net = (r.entry e).net ∧ (t.entry e).resource = (r.entry e).resource ∧
          (t.entry e).pins = (r.entry e).pins ∧ look t.ne.status e = look r.ne.status e ∧
          look t.ne.cancel e = look r.ne.cancel e) ∧
        (∀ e, (r.entry e).state.kept = false → (t.entry e).state = .faulted ∧
          (t.entry e).reason = some .resetInFlight ∧ (t.entry e).releasePending = none ∧ (t.entry e).deadline = none ∧
          (t.entry e).site = (r.entry e).site ∧ (t.entry e).net = (r.entry e).net ∧
          look t.ne.status e = none ∧ look t.ne.cancel e = none) ∧
        (∀ i, look t.ne.siteStatus i = none) ∧ t.ne.binding = r.ne.binding ∧
        t.rcu.holdings = r.rcu.holdings ∧ (∀ x, look t.rcu.unconfirmed x = (look r.rcu.holdings x).isSome) ∧
        (∀ e, look t.rcu.claims e = none) ∧ t.rcu.failures = 0 ∧
        (∀ x, (t.relay x).state = (r.relay x).state ∧ (t.relay x).slow = (r.relay x).slow ∧
          (t.relay x).suspect = (r.relay x).suspect ∧ (t.relay x).settleEnd = (r.relay x).settleEnd) ∧
        (∀ x, (r.relay x).state ≠ .opened ∨ (∀ v ∈ r.wsu.queue ++ r.wsu.held, ∀ p ∈ v.todo, p.1 ≠ x) →
          (t.relay x).owner = (r.relay x).owner) ∧
        (∀ x, (r.relay x).state = .opened → (∃ v ∈ r.wsu.queue ++ r.wsu.held, ∃ p ∈ v.todo, p.1 = x) →
          (t.relay x).owner = none) ∧
        (∀ x, t.viewOf x = if (look r.rcu.holdings x).isSome = true then { r.viewOf x with cooling := none }
          else ⟨none, none, false, 0, false, none⟩) ∧
        t.wsu.queue = [] ∧ t.wsu.held = [] ∧ t.wsu.settling = [] ∧ t.wsu.credit = none ∧
        t.wsu.recovery = allRelays.filterMap (fun x =>
          if (r.relay x).state = .closing ∨ (r.relay x).state = .opening then (r.relay x).owner.map (fun e => (x, e))
          else none) ∧
        (t.rm.ready = true ↔ ∀ x, (r.relay x).state = .closing ∨ (r.relay x).state = .opening → (r.relay x).owner ≠ none) ∧
        t.liu = Liu.reset ∧ t.ilu = Ilu.reset ∧ t.snu = Snu.reset ∧ t.wru = { r.wru with answer := none, save := none } ∧
        t.cfl.node = straps ∧ t.cfl.phase = .loading ∧ t.cfl.kind = .warmKeep ∧ t.tb = r.tb ∧ t.memory = r.memory)

/-- CONFIGURATION_LOAD_END (R38, R58, R101, R111, R127, R128, R183): the judged parameters come into force, every queue is empty
at its area's start, the arbiter is fresh, the credit meter stands, started at Cmax and only spent at this event, the first
beacon-period boundary is P ms away, and the listen period of P + 10 ms begins. Where the RM is not ready the start sweep over
the relays not OPEN is in the queue or settling, or has left the RM ready; where relays are listed for it, none of them OPEN, and
no other entry is to act, the recovery wave over them is in the queue or settling. -/
def Obligations.ConfigurationLoadEndGivesParameters : Prop :=
  ∀ (dt : Nat) (record : MemAnswer) (s : State), (advance dt s).loadDone = true →
    ∀ j, j = (s.cfl.judged.getD (judgeRecord record s.memory)) →
      ∃ t, exec (.configurationLoadEnd dt record) s = .next t ∧ Follows (noteRecord j.note (takeParameters j.config (advance dt s))) t ∧
        t.cfl.phase = .running ∧ t.cfl.config = j.config ∧ t.cfl.listen = true ∧
        t.cfl.listenEnd = later (advance dt s).now ((j.config.period + 10) * 1000) ∧
        t.tb.nextBeacon = later (advance dt s).now (j.config.period * 1000) ∧
        t.squ.valid = validAreas j.config.sites ∧
        (∀ i, t.queueOf i = SiteQueue.empty (look j.config.sites i).start) ∧
        (∀ c, look t.squ.lastServed c = none) ∧ t.squ.budgets = j.config.weights ∧
        (∃ c, t.wsu.credit = some c ∧ c ≤ j.config.cmax) ∧
        t.rcu.beaconOwed = decide (s.cfl.kind = .warmKeep) ∧
        (s.wsu.queue = [] → s.noWaiter → s.rm.ready = false → (∀ e, (s.entry e).state = .free) →
          t.rm.ready = true ∨ ∃ v ∈ t.wsu.queue ++ t.wsu.settling, v.owner = .sweep ∧ v.done ++ v.todo =
            (allRelays.filter (fun r => decide ((s.relay r).state ≠ .opened))).map (fun r => (r, false))) ∧
        (s.wsu.queue = [] → s.noWaiter → s.rm.ready = true → s.wsu.recovery ≠ [] →
          (∀ p ∈ s.wsu.recovery, (s.relay p.1).state ≠ .opened) →
          (∀ e, (∀ p ∈ s.wsu.recovery, p.2 ≠ e) → (s.entry e).state ≠ .disconnectOuter ∧
            ((s.entry e).state = .faulted → (s.entry e).winding = false) ∧
            ((s.entry e).state = .connected → (s.entry e).monitorMoving = false)) →
          ∃ v ∈ t.wsu.queue ++ t.wsu.settling, v.owner = .recovery ∧
            v.done ++ v.todo = s.wsu.recovery.map (fun p => (p.1, false)))

/-- The judging of the configuration record (R5, R111, R182, R193): a record that is not acknowledged, has the wrong signature or
format, or fails its check sum is defaulted with CONFIG_DEFAULTED and detail 1, 2 or 3. Of a sound record every field is taken as
read where it lies in its range, and otherwise at the nearer end; a trunk mask is taken as read, and a trunk reserved to a lower
site leaves a reserved mask; where a field was changed CONFIG_CLAMPED carries the lowest offset of those changed, and otherwise
nothing is noted. So every parameter lies in its range, each cost at most Cmax and each life limit at least its wear threshold. -/
def Obligations.RecordIsDefaultedOrClamped : Prop :=
  (∀ (a : MemAnswer) (m : ConfigMemory), a ≠ .acknowledged →
    judgeRecord a m = ⟨Configuration.defaulted, some (noteConfigDefaulted, 1#16)⟩) ∧
  (∀ b : List Byte, byteAt b 0 ≠ 0xA7 ∨ byteAt b 1 ≠ 1 →
    judgeBytes b = ⟨Configuration.defaulted, some (noteConfigDefaulted, 2#16)⟩) ∧
  (∀ b : List Byte, byteAt b 0 = 0xA7 → byteAt b 1 = 1 → byteSum b ≠ 0 →
    judgeBytes b = ⟨Configuration.defaulted, some (noteConfigDefaulted, 3#16)⟩) ∧
  (∀ (b : List Byte) (j : Judged), byteAt b 0 = 0xA7 → byteAt b 1 = 1 → byteSum b = 0 → j = judgeBytes b →
    (∀ f ∈ recordFields b j.config, f.taken = max f.lo (min f.hi f.read)) ∧
    (∀ i : Site, (look j.config.sites i).trunks = BitVec.ofNat 16 (wordAt b (77 + 9 * i.val)) ∧
      ∀ t : Trunk, (look j.config.sites i).reserved.getLsbD t.val = ((wordAt b (79 + 9 * i.val)).testBit t.val
        && decide (∀ k : Site, k < i → (wordAt b (79 + 9 * k.val)).testBit t.val = false))) ∧
    j.note = (changedFields b j.config).min?.map (fun o => (noteConfigClamped, BitVec.ofNat 16 o))) ∧
  (∀ (a : MemAnswer) (m : ConfigMemory), let c := (judgeRecord a m).config
    8 ≤ c.cmax ∧ c.cmax ≤ 1023 ∧ 1 ≤ c.refill ∧ c.refill ≤ 255 ∧ 10 ≤ c.claimWait ∧ c.claimWait ≤ 5000 ∧
    c.holdLimit ≤ 2000 ∧ 10 ≤ c.releaseWait ∧ c.releaseWait ≤ 2000 ∧ c.abortGrace ≤ 500 ∧ 10 ≤ c.period ∧ c.period ≤ 250 ∧
    (∀ k, 1 ≤ look c.weights k ∧ look c.weights k ≤ 15) ∧
    (∀ i, (look c.sites i).start ≤ 1023 ∧ (look c.sites i).stop ≤ 1024) ∧
    ∀ k, let p := c.params k
      50 ≤ p.operate ∧ p.operate ≤ 10000 ∧ 20 ≤ p.release ∧ p.release ≤ 10000 ∧ p.bounce ≤ 2000 ∧
      1 ≤ p.cost ∧ p.cost ≤ 63 ∧ p.cost ≤ c.cmax ∧ 1 ≤ p.threshold ∧ p.threshold ≤ p.life ∧ p.life ≤ 16777215)

/-- WEAR_BLOCK_READ (R167, R168): a sound block gives its sixteen relays their stored counts and, for crosspoints, their marks; a
lost one gives its class thresholds and clear marks and is noted; a memory silent at block 0 is an absent store. Relays of other
blocks keep counts and records. -/
def Obligations.WearBlockReadTakesBlock : Prop :=
  ∀ (dt : Nat) (record block : MemAnswer) (s : State) (b : Block),
    s.cfl.phase = .loading → s.cfl.powerOnLoad = true → s.cfl.nextBlock = b.val →
    ∀ cfg bytes, cfg = (s.cfl.judged.getD (judgeRecord record s.memory)).config →
      bytes = Memory.readAll s.memory.cells (blockOffset b.val) 66 →
      ∃ t, exec (.wearBlockRead dt record block) s = .next t ∧ t.memory = s.memory ∧
        (¬ (b.val = 0 ∧ block = .noAddress) →
          t.cfl.nextBlock = b.val + 1 ∧
          (∀ r, blockOf r ≠ b → look t.wru.counts r = look s.wru.counts r ∧ t.relay r = s.relay r) ∧
          ((block = .acknowledged ∧ look s.memory.torn b = false ∧ blockSound bytes = true) →
            ∀ r, blockOf r = b → look t.wru.counts r = tripleAt bytes (4 * (r.val % 16)) ∧
              (t.relay r).slow = (isCrosspoint r && (storedByte bytes r 3).testBit 0) ∧
              (t.relay r).suspect = (isCrosspoint r && (storedByte bytes r 3).testBit 1)) ∧
          (¬ (block = .acknowledged ∧ look s.memory.torn b = false ∧ blockSound bytes = true) →
            (∀ r, blockOf r = b → look t.wru.counts r = (cfg.params (classOf r)).threshold ∧
              (t.relay r).slow = false ∧ (t.relay r).suspect = false) ∧
            look t.fcu.notes noteWearBlockLost = some (BitVec.ofNat 16 b.val))) ∧
        (b.val = 0 ∧ block = .noAddress →
          t.cfl.nextBlock = 40 ∧ t.wru.storeAbsent = true ∧ look t.fcu.notes noteStoreAbsent = some 0#16 ∧
          ∀ r, look t.wru.counts r = (cfg.params (classOf r)).threshold ∧ (t.relay r).slow = false ∧
            (t.relay r).suspect = false)

/-- LISTEN_PERIOD_END (R106, R119, R183): the listen period is over. Held waves whose trunk is SAFE by the roster rejoin the tail of
a wave queue that is not empty. After a warm keep the view entry of each trunk is reported to the participants that use it: one that
does not find its anchor there takes ANCHOR_LOST. Where no wave is held, and every participant finds its anchor or the reset was no
warm keep, nothing else changes. -/
def Obligations.ListenPeriodEndOpensDispatch : Prop :=
  ∀ (dt : Nat) (s u : State), (advance dt s).listenDue = true →
    u = { advance dt s with cfl := { s.cfl with listen := false, firstBeacon := false } } →
    ∃ t, exec (.listenPeriodEnd dt) s = .next t ∧ Follows u t ∧ t.cfl.listen = false ∧
      (s.cfl.kind ≠ .warmKeep ∨ s.anchorsShown →
        (s.wsu.held = [] → t = u) ∧
        (s.wsu.queue ≠ [] → t.wsu.held = s.wsu.held.filter (fun v => !u.resumes v) ∧
          t.wsu.queue = s.wsu.queue ++ sortWaves (s.wsu.held.filter u.resumes) ∧ t.ne = s.ne)) ∧
      (∀ e k, s.cfl.kind = .warmKeep → s.wsu.held = [] → s.noWaiter → s.wsu.queue ≠ [] → s.atRest e → s.closedSeries e ≠ [] →
        (s.entry e).role = .participant → (s.entry e).trunk = some k → s.anchorGone e k →
        (∀ x, x ≠ e → (s.entry x).role = .participant → (s.entry x).state = .free) →
        s.faults t e .anchorLost ∧ (∀ x, x ≠ e → t.entry x = s.entry x) ∧
        s.captures t ⟨.anchorLost, some ((s.entry e).site, (s.entry e).net), some (NetResource.trunk k).code, none, none⟩
          u.fcu.millis)

/-! ### Link events -/

/-- IDLE_POINT and DEFERRED_FRAME_START (R17–R21, R26, R36): on a quiet line whose released bit times number 11 and whose receive
buffer is empty the chosen frame starts, its content and its check fixed from the state; with fewer bit times counted the time
alone passes; with a frame still in the buffer the idle point starts none. -/
def Obligations.IdlePointStartsChosenFrame : Prop :=
  ∀ (dt : Nat) (s s1 : State) (started : Option OwnFrame), s1 = advance dt s → s1.quietLine = true →
    started = s1.chosen.map (fun m => let f := s1.frameOf m
      ⟨m, f, frameCheck f.prio f.kind f.src f.payload.length f.payload, s1.now, false, false⟩) →
    (s.liu.idle = false → ∀ n, n = (s1.now - s.liu.idleFrom).toNat → n < 2147483648 → s1.idleCount = min 11 n) ∧
    (s1.idleCount < 11 → exec (.idlePoint dt) s = .next s1) ∧
    (s1.idleCount = 11 → s.liu.rx = [] → exec (.idlePoint dt) s = .next { s1 with liu := { s1.liu with
      synced := true, idle := true, discarding := false, own := started } }) ∧
    (s1.idleCount = 11 → s.liu.rx ≠ [] → exec (.idlePoint dt) s = .next { s1 with liu := { s1.liu with
      synced := true, idle := true, discarding := false } }) ∧
    (s.liu.rx = [] → s.liu.synced = true → s.liu.idle = true →
      exec (.deferredFrameStart dt) s = .next { s1 with liu := { s1.liu with own := started } })

/-- The choice of an owed frame (R36, R184): in ACTIVE and outside the listen period the frame of lowest arbitration value among
all owed, the lower net entry first among frames of one kind, and a STATUS of an entry before one of a site; none in MUTED and
DUPLICATE_LATCH; in the listen period only the first BEACON after a warm keep. -/
def Obligations.ChosenFrameHasLowestRank : Prop :=
  ∀ s : State,
    (s.liu.link ≠ .active → s.chosen = none) ∧
    (s.liu.link = .active → s.cfl.listen = true → ∀ m, s.chosen = some m → m = .beacon ∧ s.cfl.firstBeacon = true) ∧
    (s.liu.link = .active → s.cfl.listen = false →
      (s.chosen = none → s.owedMarks = []) ∧
      ∀ m, s.chosen = some m → m ∈ s.owedMarks ∧
        ∀ m' ∈ s.owedMarks, arbitrationValue (s.frameOf m) ≤ arbitrationValue (s.frameOf m') ∧
          (∀ e r e' r', m = .claim e r → m' = .claim e' r' → e ≤ e') ∧
          (∀ e r e' r', m = .release e r → m' = .release e' r' → e < e' ∨ e = e' ∧ r ≤ r') ∧
          (∀ e e', m = .cancel e → m' = .cancel e' → e ≤ e') ∧
          (∀ e e', m = .status e → m' = .status e' → e ≤ e') ∧
          (∀ i e', m = .siteStatus i → m' ≠ .status e') ∧
          (∀ i i', m = .siteStatus i → m' = .siteStatus i' → i ≤ i') ∧
          (∀ i i', m = .ready i → m' = .ready i' → i ≤ i') ∧
          (∀ c c', m = .note c → m' = .note c' → c ≤ c'))

/-- LOST_CONTENTION (R21): the part leaves the line and keeps its mark, and idle bits count no earlier than the end of a shortest
frame (the model's bound, notes/assumptions/51.md); nothing else changes unless a claim on the line was the
last thing an entry waited for (notes/assumptions/11.md), and then only what that entry goes on to. -/
def Obligations.LostContentionKeepsMark : Prop :=
  ∀ (dt : Nat) (s u : State) (o : OwnFrame), s.running = true → s.liu.own = some o →
    u = { advance dt s with liu := { s.liu with own := none, idle := false, idleFrom := (advance dt s).frameOver o } } →
    ∃ t, exec (.lostContention dt) s = .next t ∧ Follows u t ∧
      ((∀ e r, o.owed = .claim e r → (s.entry e).state ≠ .awaitOpened ∧ (s.entry e).state ≠ .releaseBlocked ∧
        ¬ ((s.entry e).monitor = .claiming ∧ (s.entry e).deadline = none)) → t = u)

/-- READBACK_FAULT (R23, R171, R173, R178): the frame is abandoned, what follows of it is discarded, its mark stands, the LIU is in
DUPLICATE_LATCH with both counts 0, and DUPLICATE_NODE is captured and noted with the kind of the frame. Idle bits count no earlier
than the end of a shortest frame (the model's bound, notes/assumptions/51.md). -/
def Obligations.ReadbackFaultLatches : Prop :=
  ∀ (dt : Nat) (s u : State) (o : OwnFrame), s.running = true → s.liu.own = some o →
    u = { advance dt s with liu := { s.liu with
      own := none, idle := false, idleFrom := (advance dt s).frameOver o, discarding := true
      link := .duplicateLatch, objections := 0, cleans := 0
      hearing := s.liu.hearing.map (Hearing.silenced (advance dt s).now) } } →
    ∃ t, exec (.readbackFault dt) s = .next t ∧ Follows (captureDuplicate o.frame.kind u) t ∧ t.liu.link = .duplicateLatch ∧
      ((∀ e r, o.owed ≠ .claim e r) →
        t = { u with fcu := { u.fcu with
          record := match s.fcu.record with
            | none => some ⟨⟨.duplicateNode, none, none, none, some o.frame.kind⟩, u.fcu.millis, 1⟩
            | some r => some { r with count := min 255 (r.count + 1) }
          notes := put s.fcu.notes noteDuplicateNode (some (BitVec.ofNat 16 (Kind.code o.frame.kind).val)) } })

/-- CHECK_FIELD_END, the objection (R23, R24, R31): the part objects to a damaged frame, to any frame while its buffer holds 4, to
a request of another node that lacks room and to a MAINT for itself while a MAINT_DONE is owed; in DUPLICATE_LATCH to none; and of
an abandoned frame what follows is discarded. Both tests are judged after the frames already in the buffer, found by dispatching
them (the model's reading, notes/assumptions/21.md), and a frame of the part's own number is not put to the room test (the
model's reading, notes/assumptions/22.md). -/
def Obligations.CheckFieldEndDecidesObjection : Prop :=
  ∀ (dt : Nat) (h : Sampled) (s s1 : State), s1 = advance dt s → s1.quietLine = true → s.liu.synced = true →
    (s.liu.discarding = true → exec (.checkFieldEnd dt h) s = .next { s1 with liu := { s1.liu with
      discarding := false, idle := false, idleFrom := later s1.now 9 } }) ∧
    (s.liu.discarding = false →
      ∃ t x, exec (.checkFieldEnd dt h) s = .next t ∧ t.liu.hearing = some x ∧ x.slot = s1.now ∧ t.liu.rx = s.liu.rx ∧
        t.liu.roster = s.liu.roster ∧ t.liu.own = none ∧
        x.frame = (if sampledDamaged h = true then none else some (sampledFrame h)) ∧
        (sampledDamaged h = true ↔ 12 < h.length.val ∨ frameCheck h.prio h.kind h.src h.length.val h.payload ≠ h.check) ∧
        (x.objecting = true ↔ s.liu.link ≠ .duplicateLatch ∧
          (sampledDamaged h = true ∨ 4 ≤ s.liu.rx.length ∨
            (∃ op, parse (sampledFrame h) = some (.maint s.cfl.node op) ∧ s1.afterBuffer.maintOwed = true) ∨
            (∃ m, parse (sampledFrame h) = some m ∧ h.src ≠ s.cfl.node ∧ s1.afterBuffer.lacksRoom m = true))))

/-- CHECK_FIELD_END, the clean count (R30): in MUTED an undamaged frame raises it, the 32nd returns the LIU to ACTIVE with both
counts 0 and MUTED_LEFT noted, and a damaged frame sets it to 0; otherwise it stands. -/
def Obligations.MutedCountsCleanFrames : Prop :=
  ∀ (dt : Nat) (h : Sampled) (s s1 : State), s1 = advance dt s → s1.quietLine = true → s.liu.synced = true →
    s.liu.discarding = false →
    ∃ t, exec (.checkFieldEnd dt h) s = .next t ∧
      (s.liu.link ≠ .muted → t.liu.link = s.liu.link ∧ t.liu.cleans = s.liu.cleans ∧ t.liu.objections = s.liu.objections) ∧
      (s.liu.link = .muted → sampledDamaged h = true → t.liu.link = .muted ∧ t.liu.cleans = 0) ∧
      (s.liu.link = .muted → sampledDamaged h = false → s.liu.cleans + 1 < 32 →
        t.liu.link = .muted ∧ t.liu.cleans = s.liu.cleans + 1) ∧
      (s.liu.link = .muted → sampledDamaged h = false → 32 ≤ s.liu.cleans + 1 →
        t.liu.link = .active ∧ t.liu.cleans = 0 ∧ t.liu.objections = 0 ∧ look t.fcu.notes noteMutedLeft = some 0#16)

/-- OBJECTION_SLOT_READ of a heard frame (R25, R26, R31): an undamaged frame that nobody objected to joins the receive buffer
while it holds fewer than 4, and nothing else changes. -/
def Obligations.SlotReadDeliversHeardFrame : Prop :=
  ∀ (dt : Nat) (driven : Bool) (s s1 : State) (h : Hearing), s1 = advance dt s → s.running = true → s.liu.own = none →
    s.liu.hearing = some h →
    exec (.objectionSlotRead dt driven) s = .next { s1 with liu := { s1.liu with
      hearing := none
      idleFrom := later s1.now 7
      rx := if driven = false ∧ h.objecting = false ∧ s.liu.rx.length < 4 then s.liu.rx ++ h.frame.toList else s.liu.rx } }

/-- OBJECTION_SLOT_READ of the part's own frame (R25, R29, R62, R179): an objected frame raises the objection count, at 16 the
LIU is MUTED with both counts 0, and a frame sent without objection sets it to 0. A mark whose cause did not recur is cleared
when its frame was sent without objection, and stands, with all else, when it was objected. After an objected CLAIM the waiting
anchor chooses again: it keeps a trunk that still meets its conditions, and otherwise claims the one then chosen, if any (R86,
R88, R92). -/
def Obligations.OwnFrameOutcomeCountsAndClears : Prop :=
  ∀ (dt : Nat) (driven : Bool) (s u : State) (o : OwnFrame), s.running = true → s.liu.own = some o →
    u = { advance dt s with liu := { s.liu with own := none, idle := false, idleFrom := later (advance dt s).now 7 } } →
    ∃ t, exec (.objectionSlotRead dt driven) s = .next t ∧
      (driven = false → t.liu.objections = 0 ∧ t.liu.link = s.liu.link) ∧
      (driven = true → s.liu.link = .active → s.liu.objections + 1 < 16 →
        t.liu.objections = s.liu.objections + 1 ∧ t.liu.link = .active) ∧
      (driven = true → s.liu.link = .active → 16 ≤ s.liu.objections + 1 →
        t.liu.objections = 0 ∧ t.liu.cleans = 0 ∧ t.liu.link = .muted) ∧
      (driven = true → s.liu.objections + 1 < 16 → s.liu.link = .active → (∀ e r, o.owed ≠ .claim e r) →
        t = { u with liu := { u.liu with objections := s.liu.objections + 1 } }) ∧
      (driven = true → s.liu.objections + 1 < 16 → s.liu.link = .active → ∀ e r, o.owed = .claim e r →
        (s.entry e).state = .awaitResource → (s.entry e).request ≠ .localBus → (s.entry e).monitor ≠ .claiming →
        s.noOtherWaiter e →
        (∀ k, (s.entry e).resource = some (.trunk k) → u.candidate e k = true →
          t = { u with liu := { u.liu with objections := s.liu.objections + 1 } }) ∧
        ((∀ k, (s.entry e).resource = some (.trunk k) → u.candidate e k = false) →
          look t.rcu.claims e = (u.chooseTrunk e).map trunkResource ∧ (t.entry e).state = .awaitResource ∧
          (∀ k, u.chooseTrunk e = some k → (t.entry e).resource = some (.trunk k)) ∧ ∀ x, x ≠ e → t.entry x = s.entry x)) ∧
      (driven = false → o.renewed = false → ∀ u0, u0 = { u with liu := { u.liu with objections := 0 } } →
        (∀ e, o.owed = .cancel e → t = { u0 with ne := { u0.ne with cancel := put u0.ne.cancel e none } }) ∧
        (∀ i, o.owed = .siteStatus i → t = { u0 with ne := { u0.ne with siteStatus := put u0.ne.siteStatus i none } }) ∧
        (∀ e, o.owed = .status e → (s.entry e).releasePending = none →
          t = { u0 with ne := { u0.ne with status := put u0.ne.status e none } }) ∧
        (∀ i, o.owed = .ready i → t = { u0 with squ := { u0.squ with ready := put u0.squ.ready i none } }) ∧
        (∀ c, o.owed = .note c → t = { u0 with fcu := { u0.fcu with notes := put u0.fcu.notes c none } }) ∧
        (o.owed = .wearAnswer → t = { u0 with wru := { u0.wru with answer := none } }) ∧
        (o.owed = .saveEnd → t = { u0 with wru := { u0.wru with saveEnd := none } }) ∧
        (o.owed = .faultAnswer → t = { u0 with fcu := { u0.fcu with answer := none } }))

/-- The card's CLAIM, RELEASE and BEACON sent without objection (R65, R67, R73, R92, R93, R100, R101): the holding is added with this
node in the view, and the entry that waited for the trunk is in CONNECT_INNER with its inner connect wave; or the holding goes with
its view entry cleared, and an entry that then holds nothing is FREE, its closing report owed where it was not; or kept holdings are
confirmed and the BEACON is owed no more. -/
def Obligations.OwnClaimReleaseBeaconSent : Prop :=
  ∀ (dt : Nat) (s u : State) (o : OwnFrame), s.running = true → s.liu.own = some o →
    u = { advance dt s with liu := { s.liu with own := none, idle := false, idleFrom := later (advance dt s).now 7, objections := 0 } } →
    ∃ t, exec (.objectionSlotRead dt false) s = .next t ∧
      (∀ e r, o.owed = .claim e r →
        (∀ q, look t.rcu.holdings q = if q = r then some e else look s.rcu.holdings q) ∧
        look t.rcu.unconfirmed r = false ∧
        t.viewOf r = { s.viewOf r with
          holder := some s.cfl.node, net := some ((s.entry e).site, (s.entry e).net), claimed := true, misses := 0
          refreshed := false } ∧
        (∀ q, q ≠ r → t.viewOf q = s.viewOf q)) ∧
      (∀ e a k closes, a = s.entry e → o.owed = .claim e (trunkResource k) → a.state = .awaitResource → a.monitor ≠ .claiming →
        s.noOtherWaiter e → s.wsu.queue ≠ [] → closes = a.pins.map (fun p => relayX p k) ++ [relayA k] →
        (∀ q ∈ closes, (s.relay q).state = .opened) →
        t.entry e = { a with state := .connectInner, resource := some (.trunk k), deadline := none } ∧
        (∀ x, x ≠ e → t.entry x = s.entry x) ∧ (∀ q ∈ closes, (t.relay q).owner = some e) ∧
        t.wsu.queue = s.wsu.queue ++ [⟨.entry e, .innerConnect, [], closes.map (fun q => (q, true)), some k, !a.hot, false,
          decide (a.reason = some .aborted), none⟩]) ∧
      (∀ e r a, a = s.entry e → o.owed = .release e r → look s.rcu.holdings r = some e → s.noWaiter →
        a.state = .awaitOpened ∨ a.state = .releaseBlocked →
        ((∀ q, q ≠ r → look s.rcu.holdings q ≠ some e) → (t.entry e).state = .free ∧ (∀ p, look t.ne.binding p ≠ some e) ∧
          look t.ne.status e = if a.reported = true ∨ a.refused = true then look s.ne.status e
            else some ⟨a.site, a.net, .opened, openedReason a.reason, a.resource.map NetResource.code, none⟩) ∧
        ((∃ q, q ≠ r ∧ look s.rcu.holdings q = some e) → t.entry e = a)) ∧
      (∀ e r, o.owed = .release e r → look s.rcu.holdings r = some e →
        (∀ q, look t.rcu.holdings q = if q = r then none else look s.rcu.holdings q) ∧
        (t.viewOf r).holder = none ∧ (t.viewOf r).cooling = (s.viewOf r).cooling ∧
        (∀ q, q ≠ r → t.viewOf q = s.viewOf q)) ∧
      (o.owed = .beacon → t = { u with
        rcu := { u.rcu with beaconOwed := false, beaconSent := true, unconfirmed := fill 17 false }
        cfl := { u.cfl with firstBeacon := false } })

/-! ### Heard frames -/

/-- A malformed frame leaves the buffer with no other effect (R27); a well-formed one of the part's own number latches the LIU
and is captured and noted as DUPLICATE_NODE with its kind (R28). From then on LINK_EN is inactive, and an objection whose slot
begins at this instant is not made (R31). -/
def Obligations.MalformedAndDuplicateFrames : Prop :=
  ∀ (dt : Nat) (s u : State) (f : Frame) (rest : List Frame), s.running = true → s.liu.rx = f :: rest →
    u = { advance dt s with liu := { s.liu with rx := rest } } →
    (parse f = none → exec (frameCommand dt s.cfl.node f) s = .next u) ∧
    (parse f ≠ none → f.src = s.cfl.node → ∃ t, exec (frameCommand dt s.cfl.node f) s = .next t ∧ t.linkDriven = false ∧
      t = captureDuplicate f.kind { u with liu := { u.liu with
        link := .duplicateLatch, objections := 0, cleans := 0
        hearing := s.liu.hearing.map (fun h => if h.slot = u.now then { h with objecting := false } else h) } })

/-- READY, NOTE, MAINT_DONE and MAINT_FOR_ANOTHER_TARGET_NODE (R32, R33): the frame updates the roster; beyond that only held
waves whose trunk is no longer live may go on. -/
def Obligations.ReportsUpdateRosterAlone : Prop :=
  ∀ (dt : Nat) (s u : State) (f : Frame) (m : Msg) (c : Instr), s.Front f m → u = s.heard dt f m →
    (m = .ready ∧ c = .ready dt ∨ m = .note ∧ c = .note dt ∨ m = .maintDone ∧ c = .maintDone dt ∨
      (∃ n op, m = .maint n op ∧ n ≠ s.cfl.node) ∧ c = .maintForAnotherTargetNode dt) →
    look u.liu.roster f.src = { look s.liu.roster f.src with present := true, misses := 0, heard := true } ∧
      (∀ n, n ≠ f.src → look u.liu.roster n = look s.liu.roster n) ∧
      ∃ t, exec c s = .next t ∧ Follows u t ∧ (s.wsu.held = [] → t = u)

/-- SOURCE (R33, R119, R131): the flag of its trunk in the node's live mask is set by LIVE and cleared by SAFE, every other flag
and roster entry stands, and the held waves whose trunk is then not live join the tail of a wave queue that is not empty. -/
def Obligations.SourceSetsLiveFlag : Prop :=
  ∀ (dt : Nat) (s u : State) (f : Frame) (tr : Trunk) (on : Bool), s.Front f (.source tr on) →
    u = s.heard dt f (.source tr on) →
    ∃ t, exec (.source dt) s = .next t ∧ Follows u t ∧
      (∀ n, n ≠ f.src → look t.liu.roster n = look s.liu.roster n) ∧
      (∀ x y, x = look s.liu.roster f.src → y = look t.liu.roster f.src →
        y.present = true ∧ y.misses = 0 ∧ y.heard = true ∧ y.kind = x.kind ∧
        ∀ i : Trunk, y.live.getLsbD i.val = if i = tr then on else x.live.getLsbD i.val) ∧
      (s.wsu.held = [] → t = u) ∧
      (s.wsu.queue ≠ [] → t.wsu.held = s.wsu.held.filter (fun v => !u.resumes v) ∧
        t.wsu.queue = s.wsu.queue ++ sortWaves (s.wsu.held.filter u.resumes))

/-- ABORT (R52, R139–R143): the site's queue and staging are emptied at once; and where the card holds no entry of the site,
READY 255 is owed with no net held and the counts restart. Where it holds one: an entry that awaits its anchor is FREE, its CANCEL
mark standing and its STATUS mark set by no report: an unsent CONNECTED or REFUSED of the net goes and an unsent OPENED carries
ABORTED. An anchor that awaits a resource is FREE with OPENED ABORTED and, for a trunk net, CANCEL owed, or in AWAIT_OPENED
while its CLAIM is on the line. A connecting entry whose wave is in flight has release-pending, and its waves take the abort mark.
A CONNECTED entry with no wave in flight builds its outer disconnect wave, which carries the mark. A RELEASE_BLOCKED one stays so
with reason ABORTED and is counted as held. That the owed mark goes at once while the CLAIM is on the line, and the resource field
stands until its outcome, is the model's reading (notes/assumptions/13.md). -/
def Obligations.AbortEmptiesSite : Prop :=
  ∀ (dt : Nat) (s u : State) (f : Frame) (i : Site), s.Front f (.abort i) → u = s.heard dt f (.abort i) →
    ∃ t, exec (.abort dt) s = .next t ∧ Follows (emptySite i u) t ∧
      t.queueOf i = SiteQueue.empty (s.siteParams i).start ∧ look t.squ.staging i = none ∧
      (∀ k, k ≠ i → t.queueOf k = s.queueOf k ∧ look t.squ.staging k = look s.squ.staging k) ∧
      (s.wsu.held = [] → (∀ e, (s.entry e).state = .free ∨ (s.entry e).site ≠ i) →
        look t.squ.ready i = some ⟨255, 0, look s.squ.refusals i, look s.squ.faults i⟩ ∧
        look t.squ.refusals i = 0 ∧ look t.squ.faults i = 0 ∧ look t.squ.abortWait i = false ∧ t.ne = s.ne) ∧
      (∀ e a, a = s.entry e → s.wsu.held = [] → s.noOtherWaiter e → a.monitor ≠ .claiming → a.site = i →
        (∀ x, x ≠ e → (s.entry x).state = .free ∨ (s.entry x).site ≠ i) →
        (a.state = .awaitAnchor → (t.entry e).state = .free ∧ (∀ p, look t.ne.binding p ≠ some e) ∧
          look t.squ.ready i = some ⟨255, 0, look s.squ.refusals i, look s.squ.faults i⟩ ∧
          t.ne.cancel = s.ne.cancel ∧ t.ne.siteStatus = s.ne.siteStatus ∧
          (∀ x, x ≠ e → t.entry x = s.entry x ∧ look t.ne.status x = look s.ne.status x) ∧
          look t.ne.status e = match look s.ne.status e with
            | some m => if m.site = i ∧ m.net = a.net then
                match m.outcome with
                | .connected => none
                | .refused => none
                | .opened => some { m with reason := .aborted }
                | _ => some m
              else some m
            | none => none) ∧
        (a.state = .awaitResource → s.claimOnLine e = false → (t.entry e).state = .free ∧
          (∀ p, look t.ne.binding p ≠ some e) ∧ look t.rcu.claims e = none ∧
          (∃ q, look t.ne.status e = some ⟨i, a.net, .opened, .aborted, q, none⟩) ∧
          look t.ne.cancel e = (if a.request = .localBus then look s.ne.cancel e else some (i, a.net)) ∧
          look t.squ.ready i = some ⟨255, 0, look s.squ.refusals i, look s.squ.faults i⟩ ∧
          ∀ x, x ≠ e → t.entry x = s.entry x) ∧
        (a.state = .awaitResource → s.claimOnLine e = true → a.awaited ≠ [] →
          t.entry e = { a with
            state := .awaitOpened, reason := some .aborted, reasonRelay := none, reported := false
            deadline := some (later u.now (s.cfl.config.releaseWait * 1000)) } ∧
          look t.rcu.claims e = none ∧ look t.ne.cancel e = some (i, a.net) ∧ look t.squ.abortWait i = true ∧
          ∀ x, x ≠ e → t.entry x = s.entry x) ∧
        (a.state = .connectInner ∨ a.state = .connectOuter → (∃ v ∈ s.wsu.queue ++ s.wsu.settling, v.owner = .entry e) →
          t.entry e = { a with
            reason := some .aborted, reasonRelay := none
            releasePending := if a.releasePending = some .cancel then some .cancel else some .plain } ∧
          t.wsu.queue = s.wsu.queue.map (fun v => if v.owner = .entry e then { v with abortMark := true } else v) ∧
          look t.squ.abortWait i = true ∧ ∀ x, x ≠ e → t.entry x = s.entry x) ∧
        (a.state = .connected → a.monitor = .off ∨ a.monitor = .on → look s.snu.verifications e = none →
          (∀ v ∈ s.wsu.queue ++ s.wsu.settling, v.owner ≠ .entry e) → (∀ p ∈ s.wsu.recovery, p.2 ≠ e) → s.wsu.queue ≠ [] →
          ∀ opens, opens = (a.pins.map relayS).filter (fun r =>
              decide ((s.relay r).owner = some e) && decide ((s.relay r).state = .closed)) → opens ≠ [] →
          t.entry e = { a with
            state := .disconnectOuter, reason := some .aborted, reasonRelay := none, releasePending := none } ∧
          t.wsu.queue = s.wsu.queue ++ [⟨.entry e, .outerDisconnect, [], opens.map (fun r => (r, false)), a.trunk,
            a.trunk.isSome && !a.hot, false, true, none⟩] ∧
          look t.squ.abortWait i = true ∧ ∀ x, x ≠ e → t.entry x = s.entry x) ∧
        (a.state = .releaseBlocked → t.entry e = { a with reason := some .aborted, reasonRelay := none } ∧
          look t.squ.ready i = some ⟨255, 1, look s.squ.refusals i, look s.squ.faults i⟩))

/-- CLAIM of a resource the card does not hold (R94): the sender is installed as its holder with the site and net, a cooling mark
standing; every other view entry and every holding stands. A participant that waits for this claim of a trunk is refused
with the lowest SUSPECT crosspoint it would close, or with SEGMENT_BUSY where the segment is not free for it, and otherwise takes
the trunk and builds its inner connect wave (R13, R66, R67). -/
def Obligations.ClaimInstallsHolder : Prop :=
  ∀ (dt : Nat) (s u : State) (f : Frame) (r : Resource) (i : Site) (n : NetId), s.Front f (.claim r i n) →
    u = s.heard dt f (.claim r i n) → look s.rcu.holdings r = none →
    ∃ t, exec (.claim dt) s = .next t ∧ Follows (u.setView r ((s.viewOf r).install f.src (some (i, n)))) t ∧
      t.viewOf r = ⟨some f.src, some (i, n), true, 0, true, (s.viewOf r).cooling⟩ ∧
      (∀ q, q ≠ r → t.viewOf q = s.viewOf q) ∧ t.rcu.holdings = s.rcu.holdings ∧
      (∀ e a k, a = s.entry e → r = trunkResource k → s.wsu.held = [] → s.noWaiter →
        a.state = .awaitAnchor → a.anchor = f.src → a.site = i → a.net = n →
        (∀ x, x ≠ e → (s.entry x).state ≠ .awaitAnchor ∨ (s.entry x).anchor ≠ f.src ∨ (s.entry x).site ≠ i ∨
          (s.entry x).net ≠ n) →
        (∀ x, look s.rcu.claims x ≠ some r) → (∀ x, (s.entry x).resource ≠ some (.trunk k)) →
        (∀ q, s.suspectX a.pins k = some q →
          look t.ne.status e = some ⟨i, n, .refused, .relaySuspect, some (NetResource.trunk k).code, some q⟩ ∧
          (t.entry e).state = .free ∧ ∀ p, look t.ne.binding p ≠ some e) ∧
        (s.suspectX a.pins k = none → s.segmentFree e k = false →
          look t.ne.status e = some ⟨i, n, .refused, .segmentBusy, some (NetResource.trunk k).code, none⟩ ∧
          (t.entry e).state = .free ∧ ∀ p, look t.ne.binding p ≠ some e) ∧
        (s.suspectX a.pins k = none → s.segmentFree e k = true → s.wsu.queue ≠ [] →
          ∀ closes, closes = a.pins.map (fun p => relayX p k) ++ [relayA k] →
            (∀ q ∈ closes, (s.relay q).state = .opened) →
            t.entry e = { a with state := .connectInner, resource := some (.trunk k), deadline := none } ∧
            t.wsu.queue = s.wsu.queue ++ [⟨.entry e, .innerConnect, [], closes.map (fun q => (q, true)), some k, !a.hot, false,
              decide (a.reason = some .aborted), none⟩] ∧
            ∀ q ∈ closes, (t.relay q).owner = some e))

/-- CLAIM of a resource the card holds (R79, R98–R100): an unconfirmed holding is lost, a confirmed one is yielded to a lower node
number, both with the sender installed; against a higher number it is kept and a BEACON is owed. A yield and a keep capture
CLAIM_CLASH, a loss does not. The entry of a holding that is yielded or lost takes the fault CLAIM_CLASH or RESET_LOST_TRUNK where
it is CONNECTED; one that is faulted or disconnecting goes on as it was; one that waits in AWAIT_OPENED or RELEASE_BLOCKED and holds
nothing else is FREE; and that of a holding kept is as it was. -/
def Obligations.ClaimOfOwnHoldingYieldsToLowerNode : Prop :=
  ∀ (dt : Nat) (s u : State) (f : Frame) (r : Resource) (i : Site) (n : NetId) (e : Entry), s.Front f (.claim r i n) →
    u = s.heard dt f (.claim r i n) → look s.rcu.holdings r = some e →
    ∃ t, exec (.claim dt) s = .next t ∧
      ((look s.rcu.unconfirmed r = true ∨ f.src < s.cfl.node) →
        look t.rcu.holdings r = none ∧ look t.rcu.unconfirmed r = false ∧
        t.viewOf r = ⟨some f.src, some (i, n), true, 0, true, (s.viewOf r).cooling⟩) ∧
      (look s.rcu.unconfirmed r = false → s.cfl.node < f.src →
        t.rcu.holdings = s.rcu.holdings ∧ t.rcu.view = s.rcu.view ∧ t.rcu.beaconOwed = true) ∧
      (∀ q, q ≠ r → look t.rcu.holdings q = look s.rcu.holdings q ∧ t.viewOf q = s.viewOf q) ∧
      (∀ a clash lost, a = s.entry e → clash = ⟨.claimClash, some (a.site, a.net), some (resourceCode r), none, none⟩ →
        lost = ⟨.resetLostTrunk, some (a.site, a.net), some (resourceCode r), none, none⟩ →
        s.wsu.held = [] → s.wsu.queue ≠ [] → s.noWaiter → (∀ x, (s.entry x).state ≠ .awaitAnchor) →
        (∀ x, look s.rcu.claims x ≠ some r) →
        (∀ x k, (s.entry x).role = .participant → (s.entry x).trunk = some k → trunkResource k ≠ r) →
        (look s.rcu.unconfirmed r = false → s.captures t clash u.fcu.millis) ∧
        (look s.rcu.unconfirmed r = false → s.cfl.node < f.src → t.entry e = a) ∧
        (look s.rcu.unconfirmed r = false → f.src < s.cfl.node → s.atRest e → s.closedSeries e ≠ [] →
          s.faults t e .claimClash) ∧
        (look s.rcu.unconfirmed r = true → s.atRest e → s.closedSeries e ≠ [] →
          s.faults t e .resetLostTrunk ∧ s.captures t lost u.fcu.millis) ∧
        (look s.rcu.unconfirmed r = true → a.state ≠ .connectInner → a.state ≠ .verifying → a.state ≠ .connectOuter →
          a.state ≠ .connected → t.fcu.record = s.fcu.record) ∧
        (a.state = .faulted ∨ a.state = .disconnectOuter ∨ a.state = .disconnectInner → t.entry e = a) ∧
        (look s.rcu.unconfirmed r = true ∨ f.src < s.cfl.node → a.state = .awaitOpened ∨ a.state = .releaseBlocked →
          (∀ q, q ≠ r → look s.rcu.holdings q ≠ some e) → s.claimOnLine e = false →
          (t.entry e).state = .free ∧ ∀ p, look t.ne.binding p ≠ some e))

/-- RELEASE (R80, R84, R95, R106): the view entry is cleared where the sender is its holder, the site and net of the frame not
compared; its cooling mark, the other entries and the holdings stand. A RELEASE of another node changes no view entry. A CONNECTED
participant whose trunk's view entry is so cleared takes ANCHOR_LOST, which is captured. -/
def Obligations.ReleaseClearsHolder : Prop :=
  ∀ (dt : Nat) (s : State) (f : Frame) (r : Resource) (i : Site) (n : NetId), s.Front f (.release r i n) →
    ∃ t, exec (.release dt) s = .next t ∧ t.rcu.holdings = s.rcu.holdings ∧
      ((s.viewOf r).holder = some f.src →
        Follows ((s.heard dt f (.release r i n)).setView r (s.viewOf r).clear) t ∧
        t.viewOf r = ⟨none, none, false, 0, false, (s.viewOf r).cooling⟩ ∧ (∀ q, q ≠ r → t.viewOf q = s.viewOf q) ∧
        ∀ e k, r = trunkResource k → s.wsu.held = [] → s.wsu.queue ≠ [] → s.noWaiter → (∀ x, look s.rcu.claims x ≠ some r) →
          (s.entry e).role = .participant → (s.entry e).trunk = some k → s.atRest e → s.closedSeries e ≠ [] →
          (∀ x, x ≠ e → (s.entry x).role = .participant → (s.entry x).trunk ≠ some k) →
          s.faults t e .anchorLost ∧ (∀ x, x ≠ e → t.entry x = s.entry x) ∧
          s.captures t ⟨.anchorLost, some ((s.entry e).site, (s.entry e).net), some (NetResource.trunk k).code, none, none⟩
            (s.heard dt f (.release r i n)).fcu.millis) ∧
      ((s.viewOf r).holder ≠ some f.src →
        Follows (s.heard dt f (.release r i n)) t ∧ t.rcu.view = s.rcu.view ∧
        (s.wsu.held = [] → t = s.heard dt f (.release r i n)))

/-- CANCEL (R49, R77): the oldest queued ROUTE record of the net is purged; a participant entry of that anchor in AWAIT_ANCHOR
becomes FREE with its pins unbound and nothing reported; with no such entry nothing else changes. That one CANCEL acts on the
queued record and on the entry alike is the model's reading (notes/assumptions/34.md). -/
def Obligations.CancelPurgesAndFrees : Prop :=
  ∀ (dt : Nat) (s u : State) (f : Frame) (i : Site) (n : NetId), s.Front f (.cancel i n) →
    u = purge i n (s.heard dt f (.cancel i n)) →
    ∃ t, exec (.cancel dt) s = .next t ∧ Follows u t ∧
      (∀ k, k ≠ i → t.queueOf k = s.queueOf k) ∧
      t.queueOf i = SiteQueue.settle (s.siteParams i) { s.queueOf i with records := removeOldest n (s.queueOf i).records } ∧
      (s.wsu.held = [] → u.cancels f.src i n = none → t = u) ∧
      (∀ e, s.wsu.held = [] → s.noWaiter → u.cancels f.src i n = some e → (s.entry e).state = .awaitAnchor →
        (t.entry e).state = .free ∧ t.ne.status = s.ne.status ∧ (∀ p, look t.ne.binding p ≠ some e) ∧
        ∀ x, x ≠ e → t.entry x = s.entry x)

/-- BEACON (R33, R96): the node's kind and live mask come from the frame; and for each resource that the card does not hold, a
set flag installs a sender where the view shows no holder and refreshes it where it is the holder, a clear flag clears the
sender's entry, and any other entry stands. A set flag of a resource the card holds takes it where the holding is unconfirmed or
the sender's number is lower, and against a higher number it is kept and a BEACON is owed (R98–R100). -/
def Obligations.BeaconSetsRosterAndView : Prop :=
  ∀ (dt : Nat) (s : State) (f : Frame) (k : NodeKind) (mask : BitVec 24) (live : BitVec 16), s.Front f (.beacon k mask live) →
    ∃ t, exec (.beacon dt) s = .next t ∧
      look t.liu.roster f.src = ⟨true, k, 0, true, live⟩ ∧ (∀ n, n ≠ f.src → look t.liu.roster n = look s.liu.roster n) ∧
      (∀ r, look s.rcu.holdings r = none → look t.rcu.holdings r = none ∧
        t.viewOf r =
          if mask.getLsbD r.val = true then
            (if (s.viewOf r).holder = none then ⟨some f.src, none, false, 0, true, (s.viewOf r).cooling⟩
            else if (s.viewOf r).holder = some f.src then { s.viewOf r with misses := 0, refreshed := true }
            else s.viewOf r)
          else if (s.viewOf r).holder = some f.src then ⟨none, none, false, 0, false, (s.viewOf r).cooling⟩ else s.viewOf r)
      ∧ ∀ r e, look s.rcu.holdings r = some e →
        (mask.getLsbD r.val = true → (look s.rcu.unconfirmed r = true ∨ f.src < s.cfl.node) →
          look t.rcu.holdings r = none ∧ look t.rcu.unconfirmed r = false ∧
          t.viewOf r = ⟨some f.src, none, false, 0, true, (s.viewOf r).cooling⟩) ∧
        (mask.getLsbD r.val = true → look s.rcu.unconfirmed r = false → s.cfl.node < f.src →
          look t.rcu.holdings r = some e ∧ t.viewOf r = s.viewOf r ∧ t.rcu.beaconOwed = true) ∧
        (mask.getLsbD r.val = false → look t.rcu.holdings r = some e ∧
          t.viewOf r = if (s.viewOf r).holder = some f.src then (s.viewOf r).clear else s.viewOf r)

/-- CLEAR (R74, R97): a RELEASE_BLOCKED entry that holds the resource empties its awaited set and owes RELEASE for all it holds,
and OPENED where its closing report was not owed and no refusal stands; held by another entry, or not held, it has no effect but
on the roster. -/
def Obligations.ClearReleasesBlockedEntry : Prop :=
  ∀ (dt : Nat) (s u : State) (f : Frame) (r : Resource), s.Front f (.clear r) → u = s.heard dt f (.clear r) →
    ∃ t, exec (.clear dt) s = .next t ∧ Follows u t ∧ t.rcu.view = s.rcu.view ∧
      (s.wsu.held = [] → (∀ e, look s.rcu.holdings r = some e → (s.entry e).state ≠ .releaseBlocked) → t = u) ∧
      (∀ e, s.wsu.held = [] → look s.rcu.holdings r = some e → (s.entry e).state = .releaseBlocked →
        t.entry e = { s.entry e with awaited := [], reported := (s.entry e).reported || !(s.entry e).refused } ∧
        (∀ x, x ≠ e → t.entry x = s.entry x ∧ look t.ne.status x = look s.ne.status x) ∧ t.ne.cancel = s.ne.cancel ∧
        look t.ne.status e = (if (s.entry e).reported = true ∨ (s.entry e).refused = true then look s.ne.status e
          else some ⟨(s.entry e).site, (s.entry e).net, .opened, openedReason (s.entry e).reason,
            (s.entry e).resource.map NetResource.code, none⟩) ∧
        (∀ q, look t.rcu.releases q = (look s.rcu.releases q || decide (look s.rcu.holdings q = some e))))

/-- ROUTE (R43, R45): a first frame with more to come opens a staging of its net with its endpoints' nodes, and the pins of this
node, ascending; a single frame that names a pin of this card, for a VALID site with room and no local bus, queues a ROUTE record
in which this card is anchor exactly where it is the lowest node; one that names no pin of this card queues nothing. -/
def Obligations.RouteStagesAndCommits : Prop :=
  ∀ (dt : Nat) (s u : State) (f : Frame) (i : Site) (more : Bool) (fl : RouteFlags) (q : Request) (n : NetId)
      (ends : List (Node × Pin)), s.Front f (.route i more fl q n ends) → u = s.heard dt f (.route i more fl q n ends) →
    look s.squ.staging i = none → s.wsu.held = [] →
    ∃ t g, exec (.route dt) s = .next t ∧ g = stagedWith s.cfl.node none fl q n ends ∧
      g.net = n ∧ g.flags = fl ∧ g.request = q ∧ g.frames = 1 ∧
      g.nodes.Pairwise (· < ·) ∧ (∀ x, x ∈ g.nodes ↔ ∃ p, (x, p) ∈ ends) ∧
      g.pins.Pairwise (· < ·) ∧ (∀ p, p ∈ g.pins ↔ (s.cfl.node, p) ∈ ends) ∧
      (more = true → t = u.setStaging i (some g)) ∧
      (more = false → g.pins = [] → t = u.setStaging i none) ∧
      (more = false → g.pins ≠ [] → look s.squ.valid i = true → q ≠ .localBus →
        2 + (g.pins.length + 3) / 4 ≤ areaSize (s.siteParams i) - (s.queueOf i).used →
        ∃ rec : RouteRecord, rec.net = n ∧ rec.flags = fl ∧ rec.request = q ∧ rec.pins = g.pins ∧
          (rec.role = .anchor ↔ ∀ x ∈ g.nodes, s.cfl.node ≤ x) ∧ rec.anchor ∈ g.nodes ∧ (∀ x ∈ g.nodes, rec.anchor ≤ x) ∧
          (rec.role = .anchor → rec.peers = g.nodes.filter (fun x => decide (x ≠ s.cfl.node))) ∧
          (t.queueOf i).records = (s.queueOf i).records ++ [⟨.route rec, false⟩] ∧
          (t.queueOf i).used = (s.queueOf i).used + (2 + (g.pins.length + 3) / 4) ∧
          (t.queueOf i).head = (s.queueOf i).head ∧ (∀ k, k ≠ i → t.queueOf k = s.queueOf k) ∧
          look t.squ.staging i = none ∧ t.ne = s.ne)

/-- UNROUTE and MONITOR. As frames (R46): each joins the tail of a VALID site's queue where it finds something to act on and there
is room; on an INVALID site, or with nothing to act on, it changes nothing but the roster. As dispatched records (R55): an UNROUTE
(R76) of a net the card has not changes no entry; it frees a participant in AWAIT_ANCHOR with OPENED owed, leaves an entry already
disconnecting or released alone, sets release-pending of a connecting one whose wave is in flight, and disconnects a CONNECTED
one. A MONITOR (R81, R82) of a net whose anchor the card is not is answered in the site mark; on, it is refused for a local net
and outside CONNECTED, begins the wait for MON, or answers MONITOR_ON; off, it answers MONITOR_OFF, or opens M(t). -/
def Obligations.UnrouteAndMonitorQueue : Prop :=
  (∀ (dt : Nat) (s u : State) (f : Frame) (m : Msg) (i : Site) (n : NetId), s.Front f m → u = s.heard dt f m →
    look s.squ.staging i = none → s.wsu.held = [] →
    ∀ (c : Instr) (b : QueueBody) (finds : Prop),
      (m = .unroute i n ∧ c = .unroute dt ∧ b = .unroute n ∧ finds = (s.unrouteQueues i n = true) ∨
        ∃ on, m = .monitor i n on ∧ c = .monitor dt ∧ b = .monitor n on ∧ finds = (s.monitorQueues i n = true)) →
      ∃ t, exec c s = .next t ∧
        (look s.squ.valid i = true → finds → (s.queueOf i).used + 1 ≤ areaSize (s.siteParams i) →
          t = u.setQueue i { s.queueOf i with
            tail := wrapWord (s.siteParams i) ((s.queueOf i).tail + 1)
            used := (s.queueOf i).used + 1
            records := (s.queueOf i).records ++ [⟨b, false⟩] }) ∧
        (look s.squ.valid i = false ∨ ¬ finds → t = u)) ∧
  (∀ (dt : Nat) (s s1 s2 : State) (c : Fin 4) (i : Site) (n : NetId) (b : Bool) (rest : List QueueRecord), s1 = advance dt s →
    select s1 = some (c, i, s2) → s.noWaiter → (s.queueOf i).records = ⟨.unroute n, b⟩ :: rest →
    ∃ t, exec (.arbiterDispatch dt) s = .next t ∧ (s.findNet i n = none → t.ne = s.ne) ∧
      ∀ e a, s.findNet i n = some e → a = s.entry e →
        (a.state = .awaitAnchor → (t.entry e).state = .free ∧ (∀ p, look t.ne.binding p ≠ some e) ∧
          look t.ne.status e = some ⟨i, n, .opened, openedReason a.reason, a.resource.map NetResource.code, none⟩) ∧
        (a.state = .disconnectInner ∨ a.state = .awaitOpened ∨ a.state = .releaseBlocked → t.ne = s.ne) ∧
        (a.state = .connectInner ∨ a.state = .connectOuter → (∀ v ∈ s.wsu.held, v.owner ≠ .entry e) →
          (∃ v ∈ s.wsu.queue ++ s.wsu.settling, v.owner = .entry e) →
          t.entry e = { a with releasePending := if a.releasePending = some .cancel then some .cancel else some .plain } ∧
          t.wsu.queue = s.wsu.queue) ∧
        (a.state = .connected → a.monitor = .off ∨ a.monitor = .on → a.releasePending = none →
          look s.snu.verifications e = none → (∀ v ∈ s.wsu.queue ++ s.wsu.held ++ s.wsu.settling, v.owner ≠ .entry e) →
          (∀ p ∈ s.wsu.recovery, p.2 ≠ e) → s.wsu.queue ≠ [] →
          ∀ opens, opens = (a.pins.map relayS).filter (fun r =>
              decide ((s.relay r).owner = some e) && decide ((s.relay r).state = .closed)) → opens ≠ [] →
          t.entry e = { a with state := .disconnectOuter } ∧
          t.wsu.queue = s.wsu.queue ++ [⟨.entry e, .outerDisconnect, [], opens.map (fun r => (r, false)), a.trunk,
            a.trunk.isSome && !a.hot, false, decide (a.reason = some .aborted), none⟩])) ∧
  (∀ (dt : Nat) (s s1 s2 : State) (c : Fin 4) (i : Site) (n : NetId) (on b : Bool) (rest : List QueueRecord), s1 = advance dt s →
    select s1 = some (c, i, s2) → s.noWaiter → (s.queueOf i).records = ⟨.monitor n on, b⟩ :: rest →
    ∃ t, exec (.arbiterDispatch dt) s = .next t ∧ (∀ x, s.anchorOf i n ≠ some x → t.entry x = s.entry x) ∧
      (s.anchorOf i n = none → t.ne.status = s.ne.status ∧ look t.ne.siteStatus i = some
        (if on = true then ⟨i, n, .refused, .notConnected, none, none⟩ else ⟨i, n, .monitorOff, .none, none, none⟩)) ∧
      ∀ e a, s.anchorOf i n = some e → a = s.entry e →
        (on = true → a.reason ≠ some .aborted → a.request = .localBus → t.entry e = a ∧
          look t.ne.status e = some ⟨i, n, .refused, .badRoute, a.resource.map NetResource.code, none⟩) ∧
        (on = true → a.reason ≠ some .aborted → a.request ≠ .localBus → a.state ≠ .connected ∨ a.releasePending.isSome = true →
          t.entry e = a ∧
          look t.ne.status e = some ⟨i, n, .refused, .notConnected, a.resource.map NetResource.code, none⟩) ∧
        (on = true → a.request ≠ .localBus → a.state = .connected → a.releasePending = none → a.monitor = .off →
          t.entry e = { a with
            monitor := .claiming, deadline := some (later s1.now (s.cfl.config.claimWait * 1000)) } ∧
          (look s.rcu.claims e = none → look t.rcu.claims e = if s.monitorCandidate e = true then some 16 else none)) ∧
        (on = true → a.request ≠ .localBus → a.state = .connected → a.releasePending = none → a.monitor = .on →
          t.entry e = a ∧ look t.ne.status e =
            some ⟨i, n, .monitorOn, .none, a.trunk.map (fun k => (NetResource.trunk k).code), none⟩) ∧
        (on = false → a.monitor = .off → t.entry e = a ∧ look t.ne.status e =
          some ⟨i, n, .monitorOff, .none, a.trunk.map (fun k => (NetResource.trunk k).code), none⟩) ∧
        (∀ k, on = false → a.state = .connected → a.monitor = .on → a.trunk = some k →
          (s.relay (relayM k)).owner = some e → (s.relay (relayM k)).state = .closed → s.wsu.queue ≠ [] →
          t.entry e = { a with monitor := .opening } ∧
          t.wsu.queue = s.wsu.queue ++ [⟨.entry e, .monitorOpen, [], [(relayM k, false)], some k, false, false,
            decide (a.reason = some .aborted), none⟩]))

/-- FENCE (R47): an OPEN staging of the site breaks first; on a VALID site with room the FENCE is queued whatever entries there
are; on an INVALID site nothing is queued and READY is owed at once with the token, no net held and the site's counts, which
restart. -/
def Obligations.FenceQueuesOrAnswers : Prop :=
  ∀ (dt : Nat) (s u : State) (f : Frame) (i : Site) (token : Fin 255), s.Front f (.fence i token) →
    u = breakStaging i (s.heard dt f (.fence i token)) → s.wsu.held = [] →
    ∃ t, exec (.fence dt) s = .next t ∧ look t.squ.staging i = none ∧
      (∀ g, look s.squ.staging i = some g → g.pins ≠ [] →
        look t.ne.siteStatus i = some ⟨i, g.net, .refused, .incomplete, none, none⟩) ∧
      (look s.squ.valid i = true → (s.queueOf i).used + 1 ≤ areaSize (s.siteParams i) →
        t = u.setQueue i { s.queueOf i with
          tail := wrapWord (s.siteParams i) ((s.queueOf i).tail + 1)
          used := (s.queueOf i).used + 1
          records := (s.queueOf i).records ++ [⟨.fence token, false⟩] }) ∧
      (look s.squ.valid i = false →
        t.squ.queues = s.squ.queues ∧
        look t.squ.ready i = some ⟨token.val, 0, look u.squ.refusals i, look u.squ.faults i⟩ ∧
        look t.squ.refusals i = 0 ∧ look t.squ.faults i = 0)

/-! ### Maintenance -/

/-- SAVE_WEAR (R162): STARTED with the number of dirty blocks, the walk begun at block 0 with the first dirty block's write, or
ended DONE at once where none is dirty, the STARTED going out before the DONE; FAILED with the store absent; BUSY with a save in
flight, which goes on unchanged. -/
def Obligations.SaveWearActsBySaveState : Prop :=
  ∀ (dt : Nat) (s u : State) (f : Frame), s.Front f (.maint s.cfl.node .saveWear) →
    u = s.heard dt f (.maint s.cfl.node .saveWear) → ¬ (s.liu.link = .duplicateLatch ∧ s.maintOwed = true) → s.wsu.held = [] →
    ∃ t, exec (.saveWear dt) s = .next t ∧ t.memory = s.memory ∧ t.wru.counts = s.wru.counts ∧
      (s.wru.save ≠ none → t = { u with wru := { u.wru with answer := some .saveBusy } }) ∧
      (s.wru.save = none → s.wru.storeAbsent = true →
        t = { u with wru := { u.wru with answer := some (.saveFailed 0 none) } }) ∧
      (s.wru.save = none → s.wru.storeAbsent = false → ∀ b, look s.wru.dirty b = true →
        (∀ k, k < b → look s.wru.dirty k = false) →
        t = { u with wru := { u.wru with
          answer := some (.saveStarted s.dirtyCount)
          save := some ⟨b.val + 1, 0, b, u.now, blockBytes s b⟩
          dirty := put s.wru.dirty b false } }) ∧
      (s.wru.save = none → s.wru.storeAbsent = false → (∀ b, look s.wru.dirty b = false) →
        t.wru = { s.wru with answer := some (.saveStarted 0), save := none, saveEnd := some (.saveDone 0) } ∧
        t.chosen ≠ some .saveEnd)

/-- READ_WEAR (R161, R169): DONE with the relay's count and marks as they stand, or BAD_ARG above 639, owed in the answer mark;
no count, mark or dirty mark changes, during a save or not, and no later pulse changes the answer owed. -/
def Obligations.ReadWearAnswersCountAndMarks : Prop :=
  ∀ (dt : Nat) (s u : State) (f : Frame) (i : Nat), s.Front f (.maint s.cfl.node (.readWear i)) →
    u = s.heard dt f (.maint s.cfl.node (.readWear i)) → ¬ (s.liu.link = .duplicateLatch ∧ s.maintOwed = true) →
    s.wsu.held = [] →
    (∀ r : Relay, r.val = i → ∃ t, exec (.readWear dt) s = .next t ∧
      t = { u with wru := { u.wru with
        answer := some (.readWear r (look s.wru.counts r) (s.relay r).slow (s.relay r).suspect) } } ∧
      ∀ (v : Wave) (x : Relay) (closing : Bool), (pulse v x closing t).wru.answer = t.wru.answer) ∧
    (639 < i → exec (.readWear dt) s = .next { u with wru := { u.wru with answer := some .readWearBadArg } })

/-- CLEAR_MARKS (R161, R170): every relay of the range loses SLOW and SUSPECT, every block that holds one is dirty, DONE is owed,
and no count changes; a bad range is answered BAD_ARG and changes nothing else. Waiting anchors may then choose again. -/
def Obligations.ClearMarksClearsRange : Prop :=
  ∀ (dt : Nat) (s u : State) (f : Frame) (first last : Nat), s.Front f (.maint s.cfl.node (.clearMarks first last)) →
    u = s.heard dt f (.maint s.cfl.node (.clearMarks first last)) →
    ¬ (s.liu.link = .duplicateLatch ∧ s.maintOwed = true) → s.wsu.held = [] →
    ∃ t, exec (.clearMarks dt) s = .next t ∧
      (last < first ∨ 639 < last → t = { u with wru := { u.wru with answer := some .clearMarksBadArg } }) ∧
      (first ≤ last → last ≤ 639 → s.noWaiter ∨ s.suspectIn first last = false →
        t.wru.counts = s.wru.counts ∧ t.wru.answer = some .clearMarksDone ∧ t.ne = s.ne ∧
        (∀ r, t.relay r = if first ≤ r.val ∧ r.val ≤ last then { s.relay r with slow := false, suspect := false }
          else s.relay r) ∧
        (∀ b, look t.wru.dirty b = true ↔
          look s.wru.dirty b = true ∨ ∃ r : Relay, blockOf r = b ∧ first ≤ r.val ∧ r.val ≤ last))

/-- READ_FAULT (R176): the answer is fixed from the record as it stands, DONE with its content where it is FULL and EMPTY where it
is not; the record, and FAULT_N with it, stand. -/
def Obligations.ReadFaultAnswersRecord : Prop :=
  ∀ (dt : Nat) (s u : State) (f : Frame), s.Front f (.maint s.cfl.node .readFault) →
    u = s.heard dt f (.maint s.cfl.node .readFault) → ¬ (s.liu.link = .duplicateLatch ∧ s.maintOwed = true) →
    s.wsu.held = [] →
    ∃ t, exec (.readFault dt) s = .next t ∧ t.faultDriven = s.faultDriven ∧
      (∀ r, s.fcu.record = some r → t = { u with fcu := { u.fcu with answer := some (.readFault r) } }) ∧
      (s.fcu.record = none → t = { u with fcu := { u.fcu with answer := some .readFaultEmpty } }) ∧
      ∀ c : Capture, (capture c t).fcu.answer = t.fcu.answer

/-- CLEAR_FAULT (R177): the record is emptied, FAULT_N is released, and DONE is owed with the count the record held, or 0; a
qualifying capture then fills the record afresh with a count of 1, and one that does not qualify leaves it EMPTY. -/
def Obligations.ClearFaultEmptiesRecord : Prop :=
  ∀ (dt : Nat) (s u : State) (f : Frame), s.Front f (.maint s.cfl.node .clearFault) →
    u = s.heard dt f (.maint s.cfl.node .clearFault) → ¬ (s.liu.link = .duplicateLatch ∧ s.maintOwed = true) →
    s.wsu.held = [] →
    ∃ t, exec (.clearFault dt) s = .next t ∧ t.faultDriven = false ∧
      t = { u with fcu := { u.fcu with
        record := none
        answer := some (.clearFault (match s.fcu.record with | some r => r.count | none => 0)) } } ∧
      ∀ c : Capture, (qualifies t.cfl.config.severe c = true →
          (capture c t).fcu.record = some ⟨c, t.fcu.millis, 1⟩ ∧ (capture c t).faultDriven = true) ∧
        (qualifies t.cfl.config.severe c = false → (capture c t).fcu.record = none)

/-- STATUS (R73, R74): OPENED or REFUSED of an awaited node leaves the awaited set of the anchor entry of its net. The last one, in
AWAIT_OPENED or RELEASE_BLOCKED, makes RELEASE owed for each resource the entry holds, and OPENED where its closing report was
not owed and no refusal stands; an entry that holds nothing then, with no CLAIM of it on the line, is FREE; in any other state
the set becomes empty and nothing else. Any other STATUS updates the roster alone. -/
def Obligations.StatusShrinksAwaitedSet : Prop :=
  ∀ (dt : Nat) (s u : State) (f : Frame) (i : Site) (n : NetId) (o : StatusOutcome), s.Front f (.status i n o) →
    u = s.heard dt f (.status i n o) → s.wsu.held = [] →
    ∃ t, exec (.status dt) s = .next t ∧ Follows u t ∧
      (s.anchorOf i n = none ∨ o ≠ .opened ∧ o ≠ .refused → t = u) ∧
      (∀ e, s.anchorOf i n = some e → o = .opened ∨ o = .refused →
        (f.src ∉ (s.entry e).awaited → t = u) ∧
        ∀ left, left = (s.entry e).awaited.filter (fun x => decide (x ≠ f.src)) → f.src ∈ (s.entry e).awaited →
          ((left ≠ [] ∨ (s.entry e).state ≠ .awaitOpened ∧ (s.entry e).state ≠ .releaseBlocked) →
            t = u.setEntry e { s.entry e with awaited := left }) ∧
          (left = [] → (s.entry e).state = .awaitOpened ∨ (s.entry e).state = .releaseBlocked → s.holding e = true →
            t.entry e = { s.entry e with awaited := [], reported := (s.entry e).reported || !(s.entry e).refused } ∧
            look t.ne.status e = (if (s.entry e).reported = true ∨ (s.entry e).refused = true then look s.ne.status e
              else some ⟨(s.entry e).site, (s.entry e).net, .opened, openedReason (s.entry e).reason,
                (s.entry e).resource.map NetResource.code, none⟩) ∧
            ∀ q, look t.rcu.releases q = (look s.rcu.releases q || decide (look s.rcu.holdings q = some e))) ∧
          (left = [] → (s.entry e).state = .awaitOpened ∨ (s.entry e).state = .releaseBlocked → s.holding e = false →
            s.noWaiter → (t.entry e).state = .free ∧ ∀ p, look t.ne.binding p ≠ some e))

/-! ### Work of the part's own, and times that pass -/

/-- ARBITER_DISPATCH (R40, R50, R54–R57): outside the listen period a VALID site is eligible where its queue has a head record that
is an UNROUTE or a MONITOR, a ROUTE while the RM is ready and some net entry is FREE, or a FENCE while every entry of the site is
CONNECTED, FAULTED, RELEASE_BLOCKED or FREE. The class selected is the lowest with an eligible site, in WEIGHTED mode the lowest
with an eligible site and budget left, a new round starting exactly where no eligible site's class has budget; the site is the
first eligible one of its class after the one the class last served, in rotation. Where no site is eligible nothing happens. The
record of the selected site, whose head is eligible outside the listen period, leaves its queue, the site becomes its class's last
served and WEIGHTED mode spends one unit of the class's budget; a FENCE owes READY with its token, the nets held and the site's
counts, which restart. -/
def Obligations.ArbiterServesEligibleHead : Prop :=
  (∀ (s : State) (i : Site), s.eligible i = true ↔
    s.running = true ∧ s.cfl.listen = false ∧ look s.squ.valid i = true ∧ ∃ r rest, (s.queueOf i).records = r :: rest ∧
      (∀ q, r.body = .route q → s.rm.ready = true ∧ ∃ e, (s.entry e).state = .free) ∧
      (∀ token, r.body = .fence token → ∀ e, (s.entry e).site = i →
        (s.entry e).state = .connected ∨ (s.entry e).state = .faulted ∨ (s.entry e).state = .releaseBlocked ∨
          (s.entry e).state = .free)) ∧
  (∀ (dt : Nat) (s s1 : State), s1 = advance dt s → select s1 = none →
    exec (.arbiterDispatch dt) s = .next s1 ∧
    ((∀ k, 1 ≤ look s.cfl.config.weights k) → ∀ i, s1.eligible i = false)) ∧
  ∀ (dt : Nat) (s s1 s2 : State) (c : Fin 4) (i : Site), s1 = advance dt s → select s1 = some (c, i, s2) →
    s1.eligible i = true ∧ (s.siteParams i).cls = c ∧ s.cfl.listen = false ∧
    (∀ k from_, from_ = (match look s.squ.lastServed c with | none => (0 : Site) | some l => l + 1) →
      s1.eligible k = true → (s.siteParams k).cls = c → (i - from_).val ≤ (k - from_).val) ∧
    (s.cfl.config.weighted = false → s2 = s1 ∧ ∀ k, s1.eligible k = true → c ≤ (s.siteParams k).cls) ∧
    (s.cfl.config.weighted = true → 0 < look s2.squ.budgets c ∧
      (∀ k, s1.eligible k = true → 0 < look s2.squ.budgets (s.siteParams k).cls → c ≤ (s.siteParams k).cls) ∧
      (s2 = s1 ∨ s2 = { s1 with squ := { s1.squ with budgets := s.cfl.config.weights } } ∧
        ∀ k, s1.eligible k = true → look s.squ.budgets (s.siteParams k).cls = 0)) ∧
    ∀ r rest, (s.queueOf i).records = r :: rest →
      ∃ t, exec (.arbiterDispatch dt) s = .next t ∧ Follows (popHead i (noteServed c i s2)) t ∧
        look t.squ.lastServed c = some i ∧
        (s.cfl.config.weighted = true → look t.squ.budgets c + 1 = look s2.squ.budgets c) ∧
        (∀ k, k ≠ i → t.queueOf k = s.queueOf k) ∧
        t.queueOf i = SiteQueue.settle (s.siteParams i) ((s.queueOf i).drop (s.siteParams i)) ∧
        (∀ token, r.body = .fence token → s.noWaiter →
          t.ne = s.ne ∧ look t.squ.refusals i = 0 ∧ look t.squ.faults i = 0 ∧
          look t.squ.ready i = some ⟨token.val, s.countEntries i (fun q => decide (q ≠ .free)),
            look s.squ.refusals i, look s.squ.faults i⟩)

/-- ARBITER_DISPATCH of a ROUTE record (R16, R64, R75, R88): a net the card has, or a pin that is bound, is refused in the site
mark; a participant whose anchor's claim the view does not show waits for it W + 100 ms, its pins bound; an anchor that names a
trunk outside its site's mask, or one reserved to another site, is refused with CANCEL owed and is FREE. Any other anchor of a
trunk net waits W for its resource, and the choice pass takes for it the lowest trunk that meets every condition of R87, one
reserved to its own site before any other, and a named trunk alone; its CLAIM is owed. An anchor of a LOCAL net takes the lower
bus that is free with no SUSPECT and connects at this event, or waits (R65, R86–R91). -/
def Obligations.ArbiterRouteMakesEntry : Prop :=
  ∀ (dt : Nat) (s s1 s2 : State) (c : Fin 4) (i : Site) (rec : RouteRecord) (b : Bool) (rest : List QueueRecord),
    s1 = advance dt s → select s1 = some (c, i, s2) → (s.queueOf i).records = ⟨.route rec, b⟩ :: rest → s.noWaiter →
    ∃ t, exec (.arbiterDispatch dt) s = .next t ∧
      (s.findNet i rec.net ≠ none →
        t.ne.entries = s.ne.entries ∧ look t.ne.siteStatus i = some ⟨i, rec.net, .refused, .netExists, none, none⟩) ∧
      (s.findNet i rec.net = none → (∃ p ∈ rec.pins, look s.ne.binding p ≠ none) →
        t.ne.entries = s.ne.entries ∧ look t.ne.siteStatus i = some ⟨i, rec.net, .refused, .pinBusy, none, none⟩) ∧
      (∀ e, s.findNet i rec.net = none → (∀ p ∈ rec.pins, look s.ne.binding p = none) → s.freeIndex = some e →
        (rec.role = .participant → s.claimedTrunk rec.anchor (i, rec.net) = none →
          t.entry e = { newEntry i rec with
            state := .awaitAnchor
            deadline := some (later s1.now ((s.cfl.config.claimWait + 100) * 1000)) } ∧
          (∀ x, x ≠ e → t.entry x = s.entry x) ∧
          ∀ p, look t.ne.binding p = if p ∈ rec.pins then some e else look s.ne.binding p) ∧
        (∀ k, rec.role = .anchor → rec.request = .trunk k → s.permitted i k = false → s.claimOnLine e = false →
          (t.entry e).state = .free ∧ look t.ne.cancel e = some (i, rec.net) ∧
          look t.ne.status e = some ⟨i, rec.net, .refused, .trunkNotPermitted, none, none⟩ ∧
          ∀ x, x ≠ e → t.entry x = s.entry x) ∧
        (∀ k, rec.role = .anchor → rec.request = .trunk k → s.permitted i k = true → s.reservedElsewhere i k = true →
          s.claimOnLine e = false →
          (t.entry e).state = .free ∧ look t.ne.cancel e = some (i, rec.net) ∧
          look t.ne.status e = some ⟨i, rec.net, .refused, .trunkReserved, none, none⟩ ∧
          ∀ x, x ≠ e → t.entry x = s.entry x) ∧
        (rec.role = .anchor → rec.request ≠ .localBus →
          (∀ k, rec.request = .trunk k → s.permitted i k = true ∧ s.reservedElsewhere i k = false) →
          ∃ ch : Option Trunk,
            t.entry e = { newEntry i rec with
              state := .awaitResource, deadline := some (later s1.now (s.cfl.config.claimWait * 1000))
              resource := ch.map .trunk } ∧
            look t.rcu.claims e = ch.map trunkResource ∧ (∀ x, x ≠ e → t.entry x = s.entry x) ∧
            ∀ fits : Trunk → Prop, (∀ k, fits k ↔ (rec.request = .any ∨ rec.request = .trunk k) ∧ s.permitted i k = true ∧
                s.unclaimed (trunkResource k) = true ∧ s.reservedElsewhere i k = false ∧ s.segmentFree e k = true ∧
                s.suspectX rec.pins k = none) →
              (ch = none → ∀ k, ¬ fits k) ∧
              ∀ k, ch = some k → fits k ∧ ∀ j, fits j →
                (s.reservedTo i j = true → s.reservedTo i k = true ∧ k ≤ j) ∧ (s.reservedTo i k = false → k ≤ j)) ∧
        (rec.role = .anchor → rec.request = .localBus →
          ((∀ l, s.busFree e l = true → s.suspectY rec.pins l = true) →
            t.entry e = { newEntry i rec with
              state := .awaitResource, deadline := some (later s1.now (s.cfl.config.claimWait * 1000)) }) ∧
          ∀ l, s.busFree e l = true → s.suspectY rec.pins l = false →
            (∀ j, s.busFree e j = true → s.suspectY rec.pins j = false → l ≤ j) → s.wsu.queue ≠ [] →
            ∀ closes, closes = (rec.pins.map (fun p => relayY p l)).filter (fun q => decide ((s.relay q).state = .opened)) →
              closes ≠ [] →
              t.entry e = { newEntry i rec with state := .connectInner, resource := some (.bus l) } ∧
              t.wsu.queue = s.wsu.queue ++ [⟨.entry e, .innerConnect, [], closes.map (fun q => (q, true)), none, false, false,
                false, none⟩]))

/-- BEACON_PERIOD_BOUNDARY (R34, R101–R104): the next boundary is P ms on, the roster is aged, a BEACON is owed, the failure
count follows whether one was sent, view entries of other nodes are aged and cleared at the third miss with a cooling mark of P,
and at a failure count of 2 every holding is dropped, its view entry cleared with its cooling mark as it was, and SELF_OPEN noted
with the number dropped. The act of dropping captures SELF_OPEN with no net, resource or relay. That a cooling mark stands through the
clearing of R103 is R84 (the model's reading, notes/assumptions/30.md). -/
def Obligations.BeaconBoundaryAgesAndSelfOpens : Prop :=
  ∀ (dt : Nat) (s s1 : State), s1 = advance dt s → s1.beaconDue = true →
    ∃ t, exec (.beaconPeriodBoundary dt) s = .next t ∧
      t.tb.nextBeacon = later s.tb.nextBeacon (s.cfl.config.period * 1000) ∧ t.tb.count = s1.tb.count ∧
      (∀ n x, x = look s.liu.roster n → look t.liu.roster n =
        if x.present = false then x
        else if x.heard = true then { x with heard := false }
        else if x.misses + 1 < 3 then { x with misses := x.misses + 1 } else ⟨false, .unknown, 0, false, 0#16⟩) ∧
      t.rcu.beaconOwed = true ∧ t.rcu.beaconSent = false ∧
      t.rcu.failures = (if s.rcu.beaconSent = true then 0 else min 2 (s.rcu.failures + 1)) ∧
      (t.rcu.failures = 2 → ∀ r, look t.rcu.holdings r = none) ∧
      (t.rcu.failures ≠ 2 → t.rcu.holdings = s.rcu.holdings) ∧
      (t.rcu.failures = 2 → ∀ r e, look s.rcu.holdings r = some e → (s.viewOf r).holder = some s.cfl.node →
        t.viewOf r = ⟨none, none, false, 0, false, (s.viewOf r).cooling⟩) ∧
      (t.rcu.failures = 2 → ∀ own, own = indices s.rcu.holdings (fun _ h => h.isSome) → own ≠ [] →
        look t.fcu.notes noteSelfOpen = some (BitVec.ofNat 16 own.length)) ∧
      (t.rcu.failures ≠ 2 ∨ (∀ r, look s.rcu.holdings r = none) →
        look t.fcu.notes noteSelfOpen = look s.fcu.notes noteSelfOpen) ∧
      (∀ x : State, x.running = true → x.fcu.record = none →
        (dropAll x).fcu.record = some ⟨⟨.selfOpen, none, none, none, none⟩, x.fcu.millis, 1⟩) ∧
      (∀ r v, v = s.viewOf r → look s.rcu.holdings r = none → t.viewOf r =
        if v.holder = none ∨ v.holder = some s.cfl.node then v
        else if v.refreshed = true then { v with refreshed := false }
        else if v.misses + 1 < 3 then { v with misses := v.misses + 1 }
        else ⟨none, none, false, 0, false, some (later s1.now (s.cfl.config.period * 1000))⟩)

/-- CREDIT_BOUNDARY (R111–R113): C becomes the lesser of Cmax and C + F, whether or not a wave waits, and can only be spent
after that; where no head stopped for credit nothing else changes. An entry's wave that stopped at an earlier instant is served:
where C still falls short of its next relay it stops again at this instant, and nothing else changes. -/
def Obligations.CreditBoundaryRefills : Prop :=
  ∀ (dt : Nat) (s s1 u : State) (c : Nat), s1 = advance dt s → s.running = true → s1.now.toNat % 100 = 0 →
    s1.wsu.creditTaken = false → s.wsu.credit = some c →
    u = { s1 with wsu := { s1.wsu with
      credit := some (min s.cfl.config.cmax (c + s.cfl.config.refill)), creditTaken := true } } →
    ∃ t, exec (.creditBoundary dt) s = .next t ∧ Follows u t ∧ (s.wsu.creditStop = none → t = u) ∧
      (∀ d v rest r closing more e, s.wsu.creditStop = some d → d ≠ s1.now → s.wsu.queue = v :: rest → v.owner = .entry e →
        v.todo = (r, closing) :: more → min s.cfl.config.cmax (c + s.cfl.config.refill) < (s.classParams r).cost →
        t = { u with wsu := { u.wsu with creditStop := some s1.now } })

/-- SETTLE_END (R8, R10, R124, R125): a CLOSING relay is CLOSED and an OPENING one OPEN with no owner, the settle end absent, and
nothing else changes where no wave settles with it; and where the start sweep settles with it, its relays that are due are OPEN
and the RM is ready. Where a wave of an entry settles with it the entry goes on: from CONNECT_INNER to VERIFYING (R67, R145) or to
CONNECT_OUTER with its outer connect wave, from CONNECT_OUTER to CONNECTED with CONNECTED owed unless quiet (R69), from
DISCONNECT_OUTER to DISCONNECT_INNER, or to FAULTED after a fault (R71, R78), from DISCONNECT_INNER to FREE with OPENED or to
AWAIT_OPENED for the release wait (R72), and in FAULTED it owes FAULT (R78). A monitor close wave makes the monitor ON with
MONITOR_ON, or OPENING with its open wave where MONITOR off came meanwhile (R81); a monitor open wave makes it OFF, with RELEASE MON
and MONITOR_OFF owed (R82). With release-pending set the entry takes it: it owes no CONNECTED and no monitor report, and disconnects
(R70, R82). That a CLAIM of the entry on the line counts as a holding is the model's reading (notes/assumptions/15.md). -/
def Obligations.SettleEndRestsRelay : Prop :=
  ∀ (dt : Nat) (s s1 : State) (r : Relay), s1 = advance dt s → s.cfl.phase ≠ .inReset → s1.settleDue r = true →
    (s1.settlingWave r = none → s1.recovered r = false → (s.relay r).state = .closing →
      exec (.settleEnd dt r) s = .next (s1.setRelay r { s.relay r with state := .closed, settleEnd := none })) ∧
    (s1.settlingWave r = none → s1.recovered r = false → (s.relay r).state = .opening → s.noWaiter →
      r.val < 624 ∨ (s.relay r).owner = none →
      exec (.settleEnd dt r) s = .next (s1.setRelay r { s.relay r with state := .opened, owner := none, settleEnd := none })) ∧
    (∀ v, s1.settlingWave r = some v → v.owner = .sweep → s.noWaiter →
      ∃ t, exec (.settleEnd dt r) s = .next t ∧ t.rm.ready = true ∧
        ∀ p ∈ v.done, s1.settleDue p.1 = true → (s.relay p.1).state = .opening →
          (t.relay p.1).state = .opened ∧ (t.relay p.1).owner = none ∧ (t.relay p.1).settleEnd = none) ∧
    (∀ v e a, s1.settlingWave r = some v → v.owner = .entry e → a = s.entry e → s.noWaiter →
      ∃ t, exec (.settleEnd dt r) s = .next t ∧
        (v.phase = .outerConnect → a.state = .connectOuter → a.releasePending = none →
          t.entry e = { a with state := .connected } ∧
          look t.ne.status e = if a.quiet = true then look s.ne.status e
            else some ⟨a.site, a.net, .connected, .none, a.resource.map NetResource.code, none⟩) ∧
        (v.phase = .innerConnect → a.state = .connectInner → a.releasePending = none → a.verify = true → v.crosspoints ≠ [] →
          t.entry e = { a with state := .verifying } ∧ look t.snu.verifications e ≠ none) ∧
        (v.phase = .innerConnect → a.state = .connectInner → a.releasePending = none →
          a.verify = false ∨ v.crosspoints = [] → s.wsu.queue ≠ [] → (∀ p ∈ v.done, p.1.val < 592) →
          ∀ closes, closes = (a.pins.map relayS).filter (fun q => decide ((s.relay q).state = .opened)) → closes ≠ [] →
          t.entry e = { a with state := .connectOuter } ∧
          t.wsu.queue = s.wsu.queue ++ [⟨.entry e, .outerConnect, [], closes.map (fun q => (q, true)), a.trunk,
            a.trunk.isSome && !a.hot, false, decide (a.reason = some .aborted), none⟩]) ∧
        (v.phase = .outerDisconnect → a.state = .disconnectOuter → s.wsu.queue ≠ [] →
          (∃ q ∈ phaseRelays a .innerDisconnect, (∀ p ∈ v.done, p.1 ≠ q) ∧ (s.relay q).owner = some e ∧
            (s.relay q).state = .closed) →
          t.entry e = { a with state := if a.headingToFaulted = true then .faulted else .disconnectInner } ∧
          ∃ w : Wave, w.owner = .entry e ∧ w.phase = .innerDisconnect ∧ t.wsu.queue = s.wsu.queue ++ [w]) ∧
        (v.phase = .innerDisconnect → a.state = .disconnectInner → a.role = .participant → a.reason ≠ some .holdTimeout →
          (t.entry e).state = .free ∧ (∀ p, look t.ne.binding p ≠ some e) ∧ look t.ne.status e =
            some ⟨a.site, a.net, .opened, openedReason a.reason, a.resource.map NetResource.code, none⟩) ∧
        (v.phase = .innerDisconnect → a.state = .disconnectInner → a.role = .anchor →
          a.request = .localBus ∨ s.holding e = false →
          (t.entry e).state = .free ∧ (∀ p, look t.ne.binding p ≠ some e) ∧ (a.refused = false → look t.ne.status e =
            some ⟨a.site, a.net, .opened, openedReason a.reason, a.resource.map NetResource.code, none⟩)) ∧
        (v.phase = .innerDisconnect → a.state = .disconnectInner → a.role = .anchor → a.request ≠ .localBus →
          s.holding e = true → a.awaited ≠ [] →
          (t.entry e).state = .awaitOpened ∧ (t.entry e).awaited = a.awaited ∧
          (t.entry e).deadline = some (later s1.now (s.cfl.config.releaseWait * 1000))) ∧
        (v.phase = .monitorClose → a.state = .connected → a.releasePending = none → a.monitorOffPending = false →
          t.entry e = { a with monitor := .on } ∧ look t.ne.status e =
            some ⟨a.site, a.net, .monitorOn, .none, a.trunk.map (fun k => (NetResource.trunk k).code), none⟩) ∧
        (∀ k, v.phase = .monitorClose → a.state = .connected → a.releasePending = none → a.monitorOffPending = true →
          a.trunk = some k → s.wsu.queue ≠ [] → (s.relay (relayM k)).owner = some e → v.closedAfter s1 (relayM k) →
          t.entry e = { a with monitor := .opening, monitorOffPending := false } ∧
          t.wsu.queue = s.wsu.queue ++ [⟨.entry e, .monitorOpen, [], [(relayM k, false)], some k, false, false,
            decide (a.reason = some .aborted), none⟩]) ∧
        (v.phase = .monitorOpen → a.state = .connected → a.releasePending = none →
          t.entry e = { a with monitor := .off, monitorOffPending := false } ∧
          (look s.rcu.holdings 16 = some e → look t.rcu.releases 16 = true) ∧ look t.ne.status e =
            some ⟨a.site, a.net, .monitorOff, .none, a.trunk.map (fun k => (NetResource.trunk k).code), none⟩) ∧
        (∀ b p opens, b = v.monitorAfter a → a.releasePending = some p →
          v.phase = .innerConnect ∧ a.state = .connectInner ∨ v.phase = .outerConnect ∧ a.state = .connectOuter ∨
            (v.phase = .monitorClose ∨ v.phase = .monitorOpen) ∧ a.state = .connected →
          s.wsu.queue ≠ [] → (∀ w ∈ s.wsu.queue ++ s.wsu.held, w.owner ≠ .entry e) → (∀ q ∈ s.wsu.recovery, q.2 ≠ e) →
          look s.snu.verifications e = none →
          opens = (a.pins.map relayS).filter (fun q => decide ((s.relay q).owner = some e) && decide (v.closedAfter s1 q)) →
          opens ≠ [] →
          t.entry e = { b with
            state := .disconnectOuter, releasePending := none
            reason := if p = .cancel ∧ a.reason = none then some .cancelled else a.reason } ∧
          look t.ne.status e = look s.ne.status e ∧
          (v.phase = .monitorOpen → look s.rcu.holdings 16 = some e → look t.rcu.releases 16 = true) ∧
          t.wsu.queue = s.wsu.queue ++ [outerWave e (t.entry e) opens]) ∧
        (∀ p, v.phase = .innerConnect → a.state = .connectInner → a.releasePending = some p → a.reason = none →
          s.wsu.queue ≠ [] → (∀ w ∈ s.wsu.queue ++ s.wsu.held, w.owner ≠ .entry e) → (∀ q ∈ s.wsu.recovery, q.2 ≠ e) →
          look s.snu.verifications e = none → (∀ i ∈ a.pins, (s.relay (relayS i)).owner ≠ some e) →
          (∃ q ∈ phaseRelays a .innerDisconnect, (s.relay q).owner = some e ∧ v.closedAfter s1 q) →
          t.entry e = { a with
            state := .disconnectInner, releasePending := none
            reason := if p = .cancel then some .cancelled else none } ∧
          ∃ w : Wave, w.owner = .entry e ∧ w.phase = .innerDisconnect ∧ t.wsu.queue = s.wsu.queue ++ [w]) ∧
        (v.phase = .innerDisconnect → a.state = .faulted → a.releasePending = none → a.reason ≠ some .aborted →
          (t.entry e).state = .faulted ∧ look t.ne.status e = some ⟨a.site, a.net, .fault, a.reason.getD .none,
            a.resource.map NetResource.code, if a.reason = some .contactFail then a.reasonRelay else none⟩))

/-- CONNECT_HOLD_EXPIRY (R75, R121, R134): a connect held against H of a net of which nothing has been pulsed ends with the wave
discarded, the hold cleared and REFUSED HOLD_TIMEOUT owed; a participant is FREE, and an anchor that holds its trunk and awaits
other cards owes CANCEL and is in AWAIT_OPENED for the release wait. -/
def Obligations.ConnectHoldExpiryRefuses : Prop :=
  ∀ (dt : Nat) (s s1 : State) (e : Entry) (h : Hold), s1 = advance dt s → s.running = true → look s.ilu.holds e = some h →
    h.held = true → h.connect = true → h.abortGrace = false → reached s1.now h.deadline = true →
    s.noWaiter → s.wsu.queue = [] → s.unpulsed e → look s.snu.verifications e = none →
    ((s.entry e).state = .connectInner ∨ (s.entry e).state = .connectOuter) → (s.entry e).releasePending = none →
    (∃ v ∈ s.wsu.held, v.owner = .entry e) →
    (∀ v ∈ s.wsu.held, v.owner = .entry e → v.phase.connects = true ∧ v.done = []) →
    ∃ t, exec (.connectHoldExpiry dt e) s = .next t ∧ Follows s1 t ∧
      (∀ v ∈ t.wsu.held, v.owner ≠ .entry e) ∧ look t.ilu.holds e = none ∧
      look t.ne.status e = some ⟨(s.entry e).site, (s.entry e).net, .refused, .holdTimeout,
        (s.entry e).resource.map NetResource.code, none⟩ ∧
      ((s.entry e).role = .participant → (t.entry e).state = .free ∧ (∀ p, look t.ne.binding p ≠ some e) ∧
        look t.ne.cancel e = look s.ne.cancel e) ∧
      ((s.entry e).role = .anchor → (s.entry e).request ≠ .localBus → s.held e ≠ [] → (s.entry e).awaited ≠ [] →
        (t.entry e).state = .awaitOpened ∧
        (t.entry e).deadline = some (later s1.now (s.cfl.config.releaseWait * 1000)) ∧
        (t.entry e).reason = some .holdTimeout ∧
        look t.ne.cancel e = some ((s.entry e).site, (s.entry e).net))

/-- DISCONNECT_HOLD_EXPIRY (R120, R135): behind other waves, the held wave rejoins the tail of the queue forced hot, its hold
cleared, HOT_BREAK captured with the trunk, and HOT_BREAK becomes the reason where none but CANCELLED stood. -/
def Obligations.DisconnectHoldExpiryForcesHot : Prop :=
  ∀ (dt : Nat) (s s1 : State) (e : Entry) (h : Hold) (v : Wave), s1 = advance dt s → s.running = true →
    look s.ilu.holds e = some h → h.held = true → ¬ (h.connect = true ∧ h.abortGrace = false) →
    reached s1.now h.deadline = true → s.wsu.queue ≠ [] →
    s.wsu.held.find? (fun x => decide (x.owner = .entry e)) = some v →
    ∃ t, exec (.disconnectHoldExpiry dt e) s = .next t ∧ Follows s1 t ∧
      t.wsu.queue = s.wsu.queue ++ [{ v with forcedHot := true }] ∧
      t.wsu.held = s.wsu.held.filter (fun x => !decide (x.owner = .entry e)) ∧ look t.ilu.holds e = none ∧
      (∀ x, x ≠ e → t.entry x = s.entry x) ∧
      t.entry e = { s.entry e with reason :=
        if (s.entry e).reason = none ∨ (s.entry e).reason = some .cancelled then some .hotBreak else (s.entry e).reason } ∧
      (s.fcu.record = none → t.fcu.record = some ⟨⟨.hotBreak, some ((s.entry e).site, (s.entry e).net),
        some (NetResource.trunk h.trunk).code, none, none⟩, s1.fcu.millis, 1⟩)

/-- AWAIT_RESOURCE_DEADLINE (R65, R75): the anchor is refused with NO_TRUNK, and CANCEL owed, or with NO_BUS for a local net; its
claim is withdrawn; with no CLAIM of it on the line it is FREE with its pins unbound, and with one it waits in AWAIT_OPENED. That
REFUSED carries the resource field as it stands, and that the owed mark goes while its CLAIM is on the line, are the model's
readings (notes/assumptions/36.md and 13.md). -/
def Obligations.ResourceDeadlineRefusesAnchor : Prop :=
  ∀ (dt : Nat) (s s1 : State) (e : Entry) (d : Time), s1 = advance dt s → s.running = true →
    (s.entry e).state = .awaitResource → (s.entry e).deadline = some d → reached s1.now d = true → s.noOtherWaiter e →
    (s.entry e).monitor ≠ .claiming →
    ∃ t, exec (.awaitResourceDeadline dt e) s = .next t ∧ Follows s1 t ∧ look t.rcu.claims e = none ∧
      look t.ne.status e = some ⟨(s.entry e).site, (s.entry e).net, .refused,
        if (s.entry e).request = .localBus then .noBus else .noTrunk, (s.entry e).resource.map NetResource.code, none⟩ ∧
      look t.ne.cancel e =
        (if (s.entry e).request = .localBus then look s.ne.cancel e else some ((s.entry e).site, (s.entry e).net)) ∧
      (∀ x, x ≠ e → t.entry x = s.entry x) ∧
      (s.claimOnLine e = false → (t.entry e).state = .free ∧ ∀ p, look t.ne.binding p ≠ some e) ∧
      (s.claimOnLine e = true → (s.entry e).awaited ≠ [] → (t.entry e).state = .awaitOpened ∧
        (t.entry e).deadline = some (later s1.now (s.cfl.config.releaseWait * 1000)))

/-- AWAIT_ANCHOR_DEADLINE (R66): the participant owes REFUSED ANCHOR_SILENT and is FREE with its pins unbound. -/
def Obligations.AnchorDeadlineRefusesParticipant : Prop :=
  ∀ (dt : Nat) (s s1 : State) (e : Entry) (d : Time), s1 = advance dt s → s.running = true →
    (s.entry e).state = .awaitAnchor → (s.entry e).deadline = some d → reached s1.now d = true → s.noWaiter →
    ∃ t, exec (.awaitAnchorDeadline dt e) s = .next t ∧ Follows s1 t ∧
      look t.ne.status e = some ⟨(s.entry e).site, (s.entry e).net, .refused, .anchorSilent,
        (s.entry e).resource.map NetResource.code, none⟩ ∧
      (t.entry e).state = .free ∧ (∀ p, look t.ne.binding p ≠ some e) ∧
      (∀ p x, x ≠ e → look s.ne.binding p = some x → look t.ne.binding p = some x) ∧
      (∀ x, x ≠ e → t.entry x = s.entry x ∧ look t.ne.status x = look s.ne.status x)

/-- AWAIT_OPENED_DEADLINE (R74, R171): the entry is RELEASE_BLOCKED with no deadline and keeps its holdings and awaited set;
OPENED becomes owed where the closing report was not and no refusal stands; RELEASE_BLOCKED is captured exactly where nodes are
still awaited. -/
def Obligations.OpenedDeadlineBlocksRelease : Prop :=
  ∀ (dt : Nat) (s s1 : State) (e : Entry) (d : Time), s1 = advance dt s → s.running = true →
    (s.entry e).state = .awaitOpened → (s.entry e).deadline = some d → reached s1.now d = true → s.noWaiter →
    ∃ t, exec (.awaitOpenedDeadline dt e) s = .next t ∧ Follows s1 t ∧ t.rcu.holdings = s.rcu.holdings ∧
      t.entry e = { s.entry e with state := .releaseBlocked, deadline := none, reported := true } ∧
      (∀ x, x ≠ e → t.entry x = s.entry x) ∧
      ((s.entry e).reported = false → (s.entry e).refused = false →
        look t.ne.status e = some ⟨(s.entry e).site, (s.entry e).net, .opened, openedReason (s.entry e).reason,
          (s.entry e).resource.map NetResource.code, none⟩) ∧
      ((s.entry e).reported = true ∨ (s.entry e).refused = true → look t.ne.status e = look s.ne.status e) ∧
      ((s.entry e).awaited = [] → t.fcu.record = s.fcu.record) ∧
      ((s.entry e).awaited ≠ [] → s.fcu.record = none → t.fcu.record = some ⟨⟨.releaseBlocked,
        some ((s.entry e).site, (s.entry e).net), (s.entry e).resource.map NetResource.code, none, none⟩, s1.fcu.millis, 1⟩)

/-- MONITOR_CLAIM_WAIT_EXPIRY (R81): with no CLAIM of it on the line the monitor is OFF, its claim withdrawn and REFUSED MON_BUSY
owed; with one on the line the wait is over and the outcome of that frame decides. -/
def Obligations.MonitorWaitExpiryRefuses : Prop :=
  ∀ (dt : Nat) (s s1 : State) (e : Entry) (d : Time), s1 = advance dt s → s.running = true →
    (s.entry e).state = .connected → (s.entry e).monitor = .claiming → (s.entry e).deadline = some d →
    reached s1.now d = true →
    ∃ t, exec (.monitorClaimWaitExpiry dt e) s = .next t ∧ Follows s1 t ∧
      (s.claimOnLine e = true → t = s1.setEntry e { s.entry e with deadline := none }) ∧
      (s.claimOnLine e = false → s.noOtherWaiter e → (s.entry e).reason ≠ some .aborted →
        t.entry e = { s.entry e with monitor := .off, deadline := none } ∧ look t.rcu.claims e = none ∧
        (∀ x, x ≠ e → t.entry x = s.entry x) ∧
        look t.ne.status e = some ⟨(s.entry e).site, (s.entry e).net, .refused, .monBusy,
          (s.entry e).resource.map NetResource.code, none⟩)

/-- COOLING_END (R105): the resource's cooling mark is removed and nothing else of the view; a choice pass follows, which finds
nothing to do where no entry waits. -/
def Obligations.CoolingEndRemovesMark : Prop :=
  ∀ (dt : Nat) (s s1 u : State) (r : Resource) (d : Time), s1 = advance dt s → s.running = true →
    (s.viewOf r).cooling = some d → reached s1.now d = true →
    u = s1.setView r { s.viewOf r with cooling := none } →
    ∃ t, exec (.coolingEnd dt r) s = .next t ∧ Follows u t ∧ t.viewOf r = { s.viewOf r with cooling := none } ∧
      (∀ q, q ≠ r → t.viewOf q = s.viewOf q) ∧ (s.noWaiter → t = u)

/-- SENSE_END and STEP_END (R148–R153): a crosspoint sensed high at its first sense passes unmarked and after a failure is SLOW,
one that fails its fourth sense is SUSPECT, and one that fails before waits a step of a quarter of the operate time; each end
that is not the entry's last leaves the entry as it is, and the next queued job is sensed for 20 µs. With its last job ended the
entry's verification record goes, and a crosspoint found SUSPECT is the entry's fault CONTACT_FAIL (R68, R78, R152). At a step end
the jobs due leave STEPPING and join the tail of the sense queue in ascending relay index, and an idle SNU starts the head (R151). A
discard leaves the job in SENSING to end with its sense, unless that has ended at this instant: then the verification ends at the
discard, and the sample, which comes after it, still sets its mark (R153; that it is held until SENSE_END is the model's form,
notes/assumptions/48.md). -/
def Obligations.SenseEndMarksCrosspoint : Prop :=
  ∀ (dt : Nat) (s s1 : State), s1 = advance dt s → s.running = true →
    (∀ (high : Bool) (j : Job) (d : Time) (v : Verification), s.snu.sensing = some j → s.snu.senseEnd = some d →
      reached s1.now d = true → s.snu.ended = none → look s.snu.verifications j.entry = some v → 2 ≤ v.remaining →
      (∀ b ∈ s.snu.admission, b.1 ≠ j.entry) →
      ∃ t, exec (.senseEnd dt high) s = .next t ∧ t.ne = s.ne ∧ t.wru.counts = s.wru.counts ∧
        (∀ x, x ≠ j.relay → t.relay x = s.relay x) ∧
        (high = true → j.senses = 0 → t.relay j.relay = s.relay j.relay) ∧
        (high = true → 1 ≤ j.senses → t.relay j.relay = { s.relay j.relay with slow := true }) ∧
        (high = false → 3 ≤ j.senses → t.relay j.relay = { s.relay j.relay with suspect := true }) ∧
        (high = true ∨ 3 ≤ j.senses → ∃ w, look t.snu.verifications j.entry = some w ∧ w.remaining = v.remaining - 1) ∧
        (high = false → j.senses < 3 → v.discard = false →
          t.relay j.relay = s.relay j.relay ∧
          t.snu.stepping = s.snu.stepping ++
            [⟨j.relay, j.entry, j.senses + 1, some (later s1.now ((s.cfl.config.xpt.operate + 3) / 4))⟩]) ∧
        (∀ k rest, s.snu.queue = k :: rest → t.snu.sensing = some k ∧ t.snu.senseEnd = some (later s1.now 20))) ∧
    (∀ (j : Job) (d : Time) (v : Verification), s.snu.sensing = some j → s.snu.senseEnd = some d → reached s1.now d = true →
      s.snu.ended = none → look s.snu.verifications j.entry = some v → v.remaining = 1 → (∀ b ∈ s.snu.admission, b.1 ≠ j.entry) → 3 ≤ j.senses →
      s.noWaiter → s.wsu.queue ≠ [] → (s.entry j.entry).state = .verifying → (s.entry j.entry).releasePending = none →
      (s.entry j.entry).reason ≠ some .aborted →
      ∃ t, exec (.senseEnd dt false) s = .next t ∧ look t.snu.verifications j.entry = none ∧
        (t.entry j.entry).reason = some .contactFail ∧ (t.entry j.entry).reasonRelay = (insertRelay j.relay v.suspects).head? ∧
        ((t.entry j.entry).state = .disconnectOuter ∨ (t.entry j.entry).state = .faulted)) ∧
    (∀ (high : Bool) (j : Job), s.snu.ended = some j →
      ∃ t, exec (.senseEnd dt high) s = .next t ∧ t.ne = s.ne ∧ t.snu = { s.snu with ended := none } ∧
        (∀ x, x ≠ j.relay → t.relay x = s.relay x) ∧
        t.relay j.relay = (if high = true ∧ 1 ≤ j.senses then { s.relay j.relay with slow := true }
          else if high = false ∧ 3 ≤ j.senses then { s.relay j.relay with suspect := true } else s.relay j.relay)) ∧
    (∀ (j : Job) (d : Time) (v : Verification) (t : State), s.snu.sensing = some j → s.snu.senseEnd = some d →
      look s.snu.verifications j.entry = some v → v.discard = false → t = discardVerification j.entry s →
      (reached s.now d = true → look t.snu.verifications j.entry = none ∧ t.snu.ended = some j ∧ t.snu.sensing ≠ some j) ∧
      (reached s.now d = false → look t.snu.verifications j.entry = some { v with remaining := 1, discard := true } ∧
        t.snu.sensing = some j ∧ t.snu.senseEnd = some d)) ∧
    (s1.stepDue = true → ∃ t back, exec (.stepEnd dt) s = .next t ∧ t.ne = s.ne ∧ t.rm = s.rm ∧
      t.snu.stepping = s.snu.stepping.filter (fun j => !(match j.stepEnd with | some d => reached s1.now d | none => false)) ∧
      back.Perm ((s.snu.stepping.filter (fun j => match j.stepEnd with | some d => reached s1.now d | none => false)).map
        (fun j => { j with stepEnd := none })) ∧
      back.Pairwise (fun a b => a.relay ≤ b.relay) ∧
      (∀ k, s.snu.sensing = some k →
        t.snu.queue = s.snu.queue ++ back ∧ t.snu.sensing = some k ∧ t.snu.senseEnd = s.snu.senseEnd) ∧
      (s.snu.sensing = none → ∀ k rest, s.snu.queue ++ back = k :: rest →
        t.snu.queue = rest ∧ t.snu.sensing = some k ∧ t.snu.senseEnd = some (later s1.now 20)))

/-- BLOCK_WRITE_END and BLOCK_WRITE_FAILURE (R163, R165): a write acknowledged in its 10 ms stores the block's bytes and no
others, and the walk goes on to the next dirty block or ends DONE; a failed one ends the save FAILED with the written count and
the block, dirty again, and whichever of the three the memory then holds, no byte outside the block changes. -/
def Obligations.BlockWriteStoresOrFails : Prop :=
  ∀ (dt : Nat) (s s1 : State) (v : Save), s1 = advance dt s → s.running = true → s.wru.save = some v →
    Memory.wf s.memory.cells = true →
    ((s1.now - v.start).toNat ≤ 10000 → ∃ t, exec (.blockWriteEnd dt) s = .next t ∧
      (∀ i (h : i < v.bytes.length), Memory.read t.memory.cells (blockOffset v.block.val + i) = v.bytes[i]) ∧
      (∀ a, a < blockOffset v.block.val ∨ blockOffset v.block.val + v.bytes.length ≤ a →
        Memory.read t.memory.cells a = Memory.read s.memory.cells a) ∧
      look t.memory.torn v.block = false ∧ t.wru.counts = s.wru.counts ∧ t.rm = s.rm ∧ t.ne = s.ne ∧
      (∀ b : Block, v.walk ≤ b.val → look s.wru.dirty b = true →
        (∀ k : Block, v.walk ≤ k.val → k < b → look s.wru.dirty k = false) →
        t.wru.save = some ⟨b.val + 1, v.written + 1, b, s1.now, blockBytes s b⟩ ∧ look t.wru.dirty b = false) ∧
      ((∀ b : Block, v.walk ≤ b.val → look s.wru.dirty b = false) →
        t.wru.save = none ∧ t.wru.saveEnd = some (.saveDone (v.written + 1)))) ∧
    (∃ t, exec (.blockWriteFailure dt) s = .next t ∧ t.wru.save = none ∧ look t.wru.dirty v.block = true ∧
      t.wru.saveEnd = some (.saveFailed v.written (some v.block)) ∧ t.wru.counts = s.wru.counts ∧ t.rm = s.rm ∧
      (∀ a, a < blockOffset v.block.val ∨ blockOffset v.block.val + v.bytes.length ≤ a →
        Memory.read t.memory.cells a = Memory.read s.memory.cells a))

/-- One pulse (R8, R9, R113, R116, R122, R123, R157): credit falls by the class cost, the relay is CLOSING or OPENING with the
settle end its class, bounce and margin give, its driver position is the next pattern, its count rises by the weight of the kind
and saturates, and every other relay and count stands. The kind (R117): the sweep adds nothing, the recovery 8, an entry's wave 8
where its trunk is live (HOT, R138) and otherwise 1 to close and 0 to open. The service of the head (R110, R113, R118): it pulses
its relays in list order, each against credit that reaches its cost, until all are done, credit falls short or the interlock
answers live, and a queried wave that is not forced hot pulses nothing on a live trunk. It then stays the head, or joins the
settling set, or is held with H, or with G where it carries the abort mark (R132), or is discarded with its hold where its net is
being ended (R136). -/
def Obligations.PulseTakesCreditSettleAndWear : Prop :=
  (∀ (v : Wave) (r : Relay) (closing : Bool) (s t : State), t = pulse v r closing s →
    ∀ p m, p = s.classParams r →
      m = (if p.threshold ≤ look s.wru.counts r then 1 else 0) + (if (s.relay r).slow = true then 1 else 0) →
      t.relay r = { s.relay r with
        state := if closing = true then .closing else .opening
        settleEnd := some (later s.now (if closing = true then p.operate + p.bounce + m * ((p.operate + 3) / 4) else p.release)) }
      ∧ t.wsu.credit = s.wsu.credit.map (fun c => c - p.cost)
      ∧ (t.wsu.chain.map (fun x => x.driver.map Fin.val)) =
          (s.wsu.chain.map (fun x => x.driver.map Fin.val)) ++ [some (if closing = true then 2 * r.val else 2 * r.val + 1)]
      ∧ look t.wru.counts r = min 16777215 (look s.wru.counts r + match v.owner with
          | .sweep => 0
          | .recovery => 8
          | .entry _ => if v.trunk.any s.live = true then 8 else if closing = true then 1 else 0)
      ∧ (∀ x, x ≠ r → t.relay x = s.relay x ∧ look t.wru.counts x = look s.wru.counts x)) ∧
  (∀ (v v' : Wave) (s s' : State) (why : Stop) (e : Entry), v.owner = .entry e → (s', v', why) = pulseRun v.todo v s →
    (∃ k, v'.done = v.done ++ v.todo.take k ∧ v'.todo = v.todo.drop k ∧
      s' = (v.todo.take k).foldl (fun u p => pulse v p.1 p.2 u) s ∧
      ∀ j r c, j < k → v.todo[j]? = some (r, c) →
        (s.classParams r).cost ≤ (((v.todo.take j).foldl (fun u p => pulse v p.1 p.2 u) s).wsu.credit.getD 0)) ∧
    (s.blocked v = true → s' = s) ∧ (why = .finished → v'.todo = []) ∧
    (why = .credit → ∃ r c rest, v'.todo = (r, c) :: rest ∧ s'.wsu.credit.getD 0 < (s.classParams r).cost) ∧
    (why = .live → s.blocked v = true ∧ v'.todo = v.todo ∧ v.todo ≠ [])) ∧
  (∀ (w w' : Work) (v v' : Wave) (rest : List Wave) (e : Entry) (s' : State) (why : Stop), w.st.wsu.queue = v :: rest →
    v.owner = .entry e → (s', v', why) = pulseRun v.todo v w.st → w' = serveHead w →
    (why = .credit → w'.serve = false ∧ w'.st = { s' with wsu := { s'.wsu with
      queue := v' :: rest, creditStop := some w.st.now } }) ∧
    (why = .finished → w'.st = { s' with wsu := { s'.wsu with
      queue := rest, creditStop := none, settling := s'.wsu.settling ++ [v'] } }) ∧
    (∀ k h, why = .live → v.trunk = some k → discardsAtQuery (w.ent e) v = false →
      h = (match look w.st.ilu.holds e with
        | none => (⟨k, v.phase.connects, later w.st.now
            ((if v.abortMark = true then w.st.cfl.config.abortGrace else w.st.cfl.config.holdLimit) * 1000), v.abortMark, true⟩ : Hold)
        | some h => { h with held := true }) →
      reached w.st.now h.deadline = false →
      w'.st = { w.st with
        ilu := { w.st.ilu with holds := put w.st.ilu.holds e (some h) }
        wsu := { w.st.wsu with queue := rest, creditStop := none, held := w.st.wsu.held ++ [v] } }) ∧
    (why = .live → discardsAtQuery (w.ent e) v = true →
      w'.st.wsu.held = w.st.wsu.held ∧ look w'.st.ilu.holds e = none))

/-! ### Invariants -/

/-- Every step keeps the configuration memory in its canonical form. -/
def Obligations.EveryStepKeepsMemoryForm : Prop :=
  ∀ s t : State, Memory.wf s.memory.cells = true → step s = .next t → Memory.wf t.memory.cells = true

/-- Every step keeps the coil credit between 0 and Cmax and every class cost at most Cmax (R115). -/
def Obligations.EveryStepKeepsCreditWithinCmax : Prop :=
  ∀ s t : State, s.creditOk → step s = .next t → t.creditOk

/-- Every step keeps every wear count in 0 to 16,777,215, and no command lowers one but a power-on load and the reset that begins
it (R156, R158). -/
def Obligations.WearNeverFallsBetweenPowerOnLoads : Prop :=
  (∀ s t : State, s.wearOk → step s = .next t → t.wearOk) ∧
  (∀ (c : Instr) (s t : State), s.wearOk → exec c s = .next t → ¬ lowersWear s c →
    ∀ r, look s.wru.counts r ≤ look t.wru.counts r)

/-- Every step keeps the link counts below the ends they act at, the receive buffer at 4 frames or fewer, and both counts at 0 in
DUPLICATE_LATCH (R26, R29, R30, R31). -/
def Obligations.EveryStepKeepsLinkCounts : Prop :=
  ∀ s t : State, s.linkOk → step s = .next t → t.linkOk

/-- Every step keeps every VALID site's queue inside its area (R39, R41). -/
def Obligations.EveryStepKeepsQueuesInsideAreas : Prop :=
  ∀ s t : State, s.queuesOk → step s = .next t → t.queuesOk

/-- Every step keeps the marks of TAP, SER and MON relays clear, and the SNU's jobs on crosspoints (R6, R146). -/
def Obligations.EveryStepKeepsMarksOnCrosspoints : Prop :=
  ∀ s t : State, s.marksOk → step s = .next t → t.marksOk

/-- The part right after reset meets every invariant above. -/
def Obligations.ResetMeetsEveryKeptProperty : Prop :=
  Memory.wf State.reset.memory.cells = true ∧ State.reset.creditOk ∧ State.reset.wearOk ∧ State.reset.linkOk ∧
    State.reset.queuesOk ∧ State.reset.marksOk
end

