-- ==== Sys2Proof/Laws/State.lean ====
section
/-! SUPPORT. What each named update of State leaves alone: one lemma per field per update, true by rfl. -/

namespace Sys2Proof.Machine

theorem with_rm_liu (s : State) (x_rm : Rm) :
    ({ s with rm := x_rm } : State).liu = s.liu := rfl
theorem with_rm_squ (s : State) (x_rm : Rm) :
    ({ s with rm := x_rm } : State).squ = s.squ := rfl
theorem with_rm_ne (s : State) (x_rm : Rm) :
    ({ s with rm := x_rm } : State).ne = s.ne := rfl
theorem with_rm_rcu (s : State) (x_rm : Rm) :
    ({ s with rm := x_rm } : State).rcu = s.rcu := rfl
theorem with_rm_ilu (s : State) (x_rm : Rm) :
    ({ s with rm := x_rm } : State).ilu = s.ilu := rfl
theorem with_rm_wsu (s : State) (x_rm : Rm) :
    ({ s with rm := x_rm } : State).wsu = s.wsu := rfl
theorem with_rm_snu (s : State) (x_rm : Rm) :
    ({ s with rm := x_rm } : State).snu = s.snu := rfl
theorem with_rm_wru (s : State) (x_rm : Rm) :
    ({ s with rm := x_rm } : State).wru = s.wru := rfl
theorem with_rm_fcu (s : State) (x_rm : Rm) :
    ({ s with rm := x_rm } : State).fcu = s.fcu := rfl
theorem with_rm_cfl (s : State) (x_rm : Rm) :
    ({ s with rm := x_rm } : State).cfl = s.cfl := rfl
theorem with_rm_tb (s : State) (x_rm : Rm) :
    ({ s with rm := x_rm } : State).tb = s.tb := rfl
theorem with_rm_memory (s : State) (x_rm : Rm) :
    ({ s with rm := x_rm } : State).memory = s.memory := rfl
theorem with_rm_free (s : State) (x_rm : Rm) :
    ({ s with rm := x_rm } : State).free = s.free := rfl
theorem with_rm_pending (s : State) (x_rm : Rm) :
    ({ s with rm := x_rm } : State).pending = s.pending := rfl

theorem with_wru_liu (s : State) (x_wru : Wru) :
    ({ s with wru := x_wru } : State).liu = s.liu := rfl
theorem with_wru_squ (s : State) (x_wru : Wru) :
    ({ s with wru := x_wru } : State).squ = s.squ := rfl
theorem with_wru_ne (s : State) (x_wru : Wru) :
    ({ s with wru := x_wru } : State).ne = s.ne := rfl
theorem with_wru_rcu (s : State) (x_wru : Wru) :
    ({ s with wru := x_wru } : State).rcu = s.rcu := rfl
theorem with_wru_ilu (s : State) (x_wru : Wru) :
    ({ s with wru := x_wru } : State).ilu = s.ilu := rfl
theorem with_wru_wsu (s : State) (x_wru : Wru) :
    ({ s with wru := x_wru } : State).wsu = s.wsu := rfl
theorem with_wru_rm (s : State) (x_wru : Wru) :
    ({ s with wru := x_wru } : State).rm = s.rm := rfl
theorem with_wru_snu (s : State) (x_wru : Wru) :
    ({ s with wru := x_wru } : State).snu = s.snu := rfl
theorem with_wru_fcu (s : State) (x_wru : Wru) :
    ({ s with wru := x_wru } : State).fcu = s.fcu := rfl
theorem with_wru_cfl (s : State) (x_wru : Wru) :
    ({ s with wru := x_wru } : State).cfl = s.cfl := rfl
theorem with_wru_tb (s : State) (x_wru : Wru) :
    ({ s with wru := x_wru } : State).tb = s.tb := rfl
theorem with_wru_memory (s : State) (x_wru : Wru) :
    ({ s with wru := x_wru } : State).memory = s.memory := rfl
theorem with_wru_free (s : State) (x_wru : Wru) :
    ({ s with wru := x_wru } : State).free = s.free := rfl
theorem with_wru_pending (s : State) (x_wru : Wru) :
    ({ s with wru := x_wru } : State).pending = s.pending := rfl

theorem with_ne_liu (s : State) (x_ne : Ne) :
    ({ s with ne := x_ne } : State).liu = s.liu := rfl
theorem with_ne_squ (s : State) (x_ne : Ne) :
    ({ s with ne := x_ne } : State).squ = s.squ := rfl
theorem with_ne_rcu (s : State) (x_ne : Ne) :
    ({ s with ne := x_ne } : State).rcu = s.rcu := rfl
theorem with_ne_ilu (s : State) (x_ne : Ne) :
    ({ s with ne := x_ne } : State).ilu = s.ilu := rfl
theorem with_ne_wsu (s : State) (x_ne : Ne) :
    ({ s with ne := x_ne } : State).wsu = s.wsu := rfl
theorem with_ne_rm (s : State) (x_ne : Ne) :
    ({ s with ne := x_ne } : State).rm = s.rm := rfl
theorem with_ne_snu (s : State) (x_ne : Ne) :
    ({ s with ne := x_ne } : State).snu = s.snu := rfl
theorem with_ne_wru (s : State) (x_ne : Ne) :
    ({ s with ne := x_ne } : State).wru = s.wru := rfl
theorem with_ne_fcu (s : State) (x_ne : Ne) :
    ({ s with ne := x_ne } : State).fcu = s.fcu := rfl
theorem with_ne_cfl (s : State) (x_ne : Ne) :
    ({ s with ne := x_ne } : State).cfl = s.cfl := rfl
theorem with_ne_tb (s : State) (x_ne : Ne) :
    ({ s with ne := x_ne } : State).tb = s.tb := rfl
theorem with_ne_memory (s : State) (x_ne : Ne) :
    ({ s with ne := x_ne } : State).memory = s.memory := rfl
theorem with_ne_free (s : State) (x_ne : Ne) :
    ({ s with ne := x_ne } : State).free = s.free := rfl
theorem with_ne_pending (s : State) (x_ne : Ne) :
    ({ s with ne := x_ne } : State).pending = s.pending := rfl

theorem with_liu_squ (s : State) (x_liu : Liu) :
    ({ s with liu := x_liu } : State).squ = s.squ := rfl
theorem with_liu_ne (s : State) (x_liu : Liu) :
    ({ s with liu := x_liu } : State).ne = s.ne := rfl
theorem with_liu_rcu (s : State) (x_liu : Liu) :
    ({ s with liu := x_liu } : State).rcu = s.rcu := rfl
theorem with_liu_ilu (s : State) (x_liu : Liu) :
    ({ s with liu := x_liu } : State).ilu = s.ilu := rfl
theorem with_liu_wsu (s : State) (x_liu : Liu) :
    ({ s with liu := x_liu } : State).wsu = s.wsu := rfl
theorem with_liu_rm (s : State) (x_liu : Liu) :
    ({ s with liu := x_liu } : State).rm = s.rm := rfl
theorem with_liu_snu (s : State) (x_liu : Liu) :
    ({ s with liu := x_liu } : State).snu = s.snu := rfl
theorem with_liu_wru (s : State) (x_liu : Liu) :
    ({ s with liu := x_liu } : State).wru = s.wru := rfl
theorem with_liu_fcu (s : State) (x_liu : Liu) :
    ({ s with liu := x_liu } : State).fcu = s.fcu := rfl
theorem with_liu_cfl (s : State) (x_liu : Liu) :
    ({ s with liu := x_liu } : State).cfl = s.cfl := rfl
theorem with_liu_tb (s : State) (x_liu : Liu) :
    ({ s with liu := x_liu } : State).tb = s.tb := rfl
theorem with_liu_memory (s : State) (x_liu : Liu) :
    ({ s with liu := x_liu } : State).memory = s.memory := rfl
theorem with_liu_free (s : State) (x_liu : Liu) :
    ({ s with liu := x_liu } : State).free = s.free := rfl
theorem with_liu_pending (s : State) (x_liu : Liu) :
    ({ s with liu := x_liu } : State).pending = s.pending := rfl

theorem with_rcu_liu (s : State) (x_rcu : Rcu) :
    ({ s with rcu := x_rcu } : State).liu = s.liu := rfl
theorem with_rcu_squ (s : State) (x_rcu : Rcu) :
    ({ s with rcu := x_rcu } : State).squ = s.squ := rfl
theorem with_rcu_ne (s : State) (x_rcu : Rcu) :
    ({ s with rcu := x_rcu } : State).ne = s.ne := rfl
theorem with_rcu_ilu (s : State) (x_rcu : Rcu) :
    ({ s with rcu := x_rcu } : State).ilu = s.ilu := rfl
theorem with_rcu_wsu (s : State) (x_rcu : Rcu) :
    ({ s with rcu := x_rcu } : State).wsu = s.wsu := rfl
theorem with_rcu_rm (s : State) (x_rcu : Rcu) :
    ({ s with rcu := x_rcu } : State).rm = s.rm := rfl
theorem with_rcu_snu (s : State) (x_rcu : Rcu) :
    ({ s with rcu := x_rcu } : State).snu = s.snu := rfl
theorem with_rcu_wru (s : State) (x_rcu : Rcu) :
    ({ s with rcu := x_rcu } : State).wru = s.wru := rfl
theorem with_rcu_fcu (s : State) (x_rcu : Rcu) :
    ({ s with rcu := x_rcu } : State).fcu = s.fcu := rfl
theorem with_rcu_cfl (s : State) (x_rcu : Rcu) :
    ({ s with rcu := x_rcu } : State).cfl = s.cfl := rfl
theorem with_rcu_tb (s : State) (x_rcu : Rcu) :
    ({ s with rcu := x_rcu } : State).tb = s.tb := rfl
theorem with_rcu_memory (s : State) (x_rcu : Rcu) :
    ({ s with rcu := x_rcu } : State).memory = s.memory := rfl
theorem with_rcu_free (s : State) (x_rcu : Rcu) :
    ({ s with rcu := x_rcu } : State).free = s.free := rfl
theorem with_rcu_pending (s : State) (x_rcu : Rcu) :
    ({ s with rcu := x_rcu } : State).pending = s.pending := rfl

theorem with_squ_liu (s : State) (x_squ : Squ) :
    ({ s with squ := x_squ } : State).liu = s.liu := rfl
theorem with_squ_ne (s : State) (x_squ : Squ) :
    ({ s with squ := x_squ } : State).ne = s.ne := rfl
theorem with_squ_rcu (s : State) (x_squ : Squ) :
    ({ s with squ := x_squ } : State).rcu = s.rcu := rfl
theorem with_squ_ilu (s : State) (x_squ : Squ) :
    ({ s with squ := x_squ } : State).ilu = s.ilu := rfl
theorem with_squ_wsu (s : State) (x_squ : Squ) :
    ({ s with squ := x_squ } : State).wsu = s.wsu := rfl
theorem with_squ_rm (s : State) (x_squ : Squ) :
    ({ s with squ := x_squ } : State).rm = s.rm := rfl
theorem with_squ_snu (s : State) (x_squ : Squ) :
    ({ s with squ := x_squ } : State).snu = s.snu := rfl
theorem with_squ_wru (s : State) (x_squ : Squ) :
    ({ s with squ := x_squ } : State).wru = s.wru := rfl
theorem with_squ_fcu (s : State) (x_squ : Squ) :
    ({ s with squ := x_squ } : State).fcu = s.fcu := rfl
theorem with_squ_cfl (s : State) (x_squ : Squ) :
    ({ s with squ := x_squ } : State).cfl = s.cfl := rfl
theorem with_squ_tb (s : State) (x_squ : Squ) :
    ({ s with squ := x_squ } : State).tb = s.tb := rfl
theorem with_squ_memory (s : State) (x_squ : Squ) :
    ({ s with squ := x_squ } : State).memory = s.memory := rfl
theorem with_squ_free (s : State) (x_squ : Squ) :
    ({ s with squ := x_squ } : State).free = s.free := rfl
theorem with_squ_pending (s : State) (x_squ : Squ) :
    ({ s with squ := x_squ } : State).pending = s.pending := rfl

theorem with_ilu_liu (s : State) (x_ilu : Ilu) :
    ({ s with ilu := x_ilu } : State).liu = s.liu := rfl
theorem with_ilu_squ (s : State) (x_ilu : Ilu) :
    ({ s with ilu := x_ilu } : State).squ = s.squ := rfl
theorem with_ilu_ne (s : State) (x_ilu : Ilu) :
    ({ s with ilu := x_ilu } : State).ne = s.ne := rfl
theorem with_ilu_rcu (s : State) (x_ilu : Ilu) :
    ({ s with ilu := x_ilu } : State).rcu = s.rcu := rfl
theorem with_ilu_wsu (s : State) (x_ilu : Ilu) :
    ({ s with ilu := x_ilu } : State).wsu = s.wsu := rfl
theorem with_ilu_rm (s : State) (x_ilu : Ilu) :
    ({ s with ilu := x_ilu } : State).rm = s.rm := rfl
theorem with_ilu_snu (s : State) (x_ilu : Ilu) :
    ({ s with ilu := x_ilu } : State).snu = s.snu := rfl
theorem with_ilu_wru (s : State) (x_ilu : Ilu) :
    ({ s with ilu := x_ilu } : State).wru = s.wru := rfl
theorem with_ilu_fcu (s : State) (x_ilu : Ilu) :
    ({ s with ilu := x_ilu } : State).fcu = s.fcu := rfl
theorem with_ilu_cfl (s : State) (x_ilu : Ilu) :
    ({ s with ilu := x_ilu } : State).cfl = s.cfl := rfl
theorem with_ilu_tb (s : State) (x_ilu : Ilu) :
    ({ s with ilu := x_ilu } : State).tb = s.tb := rfl
theorem with_ilu_memory (s : State) (x_ilu : Ilu) :
    ({ s with ilu := x_ilu } : State).memory = s.memory := rfl
theorem with_ilu_free (s : State) (x_ilu : Ilu) :
    ({ s with ilu := x_ilu } : State).free = s.free := rfl
theorem with_ilu_pending (s : State) (x_ilu : Ilu) :
    ({ s with ilu := x_ilu } : State).pending = s.pending := rfl

theorem with_snu_liu (s : State) (x_snu : Snu) :
    ({ s with snu := x_snu } : State).liu = s.liu := rfl
theorem with_snu_squ (s : State) (x_snu : Snu) :
    ({ s with snu := x_snu } : State).squ = s.squ := rfl
theorem with_snu_ne (s : State) (x_snu : Snu) :
    ({ s with snu := x_snu } : State).ne = s.ne := rfl
theorem with_snu_rcu (s : State) (x_snu : Snu) :
    ({ s with snu := x_snu } : State).rcu = s.rcu := rfl
theorem with_snu_ilu (s : State) (x_snu : Snu) :
    ({ s with snu := x_snu } : State).ilu = s.ilu := rfl
theorem with_snu_wsu (s : State) (x_snu : Snu) :
    ({ s with snu := x_snu } : State).wsu = s.wsu := rfl
theorem with_snu_rm (s : State) (x_snu : Snu) :
    ({ s with snu := x_snu } : State).rm = s.rm := rfl
theorem with_snu_wru (s : State) (x_snu : Snu) :
    ({ s with snu := x_snu } : State).wru = s.wru := rfl
theorem with_snu_fcu (s : State) (x_snu : Snu) :
    ({ s with snu := x_snu } : State).fcu = s.fcu := rfl
theorem with_snu_cfl (s : State) (x_snu : Snu) :
    ({ s with snu := x_snu } : State).cfl = s.cfl := rfl
theorem with_snu_tb (s : State) (x_snu : Snu) :
    ({ s with snu := x_snu } : State).tb = s.tb := rfl
theorem with_snu_memory (s : State) (x_snu : Snu) :
    ({ s with snu := x_snu } : State).memory = s.memory := rfl
theorem with_snu_free (s : State) (x_snu : Snu) :
    ({ s with snu := x_snu } : State).free = s.free := rfl
theorem with_snu_pending (s : State) (x_snu : Snu) :
    ({ s with snu := x_snu } : State).pending = s.pending := rfl

theorem with_cfl_liu (s : State) (x_cfl : Cfl) :
    ({ s with cfl := x_cfl } : State).liu = s.liu := rfl
theorem with_cfl_squ (s : State) (x_cfl : Cfl) :
    ({ s with cfl := x_cfl } : State).squ = s.squ := rfl
theorem with_cfl_ne (s : State) (x_cfl : Cfl) :
    ({ s with cfl := x_cfl } : State).ne = s.ne := rfl
theorem with_cfl_rcu (s : State) (x_cfl : Cfl) :
    ({ s with cfl := x_cfl } : State).rcu = s.rcu := rfl
theorem with_cfl_ilu (s : State) (x_cfl : Cfl) :
    ({ s with cfl := x_cfl } : State).ilu = s.ilu := rfl
theorem with_cfl_wsu (s : State) (x_cfl : Cfl) :
    ({ s with cfl := x_cfl } : State).wsu = s.wsu := rfl
theorem with_cfl_rm (s : State) (x_cfl : Cfl) :
    ({ s with cfl := x_cfl } : State).rm = s.rm := rfl
theorem with_cfl_snu (s : State) (x_cfl : Cfl) :
    ({ s with cfl := x_cfl } : State).snu = s.snu := rfl
theorem with_cfl_wru (s : State) (x_cfl : Cfl) :
    ({ s with cfl := x_cfl } : State).wru = s.wru := rfl
theorem with_cfl_fcu (s : State) (x_cfl : Cfl) :
    ({ s with cfl := x_cfl } : State).fcu = s.fcu := rfl
theorem with_cfl_tb (s : State) (x_cfl : Cfl) :
    ({ s with cfl := x_cfl } : State).tb = s.tb := rfl
theorem with_cfl_memory (s : State) (x_cfl : Cfl) :
    ({ s with cfl := x_cfl } : State).memory = s.memory := rfl
theorem with_cfl_free (s : State) (x_cfl : Cfl) :
    ({ s with cfl := x_cfl } : State).free = s.free := rfl
theorem with_cfl_pending (s : State) (x_cfl : Cfl) :
    ({ s with cfl := x_cfl } : State).pending = s.pending := rfl

theorem with_fcu_liu (s : State) (x_fcu : Fcu) :
    ({ s with fcu := x_fcu } : State).liu = s.liu := rfl
theorem with_fcu_squ (s : State) (x_fcu : Fcu) :
    ({ s with fcu := x_fcu } : State).squ = s.squ := rfl
theorem with_fcu_ne (s : State) (x_fcu : Fcu) :
    ({ s with fcu := x_fcu } : State).ne = s.ne := rfl
theorem with_fcu_rcu (s : State) (x_fcu : Fcu) :
    ({ s with fcu := x_fcu } : State).rcu = s.rcu := rfl
theorem with_fcu_ilu (s : State) (x_fcu : Fcu) :
    ({ s with fcu := x_fcu } : State).ilu = s.ilu := rfl
theorem with_fcu_wsu (s : State) (x_fcu : Fcu) :
    ({ s with fcu := x_fcu } : State).wsu = s.wsu := rfl
theorem with_fcu_rm (s : State) (x_fcu : Fcu) :
    ({ s with fcu := x_fcu } : State).rm = s.rm := rfl
theorem with_fcu_snu (s : State) (x_fcu : Fcu) :
    ({ s with fcu := x_fcu } : State).snu = s.snu := rfl
theorem with_fcu_wru (s : State) (x_fcu : Fcu) :
    ({ s with fcu := x_fcu } : State).wru = s.wru := rfl
theorem with_fcu_cfl (s : State) (x_fcu : Fcu) :
    ({ s with fcu := x_fcu } : State).cfl = s.cfl := rfl
theorem with_fcu_tb (s : State) (x_fcu : Fcu) :
    ({ s with fcu := x_fcu } : State).tb = s.tb := rfl
theorem with_fcu_memory (s : State) (x_fcu : Fcu) :
    ({ s with fcu := x_fcu } : State).memory = s.memory := rfl
theorem with_fcu_free (s : State) (x_fcu : Fcu) :
    ({ s with fcu := x_fcu } : State).free = s.free := rfl
theorem with_fcu_pending (s : State) (x_fcu : Fcu) :
    ({ s with fcu := x_fcu } : State).pending = s.pending := rfl

theorem with_wru_rm_liu (s : State) (x_wru : Wru) (x_rm : Rm) :
    ({ s with wru := x_wru, rm := x_rm } : State).liu = s.liu := rfl
theorem with_wru_rm_squ (s : State) (x_wru : Wru) (x_rm : Rm) :
    ({ s with wru := x_wru, rm := x_rm } : State).squ = s.squ := rfl
theorem with_wru_rm_ne (s : State) (x_wru : Wru) (x_rm : Rm) :
    ({ s with wru := x_wru, rm := x_rm } : State).ne = s.ne := rfl
theorem with_wru_rm_rcu (s : State) (x_wru : Wru) (x_rm : Rm) :
    ({ s with wru := x_wru, rm := x_rm } : State).rcu = s.rcu := rfl
theorem with_wru_rm_ilu (s : State) (x_wru : Wru) (x_rm : Rm) :
    ({ s with wru := x_wru, rm := x_rm } : State).ilu = s.ilu := rfl
theorem with_wru_rm_wsu (s : State) (x_wru : Wru) (x_rm : Rm) :
    ({ s with wru := x_wru, rm := x_rm } : State).wsu = s.wsu := rfl
theorem with_wru_rm_snu (s : State) (x_wru : Wru) (x_rm : Rm) :
    ({ s with wru := x_wru, rm := x_rm } : State).snu = s.snu := rfl
theorem with_wru_rm_fcu (s : State) (x_wru : Wru) (x_rm : Rm) :
    ({ s with wru := x_wru, rm := x_rm } : State).fcu = s.fcu := rfl
theorem with_wru_rm_cfl (s : State) (x_wru : Wru) (x_rm : Rm) :
    ({ s with wru := x_wru, rm := x_rm } : State).cfl = s.cfl := rfl
theorem with_wru_rm_tb (s : State) (x_wru : Wru) (x_rm : Rm) :
    ({ s with wru := x_wru, rm := x_rm } : State).tb = s.tb := rfl
theorem with_wru_rm_memory (s : State) (x_wru : Wru) (x_rm : Rm) :
    ({ s with wru := x_wru, rm := x_rm } : State).memory = s.memory := rfl
theorem with_wru_rm_free (s : State) (x_wru : Wru) (x_rm : Rm) :
    ({ s with wru := x_wru, rm := x_rm } : State).free = s.free := rfl
theorem with_wru_rm_pending (s : State) (x_wru : Wru) (x_rm : Rm) :
    ({ s with wru := x_wru, rm := x_rm } : State).pending = s.pending := rfl

@[simp] theorem State.setRelay_liu (s : State) (r : Relay) (x : RelayRec) : (s.setRelay r x).liu = s.liu :=
  with_rm_liu s _
@[simp] theorem State.setRelay_squ (s : State) (r : Relay) (x : RelayRec) : (s.setRelay r x).squ = s.squ :=
  with_rm_squ s _
@[simp] theorem State.setRelay_ne (s : State) (r : Relay) (x : RelayRec) : (s.setRelay r x).ne = s.ne :=
  with_rm_ne s _
@[simp] theorem State.setRelay_rcu (s : State) (r : Relay) (x : RelayRec) : (s.setRelay r x).rcu = s.rcu :=
  with_rm_rcu s _
@[simp] theorem State.setRelay_ilu (s : State) (r : Relay) (x : RelayRec) : (s.setRelay r x).ilu = s.ilu :=
  with_rm_ilu s _
@[simp] theorem State.setRelay_wsu (s : State) (r : Relay) (x : RelayRec) : (s.setRelay r x).wsu = s.wsu :=
  with_rm_wsu s _
@[simp] theorem State.setRelay_snu (s : State) (r : Relay) (x : RelayRec) : (s.setRelay r x).snu = s.snu :=
  with_rm_snu s _
@[simp] theorem State.setRelay_wru (s : State) (r : Relay) (x : RelayRec) : (s.setRelay r x).wru = s.wru :=
  with_rm_wru s _
@[simp] theorem State.setRelay_fcu (s : State) (r : Relay) (x : RelayRec) : (s.setRelay r x).fcu = s.fcu :=
  with_rm_fcu s _
@[simp] theorem State.setRelay_cfl (s : State) (r : Relay) (x : RelayRec) : (s.setRelay r x).cfl = s.cfl :=
  with_rm_cfl s _
@[simp] theorem State.setRelay_tb (s : State) (r : Relay) (x : RelayRec) : (s.setRelay r x).tb = s.tb :=
  with_rm_tb s _
@[simp] theorem State.setRelay_memory (s : State) (r : Relay) (x : RelayRec) : (s.setRelay r x).memory = s.memory :=
  with_rm_memory s _
@[simp] theorem State.setRelay_free (s : State) (r : Relay) (x : RelayRec) : (s.setRelay r x).free = s.free :=
  with_rm_free s _
@[simp] theorem State.setRelay_pending (s : State) (r : Relay) (x : RelayRec) : (s.setRelay r x).pending = s.pending :=
  with_rm_pending s _

@[simp] theorem State.dirtyBlock_liu (s : State) (b : Block) : (s.dirtyBlock b).liu = s.liu :=
  with_wru_liu s _
@[simp] theorem State.dirtyBlock_squ (s : State) (b : Block) : (s.dirtyBlock b).squ = s.squ :=
  with_wru_squ s _
@[simp] theorem State.dirtyBlock_ne (s : State) (b : Block) : (s.dirtyBlock b).ne = s.ne :=
  with_wru_ne s _
@[simp] theorem State.dirtyBlock_rcu (s : State) (b : Block) : (s.dirtyBlock b).rcu = s.rcu :=
  with_wru_rcu s _
@[simp] theorem State.dirtyBlock_ilu (s : State) (b : Block) : (s.dirtyBlock b).ilu = s.ilu :=
  with_wru_ilu s _
@[simp] theorem State.dirtyBlock_wsu (s : State) (b : Block) : (s.dirtyBlock b).wsu = s.wsu :=
  with_wru_wsu s _
@[simp] theorem State.dirtyBlock_rm (s : State) (b : Block) : (s.dirtyBlock b).rm = s.rm :=
  with_wru_rm s _
@[simp] theorem State.dirtyBlock_snu (s : State) (b : Block) : (s.dirtyBlock b).snu = s.snu :=
  with_wru_snu s _
@[simp] theorem State.dirtyBlock_fcu (s : State) (b : Block) : (s.dirtyBlock b).fcu = s.fcu :=
  with_wru_fcu s _
@[simp] theorem State.dirtyBlock_cfl (s : State) (b : Block) : (s.dirtyBlock b).cfl = s.cfl :=
  with_wru_cfl s _
@[simp] theorem State.dirtyBlock_tb (s : State) (b : Block) : (s.dirtyBlock b).tb = s.tb :=
  with_wru_tb s _
@[simp] theorem State.dirtyBlock_memory (s : State) (b : Block) : (s.dirtyBlock b).memory = s.memory :=
  with_wru_memory s _
@[simp] theorem State.dirtyBlock_free (s : State) (b : Block) : (s.dirtyBlock b).free = s.free :=
  with_wru_free s _
@[simp] theorem State.dirtyBlock_pending (s : State) (b : Block) : (s.dirtyBlock b).pending = s.pending :=
  with_wru_pending s _

@[simp] theorem State.dropOpenOwners_liu (s : State) (e : Entry) : (s.dropOpenOwners e).liu = s.liu :=
  with_rm_liu s _
@[simp] theorem State.dropOpenOwners_squ (s : State) (e : Entry) : (s.dropOpenOwners e).squ = s.squ :=
  with_rm_squ s _
@[simp] theorem State.dropOpenOwners_ne (s : State) (e : Entry) : (s.dropOpenOwners e).ne = s.ne :=
  with_rm_ne s _
@[simp] theorem State.dropOpenOwners_rcu (s : State) (e : Entry) : (s.dropOpenOwners e).rcu = s.rcu :=
  with_rm_rcu s _
@[simp] theorem State.dropOpenOwners_ilu (s : State) (e : Entry) : (s.dropOpenOwners e).ilu = s.ilu :=
  with_rm_ilu s _
@[simp] theorem State.dropOpenOwners_wsu (s : State) (e : Entry) : (s.dropOpenOwners e).wsu = s.wsu :=
  with_rm_wsu s _
@[simp] theorem State.dropOpenOwners_snu (s : State) (e : Entry) : (s.dropOpenOwners e).snu = s.snu :=
  with_rm_snu s _
@[simp] theorem State.dropOpenOwners_wru (s : State) (e : Entry) : (s.dropOpenOwners e).wru = s.wru :=
  with_rm_wru s _
@[simp] theorem State.dropOpenOwners_fcu (s : State) (e : Entry) : (s.dropOpenOwners e).fcu = s.fcu :=
  with_rm_fcu s _
@[simp] theorem State.dropOpenOwners_cfl (s : State) (e : Entry) : (s.dropOpenOwners e).cfl = s.cfl :=
  with_rm_cfl s _
@[simp] theorem State.dropOpenOwners_tb (s : State) (e : Entry) : (s.dropOpenOwners e).tb = s.tb :=
  with_rm_tb s _
@[simp] theorem State.dropOpenOwners_memory (s : State) (e : Entry) : (s.dropOpenOwners e).memory = s.memory :=
  with_rm_memory s _
@[simp] theorem State.dropOpenOwners_free (s : State) (e : Entry) : (s.dropOpenOwners e).free = s.free :=
  with_rm_free s _
@[simp] theorem State.dropOpenOwners_pending (s : State) (e : Entry) : (s.dropOpenOwners e).pending = s.pending :=
  with_rm_pending s _

@[simp] theorem State.setEntry_liu (s : State) (e : Entry) (x : NetEntry) : (s.setEntry e x).liu = s.liu :=
  with_ne_liu s _
@[simp] theorem State.setEntry_squ (s : State) (e : Entry) (x : NetEntry) : (s.setEntry e x).squ = s.squ :=
  with_ne_squ s _
@[simp] theorem State.setEntry_rcu (s : State) (e : Entry) (x : NetEntry) : (s.setEntry e x).rcu = s.rcu :=
  with_ne_rcu s _
@[simp] theorem State.setEntry_ilu (s : State) (e : Entry) (x : NetEntry) : (s.setEntry e x).ilu = s.ilu :=
  with_ne_ilu s _
@[simp] theorem State.setEntry_wsu (s : State) (e : Entry) (x : NetEntry) : (s.setEntry e x).wsu = s.wsu :=
  with_ne_wsu s _
@[simp] theorem State.setEntry_rm (s : State) (e : Entry) (x : NetEntry) : (s.setEntry e x).rm = s.rm :=
  with_ne_rm s _
@[simp] theorem State.setEntry_snu (s : State) (e : Entry) (x : NetEntry) : (s.setEntry e x).snu = s.snu :=
  with_ne_snu s _
@[simp] theorem State.setEntry_wru (s : State) (e : Entry) (x : NetEntry) : (s.setEntry e x).wru = s.wru :=
  with_ne_wru s _
@[simp] theorem State.setEntry_fcu (s : State) (e : Entry) (x : NetEntry) : (s.setEntry e x).fcu = s.fcu :=
  with_ne_fcu s _
@[simp] theorem State.setEntry_cfl (s : State) (e : Entry) (x : NetEntry) : (s.setEntry e x).cfl = s.cfl :=
  with_ne_cfl s _
@[simp] theorem State.setEntry_tb (s : State) (e : Entry) (x : NetEntry) : (s.setEntry e x).tb = s.tb :=
  with_ne_tb s _
@[simp] theorem State.setEntry_memory (s : State) (e : Entry) (x : NetEntry) : (s.setEntry e x).memory = s.memory :=
  with_ne_memory s _
@[simp] theorem State.setEntry_free (s : State) (e : Entry) (x : NetEntry) : (s.setEntry e x).free = s.free :=
  with_ne_free s _
@[simp] theorem State.setEntry_pending (s : State) (e : Entry) (x : NetEntry) : (s.setEntry e x).pending = s.pending :=
  with_ne_pending s _

@[simp] theorem State.updLiu_squ (s : State) (f : Liu → Liu) : (s.updLiu f).squ = s.squ :=
  with_liu_squ s _
@[simp] theorem State.updLiu_ne (s : State) (f : Liu → Liu) : (s.updLiu f).ne = s.ne :=
  with_liu_ne s _
@[simp] theorem State.updLiu_rcu (s : State) (f : Liu → Liu) : (s.updLiu f).rcu = s.rcu :=
  with_liu_rcu s _
@[simp] theorem State.updLiu_ilu (s : State) (f : Liu → Liu) : (s.updLiu f).ilu = s.ilu :=
  with_liu_ilu s _
@[simp] theorem State.updLiu_wsu (s : State) (f : Liu → Liu) : (s.updLiu f).wsu = s.wsu :=
  with_liu_wsu s _
@[simp] theorem State.updLiu_rm (s : State) (f : Liu → Liu) : (s.updLiu f).rm = s.rm :=
  with_liu_rm s _
@[simp] theorem State.updLiu_snu (s : State) (f : Liu → Liu) : (s.updLiu f).snu = s.snu :=
  with_liu_snu s _
@[simp] theorem State.updLiu_wru (s : State) (f : Liu → Liu) : (s.updLiu f).wru = s.wru :=
  with_liu_wru s _
@[simp] theorem State.updLiu_fcu (s : State) (f : Liu → Liu) : (s.updLiu f).fcu = s.fcu :=
  with_liu_fcu s _
@[simp] theorem State.updLiu_cfl (s : State) (f : Liu → Liu) : (s.updLiu f).cfl = s.cfl :=
  with_liu_cfl s _
@[simp] theorem State.updLiu_tb (s : State) (f : Liu → Liu) : (s.updLiu f).tb = s.tb :=
  with_liu_tb s _
@[simp] theorem State.updLiu_memory (s : State) (f : Liu → Liu) : (s.updLiu f).memory = s.memory :=
  with_liu_memory s _
@[simp] theorem State.updLiu_free (s : State) (f : Liu → Liu) : (s.updLiu f).free = s.free :=
  with_liu_free s _
@[simp] theorem State.updLiu_pending (s : State) (f : Liu → Liu) : (s.updLiu f).pending = s.pending :=
  with_liu_pending s _

@[simp] theorem State.setView_liu (s : State) (r : Resource) (v : ViewEntry) : (s.setView r v).liu = s.liu :=
  with_rcu_liu s _
@[simp] theorem State.setView_squ (s : State) (r : Resource) (v : ViewEntry) : (s.setView r v).squ = s.squ :=
  with_rcu_squ s _
@[simp] theorem State.setView_ne (s : State) (r : Resource) (v : ViewEntry) : (s.setView r v).ne = s.ne :=
  with_rcu_ne s _
@[simp] theorem State.setView_ilu (s : State) (r : Resource) (v : ViewEntry) : (s.setView r v).ilu = s.ilu :=
  with_rcu_ilu s _
@[simp] theorem State.setView_wsu (s : State) (r : Resource) (v : ViewEntry) : (s.setView r v).wsu = s.wsu :=
  with_rcu_wsu s _
@[simp] theorem State.setView_rm (s : State) (r : Resource) (v : ViewEntry) : (s.setView r v).rm = s.rm :=
  with_rcu_rm s _
@[simp] theorem State.setView_snu (s : State) (r : Resource) (v : ViewEntry) : (s.setView r v).snu = s.snu :=
  with_rcu_snu s _
@[simp] theorem State.setView_wru (s : State) (r : Resource) (v : ViewEntry) : (s.setView r v).wru = s.wru :=
  with_rcu_wru s _
@[simp] theorem State.setView_fcu (s : State) (r : Resource) (v : ViewEntry) : (s.setView r v).fcu = s.fcu :=
  with_rcu_fcu s _
@[simp] theorem State.setView_cfl (s : State) (r : Resource) (v : ViewEntry) : (s.setView r v).cfl = s.cfl :=
  with_rcu_cfl s _
@[simp] theorem State.setView_tb (s : State) (r : Resource) (v : ViewEntry) : (s.setView r v).tb = s.tb :=
  with_rcu_tb s _
@[simp] theorem State.setView_memory (s : State) (r : Resource) (v : ViewEntry) : (s.setView r v).memory = s.memory :=
  with_rcu_memory s _
@[simp] theorem State.setView_free (s : State) (r : Resource) (v : ViewEntry) : (s.setView r v).free = s.free :=
  with_rcu_free s _
@[simp] theorem State.setView_pending (s : State) (r : Resource) (v : ViewEntry) : (s.setView r v).pending = s.pending :=
  with_rcu_pending s _

@[simp] theorem State.setQueue_liu (s : State) (i : Site) (q : SiteQueue) : (s.setQueue i q).liu = s.liu :=
  with_squ_liu s _
@[simp] theorem State.setQueue_ne (s : State) (i : Site) (q : SiteQueue) : (s.setQueue i q).ne = s.ne :=
  with_squ_ne s _
@[simp] theorem State.setQueue_rcu (s : State) (i : Site) (q : SiteQueue) : (s.setQueue i q).rcu = s.rcu :=
  with_squ_rcu s _
@[simp] theorem State.setQueue_ilu (s : State) (i : Site) (q : SiteQueue) : (s.setQueue i q).ilu = s.ilu :=
  with_squ_ilu s _
@[simp] theorem State.setQueue_wsu (s : State) (i : Site) (q : SiteQueue) : (s.setQueue i q).wsu = s.wsu :=
  with_squ_wsu s _
@[simp] theorem State.setQueue_rm (s : State) (i : Site) (q : SiteQueue) : (s.setQueue i q).rm = s.rm :=
  with_squ_rm s _
@[simp] theorem State.setQueue_snu (s : State) (i : Site) (q : SiteQueue) : (s.setQueue i q).snu = s.snu :=
  with_squ_snu s _
@[simp] theorem State.setQueue_wru (s : State) (i : Site) (q : SiteQueue) : (s.setQueue i q).wru = s.wru :=
  with_squ_wru s _
@[simp] theorem State.setQueue_fcu (s : State) (i : Site) (q : SiteQueue) : (s.setQueue i q).fcu = s.fcu :=
  with_squ_fcu s _
@[simp] theorem State.setQueue_cfl (s : State) (i : Site) (q : SiteQueue) : (s.setQueue i q).cfl = s.cfl :=
  with_squ_cfl s _
@[simp] theorem State.setQueue_tb (s : State) (i : Site) (q : SiteQueue) : (s.setQueue i q).tb = s.tb :=
  with_squ_tb s _
@[simp] theorem State.setQueue_memory (s : State) (i : Site) (q : SiteQueue) : (s.setQueue i q).memory = s.memory :=
  with_squ_memory s _
@[simp] theorem State.setQueue_free (s : State) (i : Site) (q : SiteQueue) : (s.setQueue i q).free = s.free :=
  with_squ_free s _
@[simp] theorem State.setQueue_pending (s : State) (i : Site) (q : SiteQueue) : (s.setQueue i q).pending = s.pending :=
  with_squ_pending s _

@[simp] theorem State.setStaging_liu (s : State) (i : Site) (g : Option Staging) : (s.setStaging i g).liu = s.liu :=
  with_squ_liu s _
@[simp] theorem State.setStaging_ne (s : State) (i : Site) (g : Option Staging) : (s.setStaging i g).ne = s.ne :=
  with_squ_ne s _
@[simp] theorem State.setStaging_rcu (s : State) (i : Site) (g : Option Staging) : (s.setStaging i g).rcu = s.rcu :=
  with_squ_rcu s _
@[simp] theorem State.setStaging_ilu (s : State) (i : Site) (g : Option Staging) : (s.setStaging i g).ilu = s.ilu :=
  with_squ_ilu s _
@[simp] theorem State.setStaging_wsu (s : State) (i : Site) (g : Option Staging) : (s.setStaging i g).wsu = s.wsu :=
  with_squ_wsu s _
@[simp] theorem State.setStaging_rm (s : State) (i : Site) (g : Option Staging) : (s.setStaging i g).rm = s.rm :=
  with_squ_rm s _
@[simp] theorem State.setStaging_snu (s : State) (i : Site) (g : Option Staging) : (s.setStaging i g).snu = s.snu :=
  with_squ_snu s _
@[simp] theorem State.setStaging_wru (s : State) (i : Site) (g : Option Staging) : (s.setStaging i g).wru = s.wru :=
  with_squ_wru s _
@[simp] theorem State.setStaging_fcu (s : State) (i : Site) (g : Option Staging) : (s.setStaging i g).fcu = s.fcu :=
  with_squ_fcu s _
@[simp] theorem State.setStaging_cfl (s : State) (i : Site) (g : Option Staging) : (s.setStaging i g).cfl = s.cfl :=
  with_squ_cfl s _
@[simp] theorem State.setStaging_tb (s : State) (i : Site) (g : Option Staging) : (s.setStaging i g).tb = s.tb :=
  with_squ_tb s _
@[simp] theorem State.setStaging_memory (s : State) (i : Site) (g : Option Staging) : (s.setStaging i g).memory = s.memory :=
  with_squ_memory s _
@[simp] theorem State.setStaging_free (s : State) (i : Site) (g : Option Staging) : (s.setStaging i g).free = s.free :=
  with_squ_free s _
@[simp] theorem State.setStaging_pending (s : State) (i : Site) (g : Option Staging) : (s.setStaging i g).pending = s.pending :=
  with_squ_pending s _

@[simp] theorem clearHold_liu (s : State) (e : Entry) : (clearHold e s).liu = s.liu :=
  with_ilu_liu s _
@[simp] theorem clearHold_squ (s : State) (e : Entry) : (clearHold e s).squ = s.squ :=
  with_ilu_squ s _
@[simp] theorem clearHold_ne (s : State) (e : Entry) : (clearHold e s).ne = s.ne :=
  with_ilu_ne s _
@[simp] theorem clearHold_rcu (s : State) (e : Entry) : (clearHold e s).rcu = s.rcu :=
  with_ilu_rcu s _
@[simp] theorem clearHold_wsu (s : State) (e : Entry) : (clearHold e s).wsu = s.wsu :=
  with_ilu_wsu s _
@[simp] theorem clearHold_rm (s : State) (e : Entry) : (clearHold e s).rm = s.rm :=
  with_ilu_rm s _
@[simp] theorem clearHold_snu (s : State) (e : Entry) : (clearHold e s).snu = s.snu :=
  with_ilu_snu s _
@[simp] theorem clearHold_wru (s : State) (e : Entry) : (clearHold e s).wru = s.wru :=
  with_ilu_wru s _
@[simp] theorem clearHold_fcu (s : State) (e : Entry) : (clearHold e s).fcu = s.fcu :=
  with_ilu_fcu s _
@[simp] theorem clearHold_cfl (s : State) (e : Entry) : (clearHold e s).cfl = s.cfl :=
  with_ilu_cfl s _
@[simp] theorem clearHold_tb (s : State) (e : Entry) : (clearHold e s).tb = s.tb :=
  with_ilu_tb s _
@[simp] theorem clearHold_memory (s : State) (e : Entry) : (clearHold e s).memory = s.memory :=
  with_ilu_memory s _
@[simp] theorem clearHold_free (s : State) (e : Entry) : (clearHold e s).free = s.free :=
  with_ilu_free s _
@[simp] theorem clearHold_pending (s : State) (e : Entry) : (clearHold e s).pending = s.pending :=
  with_ilu_pending s _

@[simp] theorem dropHolding_liu (s : State) (r : Resource) : (dropHolding r s).liu = s.liu :=
  with_rcu_liu s _
@[simp] theorem dropHolding_squ (s : State) (r : Resource) : (dropHolding r s).squ = s.squ :=
  with_rcu_squ s _
@[simp] theorem dropHolding_ne (s : State) (r : Resource) : (dropHolding r s).ne = s.ne :=
  with_rcu_ne s _
@[simp] theorem dropHolding_ilu (s : State) (r : Resource) : (dropHolding r s).ilu = s.ilu :=
  with_rcu_ilu s _
@[simp] theorem dropHolding_wsu (s : State) (r : Resource) : (dropHolding r s).wsu = s.wsu :=
  with_rcu_wsu s _
@[simp] theorem dropHolding_rm (s : State) (r : Resource) : (dropHolding r s).rm = s.rm :=
  with_rcu_rm s _
@[simp] theorem dropHolding_snu (s : State) (r : Resource) : (dropHolding r s).snu = s.snu :=
  with_rcu_snu s _
@[simp] theorem dropHolding_wru (s : State) (r : Resource) : (dropHolding r s).wru = s.wru :=
  with_rcu_wru s _
@[simp] theorem dropHolding_fcu (s : State) (r : Resource) : (dropHolding r s).fcu = s.fcu :=
  with_rcu_fcu s _
@[simp] theorem dropHolding_cfl (s : State) (r : Resource) : (dropHolding r s).cfl = s.cfl :=
  with_rcu_cfl s _
@[simp] theorem dropHolding_tb (s : State) (r : Resource) : (dropHolding r s).tb = s.tb :=
  with_rcu_tb s _
@[simp] theorem dropHolding_memory (s : State) (r : Resource) : (dropHolding r s).memory = s.memory :=
  with_rcu_memory s _
@[simp] theorem dropHolding_free (s : State) (r : Resource) : (dropHolding r s).free = s.free :=
  with_rcu_free s _
@[simp] theorem dropHolding_pending (s : State) (r : Resource) : (dropHolding r s).pending = s.pending :=
  with_rcu_pending s _

@[simp] theorem oweBeacon_liu (s : State) : (oweBeacon s).liu = s.liu :=
  with_rcu_liu s _
@[simp] theorem oweBeacon_squ (s : State) : (oweBeacon s).squ = s.squ :=
  with_rcu_squ s _
@[simp] theorem oweBeacon_ne (s : State) : (oweBeacon s).ne = s.ne :=
  with_rcu_ne s _
@[simp] theorem oweBeacon_ilu (s : State) : (oweBeacon s).ilu = s.ilu :=
  with_rcu_ilu s _
@[simp] theorem oweBeacon_wsu (s : State) : (oweBeacon s).wsu = s.wsu :=
  with_rcu_wsu s _
@[simp] theorem oweBeacon_rm (s : State) : (oweBeacon s).rm = s.rm :=
  with_rcu_rm s _
@[simp] theorem oweBeacon_snu (s : State) : (oweBeacon s).snu = s.snu :=
  with_rcu_snu s _
@[simp] theorem oweBeacon_wru (s : State) : (oweBeacon s).wru = s.wru :=
  with_rcu_wru s _
@[simp] theorem oweBeacon_fcu (s : State) : (oweBeacon s).fcu = s.fcu :=
  with_rcu_fcu s _
@[simp] theorem oweBeacon_cfl (s : State) : (oweBeacon s).cfl = s.cfl :=
  with_rcu_cfl s _
@[simp] theorem oweBeacon_tb (s : State) : (oweBeacon s).tb = s.tb :=
  with_rcu_tb s _
@[simp] theorem oweBeacon_memory (s : State) : (oweBeacon s).memory = s.memory :=
  with_rcu_memory s _
@[simp] theorem oweBeacon_free (s : State) : (oweBeacon s).free = s.free :=
  with_rcu_free s _
@[simp] theorem oweBeacon_pending (s : State) : (oweBeacon s).pending = s.pending :=
  with_rcu_pending s _

@[simp] theorem unclaim_liu (s : State) (e : Entry) : (unclaim e s).liu = s.liu :=
  with_rcu_liu s _
@[simp] theorem unclaim_squ (s : State) (e : Entry) : (unclaim e s).squ = s.squ :=
  with_rcu_squ s _
@[simp] theorem unclaim_ne (s : State) (e : Entry) : (unclaim e s).ne = s.ne :=
  with_rcu_ne s _
@[simp] theorem unclaim_ilu (s : State) (e : Entry) : (unclaim e s).ilu = s.ilu :=
  with_rcu_ilu s _
@[simp] theorem unclaim_wsu (s : State) (e : Entry) : (unclaim e s).wsu = s.wsu :=
  with_rcu_wsu s _
@[simp] theorem unclaim_rm (s : State) (e : Entry) : (unclaim e s).rm = s.rm :=
  with_rcu_rm s _
@[simp] theorem unclaim_snu (s : State) (e : Entry) : (unclaim e s).snu = s.snu :=
  with_rcu_snu s _
@[simp] theorem unclaim_wru (s : State) (e : Entry) : (unclaim e s).wru = s.wru :=
  with_rcu_wru s _
@[simp] theorem unclaim_fcu (s : State) (e : Entry) : (unclaim e s).fcu = s.fcu :=
  with_rcu_fcu s _
@[simp] theorem unclaim_cfl (s : State) (e : Entry) : (unclaim e s).cfl = s.cfl :=
  with_rcu_cfl s _
@[simp] theorem unclaim_tb (s : State) (e : Entry) : (unclaim e s).tb = s.tb :=
  with_rcu_tb s _
@[simp] theorem unclaim_memory (s : State) (e : Entry) : (unclaim e s).memory = s.memory :=
  with_rcu_memory s _
@[simp] theorem unclaim_free (s : State) (e : Entry) : (unclaim e s).free = s.free :=
  with_rcu_free s _
@[simp] theorem unclaim_pending (s : State) (e : Entry) : (unclaim e s).pending = s.pending :=
  with_rcu_pending s _

@[simp] theorem oweReleases_liu (s : State) (e : Entry) : (oweReleases e s).liu = s.liu :=
  with_rcu_liu s _
@[simp] theorem oweReleases_squ (s : State) (e : Entry) : (oweReleases e s).squ = s.squ :=
  with_rcu_squ s _
@[simp] theorem oweReleases_ne (s : State) (e : Entry) : (oweReleases e s).ne = s.ne :=
  with_rcu_ne s _
@[simp] theorem oweReleases_ilu (s : State) (e : Entry) : (oweReleases e s).ilu = s.ilu :=
  with_rcu_ilu s _
@[simp] theorem oweReleases_wsu (s : State) (e : Entry) : (oweReleases e s).wsu = s.wsu :=
  with_rcu_wsu s _
@[simp] theorem oweReleases_rm (s : State) (e : Entry) : (oweReleases e s).rm = s.rm :=
  with_rcu_rm s _
@[simp] theorem oweReleases_snu (s : State) (e : Entry) : (oweReleases e s).snu = s.snu :=
  with_rcu_snu s _
@[simp] theorem oweReleases_wru (s : State) (e : Entry) : (oweReleases e s).wru = s.wru :=
  with_rcu_wru s _
@[simp] theorem oweReleases_fcu (s : State) (e : Entry) : (oweReleases e s).fcu = s.fcu :=
  with_rcu_fcu s _
@[simp] theorem oweReleases_cfl (s : State) (e : Entry) : (oweReleases e s).cfl = s.cfl :=
  with_rcu_cfl s _
@[simp] theorem oweReleases_tb (s : State) (e : Entry) : (oweReleases e s).tb = s.tb :=
  with_rcu_tb s _
@[simp] theorem oweReleases_memory (s : State) (e : Entry) : (oweReleases e s).memory = s.memory :=
  with_rcu_memory s _
@[simp] theorem oweReleases_free (s : State) (e : Entry) : (oweReleases e s).free = s.free :=
  with_rcu_free s _
@[simp] theorem oweReleases_pending (s : State) (e : Entry) : (oweReleases e s).pending = s.pending :=
  with_rcu_pending s _

@[simp] theorem oweClaim_liu (s : State) (e : Entry) (r : Resource) : (oweClaim e r s).liu = s.liu :=
  with_rcu_liu s _
@[simp] theorem oweClaim_squ (s : State) (e : Entry) (r : Resource) : (oweClaim e r s).squ = s.squ :=
  with_rcu_squ s _
@[simp] theorem oweClaim_ne (s : State) (e : Entry) (r : Resource) : (oweClaim e r s).ne = s.ne :=
  with_rcu_ne s _
@[simp] theorem oweClaim_ilu (s : State) (e : Entry) (r : Resource) : (oweClaim e r s).ilu = s.ilu :=
  with_rcu_ilu s _
@[simp] theorem oweClaim_wsu (s : State) (e : Entry) (r : Resource) : (oweClaim e r s).wsu = s.wsu :=
  with_rcu_wsu s _
@[simp] theorem oweClaim_rm (s : State) (e : Entry) (r : Resource) : (oweClaim e r s).rm = s.rm :=
  with_rcu_rm s _
@[simp] theorem oweClaim_snu (s : State) (e : Entry) (r : Resource) : (oweClaim e r s).snu = s.snu :=
  with_rcu_snu s _
@[simp] theorem oweClaim_wru (s : State) (e : Entry) (r : Resource) : (oweClaim e r s).wru = s.wru :=
  with_rcu_wru s _
@[simp] theorem oweClaim_fcu (s : State) (e : Entry) (r : Resource) : (oweClaim e r s).fcu = s.fcu :=
  with_rcu_fcu s _
@[simp] theorem oweClaim_cfl (s : State) (e : Entry) (r : Resource) : (oweClaim e r s).cfl = s.cfl :=
  with_rcu_cfl s _
@[simp] theorem oweClaim_tb (s : State) (e : Entry) (r : Resource) : (oweClaim e r s).tb = s.tb :=
  with_rcu_tb s _
@[simp] theorem oweClaim_memory (s : State) (e : Entry) (r : Resource) : (oweClaim e r s).memory = s.memory :=
  with_rcu_memory s _
@[simp] theorem oweClaim_free (s : State) (e : Entry) (r : Resource) : (oweClaim e r s).free = s.free :=
  with_rcu_free s _
@[simp] theorem oweClaim_pending (s : State) (e : Entry) (r : Resource) : (oweClaim e r s).pending = s.pending :=
  with_rcu_pending s _

@[simp] theorem countRefusal_liu (s : State) (i : Site) : (countRefusal i s).liu = s.liu :=
  with_squ_liu s _
@[simp] theorem countRefusal_ne (s : State) (i : Site) : (countRefusal i s).ne = s.ne :=
  with_squ_ne s _
@[simp] theorem countRefusal_rcu (s : State) (i : Site) : (countRefusal i s).rcu = s.rcu :=
  with_squ_rcu s _
@[simp] theorem countRefusal_ilu (s : State) (i : Site) : (countRefusal i s).ilu = s.ilu :=
  with_squ_ilu s _
@[simp] theorem countRefusal_wsu (s : State) (i : Site) : (countRefusal i s).wsu = s.wsu :=
  with_squ_wsu s _
@[simp] theorem countRefusal_rm (s : State) (i : Site) : (countRefusal i s).rm = s.rm :=
  with_squ_rm s _
@[simp] theorem countRefusal_snu (s : State) (i : Site) : (countRefusal i s).snu = s.snu :=
  with_squ_snu s _
@[simp] theorem countRefusal_wru (s : State) (i : Site) : (countRefusal i s).wru = s.wru :=
  with_squ_wru s _
@[simp] theorem countRefusal_fcu (s : State) (i : Site) : (countRefusal i s).fcu = s.fcu :=
  with_squ_fcu s _
@[simp] theorem countRefusal_cfl (s : State) (i : Site) : (countRefusal i s).cfl = s.cfl :=
  with_squ_cfl s _
@[simp] theorem countRefusal_tb (s : State) (i : Site) : (countRefusal i s).tb = s.tb :=
  with_squ_tb s _
@[simp] theorem countRefusal_memory (s : State) (i : Site) : (countRefusal i s).memory = s.memory :=
  with_squ_memory s _
@[simp] theorem countRefusal_free (s : State) (i : Site) : (countRefusal i s).free = s.free :=
  with_squ_free s _
@[simp] theorem countRefusal_pending (s : State) (i : Site) : (countRefusal i s).pending = s.pending :=
  with_squ_pending s _

@[simp] theorem countFault_liu (s : State) (i : Site) : (countFault i s).liu = s.liu :=
  with_squ_liu s _
@[simp] theorem countFault_ne (s : State) (i : Site) : (countFault i s).ne = s.ne :=
  with_squ_ne s _
@[simp] theorem countFault_rcu (s : State) (i : Site) : (countFault i s).rcu = s.rcu :=
  with_squ_rcu s _
@[simp] theorem countFault_ilu (s : State) (i : Site) : (countFault i s).ilu = s.ilu :=
  with_squ_ilu s _
@[simp] theorem countFault_wsu (s : State) (i : Site) : (countFault i s).wsu = s.wsu :=
  with_squ_wsu s _
@[simp] theorem countFault_rm (s : State) (i : Site) : (countFault i s).rm = s.rm :=
  with_squ_rm s _
@[simp] theorem countFault_snu (s : State) (i : Site) : (countFault i s).snu = s.snu :=
  with_squ_snu s _
@[simp] theorem countFault_wru (s : State) (i : Site) : (countFault i s).wru = s.wru :=
  with_squ_wru s _
@[simp] theorem countFault_fcu (s : State) (i : Site) : (countFault i s).fcu = s.fcu :=
  with_squ_fcu s _
@[simp] theorem countFault_cfl (s : State) (i : Site) : (countFault i s).cfl = s.cfl :=
  with_squ_cfl s _
@[simp] theorem countFault_tb (s : State) (i : Site) : (countFault i s).tb = s.tb :=
  with_squ_tb s _
@[simp] theorem countFault_memory (s : State) (i : Site) : (countFault i s).memory = s.memory :=
  with_squ_memory s _
@[simp] theorem countFault_free (s : State) (i : Site) : (countFault i s).free = s.free :=
  with_squ_free s _
@[simp] theorem countFault_pending (s : State) (i : Site) : (countFault i s).pending = s.pending :=
  with_squ_pending s _

@[simp] theorem noteServed_liu (s : State) (c : Fin 4) (i : Site) : (noteServed c i s).liu = s.liu :=
  with_squ_liu s _
@[simp] theorem noteServed_ne (s : State) (c : Fin 4) (i : Site) : (noteServed c i s).ne = s.ne :=
  with_squ_ne s _
@[simp] theorem noteServed_rcu (s : State) (c : Fin 4) (i : Site) : (noteServed c i s).rcu = s.rcu :=
  with_squ_rcu s _
@[simp] theorem noteServed_ilu (s : State) (c : Fin 4) (i : Site) : (noteServed c i s).ilu = s.ilu :=
  with_squ_ilu s _
@[simp] theorem noteServed_wsu (s : State) (c : Fin 4) (i : Site) : (noteServed c i s).wsu = s.wsu :=
  with_squ_wsu s _
@[simp] theorem noteServed_rm (s : State) (c : Fin 4) (i : Site) : (noteServed c i s).rm = s.rm :=
  with_squ_rm s _
@[simp] theorem noteServed_snu (s : State) (c : Fin 4) (i : Site) : (noteServed c i s).snu = s.snu :=
  with_squ_snu s _
@[simp] theorem noteServed_wru (s : State) (c : Fin 4) (i : Site) : (noteServed c i s).wru = s.wru :=
  with_squ_wru s _
@[simp] theorem noteServed_fcu (s : State) (c : Fin 4) (i : Site) : (noteServed c i s).fcu = s.fcu :=
  with_squ_fcu s _
@[simp] theorem noteServed_cfl (s : State) (c : Fin 4) (i : Site) : (noteServed c i s).cfl = s.cfl :=
  with_squ_cfl s _
@[simp] theorem noteServed_tb (s : State) (c : Fin 4) (i : Site) : (noteServed c i s).tb = s.tb :=
  with_squ_tb s _
@[simp] theorem noteServed_memory (s : State) (c : Fin 4) (i : Site) : (noteServed c i s).memory = s.memory :=
  with_squ_memory s _
@[simp] theorem noteServed_free (s : State) (c : Fin 4) (i : Site) : (noteServed c i s).free = s.free :=
  with_squ_free s _
@[simp] theorem noteServed_pending (s : State) (c : Fin 4) (i : Site) : (noteServed c i s).pending = s.pending :=
  with_squ_pending s _

@[simp] theorem newRound_liu (s : State) : (newRound s).liu = s.liu :=
  with_squ_liu s _
@[simp] theorem newRound_ne (s : State) : (newRound s).ne = s.ne :=
  with_squ_ne s _
@[simp] theorem newRound_rcu (s : State) : (newRound s).rcu = s.rcu :=
  with_squ_rcu s _
@[simp] theorem newRound_ilu (s : State) : (newRound s).ilu = s.ilu :=
  with_squ_ilu s _
@[simp] theorem newRound_wsu (s : State) : (newRound s).wsu = s.wsu :=
  with_squ_wsu s _
@[simp] theorem newRound_rm (s : State) : (newRound s).rm = s.rm :=
  with_squ_rm s _
@[simp] theorem newRound_snu (s : State) : (newRound s).snu = s.snu :=
  with_squ_snu s _
@[simp] theorem newRound_wru (s : State) : (newRound s).wru = s.wru :=
  with_squ_wru s _
@[simp] theorem newRound_fcu (s : State) : (newRound s).fcu = s.fcu :=
  with_squ_fcu s _
@[simp] theorem newRound_cfl (s : State) : (newRound s).cfl = s.cfl :=
  with_squ_cfl s _
@[simp] theorem newRound_tb (s : State) : (newRound s).tb = s.tb :=
  with_squ_tb s _
@[simp] theorem newRound_memory (s : State) : (newRound s).memory = s.memory :=
  with_squ_memory s _
@[simp] theorem newRound_free (s : State) : (newRound s).free = s.free :=
  with_squ_free s _
@[simp] theorem newRound_pending (s : State) : (newRound s).pending = s.pending :=
  with_squ_pending s _

@[simp] theorem emptySite_liu (s : State) (i : Site) : (emptySite i s).liu = s.liu :=
  with_squ_liu s _
@[simp] theorem emptySite_ne (s : State) (i : Site) : (emptySite i s).ne = s.ne :=
  with_squ_ne s _
@[simp] theorem emptySite_rcu (s : State) (i : Site) : (emptySite i s).rcu = s.rcu :=
  with_squ_rcu s _
@[simp] theorem emptySite_ilu (s : State) (i : Site) : (emptySite i s).ilu = s.ilu :=
  with_squ_ilu s _
@[simp] theorem emptySite_wsu (s : State) (i : Site) : (emptySite i s).wsu = s.wsu :=
  with_squ_wsu s _
@[simp] theorem emptySite_rm (s : State) (i : Site) : (emptySite i s).rm = s.rm :=
  with_squ_rm s _
@[simp] theorem emptySite_snu (s : State) (i : Site) : (emptySite i s).snu = s.snu :=
  with_squ_snu s _
@[simp] theorem emptySite_wru (s : State) (i : Site) : (emptySite i s).wru = s.wru :=
  with_squ_wru s _
@[simp] theorem emptySite_fcu (s : State) (i : Site) : (emptySite i s).fcu = s.fcu :=
  with_squ_fcu s _
@[simp] theorem emptySite_cfl (s : State) (i : Site) : (emptySite i s).cfl = s.cfl :=
  with_squ_cfl s _
@[simp] theorem emptySite_tb (s : State) (i : Site) : (emptySite i s).tb = s.tb :=
  with_squ_tb s _
@[simp] theorem emptySite_memory (s : State) (i : Site) : (emptySite i s).memory = s.memory :=
  with_squ_memory s _
@[simp] theorem emptySite_free (s : State) (i : Site) : (emptySite i s).free = s.free :=
  with_squ_free s _
@[simp] theorem emptySite_pending (s : State) (i : Site) : (emptySite i s).pending = s.pending :=
  with_squ_pending s _

@[simp] theorem dropVerification_liu (s : State) (e : Entry) : (dropVerification e s).liu = s.liu :=
  with_snu_liu s _
@[simp] theorem dropVerification_squ (s : State) (e : Entry) : (dropVerification e s).squ = s.squ :=
  with_snu_squ s _
@[simp] theorem dropVerification_ne (s : State) (e : Entry) : (dropVerification e s).ne = s.ne :=
  with_snu_ne s _
@[simp] theorem dropVerification_rcu (s : State) (e : Entry) : (dropVerification e s).rcu = s.rcu :=
  with_snu_rcu s _
@[simp] theorem dropVerification_ilu (s : State) (e : Entry) : (dropVerification e s).ilu = s.ilu :=
  with_snu_ilu s _
@[simp] theorem dropVerification_wsu (s : State) (e : Entry) : (dropVerification e s).wsu = s.wsu :=
  with_snu_wsu s _
@[simp] theorem dropVerification_rm (s : State) (e : Entry) : (dropVerification e s).rm = s.rm :=
  with_snu_rm s _
@[simp] theorem dropVerification_wru (s : State) (e : Entry) : (dropVerification e s).wru = s.wru :=
  with_snu_wru s _
@[simp] theorem dropVerification_fcu (s : State) (e : Entry) : (dropVerification e s).fcu = s.fcu :=
  with_snu_fcu s _
@[simp] theorem dropVerification_cfl (s : State) (e : Entry) : (dropVerification e s).cfl = s.cfl :=
  with_snu_cfl s _
@[simp] theorem dropVerification_tb (s : State) (e : Entry) : (dropVerification e s).tb = s.tb :=
  with_snu_tb s _
@[simp] theorem dropVerification_memory (s : State) (e : Entry) : (dropVerification e s).memory = s.memory :=
  with_snu_memory s _
@[simp] theorem dropVerification_free (s : State) (e : Entry) : (dropVerification e s).free = s.free :=
  with_snu_free s _
@[simp] theorem dropVerification_pending (s : State) (e : Entry) : (dropVerification e s).pending = s.pending :=
  with_snu_pending s _

@[simp] theorem popFrame_squ (s : State) : (popFrame s).squ = s.squ :=
  with_liu_squ s _
@[simp] theorem popFrame_ne (s : State) : (popFrame s).ne = s.ne :=
  with_liu_ne s _
@[simp] theorem popFrame_rcu (s : State) : (popFrame s).rcu = s.rcu :=
  with_liu_rcu s _
@[simp] theorem popFrame_ilu (s : State) : (popFrame s).ilu = s.ilu :=
  with_liu_ilu s _
@[simp] theorem popFrame_wsu (s : State) : (popFrame s).wsu = s.wsu :=
  with_liu_wsu s _
@[simp] theorem popFrame_rm (s : State) : (popFrame s).rm = s.rm :=
  with_liu_rm s _
@[simp] theorem popFrame_snu (s : State) : (popFrame s).snu = s.snu :=
  with_liu_snu s _
@[simp] theorem popFrame_wru (s : State) : (popFrame s).wru = s.wru :=
  with_liu_wru s _
@[simp] theorem popFrame_fcu (s : State) : (popFrame s).fcu = s.fcu :=
  with_liu_fcu s _
@[simp] theorem popFrame_cfl (s : State) : (popFrame s).cfl = s.cfl :=
  with_liu_cfl s _
@[simp] theorem popFrame_tb (s : State) : (popFrame s).tb = s.tb :=
  with_liu_tb s _
@[simp] theorem popFrame_memory (s : State) : (popFrame s).memory = s.memory :=
  with_liu_memory s _
@[simp] theorem popFrame_free (s : State) : (popFrame s).free = s.free :=
  with_liu_free s _
@[simp] theorem popFrame_pending (s : State) : (popFrame s).pending = s.pending :=
  with_liu_pending s _

@[simp] theorem leaveLine_squ (s : State) (idle : Time) : (leaveLine idle s).squ = s.squ :=
  with_liu_squ s _
@[simp] theorem leaveLine_ne (s : State) (idle : Time) : (leaveLine idle s).ne = s.ne :=
  with_liu_ne s _
@[simp] theorem leaveLine_rcu (s : State) (idle : Time) : (leaveLine idle s).rcu = s.rcu :=
  with_liu_rcu s _
@[simp] theorem leaveLine_ilu (s : State) (idle : Time) : (leaveLine idle s).ilu = s.ilu :=
  with_liu_ilu s _
@[simp] theorem leaveLine_wsu (s : State) (idle : Time) : (leaveLine idle s).wsu = s.wsu :=
  with_liu_wsu s _
@[simp] theorem leaveLine_rm (s : State) (idle : Time) : (leaveLine idle s).rm = s.rm :=
  with_liu_rm s _
@[simp] theorem leaveLine_snu (s : State) (idle : Time) : (leaveLine idle s).snu = s.snu :=
  with_liu_snu s _
@[simp] theorem leaveLine_wru (s : State) (idle : Time) : (leaveLine idle s).wru = s.wru :=
  with_liu_wru s _
@[simp] theorem leaveLine_fcu (s : State) (idle : Time) : (leaveLine idle s).fcu = s.fcu :=
  with_liu_fcu s _
@[simp] theorem leaveLine_cfl (s : State) (idle : Time) : (leaveLine idle s).cfl = s.cfl :=
  with_liu_cfl s _
@[simp] theorem leaveLine_tb (s : State) (idle : Time) : (leaveLine idle s).tb = s.tb :=
  with_liu_tb s _
@[simp] theorem leaveLine_memory (s : State) (idle : Time) : (leaveLine idle s).memory = s.memory :=
  with_liu_memory s _
@[simp] theorem leaveLine_free (s : State) (idle : Time) : (leaveLine idle s).free = s.free :=
  with_liu_free s _
@[simp] theorem leaveLine_pending (s : State) (idle : Time) : (leaveLine idle s).pending = s.pending :=
  with_liu_pending s _

@[simp] theorem discardRest_squ (s : State) : (discardRest s).squ = s.squ :=
  with_liu_squ s _
@[simp] theorem discardRest_ne (s : State) : (discardRest s).ne = s.ne :=
  with_liu_ne s _
@[simp] theorem discardRest_rcu (s : State) : (discardRest s).rcu = s.rcu :=
  with_liu_rcu s _
@[simp] theorem discardRest_ilu (s : State) : (discardRest s).ilu = s.ilu :=
  with_liu_ilu s _
@[simp] theorem discardRest_wsu (s : State) : (discardRest s).wsu = s.wsu :=
  with_liu_wsu s _
@[simp] theorem discardRest_rm (s : State) : (discardRest s).rm = s.rm :=
  with_liu_rm s _
@[simp] theorem discardRest_snu (s : State) : (discardRest s).snu = s.snu :=
  with_liu_snu s _
@[simp] theorem discardRest_wru (s : State) : (discardRest s).wru = s.wru :=
  with_liu_wru s _
@[simp] theorem discardRest_fcu (s : State) : (discardRest s).fcu = s.fcu :=
  with_liu_fcu s _
@[simp] theorem discardRest_cfl (s : State) : (discardRest s).cfl = s.cfl :=
  with_liu_cfl s _
@[simp] theorem discardRest_tb (s : State) : (discardRest s).tb = s.tb :=
  with_liu_tb s _
@[simp] theorem discardRest_memory (s : State) : (discardRest s).memory = s.memory :=
  with_liu_memory s _
@[simp] theorem discardRest_free (s : State) : (discardRest s).free = s.free :=
  with_liu_free s _
@[simp] theorem discardRest_pending (s : State) : (discardRest s).pending = s.pending :=
  with_liu_pending s _

@[simp] theorem enterReset_liu (s : State) : (enterReset s).liu = s.liu :=
  with_cfl_liu s _
@[simp] theorem enterReset_squ (s : State) : (enterReset s).squ = s.squ :=
  with_cfl_squ s _
@[simp] theorem enterReset_ne (s : State) : (enterReset s).ne = s.ne :=
  with_cfl_ne s _
@[simp] theorem enterReset_rcu (s : State) : (enterReset s).rcu = s.rcu :=
  with_cfl_rcu s _
@[simp] theorem enterReset_ilu (s : State) : (enterReset s).ilu = s.ilu :=
  with_cfl_ilu s _
@[simp] theorem enterReset_wsu (s : State) : (enterReset s).wsu = s.wsu :=
  with_cfl_wsu s _
@[simp] theorem enterReset_rm (s : State) : (enterReset s).rm = s.rm :=
  with_cfl_rm s _
@[simp] theorem enterReset_snu (s : State) : (enterReset s).snu = s.snu :=
  with_cfl_snu s _
@[simp] theorem enterReset_wru (s : State) : (enterReset s).wru = s.wru :=
  with_cfl_wru s _
@[simp] theorem enterReset_fcu (s : State) : (enterReset s).fcu = s.fcu :=
  with_cfl_fcu s _
@[simp] theorem enterReset_tb (s : State) : (enterReset s).tb = s.tb :=
  with_cfl_tb s _
@[simp] theorem enterReset_memory (s : State) : (enterReset s).memory = s.memory :=
  with_cfl_memory s _
@[simp] theorem enterReset_free (s : State) : (enterReset s).free = s.free :=
  with_cfl_free s _
@[simp] theorem enterReset_pending (s : State) : (enterReset s).pending = s.pending :=
  with_cfl_pending s _

@[simp] theorem admitJobs_liu (s : State) (js : List Job) : (admitJobs js s).liu = s.liu :=
  with_snu_liu s _
@[simp] theorem admitJobs_squ (s : State) (js : List Job) : (admitJobs js s).squ = s.squ :=
  with_snu_squ s _
@[simp] theorem admitJobs_ne (s : State) (js : List Job) : (admitJobs js s).ne = s.ne :=
  with_snu_ne s _
@[simp] theorem admitJobs_rcu (s : State) (js : List Job) : (admitJobs js s).rcu = s.rcu :=
  with_snu_rcu s _
@[simp] theorem admitJobs_ilu (s : State) (js : List Job) : (admitJobs js s).ilu = s.ilu :=
  with_snu_ilu s _
@[simp] theorem admitJobs_wsu (s : State) (js : List Job) : (admitJobs js s).wsu = s.wsu :=
  with_snu_wsu s _
@[simp] theorem admitJobs_rm (s : State) (js : List Job) : (admitJobs js s).rm = s.rm :=
  with_snu_rm s _
@[simp] theorem admitJobs_wru (s : State) (js : List Job) : (admitJobs js s).wru = s.wru :=
  with_snu_wru s _
@[simp] theorem admitJobs_fcu (s : State) (js : List Job) : (admitJobs js s).fcu = s.fcu :=
  with_snu_fcu s _
@[simp] theorem admitJobs_cfl (s : State) (js : List Job) : (admitJobs js s).cfl = s.cfl :=
  with_snu_cfl s _
@[simp] theorem admitJobs_tb (s : State) (js : List Job) : (admitJobs js s).tb = s.tb :=
  with_snu_tb s _
@[simp] theorem admitJobs_memory (s : State) (js : List Job) : (admitJobs js s).memory = s.memory :=
  with_snu_memory s _
@[simp] theorem admitJobs_free (s : State) (js : List Job) : (admitJobs js s).free = s.free :=
  with_snu_free s _
@[simp] theorem admitJobs_pending (s : State) (js : List Job) : (admitJobs js s).pending = s.pending :=
  with_snu_pending s _

@[simp] theorem ageRoster_squ (s : State) : (ageRoster s).squ = s.squ :=
  with_liu_squ s _
@[simp] theorem ageRoster_ne (s : State) : (ageRoster s).ne = s.ne :=
  with_liu_ne s _
@[simp] theorem ageRoster_rcu (s : State) : (ageRoster s).rcu = s.rcu :=
  with_liu_rcu s _
@[simp] theorem ageRoster_ilu (s : State) : (ageRoster s).ilu = s.ilu :=
  with_liu_ilu s _
@[simp] theorem ageRoster_wsu (s : State) : (ageRoster s).wsu = s.wsu :=
  with_liu_wsu s _
@[simp] theorem ageRoster_rm (s : State) : (ageRoster s).rm = s.rm :=
  with_liu_rm s _
@[simp] theorem ageRoster_snu (s : State) : (ageRoster s).snu = s.snu :=
  with_liu_snu s _
@[simp] theorem ageRoster_wru (s : State) : (ageRoster s).wru = s.wru :=
  with_liu_wru s _
@[simp] theorem ageRoster_fcu (s : State) : (ageRoster s).fcu = s.fcu :=
  with_liu_fcu s _
@[simp] theorem ageRoster_cfl (s : State) : (ageRoster s).cfl = s.cfl :=
  with_liu_cfl s _
@[simp] theorem ageRoster_tb (s : State) : (ageRoster s).tb = s.tb :=
  with_liu_tb s _
@[simp] theorem ageRoster_memory (s : State) : (ageRoster s).memory = s.memory :=
  with_liu_memory s _
@[simp] theorem ageRoster_free (s : State) : (ageRoster s).free = s.free :=
  with_liu_free s _
@[simp] theorem ageRoster_pending (s : State) : (ageRoster s).pending = s.pending :=
  with_liu_pending s _

@[simp] theorem hear_squ (s : State) (n : Node) (m : Msg) : (hear n m s).squ = s.squ :=
  with_liu_squ s _
@[simp] theorem hear_ne (s : State) (n : Node) (m : Msg) : (hear n m s).ne = s.ne :=
  with_liu_ne s _
@[simp] theorem hear_rcu (s : State) (n : Node) (m : Msg) : (hear n m s).rcu = s.rcu :=
  with_liu_rcu s _
@[simp] theorem hear_ilu (s : State) (n : Node) (m : Msg) : (hear n m s).ilu = s.ilu :=
  with_liu_ilu s _
@[simp] theorem hear_wsu (s : State) (n : Node) (m : Msg) : (hear n m s).wsu = s.wsu :=
  with_liu_wsu s _
@[simp] theorem hear_rm (s : State) (n : Node) (m : Msg) : (hear n m s).rm = s.rm :=
  with_liu_rm s _
@[simp] theorem hear_snu (s : State) (n : Node) (m : Msg) : (hear n m s).snu = s.snu :=
  with_liu_snu s _
@[simp] theorem hear_wru (s : State) (n : Node) (m : Msg) : (hear n m s).wru = s.wru :=
  with_liu_wru s _
@[simp] theorem hear_fcu (s : State) (n : Node) (m : Msg) : (hear n m s).fcu = s.fcu :=
  with_liu_fcu s _
@[simp] theorem hear_cfl (s : State) (n : Node) (m : Msg) : (hear n m s).cfl = s.cfl :=
  with_liu_cfl s _
@[simp] theorem hear_tb (s : State) (n : Node) (m : Msg) : (hear n m s).tb = s.tb :=
  with_liu_tb s _
@[simp] theorem hear_memory (s : State) (n : Node) (m : Msg) : (hear n m s).memory = s.memory :=
  with_liu_memory s _
@[simp] theorem hear_free (s : State) (n : Node) (m : Msg) : (hear n m s).free = s.free :=
  with_liu_free s _
@[simp] theorem hear_pending (s : State) (n : Node) (m : Msg) : (hear n m s).pending = s.pending :=
  with_liu_pending s _

@[simp] theorem ageView_liu (s : State) : (ageView s).liu = s.liu :=
  with_rcu_liu s _
@[simp] theorem ageView_squ (s : State) : (ageView s).squ = s.squ :=
  with_rcu_squ s _
@[simp] theorem ageView_ne (s : State) : (ageView s).ne = s.ne :=
  with_rcu_ne s _
@[simp] theorem ageView_ilu (s : State) : (ageView s).ilu = s.ilu :=
  with_rcu_ilu s _
@[simp] theorem ageView_wsu (s : State) : (ageView s).wsu = s.wsu :=
  with_rcu_wsu s _
@[simp] theorem ageView_rm (s : State) : (ageView s).rm = s.rm :=
  with_rcu_rm s _
@[simp] theorem ageView_snu (s : State) : (ageView s).snu = s.snu :=
  with_rcu_snu s _
@[simp] theorem ageView_wru (s : State) : (ageView s).wru = s.wru :=
  with_rcu_wru s _
@[simp] theorem ageView_fcu (s : State) : (ageView s).fcu = s.fcu :=
  with_rcu_fcu s _
@[simp] theorem ageView_cfl (s : State) : (ageView s).cfl = s.cfl :=
  with_rcu_cfl s _
@[simp] theorem ageView_tb (s : State) : (ageView s).tb = s.tb :=
  with_rcu_tb s _
@[simp] theorem ageView_memory (s : State) : (ageView s).memory = s.memory :=
  with_rcu_memory s _
@[simp] theorem ageView_free (s : State) : (ageView s).free = s.free :=
  with_rcu_free s _
@[simp] theorem ageView_pending (s : State) : (ageView s).pending = s.pending :=
  with_rcu_pending s _

@[simp] theorem readFault_liu (s : State) : (readFault s).liu = s.liu :=
  with_fcu_liu s _
@[simp] theorem readFault_squ (s : State) : (readFault s).squ = s.squ :=
  with_fcu_squ s _
@[simp] theorem readFault_ne (s : State) : (readFault s).ne = s.ne :=
  with_fcu_ne s _
@[simp] theorem readFault_rcu (s : State) : (readFault s).rcu = s.rcu :=
  with_fcu_rcu s _
@[simp] theorem readFault_ilu (s : State) : (readFault s).ilu = s.ilu :=
  with_fcu_ilu s _
@[simp] theorem readFault_wsu (s : State) : (readFault s).wsu = s.wsu :=
  with_fcu_wsu s _
@[simp] theorem readFault_rm (s : State) : (readFault s).rm = s.rm :=
  with_fcu_rm s _
@[simp] theorem readFault_snu (s : State) : (readFault s).snu = s.snu :=
  with_fcu_snu s _
@[simp] theorem readFault_wru (s : State) : (readFault s).wru = s.wru :=
  with_fcu_wru s _
@[simp] theorem readFault_cfl (s : State) : (readFault s).cfl = s.cfl :=
  with_fcu_cfl s _
@[simp] theorem readFault_tb (s : State) : (readFault s).tb = s.tb :=
  with_fcu_tb s _
@[simp] theorem readFault_memory (s : State) : (readFault s).memory = s.memory :=
  with_fcu_memory s _
@[simp] theorem readFault_free (s : State) : (readFault s).free = s.free :=
  with_fcu_free s _
@[simp] theorem readFault_pending (s : State) : (readFault s).pending = s.pending :=
  with_fcu_pending s _

@[simp] theorem clearFault_liu (s : State) : (clearFault s).liu = s.liu :=
  with_fcu_liu s _
@[simp] theorem clearFault_squ (s : State) : (clearFault s).squ = s.squ :=
  with_fcu_squ s _
@[simp] theorem clearFault_ne (s : State) : (clearFault s).ne = s.ne :=
  with_fcu_ne s _
@[simp] theorem clearFault_rcu (s : State) : (clearFault s).rcu = s.rcu :=
  with_fcu_rcu s _
@[simp] theorem clearFault_ilu (s : State) : (clearFault s).ilu = s.ilu :=
  with_fcu_ilu s _
@[simp] theorem clearFault_wsu (s : State) : (clearFault s).wsu = s.wsu :=
  with_fcu_wsu s _
@[simp] theorem clearFault_rm (s : State) : (clearFault s).rm = s.rm :=
  with_fcu_rm s _
@[simp] theorem clearFault_snu (s : State) : (clearFault s).snu = s.snu :=
  with_fcu_snu s _
@[simp] theorem clearFault_wru (s : State) : (clearFault s).wru = s.wru :=
  with_fcu_wru s _
@[simp] theorem clearFault_cfl (s : State) : (clearFault s).cfl = s.cfl :=
  with_fcu_cfl s _
@[simp] theorem clearFault_tb (s : State) : (clearFault s).tb = s.tb :=
  with_fcu_tb s _
@[simp] theorem clearFault_memory (s : State) : (clearFault s).memory = s.memory :=
  with_fcu_memory s _
@[simp] theorem clearFault_free (s : State) : (clearFault s).free = s.free :=
  with_fcu_free s _
@[simp] theorem clearFault_pending (s : State) : (clearFault s).pending = s.pending :=
  with_fcu_pending s _

@[simp] theorem takeBlock_liu (s : State) (b : Block) (c : Relay → Nat) (f g : Relay → Bool) : (takeBlock b c f g s).liu = s.liu :=
  with_wru_rm_liu s _ _
@[simp] theorem takeBlock_squ (s : State) (b : Block) (c : Relay → Nat) (f g : Relay → Bool) : (takeBlock b c f g s).squ = s.squ :=
  with_wru_rm_squ s _ _
@[simp] theorem takeBlock_ne (s : State) (b : Block) (c : Relay → Nat) (f g : Relay → Bool) : (takeBlock b c f g s).ne = s.ne :=
  with_wru_rm_ne s _ _
@[simp] theorem takeBlock_rcu (s : State) (b : Block) (c : Relay → Nat) (f g : Relay → Bool) : (takeBlock b c f g s).rcu = s.rcu :=
  with_wru_rm_rcu s _ _
@[simp] theorem takeBlock_ilu (s : State) (b : Block) (c : Relay → Nat) (f g : Relay → Bool) : (takeBlock b c f g s).ilu = s.ilu :=
  with_wru_rm_ilu s _ _
@[simp] theorem takeBlock_wsu (s : State) (b : Block) (c : Relay → Nat) (f g : Relay → Bool) : (takeBlock b c f g s).wsu = s.wsu :=
  with_wru_rm_wsu s _ _
@[simp] theorem takeBlock_snu (s : State) (b : Block) (c : Relay → Nat) (f g : Relay → Bool) : (takeBlock b c f g s).snu = s.snu :=
  with_wru_rm_snu s _ _
@[simp] theorem takeBlock_fcu (s : State) (b : Block) (c : Relay → Nat) (f g : Relay → Bool) : (takeBlock b c f g s).fcu = s.fcu :=
  with_wru_rm_fcu s _ _
@[simp] theorem takeBlock_cfl (s : State) (b : Block) (c : Relay → Nat) (f g : Relay → Bool) : (takeBlock b c f g s).cfl = s.cfl :=
  with_wru_rm_cfl s _ _
@[simp] theorem takeBlock_tb (s : State) (b : Block) (c : Relay → Nat) (f g : Relay → Bool) : (takeBlock b c f g s).tb = s.tb :=
  with_wru_rm_tb s _ _
@[simp] theorem takeBlock_memory (s : State) (b : Block) (c : Relay → Nat) (f g : Relay → Bool) : (takeBlock b c f g s).memory = s.memory :=
  with_wru_rm_memory s _ _
@[simp] theorem takeBlock_free (s : State) (b : Block) (c : Relay → Nat) (f g : Relay → Bool) : (takeBlock b c f g s).free = s.free :=
  with_wru_rm_free s _ _
@[simp] theorem takeBlock_pending (s : State) (b : Block) (c : Relay → Nat) (f g : Relay → Bool) : (takeBlock b c f g s).pending = s.pending :=
  with_wru_rm_pending s _ _

@[simp] theorem State.setEntry_entry_same (s : State) (e : Entry) (x : NetEntry) : (s.setEntry e x).entry e = x := by
  simp [State.setEntry, State.entry]

theorem State.setEntry_entry_ne (s : State) {e i : Entry} (x : NetEntry) (h : e ≠ i) :
    (s.setEntry e x).entry i = s.entry i := by simp [State.setEntry, State.entry, h]

@[simp] theorem State.setRelay_relay_same (s : State) (r : Relay) (x : RelayRec) : (s.setRelay r x).relay r = x := by
  simp [State.setRelay, State.relay]

theorem State.setRelay_relay_ne (s : State) {r q : Relay} (x : RelayRec) (h : r ≠ q) :
    (s.setRelay r x).relay q = s.relay q := by simp [State.setRelay, State.relay, h]

@[simp] theorem State.setView_viewOf_same (s : State) (r : Resource) (v : ViewEntry) : (s.setView r v).viewOf r = v := by
  simp [State.setView, State.viewOf]

theorem State.setView_viewOf_ne (s : State) {r q : Resource} (v : ViewEntry) (h : r ≠ q) :
    (s.setView r v).viewOf q = s.viewOf q := by simp [State.setView, State.viewOf, h]

@[simp] theorem State.setQueue_queueOf_same (s : State) (i : Site) (q : SiteQueue) : (s.setQueue i q).queueOf i = q := by
  simp [State.setQueue, State.queueOf]

theorem State.setQueue_queueOf_ne (s : State) {i j : Site} (q : SiteQueue) (h : i ≠ j) :
    (s.setQueue i q).queueOf j = s.queueOf j := by simp [State.setQueue, State.queueOf, h]

@[simp] theorem Work.start_st (s : State) : (Work.start s).st = s := rfl
@[simp] theorem Work.start_joining (s : State) : (Work.start s).joining = [] := rfl
@[simp] theorem Work.start_pass (s : State) : (Work.start s).pass = false := rfl
@[simp] theorem Work.start_serve (s : State) : (Work.start s).serve = false := rfl
@[simp] theorem Work.upd_st (f : State → State) (w : Work) : (w.upd f).st = f w.st := rfl
@[simp] theorem Work.upd_joining (f : State → State) (w : Work) : (w.upd f).joining = w.joining := rfl
@[simp] theorem Work.upd_pass (f : State → State) (w : Work) : (w.upd f).pass = w.pass := rfl
@[simp] theorem Work.upd_serve (f : State → State) (w : Work) : (w.upd f).serve = w.serve := rfl
@[simp] theorem Work.modEnt_st (e : Entry) (f : NetEntry → NetEntry) (w : Work) :
    (w.modEnt e f).st = w.st.setEntry e (f (w.st.entry e)) := rfl
@[simp] theorem Work.modEnt_joining (e : Entry) (f : NetEntry → NetEntry) (w : Work) :
    (w.modEnt e f).joining = w.joining := rfl
@[simp] theorem Work.modEnt_pass (e : Entry) (f : NetEntry → NetEntry) (w : Work) : (w.modEnt e f).pass = w.pass := rfl
@[simp] theorem Work.modEnt_serve (e : Entry) (f : NetEntry → NetEntry) (w : Work) : (w.modEnt e f).serve = w.serve := rfl
@[simp] theorem Work.setState_joining (e : Entry) (q : EntryState) (w : Work) : (w.setState e q).joining = w.joining := rfl
@[simp] theorem Work.setState_pass (e : Entry) (q : EntryState) (w : Work) : (w.setState e q).pass = true := rfl
@[simp] theorem Work.setState_serve (e : Entry) (q : EntryState) (w : Work) : (w.setState e q).serve = w.serve := rfl

@[simp] theorem advance_liu (dt : Nat) (s : State) : (advance dt s).liu = s.liu := by unfold advance; split <;> rfl
@[simp] theorem advance_squ (dt : Nat) (s : State) : (advance dt s).squ = s.squ := by unfold advance; split <;> rfl
@[simp] theorem advance_ne (dt : Nat) (s : State) : (advance dt s).ne = s.ne := by unfold advance; split <;> rfl
@[simp] theorem advance_rcu (dt : Nat) (s : State) : (advance dt s).rcu = s.rcu := by unfold advance; split <;> rfl
@[simp] theorem advance_ilu (dt : Nat) (s : State) : (advance dt s).ilu = s.ilu := by unfold advance; split <;> rfl
@[simp] theorem advance_rm (dt : Nat) (s : State) : (advance dt s).rm = s.rm := by unfold advance; split <;> rfl
@[simp] theorem advance_snu (dt : Nat) (s : State) : (advance dt s).snu = s.snu := by unfold advance; split <;> rfl
@[simp] theorem advance_wru (dt : Nat) (s : State) : (advance dt s).wru = s.wru := by unfold advance; split <;> rfl
@[simp] theorem advance_cfl (dt : Nat) (s : State) : (advance dt s).cfl = s.cfl := by unfold advance; split <;> rfl
@[simp] theorem advance_memory (dt : Nat) (s : State) : (advance dt s).memory = s.memory := by unfold advance; split <;> rfl
@[simp] theorem advance_free (dt : Nat) (s : State) : (advance dt s).free = s.free := by unfold advance; split <;> rfl
@[simp] theorem advance_pending (dt : Nat) (s : State) : (advance dt s).pending = s.pending := by unfold advance; split <;> rfl

@[simp] theorem advance_zero (s : State) : advance 0 s = s := rfl

/-- The Timebase count runs on by the time that passes. -/
@[simp] theorem advance_now (dt : Nat) (s : State) : (advance dt s).now = later s.now dt := by
  unfold advance State.now later
  split
  · next h => subst h; simp
  · rfl

@[simp] theorem advance_credit (dt : Nat) (s : State) : (advance dt s).wsu.credit = s.wsu.credit := by
  unfold advance; split <;> rfl
@[simp] theorem advance_queue (dt : Nat) (s : State) : (advance dt s).wsu.queue = s.wsu.queue := by
  unfold advance; split <;> rfl
@[simp] theorem advance_held (dt : Nat) (s : State) : (advance dt s).wsu.held = s.wsu.held := by
  unfold advance; split <;> rfl
@[simp] theorem advance_settling (dt : Nat) (s : State) : (advance dt s).wsu.settling = s.wsu.settling := by
  unfold advance; split <;> rfl
@[simp] theorem advance_recovery (dt : Nat) (s : State) : (advance dt s).wsu.recovery = s.wsu.recovery := by
  unfold advance; split <;> rfl
@[simp] theorem advance_creditStop (dt : Nat) (s : State) : (advance dt s).wsu.creditStop = s.wsu.creditStop := by
  unfold advance; split <;> rfl
theorem with_fcu_millis_record (f : Fcu) (m : BitVec 32) : ({ f with millis := m } : Fcu).record = f.record := rfl
theorem with_fcu_millis_notes (f : Fcu) (m : BitVec 32) : ({ f with millis := m } : Fcu).notes = f.notes := rfl
theorem with_fcu_millis_answer (f : Fcu) (m : BitVec 32) : ({ f with millis := m } : Fcu).answer = f.answer := rfl
theorem with_fcu_millis_held (f : Fcu) (m : BitVec 32) : ({ f with millis := m } : Fcu).held = f.held := rfl
@[simp] theorem advance_record (dt : Nat) (s : State) : (advance dt s).fcu.record = s.fcu.record := by
  unfold advance
  split
  · rfl
  · exact with_fcu_millis_record s.fcu _
@[simp] theorem advance_notes (dt : Nat) (s : State) : (advance dt s).fcu.notes = s.fcu.notes := by
  unfold advance
  split
  · rfl
  · exact with_fcu_millis_notes s.fcu _
@[simp] theorem advance_answer (dt : Nat) (s : State) : (advance dt s).fcu.answer = s.fcu.answer := by
  unfold advance
  split
  · rfl
  · exact with_fcu_millis_answer s.fcu _
@[simp] theorem advance_captures (dt : Nat) (s : State) : (advance dt s).fcu.held = s.fcu.held := by
  unfold advance
  split
  · rfl
  · exact with_fcu_millis_held s.fcu _
@[simp] theorem advance_nextBeacon (dt : Nat) (s : State) : (advance dt s).tb.nextBeacon = s.tb.nextBeacon := by
  unfold advance; split <;> rfl

@[simp] theorem advance_entry (dt : Nat) (s : State) (e : Entry) : (advance dt s).entry e = s.entry e := by
  simp [State.entry]
@[simp] theorem advance_relay (dt : Nat) (s : State) (r : Relay) : (advance dt s).relay r = s.relay r := by
  simp [State.relay]
@[simp] theorem advance_viewOf (dt : Nat) (s : State) (r : Resource) : (advance dt s).viewOf r = s.viewOf r := by
  simp [State.viewOf]
@[simp] theorem advance_queueOf (dt : Nat) (s : State) (i : Site) : (advance dt s).queueOf i = s.queueOf i := by
  simp [State.queueOf]
@[simp] theorem advance_running (dt : Nat) (s : State) : (advance dt s).running = s.running := by simp [State.running]
@[simp] theorem advance_live (dt : Nat) (s : State) (t : Trunk) : (advance dt s).live t = s.live t := by simp [State.live]

end Sys2Proof.Machine
end

