-- ==== Sys2Proof/Laws/Core.lean ====
section
/-! SUPPORT. The Net Engine, the Sense Unit, the flags and the choice pass leave the core of the state alone (`State.core`: the
base, the credit meter and the wear counts): one lemma per operation. -/

namespace Sys2Proof.Machine

/-! ### The parts outside the core -/

theorem with_ne_core (s : State) (x : Ne) : ({ s with ne := x } : State).core = s.core := rfl
theorem with_ilu_core (s : State) (x : Ilu) : ({ s with ilu := x } : State).core = s.core := rfl
theorem with_snu_core (s : State) (x : Snu) : ({ s with snu := x } : State).core = s.core := rfl
theorem with_rm_core (s : State) (x : Rm) : ({ s with rm := x } : State).core = s.core := rfl
theorem with_squ_core (s : State) (a b : Table 8 Nat) (c : Table 8 (Option ReadyMark)) (d : Table 8 Bool) :
    ({ s with squ := { s.squ with refusals := a, faults := b, ready := c, abortWait := d } } : State).core = s.core := rfl
theorem with_rcu_core (s : State) (a : Table 64 (Option Resource)) (b : Table 17 Bool) :
    ({ s with rcu := { s.rcu with claims := a, releases := b } } : State).core = s.core := rfl
theorem with_own_core {s : State} {o o' : OwnFrame} (h : s.liu.own = some o)
    (k : ({ o' with renewed := false, withdrawn := false } : OwnFrame) = { o with renewed := false, withdrawn := false }) :
    ({ s with liu := { s.liu with own := some o' } } : State).core = s.core := by
  have e : (some o').map (fun o : OwnFrame => ({ o with renewed := false, withdrawn := false } : OwnFrame))
      = s.liu.own.map (fun o => { o with renewed := false, withdrawn := false }) := by rw [h]; exact congrArg some k
  simp only [State.core, State.base, e]
theorem with_wsu_core (s : State) (a b c : List Wave) (d : Option Time) (e : List (Relay × Entry)) (f : List ChainPattern) :
    ({ s with wsu := { s.wsu with queue := a, held := b, settling := c, creditStop := d, recovery := e, chain := f } } :
      State).core = s.core := rfl
theorem with_dirty_core (s : State) (d : Table 40 Bool) :
    ({ s with wru := { s.wru with dirty := d } } : State).core = s.core := rfl
theorem with_fcu_core (s : State) (a : Option FaultRecord) (c : List Capture) :
    ({ s with fcu := { s.fcu with record := a, held := c } } : State).core = s.core := rfl

theorem ite_core {c : Prop} [Decidable c] {a b : Work} {x : State × Option Nat × Table 640 Nat} (ha : a.st.core = x)
    (hb : b.st.core = x) : (if c then a else b).st.core = x := by
  split
  · exact ha
  · exact hb

/-! ### Ops -/

@[simp] theorem State.setRelay_core (s : State) (r : Relay) (x : RelayRec) : (s.setRelay r x).core = s.core := with_rm_core s _
@[simp] theorem State.dirtyBlock_core (s : State) (b : Block) : (s.dirtyBlock b).core = s.core := with_dirty_core s _
@[simp] theorem State.dropOpenOwners_core (s : State) (e : Entry) : (s.dropOpenOwners e).core = s.core := with_rm_core s _
@[simp] theorem State.setEntry_core (s : State) (e : Entry) (x : NetEntry) : (s.setEntry e x).core = s.core := with_ne_core s _
@[simp] theorem clearHold_core (s : State) (e : Entry) : (clearHold e s).core = s.core := with_ilu_core s _

@[simp] theorem State.dropListed_core (rs : List Relay) (s : State) : (s.dropListed rs).core = s.core := by
  unfold State.dropListed
  induction rs generalizing s with
  | nil => rfl
  | cons r rs ih =>
    rw [List.foldl_cons, ih]
    split <;> simp

@[simp] theorem Work.setState_core (e : Entry) (q : EntryState) (w : Work) : (w.setState e q).st.core = w.st.core :=
  State.setEntry_core _ _ _

/-! ### Flags -/

theorem judgeCapture_eq (severe : Bool) (c : Capture) (f : Fcu) :
    judgeCapture severe c f = { f with record := (judgeCapture severe c f).record } := by
  unfold judgeCapture
  split
  · split <;> rfl
  · rfl

@[simp] theorem capture_core (c : Capture) (s : State) : (capture c s).core = s.core := by
  unfold capture
  split
  · rw [judgeCapture_eq]; exact with_fcu_core s _ _
  · exact with_fcu_core s _ _

@[simp] theorem State.renew_core (m : Owed) (s : State) : (s.renew m).core = s.core := by
  unfold State.renew
  split
  · split
    · exact with_own_core (by assumption) (by rfl)
    · rfl
  · rfl

/-- WEAR_LIMIT is the one note that the consequences of an event make pending (R159). -/
@[simp] theorem pendNote_core (d : BitVec 16) (s : State) : (pendNote noteWearLimit d s).core = s.core := by
  unfold pendNote
  rw [State.renew_core]
  have e : ∀ (x : Option (BitVec 16)), put (put s.fcu.notes noteWearLimit x) noteWearLimit none
      = put s.fcu.notes noteWearLimit none := by
    intro x; apply table_ext; intro i; simp only [look_put]; split <;> rfl
  simp only [State.core, State.base, e]

@[simp] theorem captureEntry_core (c : Cause) (x : NetEntry) (r : Option ResCode) (q : Option Relay) (s : State) :
    (captureEntry c x r q s).core = s.core := capture_core _ _

@[simp] theorem countRefusal_core (i : Site) (s : State) : (countRefusal i s).core = s.core := with_squ_core s _ _ _ _
@[simp] theorem countFault_core (i : Site) (s : State) : (countFault i s).core = s.core := with_squ_core s _ _ _ _

@[simp] theorem countReport_core (r : Report) (s : State) : (countReport r s).core = s.core := by
  unfold countReport
  split <;> simp

@[simp] theorem owe_core (e : Entry) (r : Report) (s : State) : (owe e r s).core = s.core := by
  simp only [owe, State.renew_core, countReport_core]
  exact with_ne_core s _

@[simp] theorem oweSite_core (r : Report) (s : State) : (oweSite r s).core = s.core := by
  simp only [oweSite, State.renew_core, countReport_core]
  exact with_ne_core s _

@[simp] theorem oweEntry_core (e : Entry) (o : StatusOutcome) (r : Reason) (s : State) :
    (oweEntry e o r s).core = s.core := owe_core _ _ _

@[simp] theorem oweRefused_core (e : Entry) (r : Reason) (s : State) : (oweRefused e r s).core = s.core := by
  unfold oweRefused
  split <;> simp

@[simp] theorem oweOpened_core (e : Entry) (s : State) : (oweOpened e s).core = s.core := owe_core _ _ _
@[simp] theorem oweMonitor_core (e : Entry) (o : StatusOutcome) (r : Reason) (s : State) :
    (oweMonitor e o r s).core = s.core := owe_core _ _ _

@[simp] theorem oweCancel_core (e : Entry) (s : State) : (oweCancel e s).core = s.core := by
  simp only [oweCancel, State.renew_core]
  exact with_ne_core s _

@[simp] theorem oweReady_core (i : Site) (t h : Nat) (s : State) : (oweReady i t h s).core = s.core := by
  simp only [oweReady, State.renew_core]
  exact with_squ_core s _ _ _ _

@[simp] theorem abortReady_core (i : Site) (s : State) : (abortReady i s).core = s.core := by
  unfold abortReady
  split
  · rw [oweReady_core]; exact with_squ_core s _ _ _ _
  · rfl

/-! ### Sense -/

@[simp] theorem admitJobs_core (js : List Job) (s : State) : (admitJobs js s).core = s.core := with_snu_core s _
@[simp] theorem openVerification_core (e : Entry) (s : State) : (openVerification e s).core = s.core := with_snu_core s _
@[simp] theorem waitAdmission_core (e : Entry) (rs : List Relay) (s : State) : (waitAdmission e rs s).core = s.core :=
  with_snu_core s _
@[simp] theorem dropJobs_core (e : Entry) (v : Verification) (s : State) : (dropJobs e v s).core = s.core := with_snu_core s _

@[simp] theorem admitWaiting_core (s : State) : (admitWaiting s).core = s.core := by
  unfold admitWaiting
  exact (admitJobs_core _ _).trans (with_snu_core s _)

@[simp] theorem startSense_core (s : State) : (startSense s).core = s.core := by
  unfold startSense
  split
  · exact (with_wsu_core _ _ _ _ _ _ _).trans (with_snu_core s _)
  · rfl

@[simp] theorem handOver_core (e : Entry) (rs : List Relay) (s : State) : (handOver e rs s).core = s.core := by
  unfold handOver
  split <;> simp

@[simp] theorem markRelay_core (r : Relay) (f : RelayRec → RelayRec) (s : State) : (markRelay r f s).core = s.core := by
  unfold markRelay
  split <;> simp

@[simp] theorem jobMark_core (r : Relay) (h : JobEnd) (s : State) : (jobMark r h s).core = s.core := by
  unfold jobMark
  split <;> simp

@[simp] theorem endJob_core (e : Entry) (r : Relay) (h : JobEnd) (s : State) : (endJob e r h s).core = s.core := by
  unfold endJob
  split
  · rfl
  · exact with_snu_core s _

@[simp] theorem finishSense_core (h : Bool) (j : Job) (s : State) : (finishSense h j s).core = s.core := by
  unfold finishSense
  simp only [startSense_core]
  split
  · exact with_snu_core s _
  · simp only [admitWaiting_core, endJob_core, jobMark_core]; exact with_snu_core s _

@[simp] theorem dropVerification_core (e : Entry) (s : State) : (dropVerification e s).core = s.core := with_snu_core s _

@[simp] theorem leaveSensing_core (e : Entry) (s : State) : (leaveSensing e s).core = s.core := by
  unfold leaveSensing
  split
  · exact with_snu_core s _
  · rfl

@[simp] theorem discardVerification_core (e : Entry) (s : State) : (discardVerification e s).core = s.core := by
  unfold discardVerification
  split
  · rfl
  · split
    · rfl
    · split <;> simp

@[simp] theorem sampleEnded_core (h : Bool) (j : Job) (s : State) : (sampleEnded h j s).core = s.core := by
  simp only [sampleEnded, jobMark_core]
  exact with_snu_core s _

@[simp] theorem finishSteps_core (s : State) : (finishSteps s).core = s.core := by
  simp only [finishSteps, startSense_core]
  exact with_snu_core s _

/-! ### Waves -/

@[simp] theorem ownRelays_core (e : Entry) (rs : List Relay) (s : State) : (ownRelays e rs s).core = s.core := by
  unfold ownRelays
  induction rs generalizing s with
  | nil => rfl
  | cons r rs ih => rw [List.foldl_cons, ih]; simp

@[simp] theorem buildWave_core (e : Entry) (ph : Phase) (w : Work) : (buildWave e ph w).st.core = w.st.core := by
  unfold buildWave
  dsimp only
  split <;> split <;> simp

@[simp] theorem monitorOpened_core (r : Relay) (o : Option Entry) (s : State) : (monitorOpened r o s).core = s.core := by
  unfold monitorOpened
  dsimp only
  split
  · split <;> simp
  · rfl

@[simp] theorem settleRelay_core (r : Relay) (w : Work) : (settleRelay r w).st.core = w.st.core := by
  unfold settleRelay
  dsimp only
  split
  · split <;> simp
  · rfl

@[simp] theorem settleRelays_core (rs : List Relay) (w : Work) : (settleRelays rs w).st.core = w.st.core := by
  unfold settleRelays
  induction rs generalizing w with
  | nil => rfl
  | cons r rs ih => rw [List.foldl_cons, ih]; simp

@[simp] theorem cutWave_core (e : Entry) (v : Wave) (w : Work) : (cutWave e v w).st.core = w.st.core := by
  unfold cutWave
  dsimp only
  split
  · simp
  · simp
  · split
    · simp
    · exact (with_wsu_core _ _ _ _ _ _ _).trans (by simp)

@[simp] theorem discardHeld_core (e : Entry) (w : Work) : (discardHeld e w).st.core = w.st.core := by
  unfold discardHeld
  dsimp only
  split
  · rfl
  · rw [cutWave_core]; exact with_wsu_core _ _ _ _ _ _ _

/-! ### Net Engine -/

@[simp] theorem unclaim_core (e : Entry) (s : State) : (unclaim e s).core = s.core := with_rcu_core s _ _

@[simp] theorem State.withdrawOwn_core (e : Entry) (s : State) : (s.withdrawOwn e).core = s.core := by
  unfold State.withdrawOwn
  dsimp only
  split
  · split
    · split
      · exact with_own_core (by assumption) (by rfl)
      · rfl
    · rfl
  · rfl

@[simp] theorem endClaim_core (e : Entry) (s : State) : (endClaim e s).core = s.core := by simp [endClaim]

@[simp] theorem withdrawClaim_core (e : Entry) (w : Work) : (withdrawClaim e w).st.core = w.st.core := by
  unfold withdrawClaim
  dsimp only
  apply ite_core <;> simp

@[simp] theorem endMonitorClaim_core (e : Entry) (w : Work) : (endMonitorClaim e w).st.core = w.st.core := by
  unfold endMonitorClaim
  dsimp only
  split <;> simp

@[simp] theorem oweReleases_core (e : Entry) (s : State) : (oweReleases e s).core = s.core := with_rcu_core s _ _

@[simp] theorem oweReleaseMon_core (e : Entry) (s : State) : (oweReleaseMon e s).core = s.core := by
  unfold oweReleaseMon
  dsimp only
  split
  · exact with_rcu_core s _ _
  · rfl

@[simp] theorem freeEntry_core (e : Entry) (w : Work) : (freeEntry e w).st.core = w.st.core := by
  simp only [freeEntry, abortReady_core]
  exact (with_ne_core _ _).trans (by simp)

@[simp] theorem closingReport_core (e : Entry) (w : Work) : (closingReport e w).st.core = w.st.core := by
  unfold closingReport
  dsimp only
  split <;> simp

@[simp] theorem tryFree_core (e : Entry) (w : Work) : (tryFree e w).st.core = w.st.core := by
  unfold tryFree
  dsimp only
  split <;> simp

@[simp] theorem handshake_core (e : Entry) (w : Work) : (handshake e w).st.core = w.st.core := by
  unfold handshake
  dsimp only
  split <;> simp

@[simp] theorem awaitOpened_core (e : Entry) (w : Work) : (awaitOpened e w).st.core = w.st.core := by simp [awaitOpened]

@[simp] theorem endCourse_core (e : Entry) (w : Work) : (endCourse e w).st.core = w.st.core := by
  unfold endCourse
  dsimp only
  split
  · split <;> simp
  · split
    · simp
    · split <;> simp

@[simp] theorem endFaulted_core (e : Entry) (k : ReleasePending) (w : Work) : (endFaulted e k w).st.core = w.st.core := by
  unfold endFaulted
  dsimp only
  apply ite_core <;> simp

@[simp] theorem takeFaulted_core (e : Entry) (w : Work) : (takeFaulted e w).st.core = w.st.core := by
  unfold takeFaulted
  dsimp only
  split
  · rfl
  · split <;> simp

@[simp] theorem faultedOpen_core (e : Entry) (w : Work) : (faultedOpen e w).st.core = w.st.core := by
  unfold faultedOpen
  simp only [takeFaulted_core]
  split <;> simp

@[simp] theorem disconnectInner_core (e : Entry) (w : Work) : (disconnectInner e w).st.core = w.st.core := by
  unfold disconnectInner
  dsimp only
  split
  · simp
  · split <;> simp

@[simp] theorem outerDone_core (e : Entry) (w : Work) : (outerDone e w).st.core = w.st.core := by
  unfold outerDone
  dsimp only
  split
  · split <;> simp
  · simp
  · rfl

@[simp] theorem proceedOuter_core (e : Entry) (w : Work) : (proceedOuter e w).st.core = w.st.core := by
  unfold proceedOuter
  dsimp only
  split
  · rfl
  · split <;> simp

@[simp] theorem disconnectOuter_core (e : Entry) (w : Work) : (disconnectOuter e w).st.core = w.st.core := by
  simp [disconnectOuter]

@[simp] theorem takeRelease_core (e : Entry) (w : Work) : (takeRelease e w).st.core = w.st.core := by simp [takeRelease]

@[simp] theorem setReleasePending_core (e : Entry) (k : ReleasePending) (w : Work) :
    (setReleasePending e k w).st.core = w.st.core := by
  unfold setReleasePending
  dsimp only
  split
  · split <;> simp
  · split <;> simp
  · split <;> simp
  · split <;> simp
  · simp
  · simp
  · simp

@[simp] theorem fault_core (e : Entry) (r : Reason) (q : Option Relay) (c : Option Capture) (w : Work) :
    (fault e r q c w).st.core = w.st.core := by
  unfold fault
  dsimp only
  split
  · cases c <;> simp
  · rfl

@[simp] theorem connected_core (e : Entry) (w : Work) : (connected e w).st.core = w.st.core := by
  unfold connected
  dsimp only
  split <;> simp

@[simp] theorem connectOuter_core (e : Entry) (w : Work) : (connectOuter e w).st.core = w.st.core := by
  unfold connectOuter
  dsimp only
  split <;> simp

@[simp] theorem innerConnected_core (e : Entry) (b : List Relay) (w : Work) :
    (innerConnected e b w).st.core = w.st.core := by
  unfold innerConnected
  split <;> simp

@[simp] theorem connectInner_core (e : Entry) (w : Work) : (connectInner e w).st.core = w.st.core := by
  unfold connectInner
  dsimp only
  split <;> simp

@[simp] theorem verificationEnded_core (e : Entry) (w : Work) : (verificationEnded e w).st.core = w.st.core := by
  unfold verificationEnded
  dsimp only
  split
  · split
    · simp
    · split <;> simp
  · simp
  · simp

@[simp] theorem monitorClosed_core (e : Entry) (w : Work) : (monitorClosed e w).st.core = w.st.core := by
  unfold monitorClosed
  dsimp only
  split
  · simp
  · split
    · simp
    · split <;> simp

@[simp] theorem monitorOpenedWave_core (e : Entry) (r : Reason) (w : Work) :
    (monitorOpenedWave e r w).st.core = w.st.core := by
  unfold monitorOpenedWave
  dsimp only
  split
  · simp
  · split <;> simp

@[simp] theorem waveSettled_core (e : Entry) (ph : Phase) (b : List Relay) (w : Work) :
    (waveSettled e ph b w).st.core = w.st.core := by
  unfold waveSettled
  dsimp only
  split <;> (repeat' split) <;> simp

@[simp] theorem monitorRecovered_core (e : Entry) (w : Work) : (monitorRecovered e w).st.core = w.st.core := by
  simp [monitorRecovered]

@[simp] theorem partSettled_core (e : Entry) (w : Work) : (partSettled e w).st.core = w.st.core := by
  unfold partSettled
  dsimp only
  split
  · split <;> simp
  · split
    · rfl
    · split
      · simp
      · split <;> simp
  · simp only [proceedOuter_core]
    split <;> simp
  · rfl

@[simp] theorem abandon_core (e : Entry) (r : Reason) (w : Work) : (abandon e r w).st.core = w.st.core := by
  unfold abandon
  dsimp only
  split <;> (repeat' split) <;> simp

@[simp] theorem connectHoldExpired_core (e : Entry) (w : Work) : (connectHoldExpired e w).st.core = w.st.core := by
  unfold connectHoldExpired
  split <;> simp

@[simp] theorem disconnectHoldExpired_core (e : Entry) (t : Trunk) (w : Work) :
    (disconnectHoldExpired e t w).st.core = w.st.core := by
  unfold disconnectHoldExpired
  dsimp only
  split
  · rfl
  · simp only [Work.modEnt_st, State.setEntry_core, captureEntry_core]
    exact (with_wsu_core _ _ _ _ _ _ _).trans (by simp)

@[simp] theorem holdExpired_core (e : Entry) (w : Work) : (holdExpired e w).st.core = w.st.core := by
  unfold holdExpired
  split
  · rfl
  · split <;> simp

@[simp] theorem holdWave_core (e : Entry) (v : Wave) (t : Trunk) (w : Work) : (holdWave e v t w).st.core = w.st.core := by
  unfold holdWave
  dsimp only
  apply ite_core
  · rw [holdExpired_core]
    exact (with_wsu_core _ _ _ _ _ _ _).trans (with_ilu_core _ _)
  · exact (with_wsu_core _ _ _ _ _ _ _).trans (with_ilu_core _ _)

@[simp] theorem waveMetLive_core (e : Entry) (v : Wave) (t : Trunk) (w : Work) :
    (waveMetLive e v t w).st.core = w.st.core := by
  unfold waveMetLive
  dsimp only
  split
  · split <;> simp
  · simp

/-! ### What reaches an entry from outside -/

@[simp] theorem participantClaim_core (e : Entry) (t : Trunk) (w : Work) :
    (participantClaim e t w).st.core = w.st.core := by
  unfold participantClaim
  dsimp only
  split
  · simp
  · split <;> simp

@[simp] theorem dispatchAnchor_core (e : Entry) (w : Work) : (dispatchAnchor e w).st.core = w.st.core := by
  unfold dispatchAnchor
  dsimp only
  split <;> (repeat' split) <;> simp

@[simp] theorem dispatchParticipant_core (e : Entry) (w : Work) : (dispatchParticipant e w).st.core = w.st.core := by
  unfold dispatchParticipant
  dsimp only
  split <;> simp

@[simp] theorem dispatchRoute_core (i : Site) (r : RouteRecord) (w : Work) : (dispatchRoute i r w).st.core = w.st.core := by
  unfold dispatchRoute
  dsimp only
  split
  · simp
  · split
    · simp
    · split
      · rfl
      · split
        · rw [dispatchAnchor_core]; exact (with_ne_core _ _).trans (by simp)
        · rw [dispatchParticipant_core]; exact (with_ne_core _ _).trans (by simp)

@[simp] theorem leaveAwaitResource_core (e : Entry) (w : Work) : (leaveAwaitResource e w).st.core = w.st.core := by
  unfold leaveAwaitResource
  dsimp only
  split
  · simp
  · split <;> simp

@[simp] theorem unrouteEntry_core (e : Entry) (w : Work) : (unrouteEntry e w).st.core = w.st.core := by
  unfold unrouteEntry
  dsimp only
  split <;> (repeat' split) <;> simp

@[simp] theorem cancelEntry_core (e : Entry) (w : Work) : (cancelEntry e w).st.core = w.st.core := by
  unfold cancelEntry
  dsimp only
  split <;> (repeat' split) <;> simp

@[simp] theorem monitorOn_core (e : Entry) (w : Work) : (monitorOn e w).st.core = w.st.core := by
  unfold monitorOn
  dsimp only
  split
  · simp
  · split
    · simp
    · split <;> simp

@[simp] theorem monitorOff_core (e : Entry) (w : Work) : (monitorOff e w).st.core = w.st.core := by
  unfold monitorOff
  dsimp only
  split <;> (repeat' split) <;> simp

@[simp] theorem dispatchMonitor_core (i : Site) (n : NetId) (on : Bool) (w : Work) :
    (dispatchMonitor i n on w).st.core = w.st.core := by
  unfold dispatchMonitor
  split <;> (repeat' split) <;> simp

@[simp] theorem abortStatus_core (e : Entry) (s : State) : (abortStatus e s).core = s.core := by
  have h : ∀ n : Ne, ({ s with ne := n } : State).core = s.core := with_ne_core s
  unfold abortStatus
  dsimp only
  split
  · exact (State.renew_core _ _).trans (h _)
  · exact h _

@[simp] theorem abortMarks_core (e : Entry) (s : State) : (abortMarks e s).core = s.core :=
  (with_ilu_core _ _).trans ((with_wsu_core _ _ _ _ _ _ _).trans (abortStatus_core e s))

@[simp] theorem abortEntry_core (e : Entry) (w : Work) : (abortEntry e w).st.core = w.st.core := by
  unfold abortEntry
  dsimp only
  split <;> (repeat' split) <;> simp

/-- A fold of operations that each leave the core alone leaves it alone. -/
theorem foldl_core {α : Type} (f : Work → α → Work) (h : ∀ w a, (f w a).st.core = w.st.core) (as : List α) (w : Work) :
    (as.foldl f w).st.core = w.st.core := by
  induction as generalizing w with
  | nil => rfl
  | cons a as ih => rw [List.foldl_cons, ih, h]

@[simp] theorem abortSite_core (i : Site) (w : Work) : (abortSite i w).st.core = w.st.core := by
  unfold abortSite
  apply foldl_core
  intro w e
  split <;> simp

@[simp] theorem statusHeard_core (n : Node) (i : Site) (m : NetId) (o : StatusOutcome) (w : Work) :
    (statusHeard n i m o w).st.core = w.st.core := by
  unfold statusHeard
  split
  · rfl
  · split <;> simp

@[simp] theorem dropYielded_core (e : Entry) (r : Resource) (w : Work) : (dropYielded e r w).st.core = w.st.core := by
  unfold dropYielded
  dsimp only
  split <;> simp

@[simp] theorem holdingDropped_core (e : Entry) (r : Resource) (q : Reason) (w : Work) :
    (holdingDropped e r q w).st.core = w.st.core := by
  unfold holdingDropped
  dsimp only
  split <;> simp

@[simp] theorem watch_core (r : Resource) (w : Work) : (watch r w).st.core = w.st.core := by
  unfold watch
  apply foldl_core
  intro w e
  apply ite_core <;> simp

/-! ### The choice pass -/

@[simp] theorem oweClaim_core (e : Entry) (r : Resource) (s : State) : (oweClaim e r s).core = s.core := with_rcu_core s _ _

@[simp] theorem passTrunk_core (e : Entry) (w : Work) : (passTrunk e w).st.core = w.st.core := by
  unfold passTrunk
  dsimp only
  apply ite_core
  · rfl
  · have h : ∀ w' : Work, w'.st.core = w.st.core →
        (match w'.st.chooseTrunk e with
          | some t => (w'.modEnt e (fun x => { x with resource := some (.trunk t) })).upd (oweClaim e (trunkResource t))
          | none => w').st.core = w.st.core := by
      intro w' h
      split <;> simp [h]
    apply h
    split <;> simp

@[simp] theorem passBus_core (e : Entry) (w : Work) : (passBus e w).st.core = w.st.core := by
  unfold passBus
  split <;> simp

@[simp] theorem passEntry_core (e : Entry) (w : Work) : (passEntry e w).st.core = w.st.core := by
  unfold passEntry
  split
  · split <;> simp
  · rfl

@[simp] theorem passMonitor_core (e : Entry) (w : Work) : (passMonitor e w).st.core = w.st.core := by
  unfold passMonitor
  dsimp only
  split
  · split
    · simp
    · split <;> simp
  · rfl

@[simp] theorem choicePass_core (w : Work) : (choicePass w).st.core = w.st.core := by
  unfold choicePass
  rw [foldl_core _ (fun w e => passMonitor_core e w), foldl_core _ (fun w e => passEntry_core e w)]

@[simp] theorem flush_core (w : Work) : (flush w).st.core = w.st.core := by
  unfold flush
  dsimp only
  split
  · rfl
  · exact with_wsu_core _ _ _ _ _ _ _

@[simp] theorem tellParts_core (es : List Entry) (w : Work) : (tellParts es w).st.core = w.st.core :=
  foldl_core _ (fun w e => partSettled_core e w) es w

@[simp] theorem ready_core (w : Work) : (ready w).st.core = w.st.core := with_rm_core _ _

@[simp] theorem waveFinished_core (v : Wave) (w : Work) : (waveFinished v w).st.core = w.st.core := by
  have h : (w.upd (fun s => { s with wsu := { s.wsu with settling := s.wsu.settling ++ [v] } })).st.core = w.st.core :=
    with_wsu_core _ _ _ _ _ _ _
  unfold waveFinished
  dsimp only
  split
  · exact h
  · split
    · simp
    · exact h
  · split
    · rfl
    · exact h

@[simp] theorem keepHold_core (v : Wave) (s : State) : (keepHold v s).core = s.core := by
  unfold keepHold
  dsimp only
  split
  · exact with_ilu_core s _
  · rfl

theorem foldl_keepHold_core (vs : List Wave) (s : State) : (vs.foldl (fun s v => keepHold v s) s).core = s.core := by
  induction vs generalizing s with
  | nil => rfl
  | cons v vs ih => rw [List.foldl_cons, ih, keepHold_core]

@[simp] theorem resumeHeld_core (w : Work) : (resumeHeld w).st.core = w.st.core := by
  unfold resumeHeld
  exact (with_wsu_core _ _ _ _ _ _ _).trans (foldl_keepHold_core _ _)

@[simp] theorem recoverRelay_core (r : Relay) (w : Work) : (recoverRelay r w).st.core = w.st.core := by
  unfold recoverRelay
  dsimp only
  split
  · rw [tellParts_core]; exact with_wsu_core _ _ _ _ _ _ _
  · rfl

@[simp] theorem tellOwner_core (v : Wave) (w : Work) : (tellOwner v w).st.core = w.st.core := by
  unfold tellOwner
  split <;> simp

@[simp] theorem settle_core (r : Relay) (w : Work) : (settle r w).st.core = w.st.core := by
  unfold settle
  dsimp only
  split
  · rw [tellOwner_core]; exact (with_wsu_core _ _ _ _ _ _ _).trans (by simp)
  · simp

end Sys2Proof.Machine
end

