-- ==== Sys2Proof/Laws/Follows.lean ====
section
/-! SUPPORT. What the consequences of an event may do (`Follows`): the pulses of the wave queue spend credit and add wear, and
nothing else of the core changes; so `finish` follows from the state it is given, whatever waits there. -/

namespace Sys2Proof.Machine

/-! ### Follows -/

theorem Follows.of_core {s t : State} (h : t.core = s.core) : Follows s t := by
  have hb : t.base = s.base := congrArg (fun p => p.1) h
  have hc : t.wsu.credit = s.wsu.credit := congrArg (fun p => p.2.1) h
  have hw : t.wru.counts = s.wru.counts := congrArg (fun p => p.2.2) h
  refine ⟨hb, ⟨by rw [hc], ?_⟩, ?_⟩
  · intro c' h'
    exact ⟨c', hc ▸ h', le_refl _⟩
  · intro hr
    exact ⟨fun r => by rw [hw], fun r => by rw [hw]; exact hr r⟩

theorem Follows.refl (s : State) : Follows s s := .of_core rfl

theorem Follows.trans {s t u : State} (h : Follows s t) (k : Follows t u) : Follows s u := by
  refine ⟨k.base.trans h.base, ⟨k.credit.1.trans h.credit.1, ?_⟩, ?_⟩
  · intro c hc
    obtain ⟨c1, h1, l1⟩ := k.credit.2 c hc
    obtain ⟨c2, h2, l2⟩ := h.credit.2 c1 h1
    exact ⟨c2, h2, l1.trans l2⟩
  · intro hr
    obtain ⟨a, b⟩ := h.counts hr
    obtain ⟨c, d⟩ := k.counts b
    exact ⟨fun r => (a r).trans (c r), d⟩

theorem Follows.core_left {s s' t : State} (h : s'.core = s.core) (k : Follows s' t) : Follows s t := (Follows.of_core h).trans k

theorem Follows.core_right {s t t' : State} (k : Follows s t) (h : t'.core = t.core) : Follows s t' := k.trans (.of_core h)

/-- A field that `State.base` keeps is kept. -/
theorem Follows.field {s t : State} {α : Type} (k : Follows s t) (f : State → α) (h : ∀ u : State, f u = f u.base) :
    f t = f s := by rw [h t, h s, k.base]

theorem Follows.cfl {s t : State} (k : Follows s t) : t.cfl = s.cfl := k.field (fun u => u.cfl) (fun _ => rfl)
theorem Follows.tb {s t : State} (k : Follows s t) : t.tb = s.tb := k.field (fun u => u.tb) (fun _ => rfl)
theorem Follows.memory {s t : State} (k : Follows s t) : t.memory = s.memory := k.field (fun u => u.memory) (fun _ => rfl)
theorem Follows.free {s t : State} (k : Follows s t) : t.free = s.free := k.field (fun u => u.free) (fun _ => rfl)
theorem Follows.pending {s t : State} (k : Follows s t) : t.pending = s.pending := k.field (fun u => u.pending) (fun _ => rfl)
theorem Follows.queues {s t : State} (k : Follows s t) : t.squ.queues = s.squ.queues :=
  k.field (fun u => u.squ.queues) (fun _ => rfl)
theorem Follows.valid {s t : State} (k : Follows s t) : t.squ.valid = s.squ.valid :=
  k.field (fun u => u.squ.valid) (fun _ => rfl)
theorem Follows.staging {s t : State} (k : Follows s t) : t.squ.staging = s.squ.staging :=
  k.field (fun u => u.squ.staging) (fun _ => rfl)
theorem Follows.view {s t : State} (k : Follows s t) : t.rcu.view = s.rcu.view := k.field (fun u => u.rcu.view) (fun _ => rfl)
theorem Follows.holdings {s t : State} (k : Follows s t) : t.rcu.holdings = s.rcu.holdings :=
  k.field (fun u => u.rcu.holdings) (fun _ => rfl)
theorem Follows.link {s t : State} (k : Follows s t) : t.liu.link = s.liu.link := k.field (fun u => u.liu.link) (fun _ => rfl)
theorem Follows.objections {s t : State} (k : Follows s t) : t.liu.objections = s.liu.objections :=
  k.field (fun u => u.liu.objections) (fun _ => rfl)
theorem Follows.cleans {s t : State} (k : Follows s t) : t.liu.cleans = s.liu.cleans :=
  k.field (fun u => u.liu.cleans) (fun _ => rfl)
theorem Follows.rx {s t : State} (k : Follows s t) : t.liu.rx = s.liu.rx := k.field (fun u => u.liu.rx) (fun _ => rfl)
/-- A meter that stands goes on standing, no higher. -/
theorem Follows.meter {s t : State} {c : Nat} (k : Follows s t) (h : s.wsu.credit = some c) :
    ∃ c', t.wsu.credit = some c' ∧ c' ≤ c := by
  have hs := k.credit.1
  rw [h] at hs
  obtain ⟨c', hc⟩ := Option.isSome_iff_exists.mp (hs.trans rfl)
  obtain ⟨d, hd, l⟩ := k.credit.2 c' hc
  rw [h] at hd; cases hd
  exact ⟨c', hc, l⟩
/-- A note other than WEAR_LIMIT stands. -/
theorem Follows.note {s t : State} (k : Follows s t) {c : Fin 8} (h : noteWearLimit ≠ c) :
    look t.fcu.notes c = look s.fcu.notes c := by
  have e : put t.fcu.notes noteWearLimit none = put s.fcu.notes noteWearLimit none :=
    k.field (fun u => put u.fcu.notes noteWearLimit none)
      (fun u => by apply table_ext; intro i; simp only [State.base, look_put]; split <;> rfl)
  have := congrArg (fun x => look x c) e
  simpa [look_put, h] using this
/-- A line without a frame of the part stays so. -/
theorem Follows.own_none {s t : State} (k : Follows s t) (h : s.liu.own = none) : t.liu.own = none := by
  have e : t.base.liu.own = s.base.liu.own := by rw [k.base]
  simpa [State.base, h] using e
theorem Follows.roster {s t : State} (k : Follows s t) : t.liu.roster = s.liu.roster :=
  k.field (fun u => u.liu.roster) (fun _ => rfl)

/-! ### Pulses -/

/-- A base and a credit alone. -/
theorem with_credit_base (s : State) (c : Option Nat) (f : List ChainPattern) :
    ({ s with wsu := { s.wsu with credit := c, chain := f } } : State).base = s.base := rfl

theorem with_counts_base (s : State) (c : Table 640 Nat) :
    ({ s with wru := { s.wru with counts := c } } : State).base = s.base := rfl

theorem wornCount_le (c k : Nat) : wornCount c k ≤ wearMax := by unfold wornCount; omega

theorem wornCount_ge {c k : Nat} (h : c ≤ wearMax) : c ≤ wornCount c k := by unfold wornCount; omega

/-- A state that differs in the counts by one worn relay. -/
theorem worn_follows (s : State) (r : Relay) (k : Nat) :
    Follows s { s with wru := { s.wru with counts := put s.wru.counts r (wornCount (look s.wru.counts r) k) } } := by
  refine ⟨rfl, ⟨rfl, fun c h => ⟨c, h, le_refl _⟩⟩, fun hr => ⟨fun i => ?_, fun i => ?_⟩⟩
  · show look s.wru.counts i ≤ look (put s.wru.counts r _) i
    rw [look_put]
    split
    · subst_vars; exact wornCount_ge (hr _)
    · exact le_refl _
  · show look (put s.wru.counts r _) i ≤ wearMax
    rw [look_put]
    split
    · exact wornCount_le _ _
    · exact hr i

/-- Counting a pulse leaves everything but wear, its dirty mark and its note (R157, R159, R160). -/
theorem addWear_follows (r : Relay) (c : Bool) (k : PulseKind) (s : State) : Follows s (addWear r c k s) := by
  unfold addWear
  dsimp only
  split
  · exact .refl s
  · have h := (worn_follows s r (pulseWeight k c)).core_right (State.dirtyBlock_core _ (blockOf r))
    split
    · exact h.core_right (pendNote_core _ _)
    · exact h

/-- Spending credit (R113). -/
theorem spent_follows (s : State) (k : Nat) (f : List ChainPattern) :
    Follows s { s with wsu := { s.wsu with credit := s.wsu.credit.map (fun c => c - k), chain := f } } := by
  refine ⟨rfl, ⟨by simp, fun c' h => ?_⟩, fun hr => ⟨fun _ => le_refl _, hr⟩⟩
  have h' : s.wsu.credit.map (fun c => c - k) = some c' := h
  cases hc : s.wsu.credit with
  | none => rw [hc] at h'; cases h'
  | some c =>
    rw [hc] at h'
    simp only [Option.map_some, Option.some.injEq] at h'
    exact ⟨c, rfl, by omega⟩

/-- A pulse spends credit and adds wear (R116). -/
theorem pulse_follows (v : Wave) (r : Relay) (c : Bool) (s : State) : Follows s (pulse v r c s) := by
  unfold pulse
  exact ((spent_follows s _ _).core_right (State.setRelay_core _ r _)).trans (addWear_follows _ _ _ _)

/-- The pulses of one service (R110). -/
theorem pulseRun_follows (l : List (Relay × Bool)) (v : Wave) (s : State) : Follows s (pulseRun l v s).1 := by
  induction l generalizing v s with
  | nil => exact .refl s
  | cons p rest ih =>
    obtain ⟨r, c⟩ := p
    unfold pulseRun
    split
    · exact (ih _ _).core_left (with_wsu_core s _ _ _ _ _ _)
    · split
      · exact .refl s
      · split
        · exact .refl s
        · exact (pulse_follows _ _ _ _).trans (ih _ _)

/-! ### The end of an event -/

/-- One service of the wave queue (R110, R113, R118). -/
theorem serveHead_follows (w : Work) : Follows w.st (serveHead w).st := by
  unfold serveHead
  split
  · exact .refl _
  · rename_i v rest hq
    have h := pulseRun_follows v.todo v w.st
    dsimp only
    split
    · exact h.core_right ((tellParts_core _ _).trans (with_wsu_core _ _ _ _ _ _ _))
    · exact h.core_right ((tellParts_core _ _).trans ((waveFinished_core _ _).trans (with_wsu_core _ _ _ _ _ _ _)))
    · split
      · exact h.core_right ((waveMetLive_core _ _ _ _).trans (with_wsu_core _ _ _ _ _ _ _))
      · exact h.core_right (with_wsu_core _ _ _ _ _ _ _)

theorem settleDown_follows (n : Nat) (w : Work) : Follows w.st (settleDown n w).st := by
  induction n generalizing w with
  | zero => exact .refl _
  | succ n ih =>
    unfold settleDown
    split
    · exact (ih _).core_left (choicePass_core w)
    · split
      · exact (serveHead_follows w).trans (ih _)
      · split
        · exact (ih _).core_left (flush_core w)
        · exact .refl _

/-- Whatever waits at an event: its base stands, credit is only spent, wear only rises. -/
theorem finish_follows (w : Work) : Follows w.st (finish w) := settleDown_follows _ w

theorem finish_follows_of {w : Work} {s : State} (h : w.st.core = s.core) : Follows s (finish w) :=
  (finish_follows w).core_left h

/-- An event that leaves nothing due ends as it stands. -/
theorem finish_eq {w : Work} (hp : w.pass = false) (hj : w.joining = []) (hs : w.serve = false) : finish w = w.st := by
  show (settleDown (4095 + 1) w).st = w.st
  unfold settleDown
  simp [hp, hj, hs]

@[simp] theorem finish_start (s : State) : finish (Work.start s) = s := finish_eq rfl rfl rfl

theorem resumeHeld_none {w : Work} (h : w.st.wsu.held = []) : resumeHeld w = w := by
  have hf : ∀ p : Wave → Bool, w.st.wsu.held.filter p = w.st.wsu.held := by intro p; rw [h]; rfl
  have hn : w.st.wsu.held.filter w.st.resumes = [] := by rw [h]; rfl
  unfold resumeHeld
  rw [hn]
  simp only [List.foldl_nil, List.append_nil, hf]

end Sys2Proof.Machine
end

