-- ==== Sys2Proof/Laws/Events.lean ====
section
/-! SUPPORT. Events: what the passing of time leaves alone, the dispatch of a heard frame as one act, and the passes that find
nothing to choose. -/

namespace Sys2Proof.Machine

/-! ### The passing of time -/

theorem advance_noWaiter (dt : Nat) (s : State) (h : s.noWaiter) : (advance dt s).noWaiter := by
  intro e; rw [advance_entry]; exact h e

/-! ### Heard frames -/

/-- The kind that says a message. -/
def Msg.kind : Msg → Kind
  | .source _ _ => .source | .abort _ => .abort | .claim _ _ _ => .claim | .release _ _ _ => .release
  | .cancel _ _ => .cancel | .beacon _ _ _ => .beacon | .clear _ => .clear | .route _ _ _ _ _ _ => .route
  | .unroute _ _ => .unroute | .monitor _ _ _ => .monitor | .fence _ _ => .fence | .maint _ _ => .maint
  | .status _ _ _ => .status | .ready => .ready | .note => .note | .maintDone => .maintDone

theorem guarded_some {α : Type} {c : Bool} {x : Option α} {a : α} : guarded c x = some a ↔ c = true ∧ x = some a := by
  unfold guarded; split <;> simp_all

theorem parsePayload_kind {k : Kind} {p : List Byte} {m : Msg} (h : parsePayload k p = some m) : k = m.kind := by
  cases k <;> simp only [parsePayload, guarded_some, Option.map_eq_some_iff, Option.bind_eq_some_iff, Option.some.injEq] at h
  case ready | note | maintDone => rw [← h.2]; rfl
  case claim | release | unroute | cancel | monitor | abort | source | clear | beacon =>
    first
      | (obtain ⟨-, a, -, rfl⟩ := h; rfl)
      | (obtain ⟨-, a, -, b, -, rfl⟩ := h; rfl)
  all_goals
    first
      | (obtain ⟨-, a, -, b, -, rfl⟩ := h; rfl)
      | (obtain ⟨-, a, -, b, -, c, -, d, -, rfl⟩ := h; rfl)

/-- A frame's message is of its kind. -/
theorem parse_kind {f : Frame} {m : Msg} (h : parse f = some m) : f.kind = m.kind := by
  unfold parse at h
  exact parsePayload_kind (guarded_some.1 h).2

/-- A frame that a row of the table takes is dispatched (R26). -/
theorem dispatchFront_takes {fits : State → Frame → Bool} {dt : Nat} {s : State} {f : Frame} {m : Msg} (h : s.Front f m)
    (hf : fits (advance dt s) f = true) :
    dispatchFront fits (advance dt s) = takeMsg f.src m (popFrame (advance dt s)) := by
  obtain ⟨hr, hx, hp, ho⟩ := h
  unfold dispatchFront
  rw [advance_liu]
  cases hq : s.liu.rx with
  | nil => rw [hq] at hx; cases hx
  | cons g rest =>
    rw [hq] at hx
    simp only [List.head?_cons, Option.some.injEq] at hx
    subst hx
    simp only [advance_running, hr, hf, Bool.and_self, if_true]
    unfold takeFrame
    rw [hp]
    simp [ho]

theorem takeMsg_eq (n : Node) (m : Msg) (s : State) :
    takeMsg n m s = finish (act n m (resumeHeld (Work.start (hear n m s)))) := rfl

/-- A heard frame runs as its own command: the act of its blocks on the state that has heard it. -/
theorem exec_front {dt : Nat} {s : State} {f : Frame} {m : Msg} (h : s.Front f m) :
    exec (frameCommand dt s.cfl.node f) s = .next (finish (act f.src m (resumeHeld (Work.start (s.heard dt f m))))) := by
  have hk := parse_kind h.message
  have key : ∀ fits : State → Frame → Bool, fits (advance dt s) f = true →
      plainEvent dt (dispatchFront fits) s = .next (finish (act f.src m (resumeHeld (Work.start (s.heard dt f m))))) := by
    intro fits hf
    unfold plainEvent
    rw [dispatchFront_takes h hf]
    rfl
  cases m
  case maint target op =>
    have hk' : f.kind = .maint := hk
    unfold frameCommand
    rw [hk']
    simp only [h.message]
    by_cases ht : target = s.cfl.node
    · subst ht
      have km : ∀ p : MaintOp → Bool, p op = true → isMaint p (advance dt s) f = true := by
        intro p hp
        simp [isMaint, hk', h.message, hp]
      rw [if_pos rfl]
      cases op with
      | saveWear => exact key _ (km MaintOp.isSaveWear rfl)
      | readWear => exact key _ (km MaintOp.isReadWear rfl)
      | clearMarks => exact key _ (km MaintOp.isClearMarks rfl)
      | readFault => exact key _ (km MaintOp.isReadFault rfl)
      | clearFault => exact key _ (km MaintOp.isClearFault rfl)
    · simp only [ht, if_false]
      exact key _ (by simp [isMaintElsewhere, hk', h.message, ht])
  all_goals
    unfold frameCommand
    rw [hk]
    exact key _ (by simp [isKind, hk, Msg.kind])

theorem heard_held (s : State) (dt : Nat) (f : Frame) (m : Msg) : (s.heard dt f m).wsu.held = s.wsu.held :=
  advance_held dt s

/-- With no wave held, the act of the blocks begins in the state that has heard the frame. -/
theorem exec_front_none {dt : Nat} {s : State} {f : Frame} {m : Msg} (h : s.Front f m) (hh : s.wsu.held = []) :
    exec (frameCommand dt s.cfl.node f) s = .next (finish (act f.src m (Work.start (s.heard dt f m)))) := by
  rw [exec_front h, resumeHeld_none]
  exact (heard_held s dt f m).trans hh

/-! ### Passes that find nothing -/

theorem foldl_same {α β : Type} (f : β → α → β) (as : List α) (b : β) (h : ∀ a, f b a = b) : as.foldl f b = b := by
  induction as with
  | nil => rfl
  | cons a as ih => rw [List.foldl_cons, h, ih]

/-- A choice pass with nobody waiting (R86). -/
theorem choicePass_noWaiter {w : Work} (h : w.st.noWaiter) : choicePass w = { w with pass := false } := by
  unfold choicePass
  have h1 : ∀ e, passEntry e { w with pass := false } = { w with pass := false } := by
    intro e
    unfold passEntry
    rw [if_neg]
    exact (h e).1
  have h2 : ∀ e, passMonitor e { w with pass := false } = { w with pass := false } := by
    intro e
    have : (({ w with pass := false } : Work).ent e).monitor ≠ .claiming := (h e).2
    unfold passMonitor
    simp [this]
  rw [foldl_same (fun w e => passEntry e w) _ _ h1, foldl_same (fun w e => passMonitor e w) _ _ h2]

/-- An event after which nobody waits and no wave joins ends as it stands. -/
theorem finish_noWaiter {w : Work} (h : w.st.noWaiter) (hj : w.joining = []) (hs : w.serve = false) : finish w = w.st := by
  cases hp : w.pass with
  | false => exact finish_eq hp hj hs
  | true =>
    show (settleDown (4094 + 1 + 1) w).st = w.st
    rw [settleDown, if_pos hp, choicePass_noWaiter h, settleDown]
    simp [hj, hs]

/-- Waves that join behind others wait there. -/
theorem finish_joins {w : Work} (hp : w.pass = false) (hs : w.serve = false) (hq : w.st.wsu.queue ≠ []) :
    finish w = { w.st with wsu := { w.st.wsu with queue := w.st.wsu.queue ++ sortWaves w.joining } } := by
  by_cases hj : w.joining = []
  · rw [finish_eq hp hj hs, hj]
    simp [sortWaves]
  · show (settleDown (4094 + 1 + 1) w).st = _
    have hq' : w.st.wsu.queue.isEmpty = false := by simpa using hq
    have hj' : w.joining.isEmpty = false := by simpa using hj
    rw [settleDown]
    simp only [hp, hs, hj', Bool.false_and, Bool.false_eq_true, if_false, if_true]
    rw [settleDown]
    simp [flush, hj', hp, hs, hq']

/-- Where nobody waits for a resource, the waves of an event join behind those that stand in the queue, and nothing else
follows. -/
theorem finish_waits {w : Work} (h : w.st.noWaiter) (hs : w.serve = false) (hq : w.st.wsu.queue ≠ []) :
    finish w = { w.st with wsu := { w.st.wsu with queue := w.st.wsu.queue ++ sortWaves w.joining } } := by
  cases hp : w.pass with
  | false => exact finish_joins hp hs hq
  | true =>
    show (settleDown (4094 + 1 + 1) w).st = _
    have hq' : w.st.wsu.queue.isEmpty = false := by simpa using hq
    rw [settleDown, if_pos hp, choicePass_noWaiter h, settleDown]
    cases hj : w.joining.isEmpty with
    | true =>
      have : w.joining = [] := by simpa using hj
      simp [this, hs, sortWaves]
    | false =>
      simp only [hs, Bool.false_and, Bool.false_eq_true, if_false, if_true]
      unfold settleDown
      simp [flush, hj, hq']

end Sys2Proof.Machine
end

