-- ==== Sys2Proof/Laws/Memory.lean ====
section
/-! SUPPORT. The configuration memory: a read after a write, and the canonical form that every memory operation keeps. -/

namespace Sys2Proof.Machine

/-! ### The canonical form -/

/-- The memory lists nothing below an address. -/
def Memory.above (lo : Nat) : List Host.Cell → Prop
  | [] => True
  | (a, _) :: _ => lo ≤ a

theorem Memory.wf_cons (a : Nat) (b : Byte) (m : List Host.Cell) :
    Memory.wf ((a, b) :: m) = true ↔ b ≠ memoryBlank ∧ Memory.above (a + 1) m ∧ Memory.wf m = true := by
  cases m with
  | nil => simp [Memory.wf, Memory.above]
  | cons p m =>
    obtain ⟨a', b'⟩ := p
    simp only [Memory.wf, Memory.above, Bool.and_eq_true, decide_eq_true_eq, Nat.succ_le_iff]
    tauto

theorem Memory.above_mono {lo hi : Nat} (h : lo ≤ hi) {m : List Host.Cell} (k : Memory.above hi m) : Memory.above lo m := by
  cases m with
  | nil => trivial
  | cons p m => exact h.trans k

/-- A write lists nothing below both its address and what was listed. -/
theorem Memory.write_above {lo : Nat} {m : List Host.Cell} {x : Nat} {v : Byte} (hm : Memory.above lo m) (hx : lo ≤ x)
    (hw : Memory.wf m = true) : Memory.above lo (Memory.write m x v) := by
  cases m with
  | nil =>
    unfold Memory.write
    split
    · trivial
    · exact hx
  | cons p m =>
    obtain ⟨a, b⟩ := p
    have ha := (Memory.wf_cons a b m).1 hw
    unfold Memory.write
    split
    · split
      · exact Memory.above_mono (Nat.le_succ_of_le hm) ha.2.1
      · exact hx
    · split
      · split
        · exact hm
        · exact hx
      · exact hm

/-- Every write keeps the canonical form. -/
theorem Memory.write_wf {m : List Host.Cell} (x : Nat) (v : Byte) (hw : Memory.wf m = true) :
    Memory.wf (Memory.write m x v) = true := by
  induction m with
  | nil =>
    unfold Memory.write
    split
    · rfl
    · rename_i h; simp [Memory.wf, h]
  | cons p m ih =>
    obtain ⟨a, b⟩ := p
    have ha := (Memory.wf_cons a b m).1 hw
    unfold Memory.write
    split
    · rename_i h
      split
      · exact ha.2.2
      · rename_i hv; exact (Memory.wf_cons _ _ _).2 ⟨hv, h ▸ ha.2.1, ha.2.2⟩
    · split
      · rename_i hlt
        split
        · exact hw
        · rename_i hv; exact (Memory.wf_cons _ _ _).2 ⟨hv, hlt, hw⟩
      · exact (Memory.wf_cons _ _ _).2 ⟨ha.1, Memory.write_above ha.2.1 (by omega) ha.2.2, ih ha.2.2⟩

/-- A run of writes keeps the canonical form. -/
theorem Memory.writeAll_wf {m : List Host.Cell} (x : Nat) (vs : List Byte) (hw : Memory.wf m = true) :
    Memory.wf (Memory.writeAll m x vs) = true := by
  induction vs generalizing m x with
  | nil => exact hw
  | cons v vs ih => exact ih _ (Memory.write_wf x v hw)

/-- A stored block keeps the canonical form. -/
theorem storeBlock_wf {m : ConfigMemory} (b : Block) (bytes : List Byte) (h : Memory.wf m.cells = true) :
    Memory.wf (storeBlock b bytes m).cells = true := Memory.writeAll_wf _ _ h

theorem residueMemory_wf {m : ConfigMemory} (x : Residue) (v : Save) (h : Memory.wf m.cells = true) :
    Memory.wf (residueMemory x v m).cells = true := by
  cases x
  · exact storeBlock_wf _ _ h
  · exact h
  · exact h

/-! ### Reading -/

theorem Memory.read_above {lo : Nat} {m : List Host.Cell} {y : Nat} (hm : Memory.above lo m) (hy : y < lo) :
    Memory.read m y = memoryBlank := by
  cases m with
  | nil => rfl
  | cons p m =>
    obtain ⟨a, b⟩ := p
    have h : lo ≤ a := hm
    unfold Memory.read
    rw [if_neg (by omega), if_pos (by omega)]

/-- A read after a write: the value at the address written, and elsewhere what stood there. -/
theorem Memory.read_write {m : List Host.Cell} (x : Nat) (v : Byte) (y : Nat) (hw : Memory.wf m = true) :
    Memory.read (Memory.write m x v) y = if y = x then v else Memory.read m y := by
  induction m with
  | nil =>
    unfold Memory.write
    split
    · rename_i h; subst h; simp [Memory.read]
    · by_cases h : y = x
      · simp [Memory.read, h]
      · simp only [Memory.read, h, if_false]; split <;> rfl
  | cons p m ih =>
    obtain ⟨a, b⟩ := p
    have ha := (Memory.wf_cons a b m).1 hw
    unfold Memory.write
    split
    · rename_i hx
      subst hx
      split
      · rename_i hv
        subst hv
        by_cases h : y = x
        · subst h; simpa using Memory.read_above ha.2.1 (Nat.lt_succ_self _)
        · simp only [h, if_false]
          by_cases hlt : y < x
          · rw [Memory.read_above ha.2.1 (by omega)]; simp [Memory.read, h, hlt]
          · simp [Memory.read, h, hlt]
      · by_cases h : y = x
        · simp [Memory.read, h]
        · simp [Memory.read, h]
    · rename_i hne
      split
      · rename_i hlt
        split
        · rename_i hv
          subst hv
          by_cases h : y = x
          · subst h; simp [Memory.read, hne, hlt]
          · simp [h]
        · by_cases h : y = x
          · simp [Memory.read, h]
          · by_cases hyx : y < x
            · simp only [Memory.read, h, if_false, hyx, if_true]
              rw [if_neg (by omega), if_pos (by omega)]
            · simp [Memory.read, h, hyx]
      · rename_i hge
        by_cases hya : y = a
        · have : y ≠ x := by omega
          simp [Memory.read, hya, Ne.symm hne]
        · by_cases hlt : y < a
          · have : y ≠ x := by omega
            simp [Memory.read, hya, hlt, this]
          · simp only [Memory.read, hya, hlt, if_false]
            rw [ih ha.2.2]

/-- The byte just written reads as written. -/
theorem Memory.read_write_same {m : List Host.Cell} (x : Nat) (v : Byte) (hw : Memory.wf m = true) :
    Memory.read (Memory.write m x v) x = v := by rw [Memory.read_write x v x hw, if_pos rfl]

/-- Every other byte reads as before. -/
theorem Memory.read_write_other {m : List Host.Cell} {x y : Nat} (v : Byte) (hw : Memory.wf m = true) (h : y ≠ x) :
    Memory.read (Memory.write m x v) y = Memory.read m y := by rw [Memory.read_write x v y hw, if_neg h]

/-- Bytes outside a run of writes read as before. -/
theorem Memory.read_writeAll_other {m : List Host.Cell} (x : Nat) (vs : List Byte) {y : Nat} (hw : Memory.wf m = true)
    (h : y < x ∨ x + vs.length ≤ y) : Memory.read (Memory.writeAll m x vs) y = Memory.read m y := by
  induction vs generalizing m x with
  | nil => rfl
  | cons v vs ih =>
    simp only [List.length_cons] at h
    show Memory.read (Memory.writeAll (Memory.write m x v) (x + 1) vs) y = Memory.read m y
    rw [ih (x + 1) (Memory.write_wf x v hw) (by omega), Memory.read_write_other v hw (by omega)]

/-- The bytes of a run of writes read as written. -/
theorem Memory.read_writeAll_inside {m : List Host.Cell} (x : Nat) (vs : List Byte) {i : Nat} (hw : Memory.wf m = true)
    (h : i < vs.length) : Memory.read (Memory.writeAll m x vs) (x + i) = vs[i] := by
  induction vs generalizing m x i with
  | nil => simp at h
  | cons v vs ih =>
    show Memory.read (Memory.writeAll (Memory.write m x v) (x + 1) vs) (x + i) = _
    cases i with
    | zero =>
      rw [Memory.read_writeAll_other (x + 1) vs (Memory.write_wf x v hw) (by omega)]
      simpa using Memory.read_write_same x v hw
    | succ i =>
      have := ih (x + 1) (i := i) (Memory.write_wf x v hw) (by simpa using h)
      rw [show x + (i + 1) = x + 1 + i by omega, this]
      rfl

/-- A run of writes reads back as it was written. -/
theorem Memory.readAll_writeAll {m : List Host.Cell} (x : Nat) (vs : List Byte) (hw : Memory.wf m = true) :
    Memory.readAll (Memory.writeAll m x vs) x vs.length = vs := by
  apply List.ext_getElem
  · simp [Memory.readAll]
  · intro i h1 h2
    simp only [Memory.readAll, List.getElem_map, List.getElem_range]
    exact Memory.read_writeAll_inside x vs hw h2

/-- A body of 64 bytes passes with its own check after it (R194). -/
theorem blockSound_withCheck (body : List Byte) (h : body.length = 64) : blockSound (withCheck body) = true := by
  have hc := (crc (bytesBits body)).isLt
  have t : (withCheck body).take 64 = body := by rw [withCheck, ← h]; simp
  have w : wordAt (withCheck body) 64 = (crc (bytesBits body)).toNat := by
    have e0 : byteAt (withCheck body) 64 = (crc (bytesBits body)).toNat / 256 := by
      simp [byteAt, withCheck, bytes2, byte, h]
      omega
    have e1 : byteAt (withCheck body) 65 = (crc (bytesBits body)).toNat % 256 := by
      simp [byteAt, withCheck, bytes2, byte, h]
    simp only [wordAt, e0, e1]
    omega
  simp [blockSound, t, w]

end Sys2Proof.Machine
end

