-- ==== Sys2Proof/Laws/Parts.lean ====
section
/-! SUPPORT. What the operations on entries, marks and claims change, part by part. -/

namespace Sys2Proof.Machine

/-- An entry set to a state in which it waits for nothing leaves no waiter where no other entry waits. -/
theorem noWaiter_setEntry {s : State} {e : Entry} {x : NetEntry} (h : s.noOtherWaiter e)
    (h1 : x.state ≠ .awaitResource) (h2 : x.monitor ≠ .claiming) :
  (s.setEntry e x).noWaiter := by
  intro i
  by_cases hi : e = i
  · subst hi; simp [h1, h2]
  · rw [State.setEntry_entry_ne _ _ hi]; exact h i (Ne.symm hi)

/-- Waiting is a matter of the net table alone. -/
theorem noWaiter_of_entries {s t : State} (h : s.noWaiter) (k : t.ne.entries = s.ne.entries) : t.noWaiter := by
  intro e; have := h e; unfold State.entry at this ⊢; rw [k]; exact this

/-- Setting a mark anew while its frame is on the line changes the LIU alone: the other blocks, one by one. -/
theorem renew_ne (m : Owed) (s : State) : (s.renew m).ne = s.ne := by
  unfold State.renew; split <;> (try split) <;> rfl
theorem renew_rcu (m : Owed) (s : State) : (s.renew m).rcu = s.rcu := by
  unfold State.renew; split <;> (try split) <;> rfl
theorem renew_squ (m : Owed) (s : State) : (s.renew m).squ = s.squ := by
  unfold State.renew; split <;> (try split) <;> rfl
theorem renew_fcu (m : Owed) (s : State) : (s.renew m).fcu = s.fcu := by
  unfold State.renew; split <;> (try split) <;> rfl
theorem renew_wsu (m : Owed) (s : State) : (s.renew m).wsu = s.wsu := by
  unfold State.renew; split <;> (try split) <;> rfl
theorem renew_ilu (m : Owed) (s : State) : (s.renew m).ilu = s.ilu := by
  unfold State.renew; split <;> (try split) <;> rfl
theorem renew_rm (m : Owed) (s : State) : (s.renew m).rm = s.rm := by
  unfold State.renew; split <;> (try split) <;> rfl
theorem renew_snu (m : Owed) (s : State) : (s.renew m).snu = s.snu := by
  unfold State.renew; split <;> (try split) <;> rfl
theorem renew_cfl (m : Owed) (s : State) : (s.renew m).cfl = s.cfl := by
  unfold State.renew; split <;> (try split) <;> rfl

/-- A withdrawn CLAIM on the line changes the LIU alone. -/
theorem withdrawOwn_parts (e : Entry) (s : State) : (s.withdrawOwn e).ne = s.ne ∧
    (s.withdrawOwn e).rcu = s.rcu ∧ (s.withdrawOwn e).squ = s.squ ∧ (s.withdrawOwn e).wsu = s.wsu ∧
    (s.withdrawOwn e).fcu = s.fcu ∧ (s.withdrawOwn e).rm = s.rm ∧ (s.withdrawOwn e).cfl = s.cfl ∧
    (s.withdrawOwn e).snu = s.snu ∧ (s.withdrawOwn e).ilu = s.ilu := by
  unfold State.withdrawOwn; split <;> (try split) <;> (try split) <;> simp

/-- The READY of an ABORT changes the SQU and the LIU alone. -/
theorem abortReady_parts (i : Site) (s : State) : (abortReady i s).ne = s.ne ∧ (abortReady i s).rcu = s.rcu ∧
    (abortReady i s).wsu = s.wsu ∧ (abortReady i s).fcu = s.fcu ∧ (abortReady i s).rm = s.rm ∧
    (abortReady i s).cfl = s.cfl ∧ (abortReady i s).snu = s.snu ∧ (abortReady i s).ilu = s.ilu := by
  unfold abortReady oweReady
  split
  · simp [renew_ne, renew_rcu, renew_wsu, renew_fcu, renew_rm, renew_cfl, renew_snu, renew_ilu]
  · simp

/-- What becoming FREE does to the net table and the pin binding (R16). -/
theorem freeEntry_ne (e : Entry) (w : Work) :
    (freeEntry e w).st.ne = { w.st.ne with
      entries := put w.st.ne.entries e NetEntry.free
      binding := each (fun _ b => if b = some e then none else b) w.st.ne.binding } := by
  simp only [freeEntry, (abortReady_parts _ _).1, endClaim, (withdrawOwn_parts _ _).1, unclaim_ne,
    State.dropOpenOwners_ne]

/-- Becoming FREE withdraws the owed CLAIM of the entry and changes nothing else of the RCU. -/
theorem freeEntry_rcu (e : Entry) (w : Work) :
    (freeEntry e w).st.rcu = { w.st.rcu with claims := put w.st.rcu.claims e none } := by
  simp only [freeEntry, (abortReady_parts _ _).2.1, endClaim, (withdrawOwn_parts _ _).2.1]
  rfl

/-- Becoming FREE builds no wave. -/
theorem freeEntry_flags (e : Entry) (w : Work) : (freeEntry e w).joining = w.joining ∧
    (freeEntry e w).serve = w.serve := ⟨rfl, rfl⟩

/-- A refusal or fault counted changes the SQU alone (R51). -/
theorem countReport_parts (r : Report) (s : State) : (countReport r s).ne = s.ne ∧
    (countReport r s).rcu = s.rcu ∧ (countReport r s).liu = s.liu ∧ (countReport r s).wsu = s.wsu ∧
    (countReport r s).fcu = s.fcu ∧ (countReport r s).rm = s.rm ∧ (countReport r s).cfl = s.cfl ∧
    (countReport r s).ilu = s.ilu ∧ (countReport r s).snu = s.snu := by
  unfold countReport; split <;> simp

/-- A STATUS owed sets the mark of its entry, and changes nothing of the other blocks named below (R62). -/
theorem owe_ne (e : Entry) (r : Report) (s : State) :
    (owe e r s).ne = { s.ne with status := put s.ne.status e (some r) } := by
  simp [owe, renew_ne, (countReport_parts _ _).1]
theorem owe_rcu (e : Entry) (r : Report) (s : State) : (owe e r s).rcu = s.rcu := by
  simp [owe, renew_rcu, (countReport_parts _ _).2.1]
theorem owe_wsu (e : Entry) (r : Report) (s : State) : (owe e r s).wsu = s.wsu := by
  simp [owe, renew_wsu, (countReport_parts _ _).2.2.2.1]
theorem owe_fcu (e : Entry) (r : Report) (s : State) : (owe e r s).fcu = s.fcu := by
  simp [owe, renew_fcu, (countReport_parts _ _).2.2.2.2.1]
theorem owe_cfl (e : Entry) (r : Report) (s : State) : (owe e r s).cfl = s.cfl := by
  simp [owe, renew_cfl, (countReport_parts _ _).2.2.2.2.2.2.1]

/-- An ended claim: the owed CLAIM of the entry goes, the net table stands. -/
theorem endClaim_parts (e : Entry) (s : State) : (endClaim e s).ne = s.ne ∧
    (endClaim e s).rcu = { s.rcu with claims := put s.rcu.claims e none } ∧ (endClaim e s).cfl = s.cfl ∧
    (endClaim e s).wsu = s.wsu ∧ (endClaim e s).fcu = s.fcu := by
  unfold endClaim
  have := withdrawOwn_parts e (unclaim e s)
  simp [this]; rfl

/-- The later of two writes to one register stands. -/
theorem put_put {n : Nat} {α : Type} (t : Table n α) (i : Fin n) (a b : α) : put (put t i a) i b = put t i b := by
  apply table_ext; intro j; simp only [look_put]; split <;> rfl

/-- The later of two writes to one entry stands. -/
theorem setEntry_setEntry (s : State) (e : Entry) (a b : NetEntry) :
    (s.setEntry e a).setEntry e b = s.setEntry e b := by
  simp [State.setEntry, put_put]

/-- RELEASE becomes owed for exactly the resources the entry holds (R73). -/
theorem oweReleases_rcu (e : Entry) (s : State) :
    (oweReleases e s).rcu = { s.rcu with
      releases := each (fun r b => b || decide (look s.rcu.holdings r = some e)) s.rcu.releases } := rfl

/-- OPENED owed: the mark of the entry, with the reason R63 gives. -/
theorem oweOpened_ne (e : Entry) (s : State) :
    (oweOpened e s).ne = { s.ne with
      status := put s.ne.status e (some ⟨(s.entry e).site, (s.entry e).net, .opened, openedReason (s.entry e).reason,
        (s.entry e).resource.map NetResource.code, none⟩) } := by
  simp [oweOpened, oweEntry, owe_ne]
theorem oweOpened_rcu (e : Entry) (s : State) : (oweOpened e s).rcu = s.rcu := by
  simp [oweOpened, oweEntry, owe_rcu]

/-- The closing report marks its own entry as reported, where it is owed, and no other. -/
theorem closingReport_entry (e : Entry) (w : Work) (x : Entry) :
    (closingReport e w).st.entry x =
      if e = x then { w.st.entry e with reported := (w.st.entry e).reported || !(w.st.entry e).refused }
      else w.st.entry x := by
  have h0 : ∀ i, (oweOpened e w.st).entry i = w.st.entry i := by
    intro i; unfold State.entry; rw [oweOpened_ne]
  unfold closingReport; dsimp only [Work.ent]
  cases hr : (w.st.entry e).reported <;> cases hf : (w.st.entry e).refused <;> by_cases h : e = x
  · subst h; simp [Work.modEnt, Work.upd, h0]
  · simp [Work.modEnt, Work.upd, State.setEntry_entry_ne _ _ h, h0, h]
  all_goals first
    | (subst h; simp [← hr])
    | simp [h]
/-- The closing report changes nothing of the RCU. -/
theorem closingReport_rcu (e : Entry) (w : Work) : (closingReport e w).st.rcu = w.st.rcu := by
  unfold closingReport; dsimp only
  split
  · rfl
  · simp [Work.modEnt, Work.upd, oweOpened_rcu]
/-- The closing report builds no wave and makes no pass due. -/
theorem closingReport_flags (e : Entry) (w : Work) : (closingReport e w).joining = w.joining ∧
    (closingReport e w).serve = w.serve ∧ (closingReport e w).pass = w.pass := by
  unfold closingReport; dsimp only; split <;> exact ⟨rfl, rfl, rfl⟩

/-- An entry that a holding is tied to is holding. -/
theorem held_mem {s : State} {e : Entry} {r : Resource} (h : look s.rcu.holdings r = some e) :
    s.holding e = true := by
  unfold State.holding
  have : r ∈ s.held e := by unfold State.held; rw [mem_indices]; simpa using h
  cases hh : s.held e with
  | nil => rw [hh] at this; cases this
  | cons a l => simp

/-- The release handshake of an entry that holds a resource and awaits nobody: RELEASE for all it holds,
    and its closing report. -/
theorem handshake_holding {e : Entry} {w : Work} {r : Resource} (ha : (w.ent e).awaited =
    []) (hs : (w.ent e).state = .awaitOpened ∨ (w.ent e).state = .releaseBlocked)
   (hr : look w.st.rcu.holdings r = some e) : handshake e w = closingReport e (w.upd (oweReleases e)) := by
  unfold handshake
  dsimp only
  rw [if_pos ⟨ha, hs⟩]
  unfold tryFree
  dsimp only
  rw [if_neg]
  rintro ⟨-, h⟩
  have := held_mem (s := (closingReport e (w.upd (oweReleases e))).st) (e := e) (r := r)
    (by rw [closingReport_rcu]; exact hr)
  rw [this] at h; cases h

end Sys2Proof.Machine
end

