-- ==== Sys2Proof/WellFormed.lean ====
section
/-! DEFINITION. Which commands are well formed: the checks that the operand types do not already make. -/

namespace Sys2Proof

/-- A sampled frame carries as many payload bytes as its length field says, or twelve where the field reads 13, 14 or 15 (R20). -/
def Sampled.wf (h : Sampled) : Bool := decide (h.payload.length = min h.length.val 12)

/-- Time moves on by less than half the Timebase's range between two commands, so that counts compare as R83 gives. -/
def elapsedWf (i : Instr) : Bool := decide (i.elapsed < 2147483648)

/-- The well-formed commands. -/
def Instr.wf (i : Instr) : Bool :=
  elapsedWf i && match i with
    | .checkFieldEnd _ h => h.wf
    | _ => true

end Sys2Proof
end

