-- ==== Sys2Proof/Tests/Slice0.lean ====
section
/-! SUPPORT. Tests: the well-formedness checks on terms each refuses, one small test for every command with its expected result
from the rule named, and, for every statement with hypotheses, states and operands that meet them (`witness_` and the
statement's name). -/

namespace Sys2Proof.Tests

set_option Elab.async false

open Sys2Proof.Machine

/-! ### Small states -/

/-- Node 5 after its load and listen period: RM ready, every relay OPEN, full meter, eight VALID areas of 128 words. -/
def card : State :=
  { State.reset with
    squ := { Squ.reset with
      valid := fill 8 true
      queues := Vector.ofFn (fun i => SiteQueue.empty (128 * i.val))
      budgets := #v[8, 4, 2, 1] }
    wsu := { Wsu.reset with credit := some 48 }
    rm := ⟨fill 640 ⟨.opened, none, false, false, none⟩, true⟩
    cfl := { Cfl.reset with phase := .running, powerOnLoad := false, node := 5 } }

/-- A frame of a node. -/
def frame (k : Kind) (n : Node) (payload : List Byte) : Frame := ⟨Kind.prio k, k, n, payload⟩

/-- A frame of node n stands alone in the receive buffer. -/
def State.hears (s : State) (k : Kind) (n : Node) (payload : List Byte) : State :=
  { s with liu := { s.liu with rx := [frame k n payload] } }

/-- A frame of the part's own made from a mark is on the line. -/
def State.sends (s : State) (m : Owed) : State := { s with liu := { s.liu with own := some (s.ownFrameOf m) } }

/-- An entry holds a resource, and the view shows it. -/
def State.holds (s : State) (e : Entry) (r : Resource) : State :=
  { (s.setView r ⟨some s.cfl.node, some ((s.entry e).site, (s.entry e).net), true, 0, false, none⟩) with
    rcu := { s.rcu with
      view := put s.rcu.view r ⟨some s.cfl.node, some ((s.entry e).site, (s.entry e).net), true, 0, false, none⟩
      holdings := put s.rcu.holdings r (some e) } }

/-- The state a command ends in, or the state before it where it does not answer one. -/
def after (c : Instr) (s : State) : State :=
  match exec c s with
  | .next t => t
  | _ => s

/-- The anchor of net (1, 200) on T2, pin P0, with node 12 awaited. -/
def anchorNet (q : EntryState) : NetEntry :=
  { NetEntry.free with
    state := q, site := 1, net := 200, role := .anchor, anchor := 5, request := .trunk 2, resource := some (.trunk 2)
    pins := [0], peers := [12], awaited := [12] }

/-- A participant of net (1, 200), whose anchor is node 9, pin P0. -/
def partNet (q : EntryState) : NetEntry :=
  { NetEntry.free with state := q, site := 1, net := 200, role := .participant, anchor := 9, pins := [0] }

/-- Entry 3 is the anchor of (1, 200) and holds T2. -/
def withAnchor (q : EntryState) : State := State.holds (card.setEntry 3 (anchorNet q)) 3 2

/-- Entry 3 is a participant of (1, 200). -/
def withPart (q : EntryState) : State := card.setEntry 3 (partNet q)

/-- A record at the head of site 1's queue. -/
def queued (b : QueueBody) (s : State) : State := s.setQueue 1 ((SiteQueue.empty 128).push (s.siteParams 1) b)

/-- A ROUTE record of net (1, 200) with pin P0. -/
def routeRec (role : Role) (q : Request) : RouteRecord :=
  { net := 200, flags := ⟨false, false, false⟩, request := q, role := role, anchor := 5, peers := [12], pins := [0] }

/-- A save whose write of block 2 is under way, sixty-six zero bytes. -/
def saving : State :=
  { card with wru := { card.wru with save := some ⟨3, 0, 2, 0, List.replicate 66 0#8⟩, dirty := put card.wru.dirty 9 true } }

/-- The MAINT payload to node 5. -/
def maintFor (op : Nat) (args : List Byte) : List Byte := 5#8 :: byte op :: args

/-- A sampled SOURCE of node 9 with its check. -/
def sampled (check : BitVec 16) : Sampled := ⟨0, .source, 9, 2, [3#8, 1#8], check⟩

/-- The right check of that SOURCE. -/
def soundCheck : BitVec 16 := frameCheck 0 .source 9 2 [3#8, 1#8]

/-- A wave of entry 3 with nothing pulsed. -/
def wave (ph : Phase) (l : List (Relay × Bool)) : Wave := ⟨.entry 3, ph, [], l, some 2, true, false, false, none⟩

/-- Another entry's wave stands in the queue, for want of credit, so that waves built now wait behind it. -/
def busied (s : State) : State :=
  { s with wsu := { s.wsu with queue := [⟨.entry 7, .innerConnect, [], [(2, true)], none, false, false, false, none⟩], credit := some 0 } }

/-- A relay stands CLOSED, owned by entry 3. -/
def closedOf3 (s : State) (r : Relay) : State := s.setRelay r ⟨.closed, some 3, false, false, none⟩

/-! ### Well-formedness and decoding -/

theorem test_wf_refuses_long_wait : Instr.wf (.ready 2147483648) = false := by decide
theorem test_wf_takes_longest_wait : Instr.wf (.ready 2147483647) = true := by decide
theorem test_wf_refuses_short_payload : Instr.wf (.checkFieldEnd 0 ⟨0, .source, 9, 2, [3#8], 0#16⟩) = false := by decide
theorem test_wf_refuses_long_payload :
    Instr.wf (.checkFieldEnd 0 ⟨0, .source, 9, 13, List.replicate 13 0#8, 0#16⟩) = false := by decide
theorem test_wf_takes_overlong_length_field :
    Instr.wf (.checkFieldEnd 0 ⟨0, .source, 9, 13, List.replicate 12 0#8, 0#16⟩) = true := by decide
theorem test_no_word_spells_a_command : decodeTableWord 16 0x1234 = none := by decide

/-! ### Indices, arbitration values and the check, from the manual's examples -/

/-- R2's examples: X(9,6) is 150, X(17,6) is 278, Y(31,1) is 575, A(6) is 582, S(17) is 609 and M(15) is 639. -/
theorem test_relay_indices :
    relayX 9 6 = 150 ∧ relayX 17 6 = 278 ∧ relayY 31 1 = 575 ∧ relayA 6 = 582 ∧ relayS 17 = 609 ∧ relayM 15 = 639 := by decide

/-- The arbitration values of chapter 2's example: CLAIM of nodes 4 and 9, ROUTE of node 20. -/
theorem test_arbitration_values :
    arbitration 1 .claim 4 = 1156 ∧ arbitration 1 .claim 9 = 1161 ∧ arbitration 2 .route 20 = 2516 := by decide

/-- The check register of the ASCII bytes "123456789" under R19's generator and start value is 0x29B1. -/
theorem test_check_register :
    crc (bytesBits [0x31#8, 0x32#8, 0x33#8, 0x34#8, 0x35#8, 0x36#8, 0x37#8, 0x38#8, 0x39#8]) = 0x29B1#16 := by decide +kernel

/-! ### Resets and start -/

theorem test_power_on_reads_straps : (after (.powerOnReset 7 21) card).cfl.node = 21 := by decide +kernel
theorem test_power_on_restarts_timebase : (after (.powerOnReset 7 21) card).tb.count = 0 := by decide +kernel
theorem test_cold_pin_runs_timebase_on : (after (.coldPinReset 7 21) card).tb.count = 7 := by decide +kernel
theorem test_cold_pin_makes_relays_opening : ((after (.coldPinReset 0 21) card).relay 0).state = .opening := by decide +kernel
theorem test_warm_keep_keeps_connected : (after (.warmKeep 0 5) (withAnchor .connected)).entry 3 = anchorNet .connected := by
  decide +kernel
theorem test_warm_keep_faults_in_flight :
    ((after (.warmKeep 0 5) (withAnchor .connectInner)).entry 3).reason = some .resetInFlight := by decide +kernel
/-- R127 and the start-sweep example: 48 crosspoints are pulsed at the end of the load. -/
theorem test_load_end_starts_sweep :
    (after (.configurationLoadEnd 0 .noAddress) (after (.coldPinReset 0 21) card)).wsu.credit = some 0 := by decide +kernel
theorem test_lost_block_takes_threshold :
    look (after (.wearBlockRead 0 .noAddress .noData) State.reset).wru.counts 15 = 5000000 := by decide +kernel
theorem test_absent_store_is_noted :
    look (after (.wearBlockRead 0 .noAddress .noAddress) State.reset).fcu.notes noteStoreAbsent = some 0#16 := by decide +kernel
/-- A card in its listen period, which ends at 60 ms. -/
def listening : State := { card with cfl := { card.cfl with listen := true, listenEnd := 60000 } }
theorem test_listen_ends_at_its_time : (after (.listenPeriodEnd 60000) listening).cfl.listen = false := by decide +kernel
theorem test_listen_lasts_until_then : (after (.listenPeriodEnd 59999) listening).cfl.listen = true := by decide +kernel
theorem test_reset_asserted_tears_block : look (after (.resetAsserted 0) saving).memory.torn 2 = true := by decide +kernel

/-! ### Link events -/

/-- Entry 3 owes a CLAIM of T2. -/
def claiming : State :=
  { card.setEntry 3 (anchorNet .awaitResource) with rcu := { card.rcu with claims := put card.rcu.claims 3 (some 2) } }

theorem test_idle_point_sends_claim :
    (after (.idlePoint 11) claiming).liu.own.map (fun o => (o.owed, o.frame, o.start))
      = some (.claim 3 2, frame .claim 5 [2#8, 1#8, 0#8, 200#8], 11) := by decide +kernel
/-- R20: the idle point comes with the 11th released bit time. -/
theorem test_idle_point_needs_eleven_bits : (after (.idlePoint 10) claiming).liu.own = none := by decide +kernel
/-- R18: a CLAIM of 4 payload bytes lasts 42 + 32 bit times, the last nine of them released. -/
theorem test_claim_bits :
    (sentBits (frame .claim 5 [2#8, 1#8, 0#8, 200#8]) 0#16).length = 74
    ∧ (sentBits (frame .claim 5 [2#8, 1#8, 0#8, 200#8]) 0#16).take 13
      = [false, false, true, false, false, true, false, false, false, false, true, false, true] := by decide +kernel
theorem test_deferred_start_needs_idle_point : (after (.deferredFrameStart 0) claiming).liu.own = none := by decide +kernel
theorem test_lost_contention_keeps_mark :
    look (after (.lostContention 0) (State.sends claiming (.claim 3 2))).rcu.claims 3 = some 2 := by decide +kernel
theorem test_readback_fault_latches :
    (after (.readbackFault 0) (State.sends claiming (.claim 3 2))).liu.link = .duplicateLatch := by decide +kernel
/-- A card that has counted an idle line. -/
def idle : State := { card with liu := { card.liu with synced := true } }
theorem test_damaged_frame_is_objected :
    ((after (.checkFieldEnd 0 (sampled (soundCheck ^^^ 1#16))) idle).liu.hearing.map Hearing.objecting) = some true := by
  decide +kernel
theorem test_sound_frame_is_delivered :
    (after (.objectionSlotRead 2 false) (after (.checkFieldEnd 0 (sampled soundCheck)) idle)).liu.rx
      = [frame .source 9 [3#8, 1#8]] := by decide +kernel
theorem test_claim_sent_becomes_holding :
    look (after (.objectionSlotRead 0 false) (State.sends claiming (.claim 3 2))).rcu.holdings 2 = some 3 := by decide +kernel

/-! ### Heard frames -/

theorem test_source_sets_flag : (look (after (.source 0) (State.hears card .source 9 [3#8, 1#8])).liu.roster 9).live = 8#16 := by
  decide +kernel
theorem test_abort_owes_ready :
    look (after (.abort 0) (State.hears card .abort 9 [1#8])).squ.ready 1 = some ⟨255, 0, 0, 0⟩ := by decide +kernel
theorem test_claim_installs_holder :
    ((after (.claim 0) (State.hears card .claim 9 [16#8, 1#8, 0#8, 200#8])).viewOf 16).holder = some 9 := by decide +kernel
theorem test_claim_connects_participant :
    ((after (.claim 0) (State.hears (withPart .awaitAnchor) .claim 9 [2#8, 1#8, 0#8, 200#8])).relay 2).state = .closing := by
  decide +kernel
theorem test_release_clears_holder :
    ((after (.release 0) (State.hears (card.setView 3 ⟨some 9, none, false, 0, true, none⟩) .release 9
      [3#8, 0#8, 0#8, 7#8])).viewOf 3).holder = none := by decide +kernel
theorem test_cancel_frees_waiting_participant :
    ((after (.cancel 0) (State.hears (withPart .awaitAnchor) .cancel 9 [1#8, 0#8, 200#8])).entry 3).state = .free := by
  decide +kernel
theorem test_beacon_installs_holder :
    (after (.beacon 0) (State.hears card .beacon 9 [0#8, 1#8, 0#8, 0#8, 0#8, 0#8])).viewOf 16
      = ⟨some 9, none, false, 0, true, none⟩ := by decide +kernel
theorem test_clear_owes_release :
    look (after (.clear 0) (State.hears (withAnchor .releaseBlocked) .clear 9 [2#8])).rcu.releases 2 = true := by decide +kernel
/-- R39: one pin makes a record of 2 + 1 words. -/
theorem test_route_queues_three_words :
    ((after (.route 0) (State.hears card .route 9 [16#8, 16#8, 0#8, 200#8, 5#8, 31#8])).queueOf 1).used = 3 := by decide +kernel
theorem test_unroute_queues_one_word :
    ((after (.unroute 0) (State.hears (withPart .connected) .unroute 9 [1#8, 0#8, 200#8])).queueOf 1).used = 1 := by
  decide +kernel
theorem test_monitor_needs_anchor :
    ((after (.monitor 0) (State.hears (withPart .connected) .monitor 9 [1#8, 0#8, 200#8, 1#8])).queueOf 1).used = 0 := by
  decide +kernel
theorem test_fence_on_invalid_site_answers :
    look (after (.fence 0) (State.hears { card with squ := Squ.reset } .fence 9 [1#8, 254#8])).squ.ready 1
      = some ⟨254, 0, 0, 0⟩ := by decide +kernel
theorem test_save_starts_at_dirty_block :
    (after (.saveWear 0) (State.hears (card.dirtyBlock 9) .maint 9 (maintFor 1 [0#8, 0#8, 0#8, 0#8]))).wru.save.map Save.block
      = some 9 := by decide +kernel
theorem test_read_wear_out_of_range :
    (after (.readWear 0) (State.hears card .maint 9 (maintFor 2 [2#8, 128#8, 0#8, 0#8]))).wru.answer = some .readWearBadArg := by
  decide +kernel
theorem test_clear_marks_dirties_unmarked_block :
    look (after (.clearMarks 0) (State.hears card .maint 9 (maintFor 3 [1#8, 44#8, 1#8, 47#8]))).wru.dirty 18 = true := by
  decide +kernel
/-- A FULL first-fault record with count 3. -/
def faulted : State := { card with fcu := { card.fcu with record := some ⟨⟨.muted, none, none, none, none⟩, 9, 3⟩ } }
theorem test_read_fault_keeps_record :
    (after (.readFault 0) (State.hears faulted .maint 9 (maintFor 4 [0#8, 0#8, 0#8, 0#8]))).faultDriven = true := by decide +kernel
theorem test_clear_fault_answers_count :
    (after (.clearFault 0) (State.hears faulted .maint 9 (maintFor 5 [0#8, 0#8, 0#8, 0#8]))).fcu.answer
      = some (.clearFault 3) := by decide +kernel
theorem test_status_empties_awaited :
    ((after (.status 0) (State.hears (withAnchor .awaitOpened) .status 12
      [1#8, 0#8, 200#8, 1#8, 0#8, 31#8, 255#8, 255#8])).entry 3).awaited = [] := by decide +kernel
theorem test_ready_marks_node_present :
    (look (after (.ready 0) (State.hears card .ready 9 [0#8, 7#8, 0#8, 0#8, 0#8])).liu.roster 9).present = true := by
  decide +kernel
theorem test_note_with_bad_cause_is_discarded :
    (look (after (.note 0) (State.hears card .note 9 [8#8, 0#8, 0#8])).liu.roster 9).present = false := by decide +kernel
theorem test_maint_done_leaves_buffer : (after (.maintDone 0) (State.hears card .maintDone 9 [1#8, 3#8])).liu.rx = [] := by
  decide +kernel
theorem test_maint_for_another_owes_nothing :
    (after (.maintForAnotherTargetNode 0) (State.hears card .maint 9 [6#8, 1#8, 0#8, 0#8, 0#8, 0#8])).wru.answer = none := by
  decide +kernel

/-! ### Work of the part's own, and times that pass -/

theorem test_arbiter_refuses_busy_pin :
    look (after (.arbiterDispatch 0) (queued (.route (routeRec .participant .any))
      { card with ne := { card.ne with binding := put card.ne.binding 0 (some 7) } })).ne.siteStatus 1
      = some ⟨1, 200, .refused, .pinBusy, none, none⟩ := by decide +kernel
/-- R64: W + 100 ms at the default W of 500 ms. -/
theorem test_arbiter_starts_participant_wait :
    ((after (.arbiterDispatch 0) (queued (.route (routeRec .participant .any)) card)).entry 0).deadline = some 600000 := by
  decide +kernel
theorem test_boundary_counts_failure :
    (after (.beaconPeriodBoundary 50000) { card with tb := ⟨0, 50000⟩ }).rcu.failures = 1 := by decide +kernel
theorem test_credit_boundary_refills :
    (after (.creditBoundary 100) { card with wsu := { card.wsu with credit := some 37 } }).wsu.credit = some 45 := by
  decide +kernel
theorem test_settle_end_closes_relay :
    ((after (.settleEnd 500 40) (card.setRelay 40 ⟨.closing, some 3, false, false, some 500⟩)).relay 40).state = .closed := by
  decide +kernel
/-- Entry 3's held connect wave of net (1, 200) and its hold until 200 ms. -/
def held (connect : Bool) : State :=
  { State.holds (card.setEntry 3 (anchorNet .connectInner)) 3 2 with
    ilu := ⟨put card.ilu.holds 3 (some ⟨2, connect, 200000, false, true⟩)⟩
    wsu := { card.wsu with held := [wave .innerConnect [(2, true)]] } }
theorem test_connect_hold_expiry_refuses :
    ((look (after (.connectHoldExpiry 200000 3) (held true)).ne.status 3).map Report.reason) = some .holdTimeout := by
  decide +kernel
/-- Entry 3's held outer disconnect wave. -/
def heldOpen : State :=
  { State.holds (card.setEntry 3 (anchorNet .disconnectOuter)) 3 2 with
    rm := ⟨put card.rm.relays 592 ⟨.closed, some 3, false, false, none⟩, true⟩
    ilu := ⟨put card.ilu.holds 3 (some ⟨2, false, 200000, false, true⟩)⟩
    wsu := { card.wsu with held := [wave .outerDisconnect [(592, false)]] } }
theorem test_disconnect_hold_expiry_captures :
    ((after (.disconnectHoldExpiry 200000 3) heldOpen).fcu.record.map (fun r => r.capture.cause)) = some .hotBreak := by
  decide +kernel
/-- Entry 3 in a waiting state with a deadline at 500 ms. -/
def waiting (x : NetEntry) : State := card.setEntry 3 { x with deadline := some 500000 }
theorem test_resource_deadline_owes_cancel :
    look (after (.awaitResourceDeadline 500000 3) (waiting (anchorNet .awaitResource))).ne.cancel 3 = some (1, 200) := by
  decide +kernel
theorem test_anchor_deadline_frees :
    ((after (.awaitAnchorDeadline 500000 3) (waiting (partNet .awaitAnchor))).entry 3).state = .free := by decide +kernel
theorem test_opened_deadline_blocks :
    ((after (.awaitOpenedDeadline 500000 3) (waiting (anchorNet .awaitOpened))).entry 3).state = .releaseBlocked := by
  decide +kernel
/-- Entry 3 is CONNECTED and waits for MON. -/
def monitoring : State := waiting { anchorNet .connected with monitor := .claiming }
theorem test_monitor_wait_expiry_turns_off :
    ((after (.monitorClaimWaitExpiry 500000 3) monitoring).entry 3).monitor = .off := by decide +kernel
/-- T4 cools until 100 ms. -/
def cooling : State := card.setView 4 { ViewEntry.cleared with cooling := some 100000 }
theorem test_cooling_end_removes_mark : ((after (.coolingEnd 100000 4) cooling).viewOf 4).cooling = none := by decide +kernel
/-- A job of relay 32 in SENSING after n senses, its entry 3 with k jobs left. -/
def sensing (n k : Nat) : State :=
  { card with snu := { card.snu with
      sensing := some ⟨32, 3, n, none⟩, senseEnd := some 20, queue := [⟨16, 3, 0, none⟩]
      verifications := put card.snu.verifications 3 (some ⟨k, [], false⟩) } }
theorem test_fourth_failure_is_suspect : ((after (.senseEnd 20 false) (sensing 3 2)).relay 32).suspect = true := by decide +kernel
theorem test_second_pass_is_slow : ((after (.senseEnd 20 true) (sensing 1 2)).relay 32).slow = true := by decide +kernel
/-- A job of relay 32 in STEPPING until 75 µs. -/
def stepping : State := { card with snu := { card.snu with stepping := [⟨32, 3, 1, some 75⟩] } }
theorem test_step_end_starts_sense : (after (.stepEnd 75) stepping).snu.sensing = some ⟨32, 3, 1, none⟩ := by decide +kernel
theorem test_block_write_goes_on : (after (.blockWriteEnd 6500) saving).wru.save.map Save.block = some 9 := by decide +kernel
theorem test_block_write_failure_dirties : look (after (.blockWriteFailure 6500) saving).wru.dirty 2 = true := by decide +kernel

/-! ### Witnesses: states and operands that meet the hypotheses of each statement, clause by clause -/

/-- The front of a card's buffer, from facts that evaluate. -/
theorem front_of {s : State} {f : Frame} {m : Msg}
    (h : s.running = true ∧ s.liu.rx.head? = some f ∧ parse f = some m ∧ f.src ≠ s.cfl.node) : s.Front f m :=
  ⟨h.1, h.2.1, h.2.2.1, h.2.2.2⟩

/-- The hypotheses shared by the heard frames: the frame stands in front and no wave is held. -/
theorem heard_of (k : Kind) (n : Node) (p : List Byte) (m : Msg) (s : State)
    (h : (s.running = true ∧ s.liu.rx = [] ∧ s.wsu.held = [] ∧ n ≠ s.cfl.node) ∧ parse (frame k n p) = some m) :
    (State.hears s k n p).Front (frame k n p) m ∧ (State.hears s k n p).wsu.held = [] :=
  ⟨⟨h.1.1, rfl, h.2, h.1.2.2.2⟩, h.1.2.2.1⟩

/-- An entry at rest, from facts that evaluate. -/
theorem rests_of {s : State} {e : Entry}
    (h : ((s.entry e).state = .connected ∧ (s.entry e).monitor = .off ∧ (s.entry e).releasePending = none
      ∧ (s.entry e).reason = none) ∧ look s.snu.verifications e = none
      ∧ (∀ v ∈ s.wsu.queue ++ s.wsu.held ++ s.wsu.settling, v.owner ≠ .entry e)) (r : s.wsu.recovery = []) : s.atRest e :=
  ⟨h.1.1, .inl h.1.2.1, h.1.2.2.1, by rw [h.1.2.2.2]; decide, h.2.1, h.2.2,
    by rw [r]; exact fun p h => absurd h List.not_mem_nil⟩

theorem witness_StepRunsFrontCommand :
    { card with pending := [.idlePoint 0] }.pending = .idlePoint 0 :: [] := rfl

theorem witness_ResetAssertedCutsWork :
    { card with cfl := { card.cfl with phase := .inReset } }.cfl.phase = .inReset
    ∧ card.cfl.phase ≠ .inReset ∧ card.liu.own = none ∧ card.wru.save = none
    ∧ saving.cfl.phase ≠ .inReset ∧ saving.wru.save.isSome = true := by decide +kernel

theorem witness_ColdPinResetKeepsWearAndRecord :
    State.reset.cfl.powerOnLoad = true ∧ card.cfl.powerOnLoad = false := by decide +kernel

theorem witness_WarmKeepKeepsRestedEntries :
    State.reset.cfl.powerOnLoad = true ∧ (withAnchor .connectInner).cfl.powerOnLoad = false
    ∧ ((resetAsserted (advance 1 (withAnchor .connectInner))).entry 3).state.kept = false
    ∧ ((resetAsserted (advance 1 (withAnchor .connectInner))).entry 0).state.kept = true
    ∧ ((resetAsserted (advance 1 (held true))).relay 2).state = .opened
    ∧ (∃ v ∈ (resetAsserted (advance 1 (held true))).wsu.held, ∃ p ∈ v.todo, p.1 = 2)
    ∧ ((resetAsserted (advance 1 heldOpen)).relay 592).state ≠ .opened := by decide +kernel

/-- A card in the load after a pin reset, and one in a power-on load that has taken every block. -/
def loading : State := { card with cfl := { card.cfl with phase := .loading, kind := .coldPin } }
def powerOnLoaded : State := { State.reset with cfl := { State.reset.cfl with nextBlock := 40 } }

theorem witness_ConfigurationLoadEndGivesParameters :
    (advance 0 loading).loadDone = true ∧ (advance 3 powerOnLoaded).loadDone = true := by decide +kernel

/-- A load with relay 592 on its way: of nobody, with the RM not ready, or of entry 3, which a warm keep winds up. -/
def sweepLoading : State :=
  { loading with rm := ⟨put loading.rm.relays 592 ⟨.opening, none, false, false, none⟩, false⟩ }
def recoveryLoading : State :=
  { (loading.setEntry 3 { anchorNet .faulted with winding := true }).setRelay 592 ⟨.opening, some 3, false, false, none⟩ with
    wsu := { loading.wsu with recovery := [(592, 3)], credit := none } }

theorem witness_ConfigurationLoadEndGivesParameters_waves :
    (sweepLoading.wsu.queue = [] ∧ sweepLoading.rm.ready = false ∧ (∀ e, (sweepLoading.entry e).state = .free)
      ∧ (advance 0 sweepLoading).loadDone = true
      ∧ ∀ e, (sweepLoading.entry e).state ≠ .awaitResource ∧ (sweepLoading.entry e).monitor ≠ .claiming)
    ∧ (recoveryLoading.wsu.queue = [] ∧ recoveryLoading.rm.ready = true ∧ recoveryLoading.wsu.recovery ≠ []
      ∧ (advance 0 recoveryLoading).loadDone = true
      ∧ (recoveryLoading.relay 592).state = .opening
      ∧ (∀ e, (recoveryLoading.entry e).state ≠ .awaitResource ∧ (recoveryLoading.entry e).monitor ≠ .claiming)
      ∧ recoveryLoading.wsu.recovery = [(592, 3)] ∧ ∀ e, e ≠ 3 → (recoveryLoading.entry e).state = .free) := by
  decide +kernel

theorem witness_RecordIsDefaultedOrClamped :
    (MemAnswer.noData ≠ .acknowledged)
    ∧ (byteAt [0xA6#8, 1#8] 0 ≠ 0xA7 ∨ byteAt [0xA6#8, 1#8] 1 ≠ 1)
    ∧ (byteAt [0xA7#8, 1#8] 0 = 0xA7 ∧ byteAt [0xA7#8, 1#8] 1 = 1 ∧ byteSum [0xA7#8, 1#8] ≠ 0)
    ∧ (byteAt [0xA7#8, 1#8, 0x58#8] 0 = 0xA7 ∧ byteAt [0xA7#8, 1#8, 0x58#8] 1 = 1 ∧ byteSum [0xA7#8, 1#8, 0x58#8] = 0) := by decide

/-- A power-on load at block b, and one whose memory holds a sound block 0. -/
def readingBlock (b : Nat) : State := { State.reset with cfl := { State.reset.cfl with nextBlock := b } }
def soundStore : State :=
  { State.reset with memory := { State.reset.memory with
      cells := Memory.writeAll [] 256 (withCheck (List.replicate 64 0#8)) } }

theorem witness_WearBlockReadTakesBlock_sound :
    (soundStore.cfl.phase = .loading ∧ soundStore.cfl.powerOnLoad = true ∧ soundStore.cfl.nextBlock = (0 : Block).val
      ∧ ¬ ((0 : Block).val = 0 ∧ MemAnswer.acknowledged = .noAddress) ∧ look soundStore.memory.torn 0 = false
      ∧ blockOf 15 = (0 : Block)) := by decide +kernel

theorem witness_WearBlockReadTakesBlock_check :
    blockSound (Memory.readAll soundStore.memory.cells (blockOffset 0) 66) = true := by
  have l : (withCheck (List.replicate 64 0#8)).length = 66 := by simp [withCheck, bytes2]
  have e := Memory.readAll_writeAll (m := []) 256 (withCheck (List.replicate 64 0#8)) rfl
  rw [l] at e
  unfold soundStore
  simp only [blockOffset, Nat.mul_zero, Nat.add_zero]
  rw [e]
  exact blockSound_withCheck _ (by simp)

theorem witness_WearBlockReadTakesBlock :
    ((readingBlock 39).cfl.nextBlock = (39 : Block).val ∧ ¬ ((39 : Block).val = 0 ∧ MemAnswer.noData = .noAddress)
      ∧ blockOf 639 = (39 : Block) ∧ blockOf 0 ≠ (39 : Block))
    ∧ ((readingBlock 0).cfl.nextBlock = (0 : Block).val ∧ (0 : Block).val = 0 ∧ MemAnswer.noAddress = .noAddress) := by
  decide +kernel

theorem witness_ListenPeriodEndOpensDispatch :
    (advance 60000 listening).listenDue = true ∧ listening.wsu.held = [] ∧ listening.cfl.kind ≠ .warmKeep := by decide +kernel

theorem witness_IdlePointStartsChosenFrame :
    ((advance 11 claiming).quietLine = true ∧ claiming.liu.rx = [] ∧ claiming.liu.idle = false
      ∧ ((advance 11 claiming).now - claiming.liu.idleFrom).toNat < 2147483648 ∧ (advance 11 claiming).idleCount = 11)
    ∧ ((advance 10 claiming).quietLine = true ∧ (advance 10 claiming).idleCount < 11)
    ∧ ((advance 11 (State.hears claiming .ready 9 [])).quietLine = true ∧ (State.hears claiming .ready 9 []).liu.rx ≠ []
      ∧ (advance 11 (State.hears claiming .ready 9 [])).idleCount = 11)
    ∧ (after (.idlePoint 11) card).liu.rx = [] ∧ (after (.idlePoint 11) card).liu.synced = true
    ∧ (after (.idlePoint 11) card).liu.idle = true ∧ (advance 1 (after (.idlePoint 11) card)).quietLine = true := by
  decide +kernel

/-- Entries 0 and 63 each owe a CLAIM. -/
def twoClaims : State := { card with rcu := { card.rcu with claims := put (put card.rcu.claims 0 (some 3)) 63 (some 2) } }

theorem witness_ChosenFrameHasLowestRank :
    ({ card with liu := { card.liu with link := .muted } }.liu.link ≠ .active)
    ∧ ({ listening with cfl := { listening.cfl with firstBeacon := true }, rcu := { card.rcu with beaconOwed := true } }.chosen
      = some .beacon)
    ∧ (twoClaims.liu.link = .active ∧ twoClaims.cfl.listen = false ∧ twoClaims.chosen = some (.claim 0 3)
      ∧ Owed.claim 63 2 ∈ twoClaims.owedMarks)
    ∧ (card.liu.link = .active ∧ card.cfl.listen = false ∧ card.chosen = none) := by decide +kernel

theorem witness_LostContentionKeepsMark :
    (State.sends claiming (.claim 3 2)).running = true ∧ (State.sends claiming (.claim 3 2)).liu.own.isSome = true
    ∧ ((State.sends claiming (.claim 3 2)).entry 3).state ≠ .awaitOpened
    ∧ ((State.sends claiming (.claim 3 2)).entry 3).state ≠ .releaseBlocked
    ∧ ((State.sends claiming (.claim 3 2)).entry 3).monitor ≠ .claiming := by decide +kernel

theorem witness_ReadbackFaultLatches :
    (State.sends card .beacon).running = true ∧ (State.sends card .beacon).liu.own.map OwnFrame.owed = some .beacon := by
  decide +kernel

theorem witness_CheckFieldEndDecidesObjection :
    (advance 0 idle).quietLine = true ∧ idle.liu.synced = true ∧ idle.liu.discarding = false
    ∧ (after (.readbackFault 0) (State.sends idle .beacon)).liu.discarding = true
    ∧ (advance 0 (after (.readbackFault 0) (State.sends idle .beacon))).quietLine = true
    ∧ (after (.readbackFault 0) (State.sends idle .beacon)).liu.synced = true := by decide +kernel

/-- A MUTED card with n clean frames counted. -/
def muted (n : Nat) : State := { idle with liu := { idle.liu with link := .muted, cleans := n } }

theorem witness_MutedCountsCleanFrames :
    ((advance 0 idle).quietLine = true ∧ idle.liu.synced = true ∧ idle.liu.discarding = false ∧ idle.liu.link ≠ .muted)
    ∧ ((advance 0 (muted 30)).quietLine = true ∧ (muted 30).liu.synced = true ∧ (muted 30).liu.link = .muted)
    ∧ (sampledDamaged (sampled (soundCheck ^^^ 1#16)) = true ∧ sampledDamaged (sampled soundCheck) = false)
    ∧ ((muted 30).liu.cleans + 1 < 32 ∧ 32 ≤ (muted 31).liu.cleans + 1 ∧ (advance 0 (muted 31)).quietLine = true
      ∧ (muted 31).liu.synced = true ∧ (muted 31).liu.link = .muted) := by decide +kernel

theorem witness_SlotReadDeliversHeardFrame :
    (after (.checkFieldEnd 0 (sampled soundCheck)) idle).running = true
    ∧ (after (.checkFieldEnd 0 (sampled soundCheck)) idle).liu.own = none
    ∧ (after (.checkFieldEnd 0 (sampled soundCheck)) idle).liu.hearing.isSome = true := by decide +kernel

/-- A frame of the part's own on the line with n objections counted. -/
def objecting (n : Nat) (m : Owed) : State := State.sends { card with liu := { card.liu with objections := n } } m

theorem witness_OwnFrameOutcomeCountsAndClears :
    ((objecting 14 .beacon).running = true ∧ (objecting 14 .beacon).liu.own.map OwnFrame.owed = some .beacon
      ∧ (objecting 14 .beacon).liu.link = .active ∧ (objecting 14 .beacon).liu.objections + 1 < 16)
    ∧ ((objecting 15 .beacon).running = true ∧ (objecting 15 .beacon).liu.link = .active
      ∧ 16 ≤ (objecting 15 .beacon).liu.objections + 1)
    ∧ (∀ m ∈ [Owed.cancel 3, .siteStatus 7, .status 3, .ready 7, .note 7, .wearAnswer, .saveEnd, .faultAnswer],
        (objecting 0 m).liu.own.map (fun o => (o.owed, o.renewed)) = some (m, false))
    ∧ ((objecting 0 (.status 3)).entry 3).releasePending = none := by decide +kernel

/-- The state in which an own frame of a state has left the line with the slot. -/
def offLineNow (s : State) : State :=
  { advance 0 s with liu := { s.liu with own := none, idle := false, idleFrom := later (advance 0 s).now 7 } }

/-- Entry 3's CLAIM of T2 on the line, and the same with T2 held by node 9 in the view. -/
def claimOut : State := State.sends claiming (.claim 3 2)
def claimLost : State := State.sends (claiming.setView 2 ⟨some 9, none, false, 0, true, none⟩) (.claim 3 2)

theorem witness_OwnFrameOutcomeCountsAndClears_claim :
    (∀ s ∈ [claimOut, claimLost], s.running = true ∧ s.liu.link = .active ∧ s.liu.objections + 1 < 16
      ∧ s.liu.own.map OwnFrame.owed = some (.claim 3 2) ∧ (s.entry 3).state = .awaitResource
      ∧ (s.entry 3).request ≠ .localBus ∧ (s.entry 3).monitor ≠ .claiming ∧ (s.entry 3).resource = some (.trunk 2)
      ∧ ∀ i, i ≠ 3 → (s.entry i).state ≠ .awaitResource ∧ (s.entry i).monitor ≠ .claiming)
    ∧ (offLineNow claimOut).candidate 3 2 = true ∧ (offLineNow claimLost).candidate 3 2 = false := by decide +kernel

theorem witness_ResetAssertedCutsWork_own :
    (∀ n ∈ [14, 15], (objecting n .beacon).cfl.phase ≠ .inReset ∧ (objecting n .beacon).liu.own ≠ none
      ∧ (objecting n .beacon).liu.link = .active)
    ∧ (objecting 14 .beacon).liu.objections + 1 < 16 ∧ 16 ≤ (objecting 15 .beacon).liu.objections + 1 := by decide +kernel

theorem witness_OwnClaimReleaseBeaconSent :
    (State.sends claiming (.claim 3 2)).running = true
    ∧ (State.sends claiming (.claim 3 2)).liu.own.map OwnFrame.owed = some (.claim 3 2)
    ∧ (State.sends (withAnchor .awaitOpened) (.release 3 2)).liu.own.map OwnFrame.owed = some (.release 3 2)
    ∧ look (State.sends (withAnchor .awaitOpened) (.release 3 2)).rcu.holdings 2 = some 3
    ∧ (State.sends card .beacon).liu.own.map OwnFrame.owed = some .beacon := by decide +kernel

/-- Entry 3 waits for its CLAIM of T2 on the line behind another entry's wave; and it owes RELEASE, holding MON besides or not. -/
def claimSending : State := State.sends (busied claiming) (.claim 3 2)
def releaseSending (more : Bool) : State :=
  State.sends (if more then State.holds (withAnchor .awaitOpened) 3 16 else withAnchor .awaitOpened) (.release 3 2)

theorem witness_OwnClaimReleaseBeaconSent_entry :
    (claimSending.running = true ∧ claimSending.liu.own.map OwnFrame.owed = some (.claim 3 (trunkResource 2))
      ∧ (claimSending.entry 3).state = .awaitResource ∧ (claimSending.entry 3).monitor ≠ .claiming
      ∧ (∀ i, i ≠ 3 → (claimSending.entry i).state ≠ .awaitResource ∧ (claimSending.entry i).monitor ≠ .claiming)
      ∧ claimSending.wsu.queue ≠ []
      ∧ ∀ q ∈ ([0] : List Pin).map (fun p => relayX p 2) ++ [relayA 2], (claimSending.relay q).state = .opened)
    ∧ (∀ b ∈ [true, false], (releaseSending b).running = true
      ∧ (releaseSending b).liu.own.map OwnFrame.owed = some (.release 3 2)
      ∧ look (releaseSending b).rcu.holdings 2 = some 3 ∧ ((releaseSending b).entry 3).state = .awaitOpened
      ∧ (∀ e, ((releaseSending b).entry e).state ≠ .awaitResource ∧ ((releaseSending b).entry e).monitor ≠ .claiming)
      ∧ (if b then look (releaseSending b).rcu.holdings 16 = some 3
        else ∀ q, q ≠ 2 → look (releaseSending b).rcu.holdings q ≠ some 3)) := by decide +kernel

/-- A NOTE of the own number in the buffer, while the part is to object to another frame from instant 0 on. -/
def duplicateHeard : State :=
  let s := State.hears card .note 5 [7#8, 0#8, 0#8]
  { s with liu := { s.liu with hearing := some ⟨some (frame .source 9 [3#8, 1#8]), true, 0⟩ } }

theorem test_latch_silences_objection :
    duplicateHeard.linkDriven = true ∧ (after (.note 0) duplicateHeard).linkDriven = false
    ∧ (after (.objectionSlotRead 2 false) (after (.note 0) duplicateHeard)).liu.rx.length = 1 := by decide +kernel

theorem witness_MalformedAndDuplicateFrames :
    card.running = true ∧ (State.hears card .note 9 [8#8, 0#8, 0#8]).liu.rx = frame .note 9 [8#8, 0#8, 0#8] :: []
    ∧ parse (frame .note 9 [8#8, 0#8, 0#8]) = none
    ∧ parse (frame .note 5 [7#8, 0#8, 0#8]) ≠ none ∧ (frame .note 5 [7#8, 0#8, 0#8]).src = card.cfl.node := by decide +kernel

theorem witness_ReportsUpdateRosterAlone :
    (State.hears card .ready 9 [0#8, 7#8, 0#8, 0#8, 0#8]).Front (frame .ready 9 [0#8, 7#8, 0#8, 0#8, 0#8]) .ready
    ∧ (State.hears card .note 9 [7#8, 0#8, 0#8]).Front (frame .note 9 [7#8, 0#8, 0#8]) .note
    ∧ (State.hears card .maintDone 9 [1#8, 3#8]).Front (frame .maintDone 9 [1#8, 3#8]) .maintDone
    ∧ (State.hears card .maint 9 [6#8, 1#8, 0#8, 0#8, 0#8, 0#8]).Front (frame .maint 9 [6#8, 1#8, 0#8, 0#8, 0#8, 0#8])
        (.maint 6 .saveWear) ∧ (6 : Node) ≠ card.cfl.node ∧ card.wsu.held = [] :=
  ⟨front_of (by decide +kernel), front_of (by decide +kernel), front_of (by decide +kernel), front_of (by decide +kernel),
    by decide, by decide +kernel⟩

/-- A wave of entry 3 held and another queued, for want of credit. -/
def heldAndQueued : State :=
  { held true with wsu := { (held true).wsu with queue := [wave .innerConnect [(2, true)]], credit := some 0 } }

theorem witness_SourceSetsLiveFlag :
    ((State.hears card .source 9 [15#8, 1#8]).Front (frame .source 9 [15#8, 1#8]) (.source 15 true) ∧ card.wsu.held = [])
    ∧ (State.hears heldAndQueued .source 9 [2#8, 0#8]).Front (frame .source 9 [2#8, 0#8]) (.source 2 false)
    ∧ heldAndQueued.wsu.queue ≠ [] :=
  ⟨⟨front_of (by decide +kernel), by decide +kernel⟩, front_of (by decide +kernel), by decide +kernel⟩

/-- Entry 3's inner connect wave in the queue, and entry 3 CONNECTED with S(0) CLOSED. -/
def connecting : State :=
  { withAnchor .connectInner with wsu := { card.wsu with queue := [wave .innerConnect [(2, true)]], credit := some 0 } }
def connectedOut : State := closedOf3 (withAnchor .connected) 592

theorem witness_AbortEmptiesSite :
    ((State.hears card .abort 9 [7#8]).Front (frame .abort 9 [7#8]) (.abort 7)
      ∧ card.wsu.held = [] ∧ ∀ e, (card.entry e).state = .free ∨ (card.entry e).site ≠ 7)
    ∧ parse (frame .abort 9 [1#8]) = some (.abort 1)
    ∧ (∀ s ∈ [withPart .awaitAnchor, withPart .releaseBlocked, claiming, claimOut, connecting, (busied connectedOut)],
        s.running = true ∧ s.wsu.held = [] ∧ (s.entry 3).monitor ≠ .claiming ∧ (s.entry 3).site = 1
        ∧ (∀ x, x ≠ 3 → ((s.entry x).state = .free ∨ (s.entry x).site ≠ 1)
          ∧ (s.entry x).state ≠ .awaitResource ∧ (s.entry x).monitor ≠ .claiming))
    ∧ (claiming.entry 3).state = .awaitResource ∧ claiming.claimOnLine 3 = false
    ∧ claimOut.claimOnLine 3 = true ∧ (claimOut.entry 3).awaited ≠ []
    ∧ (connecting.entry 3).state = .connectInner ∧ (∃ v ∈ connecting.wsu.queue ++ connecting.wsu.settling, v.owner = .entry 3) :=
  ⟨⟨front_of (by decide +kernel), by decide +kernel, by decide +kernel⟩, by decide +kernel⟩

theorem witness_AbortEmptiesSite_connected :
    ((busied connectedOut).entry 3).state = .connected ∧ ((busied connectedOut).entry 3).monitor = .off
      ∧ look (busied connectedOut).snu.verifications 3 = none
      ∧ (∀ v ∈ (busied connectedOut).wsu.queue ++ (busied connectedOut).wsu.settling, v.owner ≠ .entry 3)
      ∧ (busied connectedOut).wsu.recovery = [] ∧ (busied connectedOut).wsu.queue ≠ []
      ∧ ((busied connectedOut).entry 3).pins.map relayS = [592] ∧ ((busied connectedOut).relay 592).owner = some 3
      ∧ ((busied connectedOut).relay 592).state = .closed := by decide +kernel

theorem witness_ClaimInstallsHolder :
    (State.hears card .claim 9 [16#8, 7#8, 15#8, 255#8]).Front (frame .claim 9 [16#8, 7#8, 15#8, 255#8]) (.claim 16 7 4095)
    ∧ look card.rcu.holdings 16 = none := ⟨front_of (by decide +kernel), by decide +kernel⟩

/-- A participant that waits, with X(0,2) SUSPECT, with X(1,2) another entry's, and with the segment free. -/
def suspectPart : State := (withPart .awaitAnchor).setRelay 2 ⟨.opened, none, true, false, none⟩
def busyPart : State := (withPart .awaitAnchor).setRelay 18 ⟨.closed, some 7, false, false, none⟩
def freePart : State := busied (withPart .awaitAnchor)

theorem witness_ClaimInstallsHolder_participant :
    parse (frame .claim 9 [2#8, 1#8, 0#8, 200#8]) = some (.claim (trunkResource 2) 1 200)
    ∧ (∀ s ∈ [suspectPart, busyPart, freePart], s.running = true ∧ look s.rcu.holdings (trunkResource 2) = none ∧ s.wsu.held = []
      ∧ (s.entry 3).state = .awaitAnchor ∧ (s.entry 3).anchor = 9 ∧ (s.entry 3).site = 1 ∧ (s.entry 3).net = 200
      ∧ (∀ x, (s.entry x).state ≠ .awaitResource ∧ (s.entry x).monitor ≠ .claiming ∧ (s.entry x).resource ≠ some (.trunk 2)
        ∧ look s.rcu.claims x ≠ some (trunkResource 2) ∧ (x ≠ 3 → (s.entry x).state ≠ .awaitAnchor)))
    ∧ suspectPart.suspectX [0] 2 = some 2
    ∧ busyPart.suspectX [0] 2 = none ∧ busyPart.segmentFree 3 2 = false
    ∧ freePart.suspectX [0] 2 = none ∧ freePart.segmentFree 3 2 = true ∧ freePart.wsu.queue ≠ []
    ∧ ∀ q ∈ ([0] : List Pin).map (fun p => relayX p 2) ++ [relayA 2], (freePart.relay q).state = .opened := by decide +kernel

theorem witness_ClaimOfOwnHoldingYieldsToLowerNode :
    (State.hears (withAnchor .connected) .claim 4 [2#8, 0#8, 0#8, 7#8]).Front (frame .claim 4 [2#8, 0#8, 0#8, 7#8])
        (.claim 2 0 7)
    ∧ (State.hears (withAnchor .connected) .claim 6 [2#8, 0#8, 0#8, 7#8]).Front (frame .claim 6 [2#8, 0#8, 0#8, 7#8])
        (.claim 2 0 7)
    ∧ look (withAnchor .connected).rcu.holdings 2 = some 3 ∧ look (withAnchor .connected).rcu.unconfirmed 2 = false
    ∧ (4 : Node) < (withAnchor .connected).cfl.node ∧ (withAnchor .connected).cfl.node < 6
    ∧ look { (withAnchor .connected).rcu with unconfirmed := fill 17 true }.unconfirmed 2 = true :=
  ⟨front_of (by decide +kernel), front_of (by decide +kernel), by decide +kernel, by decide +kernel, by decide +kernel,
    by decide +kernel, by decide +kernel⟩

/-- CONNECTED entry 3 holds T2 behind another entry's wave, its holding confirmed or not. -/
def holding (q : EntryState) (unconfirmed : Bool) : State :=
  let s := busied (closedOf3 (withAnchor q) 592)
  { s with rcu := { s.rcu with unconfirmed := put s.rcu.unconfirmed 2 unconfirmed } }

theorem witness_ClaimOfOwnHoldingYieldsToLowerNode_entry :
    (∀ q ∈ [EntryState.connected, .faulted, .disconnectOuter, .disconnectInner, .awaitOpened, .releaseBlocked],
      ∀ b ∈ [true, false], (holding q b).wsu.held = [] ∧ (holding q b).wsu.queue ≠ []
      ∧ look (holding q b).rcu.holdings 2 = some 3 ∧ look (holding q b).rcu.unconfirmed 2 = b
      ∧ ((holding q b).entry 3).state = q ∧ (holding q b).claimOnLine 3 = false)
    ∧ (∀ x, ((holding .connected true).entry x).state ≠ .awaitResource ∧ ((holding .connected true).entry x).monitor ≠ .claiming
      ∧ ((holding .connected true).entry x).state ≠ .awaitAnchor ∧ look (holding .connected true).rcu.claims x ≠ some 2
      ∧ (((holding .connected true).entry x).role = .anchor ∨ ((holding .connected true).entry x).trunk = none))
    ∧ (holding .connected true).closedSeries 3 = [592]
    ∧ (∀ q, q ≠ 2 → look (holding .awaitOpened true).rcu.holdings q ≠ some 3) := by decide +kernel

theorem witness_ClaimOfOwnHoldingYieldsToLowerNode_rests (b : Bool) : (holding .connected b).atRest 3 := by
  cases b <;> exact rests_of (by decide +kernel) rfl

/-- T3 is held by node 9 in the view. -/
def heldByNine : State := card.setView 3 ⟨some 9, none, false, 0, true, none⟩

theorem witness_ReleaseClearsHolder :
    (State.hears heldByNine .release 9 [3#8, 0#8, 0#8, 7#8]).Front (frame .release 9 [3#8, 0#8, 0#8, 7#8]) (.release 3 0 7)
    ∧ (State.hears heldByNine .release 8 [3#8, 0#8, 0#8, 7#8]).Front (frame .release 8 [3#8, 0#8, 0#8, 7#8]) (.release 3 0 7)
    ∧ (heldByNine.viewOf 3).holder = some 9 ∧ (heldByNine.viewOf 3).holder ≠ some 8 ∧ heldByNine.wsu.held = [] :=
  ⟨front_of (by decide +kernel), front_of (by decide +kernel), by decide +kernel, by decide +kernel, by decide +kernel⟩

/-- Entry 3 is a CONNECTED participant on T2, which the view shows claimed by its anchor, node 9, or by nobody. -/
def partOut (shown : Bool) : State :=
  busied (closedOf3 ((card.setEntry 3 { partNet .connected with resource := some (.trunk 2) }).setView 2
    (if shown then ⟨some 9, some (1, 200), true, 0, true, none⟩ else ViewEntry.cleared)) 592)

theorem witness_ReleaseClearsHolder_participant :
    parse (frame .release 9 [2#8, 1#8, 0#8, 200#8]) = some (.release (trunkResource 2) 1 200)
    ∧ ((partOut true).viewOf 2).holder = some 9 ∧ (partOut true).wsu.held = [] ∧ (partOut true).wsu.queue ≠ []
    ∧ ((partOut true).entry 3).role = .participant ∧ ((partOut true).entry 3).trunk = some 2
    ∧ (partOut true).closedSeries 3 = [592]
    ∧ ∀ x, ((partOut true).entry x).state ≠ .awaitResource ∧ ((partOut true).entry x).monitor ≠ .claiming
      ∧ look (partOut true).rcu.claims x ≠ some 2 ∧ (x ≠ 3 → ((partOut true).entry x).trunk ≠ some 2) := by decide +kernel

theorem witness_ReleaseClearsHolder_rests (b : Bool) : (partOut b).atRest 3 := by
  cases b <;> exact rests_of (by decide +kernel) rfl

/-- The end of the listen period after a warm keep, with such a participant, and with a held wave behind a queued one. -/
def warmListening (s : State) : State :=
  { s with cfl := { s.cfl with listen := true, listenEnd := 60000, kind := .warmKeep } }

theorem witness_ListenPeriodEndOpensDispatch_warm :
    (∀ b ∈ [true, false], (advance 60000 (warmListening (partOut b))).listenDue = true
      ∧ (warmListening (partOut b)).wsu.held = [] ∧ (warmListening (partOut b)).wsu.queue ≠ []
      ∧ (warmListening (partOut b)).cfl.kind = .warmKeep ∧ (warmListening (partOut b)).closedSeries 3 = [592])
    ∧ ((partOut false).viewOf (trunkResource 2)).holder ≠ some 9
    ∧ (∀ x, x ≠ 3 → ((partOut false).entry x).role = .participant → ((partOut false).entry x).state = .free)
    ∧ (advance 60000 (warmListening heldAndQueued)).listenDue = true ∧ heldAndQueued.wsu.queue ≠ []
    ∧ (∀ x, (heldAndQueued.entry x).role = .participant → (heldAndQueued.entry x).state = .free) := by decide +kernel

/-- The CANCEL of net (1, 200) by node 9. -/
def cancelled (s : State) : State := State.hears s .cancel 9 [1#8, 0#8, 200#8]

theorem witness_CancelPurgesAndFrees :
    ((cancelled card).Front (frame .cancel 9 [1#8, 0#8, 200#8]) (.cancel 1 200) ∧ card.wsu.held = []
      ∧ (purge 1 200 ((cancelled card).heard 0 (frame .cancel 9 [1#8, 0#8, 200#8]) (.cancel 1 200))).cancels 9 1 200 = none)
    ∧ ((cancelled (withPart .awaitAnchor)).Front (frame .cancel 9 [1#8, 0#8, 200#8]) (.cancel 1 200)
      ∧ (cancelled (withPart .awaitAnchor)).wsu.held = []
      ∧ (∀ e, ((cancelled (withPart .awaitAnchor)).entry e).state ≠ .awaitResource
          ∧ ((cancelled (withPart .awaitAnchor)).entry e).monitor ≠ .claiming)
      ∧ (purge 1 200 ((cancelled (withPart .awaitAnchor)).heard 0 (frame .cancel 9 [1#8, 0#8, 200#8])
          (.cancel 1 200))).cancels 9 1 200 = some 3
      ∧ ((cancelled (withPart .awaitAnchor)).entry 3).state = .awaitAnchor) :=
  ⟨⟨front_of (by decide +kernel), by decide +kernel, by decide +kernel⟩,
    front_of (by decide +kernel), by decide +kernel, by decide +kernel, by decide +kernel, by decide +kernel⟩

theorem witness_BeaconSetsRosterAndView :
    (State.hears heldByNine .beacon 9 [0#8, 1#8, 0#8, 8#8, 0#8, 0#8]).Front (frame .beacon 9 [0#8, 1#8, 0#8, 8#8, 0#8, 0#8])
        (.beacon .matrix 0x010008#24 0#16)
    ∧ look heldByNine.rcu.holdings 3 = none ∧ look heldByNine.rcu.holdings 16 = none :=
  ⟨front_of (by decide +kernel), by decide +kernel, by decide +kernel⟩

theorem witness_BeaconSetsRosterAndView_own :
    (∀ n ∈ [(4 : Node), 6], (State.hears (withAnchor .connected) .beacon n [0#8, 0#8, 0#8, 4#8, 0#8, 0#8]).liu.rx.head?
        = some (frame .beacon n [0#8, 0#8, 0#8, 4#8, 0#8, 0#8])
      ∧ parse (frame .beacon n [0#8, 0#8, 0#8, 4#8, 0#8, 0#8]) = some (.beacon .matrix 0x000004#24 0#16)
      ∧ parse (frame .beacon n [0#8, 0#8, 0#8, 0#8, 0#8, 0#8]) = some (.beacon .matrix 0x000000#24 0#16))
    ∧ look (withAnchor .connected).rcu.holdings 2 = some 3 ∧ look (withAnchor .connected).rcu.unconfirmed 2 = false
    ∧ (4 : Node) < (withAnchor .connected).cfl.node ∧ (withAnchor .connected).cfl.node < 6
    ∧ (0x000004#24).getLsbD 2 = true ∧ (0x000000#24).getLsbD 2 = false := by decide +kernel

theorem witness_ClearReleasesBlockedEntry :
    ((State.hears (withAnchor .releaseBlocked) .clear 9 [2#8]).Front (frame .clear 9 [2#8]) (.clear 2)
      ∧ (withAnchor .releaseBlocked).wsu.held = [] ∧ look (withAnchor .releaseBlocked).rcu.holdings 2 = some 3
      ∧ ((withAnchor .releaseBlocked).entry 3).state = .releaseBlocked)
    ∧ ((State.hears (withAnchor .awaitOpened) .clear 9 [2#8]).Front (frame .clear 9 [2#8]) (.clear 2)
      ∧ (withAnchor .awaitOpened).wsu.held = [] ∧ look (withAnchor .awaitOpened).rcu.holdings 2 = some 3
      ∧ ((withAnchor .awaitOpened).entry 3).state ≠ .releaseBlocked) :=
  ⟨⟨front_of (by decide +kernel), by decide +kernel, by decide +kernel, by decide +kernel⟩,
    front_of (by decide +kernel), by decide +kernel, by decide +kernel, by decide +kernel⟩

theorem witness_RouteStagesAndCommits :
    (State.hears card .route 9 [24#8, 16#8, 0#8, 200#8, 5#8, 31#8]).Front (frame .route 9 [24#8, 16#8, 0#8, 200#8, 5#8, 31#8])
        (.route 1 true ⟨false, false, false⟩ .any 200 [(5, 31)])
    ∧ (State.hears card .route 9 [16#8, 16#8, 0#8, 200#8, 6#8, 31#8]).Front
        (frame .route 9 [16#8, 16#8, 0#8, 200#8, 6#8, 31#8]) (.route 1 false ⟨false, false, false⟩ .any 200 [(6, 31)])
    ∧ (State.hears card .route 9 [16#8, 16#8, 0#8, 200#8, 5#8, 31#8]).Front
        (frame .route 9 [16#8, 16#8, 0#8, 200#8, 5#8, 31#8]) (.route 1 false ⟨false, false, false⟩ .any 200 [(5, 31)])
    ∧ (stagedWith 5 none ⟨false, false, false⟩ .any 200 [(6, 31)]).pins = []
    ∧ (stagedWith 5 none ⟨false, false, false⟩ .any 200 [(5, 31)]).pins ≠ []
    ∧ look card.squ.staging 1 = none ∧ card.wsu.held = [] ∧ look card.squ.valid 1 = true ∧ Request.any ≠ .localBus
    ∧ 2 + ((stagedWith 5 none ⟨false, false, false⟩ .any 200 [(5, 31)]).pins.length + 3) / 4
        ≤ areaSize (card.siteParams 1) - (card.queueOf 1).used :=
  ⟨front_of (by decide +kernel), front_of (by decide +kernel), front_of (by decide +kernel), by decide +kernel,
    by decide +kernel, by decide +kernel, by decide +kernel, by decide +kernel, by decide +kernel, by decide +kernel⟩

theorem witness_UnrouteAndMonitorQueue :
    (State.hears (withAnchor .connected) .unroute 9 [1#8, 0#8, 200#8]).Front (frame .unroute 9 [1#8, 0#8, 200#8])
        (.unroute 1 200)
    ∧ (State.hears (withAnchor .connected) .monitor 9 [1#8, 0#8, 200#8, 1#8]).Front (frame .monitor 9 [1#8, 0#8, 200#8, 1#8])
        (.monitor 1 200 true)
    ∧ look (withAnchor .connected).squ.staging 1 = none ∧ (withAnchor .connected).wsu.held = []
    ∧ look (withAnchor .connected).squ.valid 1 = true
    ∧ (withAnchor .connected).unrouteQueues 1 200 = true ∧ (withAnchor .connected).monitorQueues 1 200 = true
    ∧ ((withAnchor .connected).queueOf 1).used + 1 ≤ areaSize ((withAnchor .connected).siteParams 1)
    ∧ card.unrouteQueues 1 200 = false ∧ card.monitorQueues 1 200 = false :=
  ⟨front_of (by decide +kernel), front_of (by decide +kernel), by decide +kernel, by decide +kernel, by decide +kernel,
    by decide +kernel, by decide +kernel, by decide +kernel, by decide +kernel, by decide +kernel⟩

/-- The record of the site queue stands where the arbiter selects site 1. -/
def dispatches (s : State) (b : QueueBody) : Bool :=
  decide ((select (advance 0 (queued b s))).map (fun p => (p.1, p.2.1)) = some (0, 1))
    && decide (((queued b s).queueOf 1).records = [⟨b, false⟩])
    && decide (∀ e, (s.entry e).state ≠ .awaitResource ∧ (s.entry e).monitor ≠ .claiming)

/-- Entry 3 CONNECTED with a monitor ON T2. -/
def monitored : State := closedOf3 (busied (State.holds
  (card.setEntry 3 { anchorNet .connected with monitor := .on }) 3 2)) (relayM 2)

theorem witness_UnrouteAndMonitorQueue_dispatched :
    (∀ s ∈ [card, withPart .awaitAnchor, withPart .releaseBlocked, connecting, (busied connectedOut)],
      dispatches s (.unroute 200) = true)
    ∧ (∀ on ∈ [true, false], ∀ s ∈ [card, withAnchor .connected, withAnchor .awaitOpened, monitored,
        card.setEntry 3 { anchorNet .connected with request := .localBus }], dispatches s (.monitor 200 on) = true)
    ∧ card.findNet 1 200 = none ∧ (withPart .awaitAnchor).findNet 1 200 = some 3 ∧ connecting.findNet 1 200 = some 3
    ∧ card.anchorOf 1 200 = none ∧ (withAnchor .connected).anchorOf 1 200 = some 3 ∧ monitored.anchorOf 1 200 = some 3
    ∧ (monitored.relay (relayM 2)).owner = some 3 ∧ (monitored.relay (relayM 2)).state = .closed ∧ monitored.wsu.queue ≠ []
    ∧ (monitored.entry 3).trunk = some 2 ∧ (monitored.entry 3).monitor = .on
    ∧ ((withAnchor .connected).entry 3).monitor = .off ∧ look (withAnchor .connected).rcu.claims 3 = none := by decide +kernel

/-- An OPEN staging of site 1 with a pin of this card. -/
def staged : State :=
  { card with squ := { card.squ with
      staging := put card.squ.staging 1 (some ⟨200, ⟨false, false, false⟩, .any, 1, [5], [0]⟩) } }

theorem witness_FenceQueuesOrAnswers :
    (State.hears staged .fence 9 [1#8, 254#8]).Front (frame .fence 9 [1#8, 254#8]) (.fence 1 254)
    ∧ (look staged.squ.staging 1).map Staging.pins = some [0] ∧ staged.wsu.held = [] ∧ look staged.squ.valid 1 = true
    ∧ (staged.queueOf 1).used + 1 ≤ areaSize (staged.siteParams 1)
    ∧ look { staged.squ with valid := fill 8 false }.valid 1 = false :=
  ⟨front_of (by decide +kernel), by decide +kernel, by decide +kernel, by decide +kernel, by decide +kernel, by decide +kernel⟩

/-- A MAINT for this card stands in front. -/
def asked (s : State) (op : Nat) (args : List Byte) : State := State.hears s .maint 9 (maintFor op args)

/-- The hypotheses shared by the MAINT statements. -/
theorem maint_of (s : State) (op : Nat) (args : List Byte) (o : MaintOp)
    (h : (s.running = true ∧ s.wsu.held = [] ∧ s.cfl.node = 5 ∧ s.liu.link = .active)
      ∧ parse (frame .maint 9 (maintFor op args)) = some (.maint 5 o)) :
    (asked s op args).Front (frame .maint 9 (maintFor op args)) (.maint (asked s op args).cfl.node o)
    ∧ ¬ ((asked s op args).liu.link = .duplicateLatch ∧ (asked s op args).maintOwed = true)
    ∧ (asked s op args).wsu.held = [] := by
  obtain ⟨⟨h1, h2, h3, h4⟩, h5⟩ := h
  have e : (asked s op args).cfl.node = 5 := h3
  have l : (asked s op args).liu.link = .active := h4
  exact ⟨⟨h1, rfl, by rw [e]; exact h5, by rw [e]; show (9 : Node) ≠ 5; decide⟩, fun x => by rw [l] at x; exact absurd x.1 (by decide), h2⟩

theorem witness_SaveWearActsBySaveState :
    (∀ s ∈ [saving, { card with wru := { card.wru with storeAbsent := true } }, card.dirtyBlock 39, card],
      (s.running = true ∧ s.wsu.held = [] ∧ s.cfl.node = 5 ∧ s.liu.link = .active))
    ∧ parse (frame .maint 9 (maintFor 1 [0#8, 0#8, 0#8, 0#8])) = some (.maint 5 .saveWear)
    ∧ saving.wru.save ≠ none ∧ card.wru.save = none ∧ card.wru.storeAbsent = false
    ∧ look (card.dirtyBlock 39).wru.dirty 39 = true ∧ (∀ k, k < 39 → look (card.dirtyBlock 39).wru.dirty k = false)
    ∧ ∀ b, look card.wru.dirty b = false := by decide +kernel

theorem witness_ReadWearAnswersCountAndMarks :
    ((asked card 2 [2#8, 127#8, 0#8, 0#8]).Front (frame .maint 9 (maintFor 2 [2#8, 127#8, 0#8, 0#8]))
        (.maint (asked card 2 [2#8, 127#8, 0#8, 0#8]).cfl.node (.readWear 639))
      ∧ (639 : Relay).val = 639)
    ∧ (asked card 2 [2#8, 128#8, 0#8, 0#8]).Front (frame .maint 9 (maintFor 2 [2#8, 128#8, 0#8, 0#8]))
        (.maint (asked card 2 [2#8, 128#8, 0#8, 0#8]).cfl.node (.readWear 640))
    ∧ 639 < 640 :=
  ⟨⟨(maint_of card 2 _ _ (by decide +kernel)).1, rfl⟩, (maint_of card 2 _ _ (by decide +kernel)).1, by decide⟩

theorem witness_ClearMarksClearsRange :
    ((asked card 3 [0#8, 0#8, 2#8, 127#8]).Front (frame .maint 9 (maintFor 3 [0#8, 0#8, 2#8, 127#8]))
        (.maint (asked card 3 [0#8, 0#8, 2#8, 127#8]).cfl.node (.clearMarks 0 639)) ∧ 0 ≤ 639 ∧ 639 ≤ 639
      ∧ ∀ e, (card.entry e).state ≠ .awaitResource ∧ (card.entry e).monitor ≠ .claiming)
    ∧ ((asked card 3 [0#8, 0#8, 2#8, 128#8]).Front (frame .maint 9 (maintFor 3 [0#8, 0#8, 2#8, 128#8]))
        (.maint (asked card 3 [0#8, 0#8, 2#8, 128#8]).cfl.node (.clearMarks 0 640)) ∧ 639 < 640) :=
  ⟨⟨(maint_of card 3 _ _ (by decide +kernel)).1, by decide, by decide, by decide +kernel⟩,
    (maint_of card 3 _ _ (by decide +kernel)).1, by decide⟩

theorem witness_ReadFaultAnswersRecord :
    (asked faulted 4 [0#8, 0#8, 0#8, 0#8]).Front (frame .maint 9 (maintFor 4 [0#8, 0#8, 0#8, 0#8]))
        (.maint (asked faulted 4 [0#8, 0#8, 0#8, 0#8]).cfl.node .readFault)
    ∧ faulted.fcu.record.isSome = true ∧ card.fcu.record = none :=
  ⟨(maint_of faulted 4 _ _ (by decide +kernel)).1, by decide +kernel, by decide +kernel⟩

theorem witness_ClearFaultEmptiesRecord :
    (asked faulted 5 [0#8, 0#8, 0#8, 0#8]).Front (frame .maint 9 (maintFor 5 [0#8, 0#8, 0#8, 0#8]))
        (.maint (asked faulted 5 [0#8, 0#8, 0#8, 0#8]).cfl.node .clearFault)
    ∧ qualifies false ⟨.muted, none, none, none, none⟩ = true ∧ qualifies true ⟨.muted, none, none, none, none⟩ = false :=
  ⟨(maint_of faulted 5 _ _ (by decide +kernel)).1, by decide, by decide⟩

/-- A STATUS of net (1, 200) from a node with an outcome code. -/
def reported (n : Node) (o : Nat) (s : State) : State := State.hears s .status n [1#8, 0#8, 200#8, byte o, 0#8, 31#8, 255#8, 255#8]

theorem witness_StatusShrinksAwaitedSet :
    ((reported 12 1 (withAnchor .awaitOpened)).Front (frame .status 12 [1#8, 0#8, 200#8, 1#8, 0#8, 31#8, 255#8, 255#8])
        (.status 1 200 .opened)
      ∧ (withAnchor .awaitOpened).wsu.held = [] ∧ (withAnchor .awaitOpened).anchorOf 1 200 = some 3
      ∧ ((withAnchor .awaitOpened).entry 3).awaited.filter (fun x => decide (x ≠ 12)) = []
      ∧ ((withAnchor .awaitOpened).entry 3).state = .awaitOpened ∧ (withAnchor .awaitOpened).held 3 ≠ [])
    ∧ ((12 : Node) ∈ (anchorNet .awaitOpened).awaited ∧ (13 : Node) ∉ (anchorNet .awaitOpened).awaited
      ∧ card.anchorOf 1 200 = none ∧ ([12, 17] : List Node).filter (fun x => decide (x ≠ 12)) ≠ [])
    ∧ ((withAnchor .releaseBlocked).holding 3 = true ∧ (withAnchor .connected).anchorOf 1 200 = some 3
      ∧ ((withAnchor .connected).entry 3).state ≠ .awaitOpened ∧ ((withAnchor .connected).entry 3).state ≠ .releaseBlocked
      ∧ (card.setEntry 3 (anchorNet .awaitOpened)).holding 3 = false
      ∧ (card.setEntry 3 (anchorNet .awaitOpened)).anchorOf 1 200 = some 3
      ∧ ∀ e, ((card.setEntry 3 (anchorNet .awaitOpened)).entry e).state ≠ .awaitResource
          ∧ ((card.setEntry 3 (anchorNet .awaitOpened)).entry e).monitor ≠ .claiming) :=
  ⟨⟨front_of (by decide +kernel), by decide +kernel, by decide +kernel, by decide +kernel, by decide +kernel,
    by decide +kernel⟩, by decide +kernel, by decide +kernel⟩

theorem witness_ArbiterServesEligibleHead :
    ((select (advance 0 (queued (.fence 7) card))).map (fun p => (p.1, p.2.1)) = some (0, 1))
    ∧ ((queued (.fence 7) card).queueOf 1).records = ⟨.fence 7, false⟩ :: []
    ∧ card.cfl.config.weighted = true
    ∧ (∀ e, (card.entry e).state ≠ .awaitResource ∧ (card.entry e).monitor ≠ .claiming)
    ∧ (select (advance 0 card)).isNone = true ∧ (∀ k, 1 ≤ look card.cfl.config.weights k)
    ∧ (advance 0 (queued (.fence 7) card)).eligible 1 = true ∧ ((queued (.fence 7) card).siteParams 1).cls = 0 := by
  decide +kernel

/-- A card whose sites may use no trunk, and one whose site 2 has T2 for itself. -/
def noTrunks : State :=
  { card with cfl := { card.cfl with config := { card.cfl.config with
      sites := put card.cfl.config.sites 1 ⟨128, 256, 0, 0#16, 0#16⟩ } } }
def reserving : State :=
  { card with cfl := { card.cfl with config := { card.cfl.config with
      sites := put card.cfl.config.sites 2 ⟨256, 384, 0, 0xFFFF#16, 4#16⟩ } } }

theorem witness_ArbiterRouteMakesEntry_anchor :
    (∀ q ∈ [Request.any, .trunk 2, .localBus], dispatches card (.route (routeRec .anchor q)) = true
      ∧ dispatches noTrunks (.route (routeRec .anchor q)) = true ∧ dispatches reserving (.route (routeRec .anchor q)) = true
      ∧ dispatches (busied card) (.route (routeRec .anchor q)) = true)
    ∧ (∀ s ∈ [card, noTrunks, reserving, (busied card)], s.findNet 1 200 = none ∧ s.freeIndex = some 0 ∧ look s.ne.binding 0 = none
      ∧ s.claimOnLine 0 = false)
    ∧ card.permitted 1 2 = true ∧ card.reservedElsewhere 1 2 = false ∧ noTrunks.permitted 1 2 = false
    ∧ reserving.permitted 1 2 = true ∧ reserving.reservedElsewhere 1 2 = true
    ∧ (busied card).busFree 0 0 = true ∧ (busied card).suspectY [0] 0 = false ∧ (busied card).wsu.queue ≠ []
    ∧ (([0] : List Pin).map (fun p => relayY p 0)).filter (fun q => decide (((busied card).relay q).state = .opened)) ≠ []
    ∧ (∀ l, (card.setRelay 512 ⟨.closed, some 7, true, false, none⟩).busFree 0 l = true → l = 1) := by decide +kernel

theorem witness_ArbiterRouteMakesEntry :
    (∀ s ∈ [queued (.route (routeRec .participant .any)) card,
        queued (.route (routeRec .anchor (.trunk 2))) { card with cfl := { card.cfl with
          config := { card.cfl.config with sites := put card.cfl.config.sites 1 ⟨128, 256, 0, 0#16, 0#16⟩ } } },
        queued (.route (routeRec .participant .any)) (withPart .connected),
        queued (.route (routeRec .participant .any))
          { card with ne := { card.ne with binding := put card.ne.binding 0 (some 7) } }],
      (select (advance 0 s)).map (fun p => (p.1, p.2.1)) = some (0, 1) ∧ (s.queueOf 1).records.length = 1
      ∧ ∀ e, (s.entry e).state ≠ .awaitResource ∧ (s.entry e).monitor ≠ .claiming)
    ∧ (card.findNet 1 200 = none ∧ (withPart .connected).findNet 1 200 ≠ none
      ∧ (∀ p ∈ (routeRec .participant .any).pins, look card.ne.binding p = none) ∧ card.freeIndex = some 0
      ∧ card.claimedTrunk 5 (1, 200) = none ∧ card.claimOnLine 0 = false) := by decide +kernel

/-- Entry 3 holds T2 at a boundary that raises the failure count to 2. -/
def failing : State := { withAnchor .connected with tb := ⟨0, 50000⟩, rcu := { (withAnchor .connected).rcu with failures := 1 } }

theorem witness_BeaconBoundaryAgesAndSelfOpens :
    (advance 50000 { card with tb := ⟨0, 50000⟩ }).beaconDue = true ∧ (advance 50000 failing).beaconDue = true
    ∧ failing.rcu.beaconSent = false ∧ look failing.rcu.holdings 2 = some 3 ∧ (failing.viewOf 2).holder = some failing.cfl.node
    ∧ indices failing.rcu.holdings (fun _ h => h.isSome) ≠ [] ∧ card.running = true ∧ card.fcu.record = none := by decide +kernel

/-- A head that stopped for credit at instant 0, with a cost that one refill does not reach. -/
def stopped : State :=
  { busied card with
    wsu := { (busied card).wsu with creditStop := some 0 }
    cfl := { card.cfl with config := { card.cfl.config with xpt := { card.cfl.config.xpt with cost := 9 } } } }

theorem witness_CreditBoundaryRefills :
    card.running = true ∧ (advance 100 card).now.toNat % 100 = 0 ∧ (advance 100 card).wsu.creditTaken = false
    ∧ card.wsu.credit = some 48 ∧ card.wsu.creditStop = none
    ∧ (stopped.running = true ∧ (advance 100 stopped).now.toNat % 100 = 0 ∧ (advance 100 stopped).wsu.creditTaken = false
      ∧ stopped.wsu.creditStop = some 0 ∧ (0 : Time) ≠ (advance 100 stopped).now ∧ stopped.wsu.credit = some 0
      ∧ stopped.wsu.queue.map Wave.owner = [.entry 7]
      ∧ min stopped.cfl.config.cmax (0 + stopped.cfl.config.refill) < (stopped.classParams 2).cost) := by decide +kernel

/-- Relay 592 on its way, with its settle end at 500 µs. -/
def onItsWay (q : RelayState) (owner : Option Entry) : State := card.setRelay 592 ⟨q, owner, false, false, some 500⟩

/-- The start sweep in the settling set with relay 592 its last. -/
def sweeping : State :=
  { onItsWay .opening none with
    rm := { (onItsWay .opening none).rm with ready := false }
    wsu := { card.wsu with settling := [⟨.sweep, .sweep, [(592, false)], [], none, false, false, false, some 500⟩] } }

theorem witness_SettleEndRestsRelay :
    (card.cfl.phase ≠ .inReset ∧ (advance 500 (onItsWay .closing (some 3))).settleDue 592 = true
      ∧ (advance 500 (onItsWay .closing (some 3))).settlingWave 592 = none
      ∧ (advance 500 (onItsWay .closing (some 3))).recovered 592 = false
      ∧ ((onItsWay .closing (some 3)).relay 592).state = .closing)
    ∧ ((advance 500 (onItsWay .opening (some 3))).settleDue 592 = true
      ∧ (advance 500 (onItsWay .opening (some 3))).settlingWave 592 = none
      ∧ (advance 500 (onItsWay .opening (some 3))).recovered 592 = false
      ∧ ((onItsWay .opening (some 3)).relay 592).state = .opening ∧ (592 : Relay).val < 624)
    ∧ (((advance 500 sweeping).settlingWave 592).map Wave.owner = some .sweep
      ∧ (advance 500 sweeping).settleDue 592 = true ∧ (sweeping.relay 592).state = .opening)
    ∧ ∀ e, (card.entry e).state ≠ .awaitResource ∧ (card.entry e).monitor ≠ .claiming := by decide +kernel

/-- Entry 3's wave of a phase settles with relay r at 500 µs, behind another entry's wave. -/
def settlesWith (x : NetEntry) (ph : Phase) (r : Relay) (q : RelayState) : State :=
  let s := busied ((card.setEntry 3 x).setRelay r ⟨q, some 3, false, false, some 500⟩)
  { s with wsu := { s.wsu with
      settling := [⟨.entry 3, ph, [(r, decide (q = .closing))], [], some 2, true, false, false, some 500⟩] } }

/-- Whether the statement's hypotheses on the wave and the time hold of such a state. -/
def settlesEntry (s : State) (r : Relay) : Bool :=
  decide (s.cfl.phase ≠ .inReset) && (advance 500 s).settleDue r
    && decide (((advance 500 s).settlingWave r).map Wave.owner = some (.entry 3)) && decide (s.wsu.queue ≠ [])
    && decide (∀ e, (s.entry e).state ≠ .awaitResource ∧ (s.entry e).monitor ≠ .claiming)

theorem witness_SettleEndRestsRelay_entry :
    (∀ v ∈ [true, false], settlesEntry (settlesWith { anchorNet .connectInner with verify := v } .innerConnect 2 .closing) 2 = true)
    ∧ settlesEntry (settlesWith (anchorNet .connectOuter) .outerConnect 592 .closing) 592 = true
    ∧ (∀ k ∈ [none, some Reason.claimClash], settlesEntry (closedOf3
        (settlesWith { anchorNet .disconnectOuter with reason := k } .outerDisconnect 592 .opening) 2) 592 = true)
    ∧ (∀ x ∈ [partNet .disconnectInner, anchorNet .disconnectInner, anchorNet .faulted],
        settlesEntry (settlesWith x .innerDisconnect 2 .opening) 2 = true
        ∧ x.releasePending = none ∧ x.reason = none ∧ (x.role = .anchor → x.awaited ≠ []))
    ∧ (settlesWith (anchorNet .disconnectInner) .innerDisconnect 2 .opening).holding 3 = false
    ∧ (State.holds (settlesWith (anchorNet .disconnectInner) .innerDisconnect 2 .opening) 3 2).holding 3 = true
    ∧ settlesEntry (State.holds (settlesWith (anchorNet .disconnectInner) .innerDisconnect 2 .opening) 3 2) 2 = true
    ∧ ((anchorNet .connectInner).pins.map relayS).filter (fun q => decide ((card.relay q).state = .opened)) ≠ []
    ∧ (2 : Relay) ∈ phaseRelays (anchorNet .disconnectOuter) .innerDisconnect := by decide +kernel

theorem witness_SettleEndRestsRelay_monitor :
    (∀ off ∈ [true, false], settlesEntry
      (settlesWith { anchorNet .connected with monitor := .closing, monitorOffPending := off } .monitorClose 626 .closing) 626 = true)
    ∧ (settlesWith { anchorNet .connected with monitor := .closing } .monitorClose 626 .closing).wsu.settling.all
        (fun v => decide (v.closedAfter (advance 500 (settlesWith (anchorNet .connected) .monitorClose 626 .closing)) (relayM 2)))
      = true
    ∧ settlesEntry (settlesWith { anchorNet .connected with monitor := .opening } .monitorOpen 626 .opening) 626 = true
    ∧ (anchorNet .connected).trunk = some 2 := by decide +kernel

/-- Entry 3 has release-pending as its wave settles. -/
def pendingNet (q : EntryState) : NetEntry := { anchorNet q with releasePending := some .cancel }

theorem witness_SettleEndRestsRelay_pending :
    settlesEntry (settlesWith (pendingNet .connectOuter) .outerConnect 592 .closing) 592 = true
    ∧ settlesEntry (settlesWith (pendingNet .connectInner) .innerConnect 2 .closing) 2 = true
    ∧ settlesEntry (closedOf3 (settlesWith (pendingNet .connectInner) .innerConnect 2 .closing) 592) 2 = true
    ∧ settlesEntry (closedOf3 (settlesWith (pendingNet .connected) .monitorClose 626 .closing) 592) 626 = true
    ∧ settlesEntry (closedOf3 (settlesWith (pendingNet .connected) .monitorOpen 626 .opening) 592) 626 = true
    ∧ (∀ w ∈ (settlesWith (pendingNet .connectOuter) .outerConnect 592 .closing).wsu.queue, w.owner ≠ .entry 3)
    ∧ (settlesWith (pendingNet .connectOuter) .outerConnect 592 .closing).wsu.recovery.isEmpty = true
    ∧ look (settlesWith (pendingNet .connectOuter) .outerConnect 592 .closing).snu.verifications 3 = none
    ∧ ((settlesWith (pendingNet .connectInner) .innerConnect 2 .closing).relay (relayS 0)).owner = none
    ∧ (2 : Relay) ∈ phaseRelays (pendingNet .connectInner) .innerDisconnect
    ∧ (settlesWith (pendingNet .connectOuter) .outerConnect 592 .closing).wsu.settling.all (fun v => decide
        (v.closedAfter (advance 500 (settlesWith (pendingNet .connectOuter) .outerConnect 592 .closing)) (relayS 0))) = true := by
  decide +kernel

theorem witness_ConnectHoldExpiryRefuses :
    ((held true).running = true ∧ look (held true).ilu.holds 3 = some ⟨2, true, 200000, false, true⟩
      ∧ reached (advance 200000 (held true)).now 200000 = true
      ∧ (∀ e, ((held true).entry e).state ≠ .awaitResource ∧ ((held true).entry e).monitor ≠ .claiming)
      ∧ (held true).wsu.queue = [] ∧ look (held true).snu.verifications 3 = none
      ∧ ((held true).entry 3).state = .connectInner ∧ ((held true).entry 3).releasePending = none
      ∧ (∃ v ∈ (held true).wsu.held, v.owner = .entry 3)
      ∧ (∀ v ∈ (held true).wsu.held, v.owner = .entry 3 → v.phase.connects = true ∧ v.done = [])
      ∧ ((held true).entry 3).role = .anchor ∧ ((held true).entry 3).request ≠ .localBus ∧ (held true).held 3 ≠ []
      ∧ ((held true).entry 3).awaited ≠ [])
    ∧ (∀ v ∈ (held true).wsu.queue ++ (held true).wsu.settling, v.owner ≠ .entry 3) := by decide +kernel

theorem witness_ConnectHoldExpiryRefuses_unpulsed : (held true).unpulsed 3 := by
  have q : (held true).wsu.recovery = [] := rfl
  have r : (held true).rm.relays = fill 640 ⟨.opened, none, false, false, none⟩ := rfl
  refine ⟨by decide +kernel, by rw [q]; exact fun p h => absurd h List.not_mem_nil, fun x h => ?_⟩
  unfold State.relay at h
  rw [r, look_fill] at h
  exact absurd h (by decide)

/-- A held outer disconnect wave of entry 3 behind another wave that waits for credit. -/
def heldOpenBehind : State :=
  { heldOpen with wsu := { heldOpen.wsu with queue := [wave .innerConnect [(2, true)]], credit := some 0 } }

theorem witness_DisconnectHoldExpiryForcesHot :
    heldOpenBehind.running = true ∧ look heldOpenBehind.ilu.holds 3 = some ⟨2, false, 200000, false, true⟩
    ∧ reached (advance 200000 heldOpenBehind).now 200000 = true ∧ heldOpenBehind.wsu.queue ≠ []
    ∧ heldOpenBehind.wsu.held.find? (fun x => decide (x.owner = .entry 3)) = some (wave .outerDisconnect [(592, false)])
    ∧ heldOpenBehind.fcu.record = none := by decide +kernel

theorem witness_ResourceDeadlineRefusesAnchor :
    (∀ s ∈ [waiting (anchorNet .awaitResource), State.sends (waiting (anchorNet .awaitResource)) (.claim 3 2)],
      s.running = true ∧ (s.entry 3).state = .awaitResource ∧ (s.entry 3).deadline = some 500000
      ∧ reached (advance 500000 s).now 500000 = true ∧ (s.entry 3).monitor ≠ .claiming ∧ (s.entry 3).awaited ≠ []
      ∧ ∀ i, i ≠ 3 → (s.entry i).state ≠ .awaitResource ∧ (s.entry i).monitor ≠ .claiming)
    ∧ (waiting (anchorNet .awaitResource)).claimOnLine 3 = false
    ∧ (State.sends (waiting (anchorNet .awaitResource)) (.claim 3 2)).claimOnLine 3 = true := by decide +kernel

theorem witness_AnchorDeadlineRefusesParticipant :
    (waiting (partNet .awaitAnchor)).running = true ∧ ((waiting (partNet .awaitAnchor)).entry 3).state = .awaitAnchor
    ∧ ((waiting (partNet .awaitAnchor)).entry 3).deadline = some 500000
    ∧ reached (advance 500000 (waiting (partNet .awaitAnchor))).now 500000 = true
    ∧ ∀ e, ((waiting (partNet .awaitAnchor)).entry e).state ≠ .awaitResource
        ∧ ((waiting (partNet .awaitAnchor)).entry e).monitor ≠ .claiming := by decide +kernel

theorem witness_OpenedDeadlineBlocksRelease :
    (∀ x ∈ [anchorNet .awaitOpened, { anchorNet .awaitOpened with awaited := [], reported := true }],
      (waiting x).running = true ∧ ((waiting x).entry 3).state = .awaitOpened
      ∧ ((waiting x).entry 3).deadline = some 500000 ∧ reached (advance 500000 (waiting x)).now 500000 = true
      ∧ ∀ e, ((waiting x).entry e).state ≠ .awaitResource ∧ ((waiting x).entry e).monitor ≠ .claiming)
    ∧ ((anchorNet .awaitOpened).reported = false ∧ (anchorNet .awaitOpened).refused = false
      ∧ (anchorNet .awaitOpened).awaited ≠ [] ∧ card.fcu.record = none) := by decide +kernel

theorem witness_MonitorWaitExpiryRefuses :
    (∀ s ∈ [monitoring, State.sends monitoring (.claim 3 16)],
      s.running = true ∧ (s.entry 3).state = .connected ∧ (s.entry 3).monitor = .claiming
      ∧ (s.entry 3).deadline = some 500000 ∧ reached (advance 500000 s).now 500000 = true
      ∧ (s.entry 3).reason ≠ some .aborted
      ∧ ∀ i, i ≠ 3 → (s.entry i).state ≠ .awaitResource ∧ (s.entry i).monitor ≠ .claiming)
    ∧ monitoring.claimOnLine 3 = false ∧ (State.sends monitoring (.claim 3 16)).claimOnLine 3 = true := by decide +kernel

theorem witness_CoolingEndRemovesMark :
    cooling.running = true ∧ (cooling.viewOf 4).cooling = some 100000 ∧ reached (advance 100000 cooling).now 100000 = true
    ∧ ∀ e, (cooling.entry e).state ≠ .awaitResource ∧ (cooling.entry e).monitor ≠ .claiming := by decide +kernel

theorem witness_SenseEndMarksCrosspoint :
    (∀ n ∈ [0, 1, 2, 3], (sensing n 2).running = true ∧ (sensing n 2).snu.sensing = some ⟨32, 3, n, none⟩
      ∧ (sensing n 2).snu.senseEnd = some 20 ∧ reached (advance 20 (sensing n 2)).now 20 = true
      ∧ (sensing n 2).snu.ended = none ∧ (sensing n 2).snu.admission = []
      ∧ look (sensing n 2).snu.verifications 3 = some ⟨2, [], false⟩
      ∧ (sensing n 2).snu.queue = ⟨16, 3, 0, none⟩ :: [])
    ∧ stepping.running = true ∧ (advance 75 stepping).stepDue = true ∧ stepping.snu.sensing = none := by decide +kernel

/-- The last job of entry 3, which is VERIFYING, after three senses; and two steps that end while a sense is in progress. -/
def lastJob : State :=
  { (busied (sensing 3 1)).setEntry 3 (anchorNet .verifying) with snu := { (sensing 3 1).snu with queue := [] } }
def steppingTwo : State :=
  { sensing 0 3 with snu := { (sensing 0 3).snu with
      senseEnd := some 90, stepping := [⟨64, 3, 1, some 75⟩, ⟨48, 3, 2, some 75⟩, ⟨80, 3, 1, some 76⟩] } }

theorem test_steps_rejoin_in_index_order :
    (after (.stepEnd 75) steppingTwo).snu.queue.map Job.relay = [16, 48, 64] := by decide +kernel

theorem witness_SenseEndMarksCrosspoint_last :
    (lastJob.running = true ∧ lastJob.snu.sensing = some ⟨32, 3, 3, none⟩ ∧ lastJob.snu.senseEnd = some 20
      ∧ reached (advance 20 lastJob).now 20 = true ∧ look lastJob.snu.verifications 3 = some ⟨1, [], false⟩
      ∧ lastJob.snu.ended = none ∧ lastJob.snu.admission = [] ∧ lastJob.wsu.queue ≠ [] ∧ (lastJob.entry 3).state = .verifying
      ∧ (lastJob.entry 3).releasePending = none ∧ (lastJob.entry 3).reason = none
      ∧ ∀ e, (lastJob.entry e).state ≠ .awaitResource ∧ (lastJob.entry e).monitor ≠ .claiming)
    ∧ (steppingTwo.running = true ∧ (advance 75 steppingTwo).stepDue = true
      ∧ steppingTwo.snu.sensing = some ⟨32, 3, 0, none⟩) := by decide +kernel

/-- A wave of entry 3 of two relays at the head: with credit for one, on a live trunk, and on one that is not. -/
def twoPulses : Wave := wave .outerConnect [(592, true), (593, true)]
def heading (credit : Nat) (live : Bool) (x : NetEntry) : State :=
  { card.setEntry 3 x with
    cfl := { card.cfl with listen := live }
    wsu := { card.wsu with queue := [twoPulses], credit := some credit } }

/-- Entry 3's verification discarded at the instant at which its last sense, the fourth, ends. -/
def discarded : State := discardVerification 3 (advance 20 lastJob)

theorem test_discard_ends_with_last_sense :
    discarded.verifying 3 = false ∧ discarded.snu.sensing = none
    ∧ ((after (.senseEnd 0 false) discarded).relay 32).suspect = true := by decide +kernel

theorem witness_SenseEndMarksCrosspoint_discard :
    discarded.running = true ∧ discarded.snu.ended = some ⟨32, 3, 3, none⟩
    ∧ (∀ n ∈ [19, 20], (advance n lastJob).snu.sensing = some ⟨32, 3, 3, none⟩ ∧ (advance n lastJob).snu.senseEnd = some 20
      ∧ look (advance n lastJob).snu.verifications 3 = some ⟨1, [], false⟩)
    ∧ reached (advance 20 lastJob).now 20 = true ∧ reached (advance 19 lastJob).now 20 = false := by decide +kernel

theorem witness_PulseTakesCreditSettleAndWear_service :
    (pulseRun twoPulses.todo twoPulses (heading 6 false (anchorNet .connectOuter))).2.2 = .credit
    ∧ (pulseRun twoPulses.todo twoPulses (heading 48 false (anchorNet .connectOuter))).2.2 = .finished
    ∧ (pulseRun twoPulses.todo twoPulses (heading 48 true (anchorNet .connectOuter))).2.2 = .live
    ∧ (heading 48 true (anchorNet .connectOuter)).blocked twoPulses = true
    ∧ discardsAtQuery (anchorNet .connectOuter) twoPulses = false
    ∧ discardsAtQuery { anchorNet .connectOuter with releasePending := some .plain } twoPulses = true
    ∧ reached card.now (later card.now (card.cfl.config.holdLimit * 1000)) = false
    ∧ (heading 48 true (anchorNet .connectOuter)).wsu.queue = twoPulses :: [] ∧ twoPulses.owner = .entry 3 := by decide +kernel

theorem witness_BlockWriteStoresOrFails :
    saving.running = true ∧ saving.wru.save = some ⟨3, 0, 2, 0, List.replicate 66 0#8⟩ ∧ Memory.wf saving.memory.cells = true
    ∧ ((advance 10000 saving).now - 0).toNat ≤ 10000
    ∧ (3 ≤ (9 : Block).val ∧ look saving.wru.dirty 9 = true
      ∧ ∀ k : Block, 3 ≤ k.val → k < 9 → look saving.wru.dirty k = false)
    ∧ ∀ b : Block, 3 ≤ b.val → look card.wru.dirty b = false := by decide +kernel

/-- The state after reset with a command waiting, for the statements about every step. -/
def stepping_from_reset : State := { State.reset with pending := [.wearBlockRead 0 .noAddress .noData] }

theorem witness_every_step_runs : (match step stepping_from_reset with | .next _ => true | _ => false) = true := by decide +kernel

theorem witness_EveryStepKeepsMemoryForm : Memory.wf stepping_from_reset.memory.cells = true := by decide +kernel

theorem witness_EveryStepKeepsCreditWithinCmax : card.creditOk :=
  ⟨by decide +kernel, fun k => by cases k <;> decide +kernel, fun j h => absurd h (by simp [card, Cfl.reset])⟩

theorem witness_EveryStepKeepsLinkCounts : (muted 31).linkOk :=
  ⟨by decide +kernel, by decide +kernel, by decide +kernel, by decide +kernel⟩

theorem witness_EveryStepKeepsQueuesInsideAreas : card.queuesOk := by
  have h : ∀ i, areaSound (card.siteParams i) = true ∧ (card.queueOf i).used = (card.queueOf i).wordsHeld
      ∧ (card.queueOf i).used ≤ areaSize (card.siteParams i)
      ∧ ((card.siteParams i).start ≤ (card.queueOf i).head ∧ (card.queueOf i).head < (card.siteParams i).stop)
      ∧ ((card.siteParams i).start ≤ (card.queueOf i).tail ∧ (card.queueOf i).tail < (card.siteParams i).stop) := by
    decide +kernel
  intro i _
  obtain ⟨a, b, c, d, e⟩ := h i
  exact ⟨a, b, c, d, e⟩

theorem witness_WearNeverFallsBetweenPowerOnLoads : card.wearOk ∧ ¬ lowersWear card (.coldPinReset 0 5) :=
  ⟨⟨fun r => by simp [card, State.reset, Wru.reset], fun k => by cases k <;> decide +kernel,
    fun j h => absurd h (by simp [card, Cfl.reset])⟩, by simp [lowersWear, card]⟩

theorem witness_EveryStepKeepsMarksOnCrosspoints : card.marksOk :=
  ⟨fun r _ => by simp [card, State.relay], by simp [card, State.reset, Snu.reset], by simp [card, State.reset, Snu.reset],
    by simp [card, State.reset, Snu.reset], by simp [card, State.reset, Snu.reset], by simp [card, State.reset, Snu.reset]⟩

end Sys2Proof.Tests
end

