-- ==== Sys2Proof/Proofs/Record.lean ====
section
/-! The configuration record (R5, R182, R193): what a clamped field holds and notes, class by class, bank by bank, and the record
as a whole. -/

namespace Sys2Proof.Machine

/-! ### One field -/

/-- A clamped value is the nearest of its range. -/
theorem clampField_fst {lo hi : Nat} (h : lo ≤ hi) (o x : Nat) : (clampField lo hi o x).1 = max lo (min hi x) := by
  unfold clampField
  split
  · show lo = _; omega
  · split
    · show hi = _; omega
    · show x = _; omega

theorem clampField_ge {lo hi : Nat} (h : lo ≤ hi) (o x : Nat) : lo ≤ (clampField lo hi o x).1 := by
  rw [clampField_fst h]; omega

theorem clampField_le {lo hi : Nat} (h : lo ≤ hi) (o x : Nat) : (clampField lo hi o x).1 ≤ hi := by
  rw [clampField_fst h]; omega

theorem changedOffsets_append (fs gs : List RecordField) : changedOffsets (fs ++ gs) = changedOffsets fs ++ changedOffsets gs := by
  simp [changedOffsets]

theorem changedOffsets_join {fs gs : List RecordField} {l k : List Nat} (hf : l = changedOffsets fs)
    (hg : k = changedOffsets gs) : l ++ k = changedOffsets (fs ++ gs) := by rw [hf, hg, changedOffsets_append]

theorem changedOffsets_cons {f : RecordField} {fs : List RecordField} {l k : List Nat} (hf : l = changedOffsets [f])
    (hfs : k = changedOffsets fs) : l ++ k = changedOffsets (f :: fs) := changedOffsets_join hf hfs

/-- A field notes its offset exactly where the value taken, whatever stands for it, is not the value read. -/
theorem clampField_snd (lo hi o x : Nat) {taken : Nat} (h : (clampField lo hi o x).1 = taken) :
    (clampField lo hi o x).2 = changedOffsets [⟨o, lo, hi, x, taken⟩] := by
  subst h
  unfold clampField changedOffsets
  by_cases h1 : x < lo
  · simp [h1, Nat.ne_of_gt h1]
  · by_cases h2 : hi < x
    · simp [h1, h2, Nat.ne_of_lt h2]
    · simp [h1, h2]

/-- A flag field, whose range is 0 to 1. -/
theorem clampField_flag (o x : Nat) : (clampField 0 1 o x).1 = (decide ((clampField 0 1 o x).1 = 1)).toNat := by
  have := clampField_le (Nat.zero_le 1) o x
  generalize (clampField 0 1 o x).1 = v at this
  interval_cases v <;> rfl

/-- A service class field, whose range is 0 to 3. -/
theorem clampField_class (o x : Nat) : (clampField 0 3 o x).1 = (Fin.ofNat 4 (clampField 0 3 o x).1).val := by
  have := clampField_le (Nat.zero_le 3) o x
  rw [Fin.val_ofNat, Nat.mod_eq_of_lt (by omega)]

/-! ### Classes, sites and banks -/

/-- Every field of a class is taken at the nearest value of its range (R5). -/
theorem takeClass_taken (b : List Byte) {cmax : Nat} (hc : 1 ≤ cmax) (c : Nat) :
    ∀ f ∈ classFields b c cmax (takeClass b cmax c).1, f.taken = max f.lo (min f.hi f.read) := by
  simp only [classFields, takeClass, List.forall_mem_cons]
  refine ⟨clampField_fst (by omega) _ _, clampField_fst (by omega) _ _, clampField_fst (by omega) _ _, clampField_fst (by omega) _ _,
    clampField_fst (by omega) _ _, clampField_fst (clampField_le (by omega) _ _) _ _, List.forall_mem_nil _⟩

theorem takeClass_changed (b : List Byte) (cmax c : Nat) :
    (takeClass b cmax c).2 = changedOffsets (classFields b c cmax (takeClass b cmax c).1) := by
  simp only [takeClass, List.append_assoc]
  exact changedOffsets_cons (clampField_snd _ _ _ _ rfl) <| changedOffsets_cons (clampField_snd _ _ _ _ rfl) <|
    changedOffsets_cons (clampField_snd _ _ _ _ rfl) <| changedOffsets_cons (clampField_snd _ _ _ _ rfl) <|
    changedOffsets_cons (clampField_snd _ _ _ _ rfl) <| clampField_snd _ _ _ _ rfl

/-- What the parameters of a class are bounded by (R4, R5). -/
def classRanged (cmax : Nat) (p : ClassParams) : Prop :=
  50 ≤ p.operate ∧ p.operate ≤ 10000 ∧ 20 ≤ p.release ∧ p.release ≤ 10000 ∧ p.bounce ≤ 2000 ∧
    1 ≤ p.cost ∧ p.cost ≤ 63 ∧ p.cost ≤ cmax ∧ 1 ≤ p.threshold ∧ p.threshold ≤ p.life ∧ p.life ≤ 16777215

theorem takeClass_ranged (b : List Byte) {cmax : Nat} (hc : 1 ≤ cmax) (c : Nat) : classRanged cmax (takeClass b cmax c).1 := by
  have hcost : 1 ≤ min 63 cmax := by omega
  have cost := clampField_le hcost (2 + 13 * c + 6) (byteAt b (2 + 13 * c + 6))
  have life := clampField_le (lo := 1) (hi := 16777215) (by omega) (2 + 13 * c + 7) (tripleAt b (2 + 13 * c + 7))
  exact ⟨clampField_ge (by omega) _ _, clampField_le (by omega) _ _, clampField_ge (by omega) _ _, clampField_le (by omega) _ _,
    clampField_le (by omega) _ _, clampField_ge hcost _ _, cost.trans (by omega), cost.trans (by omega),
    clampField_ge (by omega) _ _, clampField_ge life _ _, clampField_le life _ _⟩

theorem takeSite_taken (b : List Byte) (i : Site) :
    ∀ f ∈ siteFields b i (takeSite b i.val).1, f.taken = max f.lo (min f.hi f.read) := by
  simp only [siteFields, takeSite, List.forall_mem_cons]
  exact ⟨clampField_fst (by omega) _ _, clampField_fst (by omega) _ _,
    (clampField_class _ _).symm.trans (clampField_fst (by omega) _ _), List.forall_mem_nil _⟩

theorem takeSite_changed (b : List Byte) (i : Site) : (takeSite b i.val).2 =
    changedOffsets (siteFields b i (takeSite b i.val).1) ++
      if (takeSite b i.val).1.reserved = BitVec.ofNat 16 (wordAt b (79 + 9 * i.val)) then [] else [79 + 9 * i.val] := by
  have e : 72 + 9 * i.val + 7 = 79 + 9 * i.val := by omega
  simp only [takeSite, e]
  congr 1
  rw [List.append_assoc]
  exact changedOffsets_cons (clampField_snd _ _ _ _ rfl) <| changedOffsets_cons (clampField_snd _ _ _ _ rfl) <|
    clampField_snd _ _ _ _ (clampField_class _ _)

theorem look_takeBank {α : Type} {n : Nat} (f : Nat → Taken α) (i : Fin n) : look (takeBank n f).1 i = (f i.val).1 := by
  simp [takeBank, look]

theorem takeBank_changed {α : Type} (n : Nat) (f : Nat → Taken α) :
    (takeBank n f).2 = (List.finRange n).flatMap (fun i => (f i.val).2) := by
  show (List.range n).flatMap _ = _
  rw [← List.map_coe_finRange_eq_range, List.flatMap_map]

/-- The trunks reserved to a lower site (R37). -/
theorem reservedBelow_getLsbD (b : List Byte) (s : Nat) (t : Trunk) : (reservedBelow b s).getLsbD t.val =
    decide (∃ i < s, (wordAt b (79 + 9 * i)).testBit t.val = true) := by
  induction s with
  | zero => simp [reservedBelow]
  | succ s ih =>
    have e : 72 + 9 * s + 7 = 79 + 9 * s := by omega
    have step : reservedBelow b (s + 1) = reservedBelow b s ||| BitVec.ofNat 16 (wordAt b (79 + 9 * s)) := by
      simp [reservedBelow, List.range_succ, e]
    rw [step, BitVec.getLsbD_or, ih, BitVec.getLsbD_ofNat, Bool.eq_iff_iff]
    simp only [Bool.or_eq_true, decide_eq_true_eq, Bool.and_eq_true, t.isLt, true_and]
    constructor
    · rintro (⟨i, hi, h⟩ | h)
      · exact ⟨i, by omega, h⟩
      · exact ⟨s, by omega, h⟩
    · rintro ⟨i, hi, h⟩
      rcases Nat.lt_succ_iff_lt_or_eq.mp hi with hi | rfl
      · exact .inl ⟨i, hi, h⟩
      · exact .inr h

/-- A reserved mask keeps the trunks that no lower site reserves (R37). -/
theorem takeSite_reserved (b : List Byte) (i : Site) (t : Trunk) : (takeSite b i.val).1.reserved.getLsbD t.val =
    ((wordAt b (79 + 9 * i.val)).testBit t.val
      && decide (∀ k : Site, k < i → (wordAt b (79 + 9 * k.val)).testBit t.val = false)) := by
  have e : 72 + 9 * i.val + 7 = 79 + 9 * i.val := by omega
  simp only [takeSite, e]
  rw [BitVec.getLsbD_and, BitVec.getLsbD_not, reservedBelow_getLsbD, BitVec.getLsbD_ofNat, Bool.eq_iff_iff]
  simp only [Bool.and_eq_true, decide_eq_true_eq, Bool.not_eq_true', decide_eq_false_iff_not, t.isLt, true_and, not_exists, not_and,
    Bool.not_eq_true]
  refine and_congr_right fun _ => ⟨fun h k hk => h k.val hk, fun h k hk => h ⟨k, by omega⟩ hk⟩

/-! ### The record -/

theorem look_weights (b : List Byte) (k : Fin 4) :
    look (takeRecord b).1.weights k = (clampField 1 15 (58 + k.val) (byteAt b (58 + k.val))).1 :=
  look_takeBank (fun k => clampField 1 15 (58 + k) (byteAt b (58 + k))) k

theorem look_sites (b : List Byte) (i : Site) : look (takeRecord b).1.sites i = (takeSite b i.val).1 := look_takeBank (takeSite b) i

/-- Every field of a sound record is taken at the nearest value of its range (R182, R193). -/
theorem takeRecord_taken (b : List Byte) : ∀ f ∈ recordFields b (takeRecord b).1, f.taken = max f.lo (min f.hi f.read) := by
  have hc : 1 ≤ (clampField 8 1023 54 (wordAt b 54)).1 := (by omega : 1 ≤ 8).trans (clampField_ge (by omega) _ _)
  simp only [recordFields, cardFields, List.forall_mem_append, List.forall_mem_cons, List.mem_flatMap, List.mem_map]
  refine ⟨⟨⟨⟨⟨⟨⟨?_, ?_⟩, ?_⟩, ?_⟩, ?_, ?_, ?_, List.forall_mem_nil _⟩, ?_⟩, ?_, ?_, ?_, ?_, ?_, ?_, List.forall_mem_nil _⟩, ?_⟩
  · exact takeClass_taken b hc 0
  · exact takeClass_taken b hc 1
  · exact takeClass_taken b hc 2
  · exact takeClass_taken b hc 3
  · exact clampField_fst (by omega) _ _
  · exact clampField_fst (by omega) _ _
  · exact (clampField_flag _ _).symm.trans (clampField_fst (by omega) _ _)
  · rintro f ⟨k, -, rfl⟩
    exact (look_weights b k).trans (clampField_fst (by omega) _ _)
  · exact (clampField_flag _ _).symm.trans (clampField_fst (by omega) _ _)
  · exact clampField_fst (by omega) _ _
  · exact clampField_fst (by omega) _ _
  · exact clampField_fst (by omega) _ _
  · exact clampField_fst (by omega) _ _
  · exact clampField_fst (by omega) _ _
  · rintro f ⟨i, -, hf⟩
    rw [look_sites] at hf
    exact takeSite_taken b i f hf

/-- A record notes the offsets of the fields it holds otherwise than read, in their order (R193). -/
theorem takeRecord_changed (b : List Byte) : (takeRecord b).2 = changedFields b (takeRecord b).1 := by
  have bank : (takeBank 4 (fun k => clampField 1 15 (58 + k) (byteAt b (58 + k)))).2 = changedOffsets ((List.finRange 4).map
      (fun k => ⟨58 + k.val, 1, 15, byteAt b (58 + k.val), look (takeRecord b).1.weights k⟩)) := by
    rw [takeBank_changed]
    induction List.finRange 4 with
    | nil => rfl
    | cons k ks ih => exact changedOffsets_cons (clampField_snd _ _ _ _ (look_weights b k).symm) ih
  have sites : (takeBank 8 (takeSite b)).2 = (List.finRange 8).flatMap (fun i =>
      changedOffsets (siteFields b i (look (takeRecord b).1.sites i))
      ++ if (look (takeRecord b).1.sites i).reserved = BitVec.ofNat 16 (wordAt b (79 + 9 * i.val)) then [] else [79 + 9 * i.val]) := by
    rw [takeBank_changed]
    refine List.flatMap_congr fun i _ => ?_
    rw [look_sites]
    exact takeSite_changed b i
  have card : (((((takeClass b (clampField 8 1023 54 (wordAt b 54)).1 0).2 ++ (takeClass b (clampField 8 1023 54 (wordAt b 54)).1 1).2
      ++ (takeClass b (clampField 8 1023 54 (wordAt b 54)).1 2).2) ++ (takeClass b (clampField 8 1023 54 (wordAt b 54)).1 3).2)
      ++ ((clampField 8 1023 54 (wordAt b 54)).2 ++ ((clampField 1 255 56 (byteAt b 56)).2 ++ (clampField 0 1 57 (byteAt b 57)).2)))
      ++ (takeBank 4 (fun k => clampField 1 15 (58 + k) (byteAt b (58 + k)))).2)
      ++ ((clampField 0 1 62 (byteAt b 62)).2 ++ ((clampField 10 5000 63 (wordAt b 63)).2 ++ ((clampField 0 2000 65 (wordAt b 65)).2
      ++ ((clampField 10 2000 67 (wordAt b 67)).2 ++ ((clampField 0 500 69 (wordAt b 69)).2 ++ (clampField 10 250 71 (byteAt b 71)).2)))))
      = changedOffsets (cardFields b (takeRecord b).1) := by
    refine changedOffsets_join (changedOffsets_join (changedOffsets_join (changedOffsets_join (changedOffsets_join (changedOffsets_join
      ?_ ?_) ?_) ?_) ?_) bank) ?_
    · exact takeClass_changed b _ 0
    · exact takeClass_changed b _ 1
    · exact takeClass_changed b _ 2
    · exact takeClass_changed b _ 3
    · exact changedOffsets_cons (clampField_snd _ _ _ _ rfl) <| changedOffsets_cons (clampField_snd _ _ _ _ rfl) <|
        clampField_snd _ _ _ _ (clampField_flag _ _)
    · exact changedOffsets_cons (clampField_snd _ _ _ _ (clampField_flag _ _)) <| changedOffsets_cons (clampField_snd _ _ _ _ rfl) <|
        changedOffsets_cons (clampField_snd _ _ _ _ rfl) <| changedOffsets_cons (clampField_snd _ _ _ _ rfl) <|
        changedOffsets_cons (clampField_snd _ _ _ _ rfl) <| clampField_snd _ _ _ _ rfl
  rw [changedFields, ← sites, ← card]
  simp only [takeRecord, List.append_assoc]

/-- What the parameters of a configuration are bounded by (R5, R37, R193). -/
def configRanged (c : Configuration) : Prop :=
  8 ≤ c.cmax ∧ c.cmax ≤ 1023 ∧ 1 ≤ c.refill ∧ c.refill ≤ 255 ∧ 10 ≤ c.claimWait ∧ c.claimWait ≤ 5000 ∧
    c.holdLimit ≤ 2000 ∧ 10 ≤ c.releaseWait ∧ c.releaseWait ≤ 2000 ∧ c.abortGrace ≤ 500 ∧ 10 ≤ c.period ∧ c.period ≤ 250 ∧
    (∀ k, 1 ≤ look c.weights k ∧ look c.weights k ≤ 15) ∧
    (∀ i, (look c.sites i).start ≤ 1023 ∧ (look c.sites i).stop ≤ 1024) ∧ ∀ k, classRanged c.cmax (c.params k)

theorem defaulted_ranged : configRanged Configuration.defaulted := by
  refine ⟨by decide, by decide, by decide, by decide, by decide, by decide, by decide, by decide, by decide, by decide, by decide,
    by decide, by decide, by decide, fun k => ?_⟩
  cases k <;> simp [classRanged, Configuration.params, Configuration.defaulted]

theorem takeRecord_ranged (b : List Byte) : configRanged (takeRecord b).1 := by
  have hc : 1 ≤ (clampField 8 1023 54 (wordAt b 54)).1 := (by omega : 1 ≤ 8).trans (clampField_ge (by omega) _ _)
  refine ⟨clampField_ge (by omega) _ _, clampField_le (by omega) _ _, clampField_ge (by omega) _ _, clampField_le (by omega) _ _,
    clampField_ge (by omega) _ _, clampField_le (by omega) _ _, clampField_le (by omega) _ _, clampField_ge (by omega) _ _,
    clampField_le (by omega) _ _, clampField_le (by omega) _ _, clampField_ge (by omega) _ _, clampField_le (by omega) _ _,
    fun k => ?_, fun i => ?_, fun k => ?_⟩
  · rw [look_weights]
    exact ⟨clampField_ge (by omega) _ _, clampField_le (by omega) _ _⟩
  · rw [look_sites]
    exact ⟨clampField_le (by omega) _ _, clampField_le (by omega) _ _⟩
  · cases k <;> exact takeClass_ranged b hc _

/-! ### The judging -/

theorem judgeBytes_unsigned {b : List Byte} (h : byteAt b 0 ≠ 0xA7 ∨ byteAt b 1 ≠ 1) : judgeBytes b = defaultedRecord 2 := if_pos h

theorem judgeBytes_unsummed {b : List Byte} (h0 : byteAt b 0 = 0xA7) (h1 : byteAt b 1 = 1) (hs : byteSum b ≠ 0) :
    judgeBytes b = defaultedRecord 3 := by
  rw [judgeBytes, if_neg (by simp [h0, h1]), if_pos hs]

theorem judgeBytes_sound {b : List Byte} (h0 : byteAt b 0 = 0xA7) (h1 : byteAt b 1 = 1) (hs : byteSum b = 0) : judgeBytes b =
    ⟨(takeRecord b).1, (takeRecord b).2.min?.map (fun o => (noteConfigClamped, BitVec.ofNat 16 o))⟩ := by
  rw [judgeBytes, if_neg (by simp [h0, h1]), if_neg (by simp [hs])]

/-- However a record is judged, the parameters lie in their ranges. -/
theorem judgeRecord_ranged (a : MemAnswer) (m : ConfigMemory) : configRanged (judgeRecord a m).config := by
  unfold judgeRecord
  split
  · unfold judgeBytes
    split
    · exact defaulted_ranged
    · split
      · exact defaulted_ranged
      · exact takeRecord_ranged _
  · exact defaulted_ranged

/-- Settles O8: the record is judged by its three tests, and a sound one field by field. -/
theorem recordIsDefaultedOrClamped : Obligations.RecordIsDefaultedOrClamped := by
  refine ⟨fun a m ha => ?_, fun b h => judgeBytes_unsigned h, fun b h0 h1 hs => judgeBytes_unsummed h0 h1 hs,
    fun b j h0 h1 hs hj => ?_, judgeRecord_ranged⟩
  · cases a with
    | acknowledged => exact absurd rfl ha
    | noAddress => rfl
    | noData => rfl
  · rw [hj, judgeBytes_sound h0 h1 hs]
    refine ⟨takeRecord_taken b, fun i => ?_, by rw [takeRecord_changed]⟩
    dsimp only
    rw [look_sites]
    refine ⟨?_, takeSite_reserved b i⟩
    show BitVec.ofNat 16 (wordAt b (72 + 9 * i.val + 5)) = _
    rw [show 72 + 9 * i.val + 5 = 77 + 9 * i.val by omega]

end Sys2Proof.Machine
end

