-- ==== Sys2Proof/Proofs/Gist.lean ====
section
/-! The part of the state that the invariants of the coil credit (R115) and of the marks (R6, R146) speak of, `State.gist`, and
what leaves it alone: every operation but the pulses, the credit boundary, the load, the marks and the SNU's own lists. -/

namespace Sys2Proof.Machine

/-- What the invariants of the coil credit and of the marks speak of. -/
structure Gist where
  credit : Option Nat
  config : Configuration
  judged : Option Judged
  marks : Relay → Bool × Bool
  queue : List Job
  sensing : Option Job
  ended : Option Job
  stepping : List Job
  admission : List (Entry × List Relay)

/-- The gist of a state. -/
def State.gist (s : State) : Gist :=
  ⟨s.wsu.credit, s.cfl.config, s.cfl.judged, fun r => ((s.relay r).slow, (s.relay r).suspect), s.snu.queue, s.snu.sensing,
    s.snu.ended, s.snu.stepping, s.snu.admission⟩

/-- From s to t both invariants are kept. -/
structure Keeps (s t : State) : Prop where
  credit : s.creditOk → t.creditOk
  marks : s.marksOk → t.marksOk

theorem Keeps.refl (s : State) : Keeps s s := ⟨id, id⟩

theorem Keeps.trans {s t u : State} (h : Keeps s t) (k : Keeps t u) : Keeps s u :=
  ⟨fun c => k.credit (h.credit c), fun m => k.marks (h.marks m)⟩

/-- The coil credit's invariant is a matter of the meter, the parameters in force and the record judged. -/
theorem creditOk_of_eq {s t : State} (hc : t.wsu.credit = s.wsu.credit) (hp : t.cfl.config = s.cfl.config)
    (hj : t.cfl.judged = s.cfl.judged) (h : s.creditOk) : t.creditOk :=
  ⟨by rw [hc, hp]; exact h.meter, by rw [hp]; exact h.costs, by rw [hj]; exact h.judged⟩

/-- The marks' invariant is a matter of the marks and of the SNU's lists. -/
theorem marksOk_of_eq {s t : State} (hm : ∀ r, (t.relay r).slow = (s.relay r).slow ∧ (t.relay r).suspect = (s.relay r).suspect)
    (hs : t.snu = s.snu) (h : s.marksOk) : t.marksOk := by
  obtain ⟨marks, queue, sensing, ended, stepping, admission⟩ := h
  exact ⟨fun r hr => by rw [(hm r).1, (hm r).2]; exact marks r hr, by rwa [hs], by rwa [hs], by rwa [hs], by rwa [hs], by rwa [hs]⟩

/-- What leaves the gist alone keeps both invariants. -/
theorem Keeps.of_gist {s t : State} (h : t.gist = s.gist) : Keeps s t := by
  simp only [State.gist, Gist.mk.injEq] at h
  obtain ⟨hc, hp, hj, hm, hq, hs, he, ht, ha⟩ := h
  refine ⟨creditOk_of_eq hc hp hj, fun ⟨marks, queue, sensing, ended, stepping, admission⟩ => ⟨fun r hr => ?_, ?_, ?_, ?_, ?_, ?_⟩⟩
  · have := congrFun hm r
    simp only [Prod.mk.injEq] at this
    rw [this.1, this.2]
    exact marks r hr
  · rwa [hq]
  · rwa [hs]
  · rwa [he]
  · rwa [ht]
  · rwa [ha]

theorem Keeps.gist_left {s s' t : State} (k : Keeps s' t) (h : s'.gist = s.gist) : Keeps s t := (Keeps.of_gist h).trans k

theorem Keeps.gist_right {s t t' : State} (k : Keeps s t) (h : t'.gist = t.gist) : Keeps s t' := k.trans (.of_gist h)

/-! ### The parts outside the gist -/

theorem with_ne_gist (s : State) (x : Ne) : ({ s with ne := x } : State).gist = s.gist := rfl
theorem with_tb_gist (s : State) (x : Tb) : ({ s with tb := x } : State).gist = s.gist := rfl
theorem with_wsu_gist (s : State) (a b c : List Wave) (d : Option Time) (e : List (Relay × Entry)) (f : List ChainPattern) :
    ({ s with wsu := { s.wsu with queue := a, held := b, settling := c, creditStop := d, recovery := e, chain := f } } :
      State).gist = s.gist := rfl

/-- A new table of relay records with the marks of the old one. -/
theorem with_relays_gist {s : State} {x : Rm}
    (h : ∀ r, (look x.relays r).slow = (s.relay r).slow ∧ (look x.relays r).suspect = (s.relay r).suspect) :
    ({ s with rm := x } : State).gist = s.gist := by
  have e : (fun r => ((look x.relays r).slow, (look x.relays r).suspect)) = fun r => ((s.relay r).slow, (s.relay r).suspect) :=
    funext fun r => by rw [(h r).1, (h r).2]
  unfold State.gist
  exact congrArg (fun m => Gist.mk s.wsu.credit s.cfl.config s.cfl.judged m s.snu.queue s.snu.sensing s.snu.ended s.snu.stepping
    s.snu.admission) e

theorem ite_gist {c : Prop} [Decidable c] {a b : Work} {x : Gist} (ha : a.st.gist = x) (hb : b.st.gist = x) :
    (if c then a else b).st.gist = x := by
  split
  · exact ha
  · exact hb

/-- A fold of operations that each leave the gist alone leaves it alone. -/
theorem foldl_gist {α β : Type} (g : β → State) (f : β → α → β) (h : ∀ w a, (g (f w a)).gist = (g w).gist) (as : List α) (w : β) :
    (g (as.foldl f w)).gist = (g w).gist := by
  induction as generalizing w with
  | nil => rfl
  | cons a as ih => rw [List.foldl_cons, ih, h]

/-! ### Ops -/

theorem State.setRelay_gist {s : State} {r : Relay} {x : RelayRec} (h1 : x.slow = (s.relay r).slow)
    (h2 : x.suspect = (s.relay r).suspect) : (s.setRelay r x).gist = s.gist := by
  refine with_relays_gist fun q => ?_
  rw [look_put]
  split
  · subst_vars; exact ⟨h1, h2⟩
  · exact ⟨rfl, rfl⟩

@[simp] theorem State.dirtyBlock_gist (s : State) (b : Block) : (s.dirtyBlock b).gist = s.gist := rfl
@[simp] theorem State.setEntry_gist (s : State) (e : Entry) (x : NetEntry) : (s.setEntry e x).gist = s.gist := rfl
@[simp] theorem clearHold_gist (s : State) (e : Entry) : (clearHold e s).gist = s.gist := rfl

@[simp] theorem State.dropOpenOwners_gist (s : State) (e : Entry) : (s.dropOpenOwners e).gist = s.gist := by
  refine with_relays_gist fun r => ?_
  rw [look_each]
  split <;> exact ⟨rfl, rfl⟩

@[simp] theorem State.dropListed_gist (rs : List Relay) (s : State) : (s.dropListed rs).gist = s.gist := by
  refine foldl_gist id _ (fun s r => ?_) rs s
  split
  · exact State.setRelay_gist rfl rfl
  · rfl

@[simp] theorem Work.setState_gist (e : Entry) (q : EntryState) (w : Work) : (w.setState e q).st.gist = w.st.gist := rfl

@[simp] theorem advance_gist (dt : Nat) (s : State) : (advance dt s).gist = s.gist := by
  unfold advance
  split <;> rfl

/-! ### Flags -/

@[simp] theorem capture_gist (c : Capture) (s : State) : (capture c s).gist = s.gist := by
  unfold capture
  split <;> rfl

@[simp] theorem State.renew_gist (m : Owed) (s : State) : (s.renew m).gist = s.gist := by
  unfold State.renew
  split
  · split <;> rfl
  · rfl

@[simp] theorem pendNote_gist (c : Fin 8) (d : BitVec 16) (s : State) : (pendNote c d s).gist = s.gist := State.renew_gist _ _
@[simp] theorem captureDuplicate_gist (k : Kind) (s : State) : (captureDuplicate k s).gist = s.gist := by simp [captureDuplicate]
@[simp] theorem captureEntry_gist (c : Cause) (x : NetEntry) (r : Option ResCode) (q : Option Relay) (s : State) :
    (captureEntry c x r q s).gist = s.gist := capture_gist _ _

@[simp] theorem countReport_gist (r : Report) (s : State) : (countReport r s).gist = s.gist := by
  unfold countReport
  split <;> rfl

@[simp] theorem owe_gist (e : Entry) (r : Report) (s : State) : (owe e r s).gist = s.gist := by
  simp only [owe, State.renew_gist, countReport_gist]
  rfl

@[simp] theorem oweSite_gist (r : Report) (s : State) : (oweSite r s).gist = s.gist := by
  simp only [oweSite, State.renew_gist, countReport_gist]
  rfl

@[simp] theorem oweEntry_gist (e : Entry) (o : StatusOutcome) (r : Reason) (s : State) : (oweEntry e o r s).gist = s.gist :=
  owe_gist _ _ _
@[simp] theorem oweOpened_gist (e : Entry) (s : State) : (oweOpened e s).gist = s.gist := owe_gist _ _ _
@[simp] theorem oweMonitor_gist (e : Entry) (o : StatusOutcome) (r : Reason) (s : State) : (oweMonitor e o r s).gist = s.gist :=
  owe_gist _ _ _
@[simp] theorem oweCancel_gist (e : Entry) (s : State) : (oweCancel e s).gist = s.gist := State.renew_gist _ _
@[simp] theorem oweReady_gist (i : Site) (t h : Nat) (s : State) : (oweReady i t h s).gist = s.gist := State.renew_gist _ _

@[simp] theorem oweRefused_gist (e : Entry) (r : Reason) (s : State) : (oweRefused e r s).gist = s.gist := by
  unfold oweRefused
  split <;> simp

@[simp] theorem abortReady_gist (i : Site) (s : State) : (abortReady i s).gist = s.gist := by
  unfold abortReady
  split
  · rw [oweReady_gist]; rfl
  · rfl

@[simp] theorem dropVerification_gist (e : Entry) (s : State) : (dropVerification e s).gist = s.gist := rfl
@[simp] theorem openVerification_gist (e : Entry) (s : State) : (openVerification e s).gist = s.gist := rfl

/-! ### Waves -/

@[simp] theorem ownRelays_gist (e : Entry) (rs : List Relay) (s : State) : (ownRelays e rs s).gist = s.gist :=
  foldl_gist id (fun s r => s.setRelay r { s.relay r with owner := some e }) (fun _ _ => State.setRelay_gist rfl rfl) rs s

@[simp] theorem buildWave_gist (e : Entry) (ph : Phase) (w : Work) : (buildWave e ph w).st.gist = w.st.gist := by
  unfold buildWave
  dsimp only
  split <;> split <;> simp

@[simp] theorem monitorOpened_gist (r : Relay) (o : Option Entry) (s : State) : (monitorOpened r o s).gist = s.gist := by
  unfold monitorOpened
  dsimp only
  split
  · split <;> simp
  · rfl

theorem settledRecord_marks (x : RelayRec) : (settledRecord x).slow = x.slow ∧ (settledRecord x).suspect = x.suspect := by
  unfold settledRecord
  split <;> exact ⟨rfl, rfl⟩

@[simp] theorem settleRelay_gist (r : Relay) (w : Work) : (settleRelay r w).st.gist = w.st.gist := by
  have h : (w.st.setRelay r (settledRecord (w.st.relay r))).gist = w.st.gist :=
    State.setRelay_gist (settledRecord_marks _).1 (settledRecord_marks _).2
  unfold settleRelay
  dsimp only
  split
  · split <;> simp [h]
  · rfl

@[simp] theorem settleRelays_gist (rs : List Relay) (w : Work) : (settleRelays rs w).st.gist = w.st.gist :=
  foldl_gist Work.st _ (fun w r => settleRelay_gist r w) rs w

@[simp] theorem cutWave_gist (e : Entry) (v : Wave) (w : Work) : (cutWave e v w).st.gist = w.st.gist := by
  unfold cutWave
  dsimp only
  split
  · simp
  · simp
  · split
    · simp
    · exact (with_wsu_gist _ _ _ _ _ _ _).trans (by simp)

@[simp] theorem discardHeld_gist (e : Entry) (w : Work) : (discardHeld e w).st.gist = w.st.gist := by
  unfold discardHeld
  dsimp only
  split
  · rfl
  · rw [cutWave_gist]; rfl

/-! ### Net Engine -/

@[simp] theorem State.withdrawOwn_gist (e : Entry) (s : State) : (s.withdrawOwn e).gist = s.gist := by
  unfold State.withdrawOwn
  dsimp only
  split
  · split
    · split <;> rfl
    · rfl
  · rfl

@[simp] theorem unclaim_gist (e : Entry) (s : State) : (unclaim e s).gist = s.gist := rfl
@[simp] theorem oweClaim_gist (e : Entry) (r : Resource) (s : State) : (oweClaim e r s).gist = s.gist := rfl
@[simp] theorem oweReleases_gist (e : Entry) (s : State) : (oweReleases e s).gist = s.gist := rfl
@[simp] theorem endClaim_gist (e : Entry) (s : State) : (endClaim e s).gist = s.gist := by simp [endClaim]

@[simp] theorem withdrawClaim_gist (e : Entry) (w : Work) : (withdrawClaim e w).st.gist = w.st.gist := by
  unfold withdrawClaim
  dsimp only
  apply ite_gist <;> simp

@[simp] theorem endMonitorClaim_gist (e : Entry) (w : Work) : (endMonitorClaim e w).st.gist = w.st.gist := by
  unfold endMonitorClaim
  split <;> simp

@[simp] theorem oweReleaseMon_gist (e : Entry) (s : State) : (oweReleaseMon e s).gist = s.gist := by
  unfold oweReleaseMon
  split <;> rfl

@[simp] theorem freeEntry_gist (e : Entry) (w : Work) : (freeEntry e w).st.gist = w.st.gist := by
  simp only [freeEntry, abortReady_gist]
  exact (with_ne_gist _ _).trans (by simp)

@[simp] theorem closingReport_gist (e : Entry) (w : Work) : (closingReport e w).st.gist = w.st.gist := by
  unfold closingReport
  dsimp only
  split <;> simp

@[simp] theorem tryFree_gist (e : Entry) (w : Work) : (tryFree e w).st.gist = w.st.gist := by
  unfold tryFree
  dsimp only
  split <;> simp

@[simp] theorem handshake_gist (e : Entry) (w : Work) : (handshake e w).st.gist = w.st.gist := by
  unfold handshake
  dsimp only
  split <;> simp

@[simp] theorem awaitOpened_gist (e : Entry) (w : Work) : (awaitOpened e w).st.gist = w.st.gist := by simp [awaitOpened]

@[simp] theorem endCourse_gist (e : Entry) (w : Work) : (endCourse e w).st.gist = w.st.gist := by
  unfold endCourse
  dsimp only
  split
  · split <;> simp
  · split
    · simp
    · split <;> simp

@[simp] theorem endFaulted_gist (e : Entry) (k : ReleasePending) (w : Work) : (endFaulted e k w).st.gist = w.st.gist := by
  unfold endFaulted
  dsimp only
  apply ite_gist <;> simp

@[simp] theorem takeFaulted_gist (e : Entry) (w : Work) : (takeFaulted e w).st.gist = w.st.gist := by
  unfold takeFaulted
  dsimp only
  split
  · rfl
  · split <;> simp

@[simp] theorem faultedOpen_gist (e : Entry) (w : Work) : (faultedOpen e w).st.gist = w.st.gist := by
  unfold faultedOpen
  simp only [takeFaulted_gist]
  split <;> simp

@[simp] theorem disconnectInner_gist (e : Entry) (w : Work) : (disconnectInner e w).st.gist = w.st.gist := by
  unfold disconnectInner
  dsimp only
  split
  · simp
  · split <;> simp

@[simp] theorem outerDone_gist (e : Entry) (w : Work) : (outerDone e w).st.gist = w.st.gist := by
  unfold outerDone
  dsimp only
  split
  · split <;> simp
  · simp
  · rfl

@[simp] theorem proceedOuter_gist (e : Entry) (w : Work) : (proceedOuter e w).st.gist = w.st.gist := by
  unfold proceedOuter
  dsimp only
  split
  · rfl
  · split <;> simp

@[simp] theorem disconnectOuter_gist (e : Entry) (w : Work) : (disconnectOuter e w).st.gist = w.st.gist := by
  simp [disconnectOuter]

@[simp] theorem takeRelease_gist (e : Entry) (w : Work) : (takeRelease e w).st.gist = w.st.gist := by simp [takeRelease]

@[simp] theorem connected_gist (e : Entry) (w : Work) : (connected e w).st.gist = w.st.gist := by
  unfold connected
  dsimp only
  split <;> simp

@[simp] theorem connectOuter_gist (e : Entry) (w : Work) : (connectOuter e w).st.gist = w.st.gist := by
  unfold connectOuter
  dsimp only
  split <;> simp

/-- A connect that pulses nothing hands nothing to the SNU. -/
@[simp] theorem innerConnected_nil_gist (e : Entry) (w : Work) : (innerConnected e [] w).st.gist = w.st.gist := by
  simp [innerConnected]

@[simp] theorem connectInner_gist (e : Entry) (w : Work) : (connectInner e w).st.gist = w.st.gist := by
  unfold connectInner
  dsimp only
  split <;> simp

@[simp] theorem monitorClosed_gist (e : Entry) (w : Work) : (monitorClosed e w).st.gist = w.st.gist := by
  unfold monitorClosed
  dsimp only
  split
  · simp
  · split
    · simp
    · split <;> simp

@[simp] theorem monitorOpenedWave_gist (e : Entry) (r : Reason) (w : Work) : (monitorOpenedWave e r w).st.gist = w.st.gist := by
  unfold monitorOpenedWave
  dsimp only
  split
  · simp
  · split <;> simp

@[simp] theorem monitorRecovered_gist (e : Entry) (w : Work) : (monitorRecovered e w).st.gist = w.st.gist := by
  simp [monitorRecovered]

@[simp] theorem partSettled_gist (e : Entry) (w : Work) : (partSettled e w).st.gist = w.st.gist := by
  unfold partSettled
  dsimp only
  split
  · split <;> simp
  · split
    · rfl
    · split
      · simp
      · split <;> simp
  · simp only [proceedOuter_gist]
    split <;> simp
  · rfl

@[simp] theorem disconnectHoldExpired_gist (e : Entry) (t : Trunk) (w : Work) :
    (disconnectHoldExpired e t w).st.gist = w.st.gist := by
  unfold disconnectHoldExpired
  dsimp only
  split
  · rfl
  · simp only [Work.modEnt_st, State.setEntry_gist, captureEntry_gist]
    rfl

/-! ### What reaches an entry from outside -/

@[simp] theorem participantClaim_gist (e : Entry) (t : Trunk) (w : Work) : (participantClaim e t w).st.gist = w.st.gist := by
  unfold participantClaim
  dsimp only
  split
  · simp
  · split <;> simp

@[simp] theorem leaveAwaitResource_gist (e : Entry) (w : Work) : (leaveAwaitResource e w).st.gist = w.st.gist := by
  unfold leaveAwaitResource
  dsimp only
  split
  · simp
  · split <;> simp

@[simp] theorem monitorOn_gist (e : Entry) (w : Work) : (monitorOn e w).st.gist = w.st.gist := by
  unfold monitorOn
  dsimp only
  split
  · simp
  · split
    · simp
    · split <;> simp

@[simp] theorem monitorOff_gist (e : Entry) (w : Work) : (monitorOff e w).st.gist = w.st.gist := by
  unfold monitorOff
  dsimp only
  split <;> (repeat' split) <;> simp

@[simp] theorem dispatchMonitor_gist (i : Site) (n : NetId) (on : Bool) (w : Work) :
    (dispatchMonitor i n on w).st.gist = w.st.gist := by
  unfold dispatchMonitor
  split <;> (repeat' split) <;> simp

@[simp] theorem abortMarks_gist (e : Entry) (s : State) : (abortMarks e s).gist = s.gist := by
  unfold abortMarks abortWaves abortStatus
  dsimp only
  split
  · exact State.renew_gist _ _
  · rfl

@[simp] theorem statusHeard_gist (n : Node) (i : Site) (m : NetId) (o : StatusOutcome) (w : Work) :
    (statusHeard n i m o w).st.gist = w.st.gist := by
  unfold statusHeard
  split
  · rfl
  · split <;> simp

@[simp] theorem dropYielded_gist (e : Entry) (r : Resource) (w : Work) : (dropYielded e r w).st.gist = w.st.gist := by
  unfold dropYielded
  dsimp only
  split <;> simp

/-! ### What every event ends with -/

@[simp] theorem passTrunk_gist (e : Entry) (w : Work) : (passTrunk e w).st.gist = w.st.gist := by
  have h : ∀ w' : Work, w'.st.gist = w.st.gist →
      (match w'.st.chooseTrunk e with
        | some t => (w'.modEnt e (fun x => { x with resource := some (.trunk t) })).upd (oweClaim e (trunkResource t))
        | none => w').st.gist = w.st.gist := by
    intro w' h
    split <;> simp [h]
  unfold passTrunk
  dsimp only
  apply ite_gist
  · rfl
  · apply h
    split <;> simp

@[simp] theorem passBus_gist (e : Entry) (w : Work) : (passBus e w).st.gist = w.st.gist := by
  unfold passBus
  split <;> simp

@[simp] theorem passEntry_gist (e : Entry) (w : Work) : (passEntry e w).st.gist = w.st.gist := by
  unfold passEntry
  split
  · split <;> simp
  · rfl

@[simp] theorem passMonitor_gist (e : Entry) (w : Work) : (passMonitor e w).st.gist = w.st.gist := by
  unfold passMonitor
  dsimp only
  split
  · split
    · simp
    · split <;> simp
  · rfl

@[simp] theorem choicePass_gist (w : Work) : (choicePass w).st.gist = w.st.gist := by
  unfold choicePass
  rw [foldl_gist Work.st _ (fun w e => passMonitor_gist e w), foldl_gist Work.st _ (fun w e => passEntry_gist e w)]

@[simp] theorem flush_gist (w : Work) : (flush w).st.gist = w.st.gist := by
  unfold flush
  split <;> rfl

@[simp] theorem tellParts_gist (es : List Entry) (w : Work) : (tellParts es w).st.gist = w.st.gist :=
  foldl_gist Work.st _ (fun w e => partSettled_gist e w) es w

@[simp] theorem ready_gist (w : Work) : (ready w).st.gist = w.st.gist := with_relays_gist fun _ => ⟨rfl, rfl⟩

@[simp] theorem waveFinished_gist (v : Wave) (w : Work) : (waveFinished v w).st.gist = w.st.gist := by
  unfold waveFinished
  dsimp only
  split
  · rfl
  · split
    · simp
    · rfl
  · split <;> rfl

@[simp] theorem keepHold_gist (v : Wave) (s : State) : (keepHold v s).gist = s.gist := by
  unfold keepHold
  split <;> rfl

@[simp] theorem resumeHeld_gist (w : Work) : (resumeHeld w).st.gist = w.st.gist :=
  (with_wsu_gist _ _ _ _ _ _ _).trans (foldl_gist id _ (fun s v => keepHold_gist v s) _ _)

@[simp] theorem recoverRelay_gist (r : Relay) (w : Work) : (recoverRelay r w).st.gist = w.st.gist := by
  unfold recoverRelay
  dsimp only
  split
  · rw [tellParts_gist]; rfl
  · rfl

/-! ### Claims, queues and the link -/

@[simp] theorem withdrawFor_gist (r : Resource) (w : Work) : (withdrawFor r w).st.gist = w.st.gist := by
  refine foldl_gist Work.st _ (fun w e => ?_) _ w
  apply ite_gist <;> simp

@[simp] theorem State.setView_gist (s : State) (r : Resource) (v : ViewEntry) : (s.setView r v).gist = s.gist := rfl
@[simp] theorem dropHolding_gist (r : Resource) (s : State) : (dropHolding r s).gist = s.gist := rfl
@[simp] theorem oweBeacon_gist (s : State) : (oweBeacon s).gist = s.gist := rfl
@[simp] theorem addHolding_gist (e : Entry) (r : Resource) (n : Site × NetId) (s : State) : (addHolding e r n s).gist = s.gist := rfl
@[simp] theorem State.setQueue_gist (s : State) (i : Site) (q : SiteQueue) : (s.setQueue i q).gist = s.gist := rfl
@[simp] theorem State.setStaging_gist (s : State) (i : Site) (g : Option Staging) : (s.setStaging i g).gist = s.gist := rfl
@[simp] theorem emptySite_gist (i : Site) (s : State) : (emptySite i s).gist = s.gist := rfl
@[simp] theorem purge_gist (i : Site) (n : NetId) (s : State) : (purge i n s).gist = s.gist := rfl
@[simp] theorem popHead_gist (i : Site) (s : State) : (popHead i s).gist = s.gist := rfl
@[simp] theorem noteServed_gist (c : Fin 4) (i : Site) (s : State) : (noteServed c i s).gist = s.gist := rfl
@[simp] theorem newRound_gist (s : State) : (newRound s).gist = s.gist := rfl
@[simp] theorem State.updLiu_gist (f : Liu → Liu) (s : State) : (s.updLiu f).gist = s.gist := rfl
@[simp] theorem ageRoster_gist (s : State) : (ageRoster s).gist = s.gist := State.updLiu_gist _ _
@[simp] theorem beaconSent_gist (s : State) : (beaconSent s).gist = s.gist := rfl
@[simp] theorem ageView_gist (s : State) : (ageView s).gist = s.gist := rfl

@[simp] theorem named_gist (n : Node) (r : Resource) (net : Option (Site × NetId)) (s : State) : (named n r net s).1.gist = s.gist := by
  unfold named
  dsimp only
  (repeat' split) <;> simp

@[simp] theorem clearView_gist (n : Node) (r : Resource) (s : State) : (clearView n r s).1.gist = s.gist := by
  unfold clearView
  split <;> simp

@[simp] theorem beaconView_gist (n : Node) (m : BitVec 24) (rs : List Resource) (s : State) :
    (beaconView n m rs s).1.gist = s.gist := by
  induction rs generalizing s with
  | nil => rfl
  | cons r rs ih =>
    simp only [beaconView, ih]
    unfold beaconResource
    split <;> simp

@[simp] theorem dropAll_gist (s : State) : (dropAll s).gist = s.gist := by
  simp only [dropAll, pendNote_gist, capture_gist]
  exact foldl_gist id (fun s p => (dropHolding p.1 s).setView p.1 (s.viewOf p.1).clear) (fun _ _ => rfl) s.ownHoldings s

@[simp] theorem clearHeard_gist (r : Resource) (w : Work) : (clearHeard r w).st.gist = w.st.gist := by
  unfold clearHeard
  split
  · split <;> simp
  · rfl

@[simp] theorem trunkClaimed_gist (e : Entry) (t : Trunk) (w : Work) : (trunkClaimed e t w).st.gist = w.st.gist := by
  unfold trunkClaimed
  split <;> simp

@[simp] theorem monitorClaimed_gist (e : Entry) (b : Bool) (w : Work) : (monitorClaimed e b w).st.gist = w.st.gist := by
  unfold monitorClaimed
  dsimp only
  (repeat' split) <;> simp

@[simp] theorem claimSent_gist (e : Entry) (r : Resource) (b : Bool) (w : Work) : (claimSent e r b w).st.gist = w.st.gist := by
  unfold claimSent
  dsimp only
  split <;> simp

@[simp] theorem dropClaimed_gist (e : Entry) (w : Work) : (dropClaimed e w).st.gist = w.st.gist := by
  unfold dropClaimed
  dsimp only
  split
  · split <;> simp
  · rfl

@[simp] theorem claimOff_gist (e : Entry) (w : Work) : (claimOff e w).st.gist = w.st.gist := by
  unfold claimOff
  dsimp only
  split <;> simp

@[simp] theorem offLine_gist (m : Owed) (w : Work) : (offLine m w).st.gist = w.st.gist := by
  unfold offLine
  split <;> simp

@[simp] theorem objected_gist (o : OwnFrame) (w : Work) : (objected o w).st.gist = w.st.gist := by
  unfold objected claimObjected
  split <;> simp

@[simp] theorem writeRecord_gist (i : Site) (b : QueueBody) (s : State) : (writeRecord i b s).gist = s.gist := by
  unfold writeRecord
  dsimp only
  split <;> simp

@[simp] theorem breakStaging_gist (i : Site) (s : State) : (breakStaging i s).gist = s.gist := by
  unfold breakStaging refuseSite
  dsimp only
  (repeat' split) <;> simp

@[simp] theorem commit_gist (i : Site) (g : Staging) (s : State) : (commit i g s).gist = s.gist := by
  unfold commit refuseSite
  (repeat' split) <;> simp

@[simp] theorem routeHeard_gist (i : Site) (more : Bool) (fl : RouteFlags) (q : Request) (n : NetId) (ends : List (Node × Pin))
    (s : State) : (routeHeard i more fl q n ends s).gist = s.gist := by
  have h : (breakUnless i fl q n s).gist = s.gist := by
    unfold breakUnless
    (repeat' split) <;> simp
  unfold routeHeard
  dsimp only
  split <;> simp [h]

@[simp] theorem unrouteHeard_gist (i : Site) (n : NetId) (s : State) : (unrouteHeard i n s).gist = s.gist := by
  unfold unrouteHeard
  dsimp only
  split <;> simp

@[simp] theorem monitorHeard_gist (i : Site) (n : NetId) (on : Bool) (s : State) : (monitorHeard i n on s).gist = s.gist := by
  unfold monitorHeard
  dsimp only
  split <;> simp

@[simp] theorem fenceHeard_gist (i : Site) (t : Fin 255) (s : State) : (fenceHeard i t s).gist = s.gist := by
  unfold fenceHeard
  dsimp only
  split <;> simp

@[simp] theorem saveAdvance_gist (a b : Nat) (s : State) : (saveAdvance a b s).gist = s.gist := by
  unfold saveAdvance
  split
  · rfl
  · exact State.renew_gist _ _

@[simp] theorem saveWear_gist (s : State) : (saveWear s).gist = s.gist := by
  unfold saveWear
  (repeat' split)
  · rfl
  · rfl
  · exact saveAdvance_gist _ _ _

@[simp] theorem readWear_gist (i : Nat) (s : State) : (readWear i s).gist = s.gist := by
  unfold readWear
  split <;> rfl

@[simp] theorem readFault_gist (s : State) : (readFault s).gist = s.gist := rfl
@[simp] theorem clearFault_gist (s : State) : (clearFault s).gist = s.gist := rfl

@[simp] theorem saveFail_gist (v : Save) (s : State) : (saveFail v s).gist = s.gist := State.renew_gist _ _

@[simp] theorem leaveLine_gist (t : Time) (s : State) : (leaveLine t s).gist = s.gist := rfl
@[simp] theorem hear_gist (n : Node) (m : Msg) (s : State) : (hear n m s).gist = s.gist := rfl
@[simp] theorem latch_gist (k : Kind) (s : State) : (latch k s).gist = s.gist := captureDuplicate_gist _ _

@[simp] theorem startFrame_gist (s : State) : (startFrame s).gist = s.gist := by
  unfold startFrame
  split <;> rfl

@[simp] theorem clearSent_gist (o : OwnFrame) (s : State) : (clearSent o s).gist = s.gist := by
  unfold clearSent
  split
  · rfl
  · split <;> rfl

@[simp] theorem countObjection_gist (s : State) : (countObjection s).gist = s.gist := by
  unfold countObjection
  (repeat' split) <;> simp

@[simp] theorem countClean_gist (d : Bool) (s : State) : (countClean d s).gist = s.gist := by
  unfold countClean
  (repeat' split) <;> simp

end Sys2Proof.Machine
end

