-- ==== Sys2Proof/Proofs/Keeps.lean ====
section
/-! What every command keeps (R6, R115, R146): the coil credit within Cmax, and marks and sense jobs on crosspoints. The Sense Unit
and the pulses are followed one by one; everything between them leaves the gist alone or calls them. -/

namespace Sys2Proof.Machine

/-- Spending credit with the parameters as they are keeps its invariant. -/
theorem Follows.creditOk {s t : State} (k : Follows s t) (h : s.creditOk) : t.creditOk := by
  refine ⟨fun c' hc' => ?_, by rw [k.cfl]; exact h.costs, by rw [k.cfl]; exact h.judged⟩
  obtain ⟨c, hc, hle⟩ := k.credit.2 c' hc'
  rw [k.cfl]
  exact hle.trans (h.meter c hc)

/-- What leaves the core alone and keeps the marks' invariant keeps both. -/
theorem Keeps.of_core {s t : State} (hc : t.core = s.core) (hm : s.marksOk → t.marksOk) : Keeps s t :=
  ⟨(Follows.of_core hc).creditOk, hm⟩

theorem Keeps.ite {c : Prop} [Decidable c] {s : State} {a b : Work} (ha : Keeps s a.st) (hb : Keeps s b.st) :
    Keeps s (if c then a else b).st := by
  split
  · exact ha
  · exact hb

/-- A fold of operations that each keep both invariants keeps them. -/
theorem Keeps.foldl {α : Type} (f : Work → α → Work) (h : ∀ w a, Keeps w.st (f w a).st) (as : List α) (w : Work) :
    Keeps w.st (as.foldl f w).st := by
  induction as generalizing w with
  | nil => exact .refl _
  | cons a as ih => exact (h w a).trans (ih _)

/-! ### The Sense Unit (R146–R154) -/

theorem startSense_marksOk {s : State} (h : s.marksOk) : (startSense s).marksOk := by
  unfold startSense
  split
  · rename_i j rest _ hq
    have hj := h.queue
    rw [hq, List.forall_mem_cons] at hj
    exact ⟨h.marks, hj.2, fun k hk => by cases hk; exact hj.1, h.ended, h.stepping, h.admission⟩
  · exact h

/-- Jobs of crosspoints join the queue. -/
theorem admitJobs_marksOk {js : List Job} {s : State} (hj : ∀ j ∈ js, isCrosspoint j.relay = true) (h : s.marksOk) :
    (admitJobs js s).marksOk :=
  ⟨h.marks, List.forall_mem_append.mpr ⟨h.queue, hj⟩, h.sensing, h.ended, h.stepping, h.admission⟩

theorem batchJobs_crosspoints {e : Entry} {rs : List Relay} (h : ∀ r ∈ rs, isCrosspoint r = true) :
    ∀ j ∈ batchJobs e rs, isCrosspoint j.relay = true := by
  intro j hj
  obtain ⟨r, hr, rfl⟩ := List.mem_map.mp hj
  exact h r hr

/-- The admission makes jobs of the batches it takes, and the others wait on. -/
theorem admitFrom_crosspoints {n : Nat} {bs : List (Entry × List Relay)} (h : ∀ b ∈ bs, ∀ r ∈ b.2, isCrosspoint r = true) :
    (∀ j ∈ (admitFrom n bs).1, isCrosspoint j.relay = true) ∧
      ∀ b ∈ (admitFrom n bs).2, ∀ r ∈ b.2, isCrosspoint r = true := by
  induction bs generalizing n with
  | nil => exact ⟨by simp [admitFrom], by simp [admitFrom]⟩
  | cons b rest ih =>
    obtain ⟨e, rs⟩ := b
    rw [List.forall_mem_cons] at h
    obtain ⟨hjobs, hleft⟩ := @ih (n + rs.length) h.2
    unfold admitFrom
    split
    · exact ⟨List.forall_mem_append.mpr ⟨batchJobs_crosspoints h.1, hjobs⟩, hleft⟩
    · exact ⟨by simp, List.forall_mem_cons.mpr h⟩

theorem admitWaiting_marksOk {s : State} (h : s.marksOk) : (admitWaiting s).marksOk := by
  obtain ⟨hjobs, hleft⟩ := admitFrom_crosspoints (n := s.snu.jobs) h.admission
  exact admitJobs_marksOk hjobs ⟨h.marks, h.queue, h.sensing, h.ended, h.stepping, hleft⟩

/-- A batch of crosspoints is handed over (R145). -/
theorem handOver_keeps {e : Entry} {rs : List Relay} (hr : ∀ r ∈ rs, isCrosspoint r = true) (s : State) :
    Keeps s (handOver e rs s) := by
  refine .of_core (handOver_core e rs s) fun h => ?_
  unfold handOver
  split
  · exact startSense_marksOk (admitJobs_marksOk (batchJobs_crosspoints hr) ⟨h.marks, h.queue, h.sensing, h.ended, h.stepping, h.admission⟩)
  · exact ⟨h.marks, h.queue, h.sensing, h.ended, h.stepping, List.forall_mem_append.mpr ⟨h.admission, by simpa using hr⟩⟩

/-- A crosspoint takes a mark (R150). -/
theorem markRelay_marksOk {r : Relay} (hr : isCrosspoint r = true) (f : RelayRec → RelayRec) {s : State} (h : s.marksOk) :
    (markRelay r f s).marksOk := by
  unfold markRelay
  split
  · exact h
  · refine ⟨fun q hq => ?_, h.queue, h.sensing, h.ended, h.stepping, h.admission⟩
    have hne : r ≠ q := fun e => by rw [e, hq] at hr; cases hr
    show ((s.setRelay r _).relay q).slow = false ∧ ((s.setRelay r _).relay q).suspect = false
    rw [State.setRelay_relay_ne s _ hne]
    exact h.marks q hq

theorem jobMark_marksOk {r : Relay} (hr : isCrosspoint r = true) (how : JobEnd) {s : State} (h : s.marksOk) :
    (jobMark r how s).marksOk := by
  unfold jobMark
  split
  · exact markRelay_marksOk hr _ h
  · exact markRelay_marksOk hr _ h
  · exact h

theorem endJob_marksOk {e : Entry} {r : Relay} {how : JobEnd} {s : State} (h : s.marksOk) : (endJob e r how s).marksOk := by
  unfold endJob
  split
  · exact h
  · exact ⟨h.marks, h.queue, h.sensing, h.ended, h.stepping, h.admission⟩

/-- The job in SENSING takes its outcome (R148, R149). -/
theorem finishSense_keeps (high : Bool) {j : Job} {s : State} (hj : s.snu.sensing = some j) : Keeps s (finishSense high j s) := by
  refine .of_core (finishSense_core high j s) fun h => ?_
  have hx : isCrosspoint j.relay = true := h.sensing j hj
  have h0 : ({ s with snu := { s.snu with sensing := none, senseEnd := none } } : State).marksOk :=
    ⟨h.marks, h.queue, (fun _ hk => by cases hk), h.ended, h.stepping, h.admission⟩
  unfold finishSense
  dsimp only
  apply startSense_marksOk
  split
  · exact ⟨h.marks, h.queue, (fun _ hk => by cases hk), h.ended,
      List.forall_mem_append.mpr ⟨h.stepping, by simpa using hx⟩, h.admission⟩
  · exact admitWaiting_marksOk (endJob_marksOk (jobMark_marksOk hx _ h0))

/-- A verification is discarded (R153): no job is made but of batches that waited. -/
theorem discardVerification_keeps (e : Entry) (s : State) : Keeps s (discardVerification e s) := by
  have hdrop : ∀ v {t : State}, t.marksOk → (dropJobs e v t).marksOk := fun v t h =>
    ⟨h.marks, fun j hj => h.queue j (List.mem_of_mem_filter hj), h.sensing, h.ended,
      fun j hj => h.stepping j (List.mem_of_mem_filter hj), fun b hb => h.admission b (List.mem_of_mem_filter hb)⟩
  have hleave : ∀ {t : State}, t.marksOk → (leaveSensing e t).marksOk := fun {t} h => by
    unfold leaveSensing
    split
    · exact ⟨h.marks, h.queue, (fun _ hk => by cases hk), h.sensing, h.stepping, h.admission⟩
    · exact h
  refine .of_core (discardVerification_core e s) fun h => ?_
  unfold discardVerification
  split
  · exact h
  · split
    · exact h
    · split
      · exact startSense_marksOk (admitWaiting_marksOk (hdrop _ (hleave h)))
      · exact hdrop _ h

/-- The sample of a sense that had ended at a discard (R153). -/
theorem sampleEnded_keeps (high : Bool) {j : Job} {s : State} (hj : s.snu.ended = some j) : Keeps s (sampleEnded high j s) :=
  .of_core (sampleEnded_core high j s) fun h => jobMark_marksOk (h.ended j hj) _
    ⟨h.marks, h.queue, h.sensing, (fun _ hk => by cases hk), h.stepping, h.admission⟩

theorem mem_insertJob {j k : Job} {js : List Job} : k ∈ insertJob j js → k = j ∨ k ∈ js := by
  induction js with
  | nil => simp [insertJob]
  | cons a rest ih =>
    unfold insertJob
    split
    · simp
    · simp only [List.mem_cons]
      rintro (h | h)
      · exact .inr (.inl h)
      · exact (ih h).imp id .inr

theorem mem_foldr_insertJob {k : Job} {js : List Job} (h : k ∈ js.foldr insertJob []) : k ∈ js := by
  induction js with
  | nil => exact h
  | cons a rest ih =>
    rcases mem_insertJob h with rfl | h
    · exact List.mem_cons_self
    · exact List.mem_cons_of_mem _ (ih h)

/-- Jobs whose step has ended rejoin the queue (R149). -/
theorem finishSteps_keeps (s : State) : Keeps s (finishSteps s) := by
  refine .of_core (finishSteps_core s) fun h => ?_
  unfold finishSteps
  dsimp only
  refine startSense_marksOk ⟨h.marks, List.forall_mem_append.mpr ⟨h.queue, fun j hj => ?_⟩, h.sensing, h.ended,
    fun j hj => h.stepping j (List.mem_of_mem_filter hj), h.admission⟩
  obtain ⟨k, hk, rfl⟩ := List.mem_map.mp hj
  exact h.stepping k (List.mem_of_mem_filter (mem_foldr_insertJob hk))

/-! ### The Net Engine: what ends a verification or hands a batch over -/

theorem setReleasePending_keeps (e : Entry) (k : ReleasePending) (w : Work) : Keeps w.st (setReleasePending e k w).st := by
  unfold setReleasePending
  dsimp only
  split
  case h_3 =>
    have h : ∀ u : Work, u.st.gist = w.st.gist → Keeps w.st (u.upd (discardVerification e)).st := fun u hu =>
      (discardVerification_keeps e u.st).gist_left hu
    exact .ite (h _ (by simp)) ((h _ (by simp)).gist_right (takeRelease_gist _ _))
  case h_1 | h_2 | h_4 => exact .ite (.of_gist (by simp)) (.of_gist (by simp))
  case h_5 | h_6 => exact .of_gist (by simp)
  case h_7 => exact .of_gist (by simp)

theorem fault_keeps (e : Entry) (r : Reason) (q : Option Relay) (c : Option Capture) (w : Work) :
    Keeps w.st (fault e r q c w).st := by
  unfold fault
  dsimp only
  split
  · refine Keeps.gist_right ?_ (proceedOuter_gist _ _)
    exact (Keeps.of_gist (by cases c <;> simp)).trans (discardVerification_keeps e _)
  · exact .refl _

theorem innerConnected_keeps (e : Entry) {batch : List Relay} (hb : ∀ r ∈ batch, isCrosspoint r = true) (w : Work) :
    Keeps w.st (innerConnected e batch w).st := by
  unfold innerConnected
  split
  · exact (handOver_keeps hb _).gist_left (by simp)
  · exact .of_gist (by simp)

theorem verificationEnded_keeps (e : Entry) (w : Work) : Keeps w.st (verificationEnded e w).st := by
  unfold verificationEnded
  dsimp only
  split
  · split
    · exact .of_gist (by simp)
    · split
      · exact .of_gist (by simp)
      · exact (fault_keeps _ _ _ _ _).gist_left (by simp)
  · exact .of_gist (by simp)
  · exact .of_gist (by simp)

/-- A wave has settled, with crosspoints as its batch (R125). -/
theorem waveSettled_keeps (e : Entry) (ph : Phase) {batch : List Relay} (hb : ∀ r ∈ batch, isCrosspoint r = true) (w : Work) :
    Keeps w.st (waveSettled e ph batch w).st := by
  have connects : ∀ u : Work, u.st.gist = w.st.gist → Keeps w.st
      (match (u.ent e).state with
        | .connectInner => if (u.ent e).releasePending.isSome then takeRelease e u else innerConnected e batch u
        | .connectOuter => if (u.ent e).releasePending.isSome then takeRelease e u else connected e u
        | .disconnectOuter => proceedOuter e u
        | _ => u).st := by
    intro u hu
    split
    · exact .ite (.of_gist (by simp [hu])) ((innerConnected_keeps e hb u).gist_left hu)
    · exact .ite (.of_gist (by simp [hu])) (.of_gist (by simp [hu]))
    · exact .of_gist (by simp [hu])
    · exact .of_gist hu
  unfold waveSettled
  dsimp only
  split
  · exact connects _ rfl
  · exact connects _ rfl
  all_goals exact .of_gist (by (repeat' split) <;> simp)

theorem abandon_keeps (e : Entry) (r : Reason) (w : Work) : Keeps w.st (abandon e r w).st := by
  have after : ∀ u : Work, u.st.gist = w.st.gist → Keeps w.st
      (if (u.ent e).state = .awaitResource then
        if u.st.claimOnLine e then awaitOpened e (u.upd (endClaim e)) else freeEntry e (withdrawClaim e u)
      else setReleasePending e .plain u).st := fun u hu =>
    .ite (.ite (.of_gist (by simp [hu])) (.of_gist (by simp [hu]))) ((setReleasePending_keeps e .plain u).gist_left hu)
  unfold abandon
  dsimp only
  apply after
  split <;> simp

theorem connectHoldExpired_keeps (e : Entry) (w : Work) : Keeps w.st (connectHoldExpired e w).st := by
  unfold connectHoldExpired
  split
  · exact abandon_keeps _ _ _
  · exact (setReleasePending_keeps _ _ _).gist_left (by simp)

theorem holdExpired_keeps (e : Entry) (w : Work) : Keeps w.st (holdExpired e w).st := by
  unfold holdExpired
  split
  · exact .refl _
  · exact .ite (connectHoldExpired_keeps e w) (.of_gist (by simp))

theorem holdWave_keeps (e : Entry) (v : Wave) (t : Trunk) (w : Work) : Keeps w.st (holdWave e v t w).st :=
  .ite ((holdExpired_keeps e _).gist_left rfl) (.of_gist rfl)

theorem waveMetLive_keeps (e : Entry) (v : Wave) (t : Trunk) (w : Work) : Keeps w.st (waveMetLive e v t w).st := by
  unfold waveMetLive
  dsimp only
  split
  · exact .ite (.of_gist (by simp)) ((waveSettled_keeps e v.phase (by simp) _).gist_left (by simp))
  · exact holdWave_keeps e v t w

/-! ### What reaches an entry from outside -/

theorem dispatchRoute_keeps (i : Site) (r : RouteRecord) (w : Work) : Keeps w.st (dispatchRoute i r w).st := by
  have anchor : ∀ e (u : Work), u.st.gist = w.st.gist → Keeps w.st (dispatchAnchor e u).st := by
    intro e u hu
    unfold dispatchAnchor
    dsimp only
    split
    · exact .ite ((abandon_keeps _ _ _).gist_left (by simp [hu]))
        (.ite ((abandon_keeps _ _ _).gist_left (by simp [hu])) (.of_gist (by simp [hu])))
    · exact .of_gist (by simp [hu])
  have participant : ∀ e (u : Work), u.st.gist = w.st.gist → Keeps w.st (dispatchParticipant e u).st := by
    intro e u hu
    unfold dispatchParticipant
    dsimp only
    split <;> exact .of_gist (by simp [hu])
  unfold dispatchRoute
  dsimp only
  refine .ite (.of_gist (by simp)) (.ite (.of_gist (by simp)) ?_)
  split
  · exact .refl _
  · split
    · exact anchor _ _ rfl
    · exact participant _ _ rfl

theorem unrouteEntry_keeps (e : Entry) (w : Work) : Keeps w.st (unrouteEntry e w).st := by
  unfold unrouteEntry
  dsimp only
  split
  case h_1 | h_2 => exact .of_gist (by simp)
  case h_8 => exact .ite (setReleasePending_keeps _ _ _) (.refl _)
  case h_3 | h_4 | h_5 | h_6 | h_7 => exact setReleasePending_keeps _ _ _
  all_goals exact .refl _

theorem cancelEntry_keeps (e : Entry) (w : Work) : Keeps w.st (cancelEntry e w).st := by
  unfold cancelEntry
  dsimp only
  split
  case h_1 | h_8 => exact .of_gist (by simp)
  case h_7 => exact .ite (setReleasePending_keeps _ _ _) (.of_gist (by simp))
  case h_2 | h_3 | h_4 | h_5 | h_6 => exact setReleasePending_keeps _ _ _
  all_goals exact .refl _

theorem abortEntry_keeps (e : Entry) (w : Work) : Keeps w.st (abortEntry e w).st := by
  unfold abortEntry
  dsimp only
  split
  case h_8 => exact .ite (.of_gist (by simp)) (.of_gist (by simp))
  case h_1 | h_2 => exact .of_gist (by simp)
  case h_9 | h_10 | h_11 | h_12 => exact .of_gist (by simp)
  all_goals exact (setReleasePending_keeps _ _ _).gist_left (by simp)

theorem abortSite_keeps (i : Site) (w : Work) : Keeps w.st (abortSite i w).st :=
  .foldl _ (fun _ e => .ite (abortEntry_keeps e _) (.refl _)) _ w

theorem holdingDropped_keeps (e : Entry) (r : Resource) (q : Reason) (w : Work) : Keeps w.st (holdingDropped e r q w).st := by
  unfold holdingDropped
  dsimp only
  split
  · exact .of_gist (by simp)
  · exact .of_gist (by simp)
  · exact fault_keeps _ _ _ _ _

theorem watch_keeps (r : Resource) (w : Work) : Keeps w.st (watch r w).st :=
  .foldl _ (fun _ _ => .ite (fault_keeps _ _ _ _ _) (.refl _)) _ w

/-- A change of the trunk view acts on the net table (R79, R94, R106). -/
theorem actNamed_keeps (r : Resource) (o : Naming) (w : Work) : Keeps w.st (actNamed r o w).st := by
  have withdraw : Keeps w.st (if o.changed then { withdrawFor r w with pass := true } else w).st := by
    split
    · exact .of_gist (by simp)
    · exact .refl _
  have act : ∀ {u : Work}, Keeps w.st u.st → Keeps w.st
      (match o.dropped with | some (e, reason) => holdingDropped e r reason u | none => u).st := by
    intro u hu
    split
    · exact hu.trans (holdingDropped_keeps _ _ _ _)
    · exact hu
  unfold actNamed
  dsimp only
  exact .ite ((act withdraw).trans (watch_keeps _ _)) (act withdraw)

/-! ### Pulses and the end of an event -/

theorem addWear_gist (r : Relay) (c : Bool) (k : PulseKind) (s : State) : (addWear r c k s).gist = s.gist := by
  unfold addWear
  dsimp only
  split
  · rfl
  · split
    · exact pendNote_gist _ _ _
    · rfl

/-- A pulse leaves every mark alone (R8, R116). -/
theorem pulse_keeps (v : Wave) (r : Relay) (c : Bool) (s : State) : Keeps s (pulse v r c s) := by
  have e : (pulse v r c s).gist = ({ s with wsu := { s.wsu with
      credit := s.wsu.credit.map (fun x => x - (s.classParams r).cost)
      chain := s.wsu.chain ++ [s.pulsePattern r c] } } : State).gist := by
    unfold pulse
    rw [addWear_gist]
    exact State.setRelay_gist rfl rfl
  exact ⟨(pulse_follows v r c s).creditOk, fun h =>
    (Keeps.of_gist e).marks ⟨h.marks, h.queue, h.sensing, h.ended, h.stepping, h.admission⟩⟩

theorem pulseRun_keeps (l : List (Relay × Bool)) (v : Wave) (s : State) : Keeps s (pulseRun l v s).1 := by
  induction l generalizing v s with
  | nil => exact .refl s
  | cons p rest ih =>
    obtain ⟨r, c⟩ := p
    unfold pulseRun
    split
    · exact (ih _ _).gist_left rfl
    · split
      · exact .refl s
      · split
        · exact .refl s
        · exact (pulse_keeps _ _ _ _).trans (ih _ _)

theorem serveHead_keeps (w : Work) : Keeps w.st (serveHead w).st := by
  unfold serveHead
  split
  · exact .refl _
  · rename_i v rest _
    have h := pulseRun_keeps v.todo v w.st
    dsimp only
    split
    · exact h.gist_right ((tellParts_gist _ _).trans rfl)
    · exact h.gist_right ((tellParts_gist _ _).trans ((waveFinished_gist _ _).trans rfl))
    · split
      · exact h.trans ((waveMetLive_keeps _ _ _ _).gist_left rfl)
      · exact h.gist_right rfl

theorem settleDown_keeps (n : Nat) (w : Work) : Keeps w.st (settleDown n w).st := by
  induction n generalizing w with
  | zero => exact .refl _
  | succ n ih =>
    unfold settleDown
    split
    · exact (ih _).gist_left (choicePass_gist w)
    · split
      · exact (serveHead_keeps w).trans (ih _)
      · split
        · exact (ih _).gist_left (flush_gist w)
        · exact .refl _

theorem finish_keeps {s : State} {w : Work} (h : Keeps s w.st) : Keeps s (finish w) := h.trans (settleDown_keeps _ w)

/-- A settled wave hands its crosspoints over, and nothing else (R125, R145). -/
theorem tellOwner_keeps (v : Wave) (w : Work) : Keeps w.st (tellOwner v w).st := by
  unfold tellOwner
  split
  · exact waveSettled_keeps _ _ (fun q hq => (List.mem_filter.mp hq).2) _
  · exact .of_gist (ready_gist _)
  · exact .refl _

theorem settle_keeps (r : Relay) (w : Work) : Keeps w.st (settle r w).st := by
  unfold settle
  split
  · exact (tellOwner_keeps _ _).gist_left ((with_wsu_gist _ _ _ _ _ _ _).trans (settleRelays_gist _ _))
  · exact .of_gist (by simp)

end Sys2Proof.Machine
end

