-- ==== Sys2Proof/Proofs/Steps.lean ====
section
/-! Every command keeps the coil credit within Cmax and the marks on crosspoints: the heard frames, the link, the resets and the
load, and the times that pass, each from what its operations keep. -/

namespace Sys2Proof.Machine

/-! ### Heard frames (R26, R32) -/

theorem claimHeard_keeps (n : Node) (r : Resource) (i : Site) (m : NetId) (w : Work) : Keeps w.st (claimHeard n r i m w).st := by
  have h : Keeps w.st (actNamed r (named n r (some (i, m)) w.st).2 { w with st := (named n r (some (i, m)) w.st).1 }).st :=
    (actNamed_keeps _ _ _).gist_left (named_gist _ _ _ _)
  unfold claimHeard
  dsimp only
  split
  · exact h.trans (.foldl _ (fun _ _ => .of_gist (participantClaim_gist _ _ _)) _ _)
  · exact h

theorem releaseHeard_keeps (n : Node) (r : Resource) (w : Work) : Keeps w.st (releaseHeard n r w).st :=
  (actNamed_keeps _ _ _).gist_left (clearView_gist _ _ _)

theorem beaconHeard_keeps (n : Node) (m : BitVec 24) (w : Work) : Keeps w.st (beaconHeard n m w).st := by
  unfold beaconHeard
  dsimp only
  exact (Keeps.foldl (fun w (p : Resource × Naming) => actNamed p.1 p.2 w) (fun _ _ => actNamed_keeps _ _ _) _ _).gist_left
    (beaconView_gist n m (List.finRange 17) w.st)

theorem cancelHeard_keeps (n : Node) (i : Site) (m : NetId) (w : Work) : Keeps w.st (cancelHeard n i m w).st := by
  unfold cancelHeard
  dsimp only
  split
  · exact (cancelEntry_keeps _ _).gist_left (purge_gist _ _ _)
  · exact .of_gist (purge_gist _ _ _)

theorem abortHeard_keeps (i : Site) (w : Work) : Keeps w.st (abortHeard i w).st := by
  simp only [abortHeard, Work.upd_st]
  exact ((abortSite_keeps i (w.upd (emptySite i))).gist_left (emptySite_gist i w.st)).gist_right (abortReady_gist i _)

/-- CLEAR_MARKS clears marks and sets none (R170). -/
theorem clearMarks_keeps (first last : Nat) (s : State) : Keeps s (clearMarks first last s) := by
  unfold clearMarks
  split
  · refine ⟨creditOk_of_eq rfl rfl rfl, fun h => ⟨fun r hr => ?_, h.queue, h.sensing, h.ended, h.stepping, h.admission⟩⟩
    simp only [clearSpan, State.relay, look_each]
    split
    · exact ⟨rfl, rfl⟩
    · exact h.marks r hr
  · exact .of_gist rfl

theorem maintHeard_keeps (op : MaintOp) (w : Work) : Keeps w.st (maintHeard op w).st := by
  unfold maintHeard
  refine .ite (.refl _) ?_
  cases op with
  | saveWear => exact .of_gist (saveWear_gist _)
  | readWear i => exact .of_gist (readWear_gist _ _)
  | clearMarks first last => exact clearMarks_keeps _ _ _
  | readFault => exact .of_gist (readFault_gist _)
  | clearFault => exact .of_gist (clearFault_gist _)

/-- The blocks named for a frame's kind act on it (R32). -/
theorem act_keeps (n : Node) (m : Msg) (w : Work) : Keeps w.st (act n m w).st := by
  unfold act
  split
  · exact .refl _
  · exact abortHeard_keeps _ _
  · exact claimHeard_keeps _ _ _ _ _
  · exact releaseHeard_keeps _ _ _
  · exact cancelHeard_keeps _ _ _ _
  · exact beaconHeard_keeps _ _ _
  · exact .of_gist (clearHeard_gist _ _)
  · exact .of_gist (routeHeard_gist _ _ _ _ _ _ _)
  · exact .of_gist (unrouteHeard_gist _ _ _)
  · exact .of_gist (monitorHeard_gist _ _ _ _)
  · exact .of_gist (fenceHeard_gist _ _ _)
  · exact .ite (maintHeard_keeps _ _) (.refl _)
  · exact .of_gist (statusHeard_gist _ _ _ _ _)
  · exact .refl _
  · exact .refl _
  · exact .refl _

theorem dispatchFront_keeps (fits : State → Frame → Bool) (s : State) : Keeps s (dispatchFront fits s) := by
  unfold dispatchFront
  split
  · exact .refl s
  · split
    · unfold takeFrame
      split
      · exact .of_gist rfl
      · split
        · exact .of_gist (latch_gist _ _)
        · exact finish_keeps ((act_keeps _ _ _).gist_left (resumeHeld_gist _))
    · exact .refl s

/-! ### The link (R20–R25) -/

theorem idlePoint_keeps (s : State) : Keeps s (idlePoint s) := by
  unfold idlePoint
  dsimp only
  split
  · split
    · exact .of_gist (startFrame_gist _)
    · exact .of_gist rfl
  · exact .refl s

theorem deferredStart_keeps (s : State) : Keeps s (deferredStart s) := by
  unfold deferredStart
  split
  · exact .of_gist (startFrame_gist _)
  · exact .refl s

theorem lostContention_keeps (s : State) : Keeps s (lostContention s) := by
  unfold lostContention
  split
  · split
    · exact finish_keeps (.of_gist (offLine_gist _ _))
    · exact .refl s
  · exact .refl s

theorem readbackFault_keeps (s : State) : Keeps s (readbackFault s) := by
  unfold readbackFault
  split
  · split
    · exact finish_keeps (.of_gist ((offLine_gist _ _).trans (latch_gist _ _)))
    · exact .refl s
  · exact .refl s

theorem checkFieldEnd_keeps (h : Sampled) (s : State) : Keeps s (checkFieldEnd h s) := by
  unfold checkFieldEnd
  dsimp only
  split
  · split
    · exact .of_gist rfl
    · exact .of_gist (countClean_gist _ _)
  · exact .refl s

theorem releaseSent_keeps (e : Entry) (r : Resource) (w : Work) : Keeps w.st (releaseSent e r w).st := by
  have free : ∀ (held : Bool) (u : Work), Keeps w.st u.st → Keeps w.st (if held then tryFree e u else u).st := fun _ _ h =>
    .ite (h.gist_right (tryFree_gist _ _)) h
  have drop : ∀ held : Bool, (if held then w.upd (dropHolding r) else w).st.gist = w.st.gist := fun _ => ite_gist rfl rfl
  unfold releaseSent
  dsimp only
  refine free _ _ (.ite ((watch_keeps _ _).gist_left ?_) (.of_gist (drop _)))
  exact (State.setView_gist _ _ _).trans (drop _)

/-- The outcome of the part's own frame (R25). -/
theorem ownOutcome_keeps (o : OwnFrame) (driven : Bool) (s : State) : Keeps s (ownOutcome o driven s) := by
  unfold ownOutcome
  dsimp only
  split
  · exact finish_keeps (.of_gist ((objected_gist _ _).trans (countObjection_gist _)))
  · refine finish_keeps ?_
    unfold sent
    dsimp only
    split
    · exact .of_gist ((claimSent_gist _ _ _ _).trans (clearSent_gist _ _))
    · exact (releaseSent_keeps _ _ _).gist_left (clearSent_gist _ _)
    · exact .of_gist (clearSent_gist _ _)
    · exact .of_gist ((takeFaulted_gist _ _).trans (clearSent_gist _ _))
    · exact .of_gist (clearSent_gist _ _)

theorem slotRead_keeps (driven : Bool) (s : State) : Keeps s (slotRead driven s) := by
  unfold slotRead
  split
  · split
    · exact ownOutcome_keeps _ _ _
    · exact .of_gist rfl
    · exact .refl s
  · exact .refl s

/-- A beacon-period boundary (R34, R101–R104). -/
theorem beaconBoundary_keeps (s : State) : Keeps s (beaconBoundary s) := by
  have selfOpens : ∀ w : Work, Keeps w.st (selfOpen w).st := by
    intro w
    unfold selfOpen
    exact .ite (.refl _) ((Keeps.foldl _ (fun _ _ => actNamed_keeps _ _ _) _ _).gist_left (dropAll_gist _))
  have boundary : ∀ w : Work, Keeps w.st (rcuBoundary w).st := by
    intro w
    have reports : ∀ (rs : List Resource) (u : Work), u.st.gist = w.st.gist → Keeps w.st (reportChanges rs u).st := fun rs u hu =>
      (Keeps.foldl (fun w r => actNamed r ⟨none, true⟩ w) (fun _ _ => actNamed_keeps _ _ _) rs u).gist_left hu
    unfold rcuBoundary
    dsimp only
    split
    · refine (reports _ _ ?_).trans (selfOpens _)
      rfl
    · refine reports _ _ ?_
      rfl
  unfold beaconBoundary
  split
  · exact finish_keeps (Keeps.gist_left (boundary _) ((resumeHeld_gist _).trans ((ageRoster_gist _).trans (with_tb_gist s _))))
  · exact .refl s

/-! ### Resets and the load (R180–R183) -/

/-- A sense that is cut short leaves no job in SENSING (R154). -/
theorem cutSense_keeps (s : State) : Keeps s (cutSense s) :=
  ⟨creditOk_of_eq rfl rfl rfl, fun h => ⟨h.marks, h.queue, (fun _ hj => by cases hj), (fun _ hj => by cases hj), h.stepping, h.admission⟩⟩

theorem cutSave_gist (s : State) : (cutSave s).gist = s.gist := by
  unfold cutSave
  split
  · rfl
  · exact saveFail_gist _ _

theorem resetAsserted_keeps (s : State) : Keeps s (resetAsserted s) := by
  have frame : ∀ t : State, Keeps t (cutFrame t) := by
    intro t
    unfold cutFrame
    split
    · exact ownOutcome_keeps _ _ _
    · exact .refl t
  unfold resetAsserted
  split
  · exact .refl s
  · have h : Keeps s (cutFrame (enterReset s)) := (frame _).gist_left rfl
    exact ((h.gist_right (cutSave_gist _)).trans (cutSense_keeps _)).gist_right rfl

/-- With no meter, no record judged and costs as they should be, the credit is in order. -/
theorem creditOk_of_none {s : State} (hc : s.wsu.credit = none) (hp : costsOk s.cfl.config) (hj : s.cfl.judged = none) :
    s.creditOk :=
  ⟨fun c h => (by rw [hc] at h; cases h), hp, fun j h => (by rw [hj] at h; cases h)⟩

/-- With an idle SNU the marks alone matter. -/
theorem marksOk_of_idle {s : State} (hs : s.snu = Snu.reset)
    (hm : ∀ r, isCrosspoint r = false → (s.relay r).slow = false ∧ (s.relay r).suspect = false) : s.marksOk := by
  refine ⟨hm, ?_, ?_, ?_, ?_, ?_⟩ <;> rw [hs] <;> simp [Snu.reset]

theorem costsOk_of_ranged {c : Configuration} (h : configRanged c) : costsOk c := by
  intro k
  obtain ⟨-, -, -, -, -, -, -, -, -, -, -, -, -, -, classes⟩ := h
  obtain ⟨-, -, -, -, -, -, -, cost, -⟩ := classes k
  exact cost

theorem powerOn_keeps (straps : Node) (s : State) : Keeps s (powerOn straps s) := by
  refine ⟨fun _ => creditOk_of_none rfl (costsOk_of_ranged defaulted_ranged) rfl, fun _ => marksOk_of_idle rfl fun r _ => ?_⟩
  simp [powerOn, State.reset, Rm.reset, State.relay, RelayRec.reset]

theorem coldPin_keeps (straps : Node) (s : State) : Keeps s (coldPin straps s) := by
  refine (resetAsserted_keeps s).trans ⟨fun h => creditOk_of_none rfl h.costs rfl, fun h => marksOk_of_idle rfl fun r hr => ?_⟩
  simp only [coldPin, State.relay, look_each]
  exact h.marks r hr

theorem captureInFlight_gist (es : List Entry) (s : State) : (captureInFlight es s).gist = s.gist :=
  foldl_gist id _ (fun _ _ => captureEntry_gist _ _ _ _ _) es s

theorem warmKeep_keeps (straps : Node) (s : State) : Keeps s (warmKeep straps s) := by
  unfold warmKeep
  dsimp only
  refine (resetAsserted_keeps s).trans (.gist_right ?_ (captureInFlight_gist _ _))
  generalize resetAsserted s = r
  have h : Keeps r (r.dropListed (unpulsedRelays r)) := .of_gist (State.dropListed_gist _ r)
  generalize r.dropListed (unpulsedRelays r) = u at h
  exact h.trans ⟨fun h => creditOk_of_none rfl h.costs rfl, fun h => marksOk_of_idle rfl h.marks⟩

theorem reset_keeps (k : ResetKind) (straps : Node) (s : State) : Keeps s (reset k straps s) := by
  unfold reset
  split
  · exact powerOn_keeps _ _
  · split
    · exact powerOn_keeps _ _
    · exact coldPin_keeps _ _
  · split
    · exact powerOn_keeps _ _
    · exact warmKeep_keeps _ _

/-- A block of the wear store gives marks to crosspoints alone (R167, R194). -/
theorem takeBlock_keeps (b : Block) (count : Relay → Nat) {slow suspect : Relay → Bool}
    (h1 : ∀ r, isCrosspoint r = false → slow r = false) (h2 : ∀ r, isCrosspoint r = false → suspect r = false) (s : State) :
    Keeps s (takeBlock b count slow suspect s) := by
  refine ⟨creditOk_of_eq rfl rfl rfl, fun h => ⟨fun r hr => ?_, h.queue, h.sensing, h.ended, h.stepping, h.admission⟩⟩
  simp only [takeBlock, State.relay, look_each]
  split
  · exact ⟨h1 r hr, h2 r hr⟩
  · exact h.marks r hr

theorem takeAbsent_keeps (c : Configuration) (s : State) : Keeps s (takeAbsent c s) := by
  refine ⟨creditOk_of_eq rfl rfl rfl, fun h => ⟨fun r _ => ?_, h.queue, h.sensing, h.ended, h.stepping, h.admission⟩⟩
  simp [takeAbsent, State.relay]

theorem takeNext_keeps (b : Block) (a : MemAnswer) (s : State) : Keeps s (takeNext b a s) := by
  unfold takeNext
  dsimp only
  split
  · exact takeBlock_keeps b _ (fun r hr => by simp [hr]) (fun r hr => by simp [hr]) s
  · exact (takeBlock_keeps b _ (fun _ _ => rfl) (fun _ _ => rfl) s).gist_right (pendNote_gist _ _ _)

theorem ensureJudged_keeps (a : MemAnswer) (s : State) : Keeps s (ensureJudged a s) := by
  unfold ensureJudged
  split
  · exact .refl s
  · refine ⟨fun h => ⟨h.meter, h.costs, fun j hj => ?_⟩, marksOk_of_eq (fun _ => ⟨rfl, rfl⟩) rfl⟩
    cases hj
    exact costsOk_of_ranged (judgeRecord_ranged a s.memory)

theorem wearBlockRead_keeps (record block : MemAnswer) (s : State) : Keeps s (wearBlockRead record block s) := by
  have present : ∀ (c : Prop) [Decidable c] (t : State),
      (if c then { t with wru := { t.wru with storeAbsent := false } } else t : State).gist = t.gist := by
    intro c _ t
    split <;> rfl
  unfold wearBlockRead
  split
  · split
    · exact .refl s
    · rename_i b _
      dsimp only
      refine (ensureJudged_keeps record s).trans ?_
      split
      · exact ((takeAbsent_keeps _ _).gist_right (pendNote_gist _ _ _)).gist_right rfl
      · exact ((takeNext_keeps _ _ _).gist_left (present _ _)).gist_right rfl
  · exact .refl s

/-- The load's parameters come into force with a full meter (R111, R183). -/
theorem takeParameters_creditOk {c : Configuration} (hc : costsOk c) (s : State) : (takeParameters c s).creditOk :=
  ⟨fun _ h => by cases h; exact le_refl _, hc, fun _ h => by cases h⟩

theorem loadEnd_keeps (record : MemAnswer) (s : State) : Keeps s (loadEnd record s) := by
  have start : ∀ w : Work, (queueStart w).st.gist = w.st.gist := by
    intro w
    unfold queueStart
    dsimp only
    split
    · rfl
    · split <;> rfl
  have note : ∀ n (t : State), (judgeHeld (noteRecord n t)).gist = t.gist := by
    intro n t
    show (noteRecord n t).gist = t.gist
    unfold noteRecord
    split
    · exact pendNote_gist _ _ _
    · rfl
  unfold loadEnd
  split
  · refine finish_keeps (Keeps.gist_right ?_ ((start _).trans ((tellParts_gist _ _).trans (note _ _))))
    refine ⟨fun h => takeParameters_creditOk ?_ s, marksOk_of_eq (fun _ => ⟨rfl, rfl⟩) rfl⟩
    split
    · exact h.judged _ (by assumption)
    · exact costsOk_of_ranged (judgeRecord_ranged _ _)
  · exact .refl s

theorem listenEnd_keeps (s : State) : Keeps s (listenEnd s) := by
  unfold listenEnd
  split
  · refine finish_keeps (.ite ?_ (.of_gist (resumeHeld_gist _)))
    exact (Keeps.foldl _ (fun _ _ => watch_keeps _ _) _ _).gist_left (resumeHeld_gist _)
  · exact .refl s

/-! ### Times that pass, and work of the part's own -/

/-- The arbiter selects without touching the gist (R56, R57). -/
theorem select_gist {s t : State} {c : Fin 4} {i : Site} (h : select s = some (c, i, t)) : t.gist = s.gist := by
  unfold select at h
  split at h
  · split at h
    · cases h; rfl
    · obtain ⟨p, -, hp⟩ := Option.map_eq_some_iff.mp h
      cases hp; rfl
  · obtain ⟨p, -, hp⟩ := Option.map_eq_some_iff.mp h
    cases hp; rfl

theorem actRecord_keeps (i : Site) (b : QueueBody) (w : Work) : Keeps w.st (actRecord i b w).st := by
  cases b with
  | route r => exact dispatchRoute_keeps _ _ _
  | unroute n =>
    unfold actRecord
    dsimp only
    split
    · exact unrouteEntry_keeps _ _
    · exact .refl _
  | monitor n on => exact .of_gist (dispatchMonitor_gist _ _ _ _)
  | fence token => exact .of_gist (oweReady_gist _ _ _ _)

theorem arbitrate_keeps (w : Work) : Keeps w.st (arbitrate w).st := by
  unfold arbitrate
  split
  · exact .refl _
  · rename_i h
    split
    · exact .refl _
    · exact (actRecord_keeps _ _ _).gist_left ((popHead_gist _ _).trans ((noteServed_gist _ _ _).trans (select_gist h)))

/-- The refill stops at Cmax (R112). -/
theorem creditBoundary_keeps (w : Work) : Keeps w.st (creditBoundary w).st := by
  refine ⟨fun h => ⟨fun c hc => ?_, h.costs, h.judged⟩, marksOk_of_eq (fun _ => ⟨rfl, rfl⟩) rfl⟩
  obtain ⟨c0, -, rfl⟩ := Option.map_eq_some_iff.mp (show w.st.wsu.credit.map (refilled w.st.cfl.config) = some c from hc)
  exact min_le_left _ _

theorem releaseWaitOver_gist (e : Entry) (w : Work) : (releaseWaitOver e w).st.gist = w.st.gist := by
  unfold releaseWaitOver
  dsimp only
  split <;> simp

theorem monitorWaitOver_gist (e : Entry) (w : Work) : (monitorWaitOver e w).st.gist = w.st.gist := by
  unfold monitorWaitOver
  split <;> simp

theorem senseOver_keeps (high : Bool) (w : Work) : Keeps w.st (senseOver high w).st := by
  unfold senseOver
  split
  · exact sampleEnded_keeps high (by assumption)
  · rename_i j _ hj
    have h : Keeps w.st (w.upd (finishSense high j)).st := finishSense_keeps high hj
    exact .ite (h.trans (verificationEnded_keeps _ _)) h
  · exact .refl _

theorem writeEnd_keeps (s : State) : Keeps s (writeEnd s) := by
  unfold writeEnd
  split
  · split
    · exact .of_gist (saveAdvance_gist _ _ _)
    · exact .refl s
  · exact .refl s

theorem writeFailure_keeps (s : State) : Keeps s (writeFailure s) := by
  unfold writeFailure
  split
  · split
    · exact .of_gist (saveFail_gist _ _)
    · exact .refl s
  · exact .refl s

/-! ### The step -/

theorem plainEvent_keeps {dt : Nat} {f : State → State} {s t : State} (hf : ∀ u, Keeps u (f u)) (h : plainEvent dt f s = .next t) :
    Keeps s t := by
  cases h
  exact (hf _).gist_left (advance_gist dt s)

theorem event_keeps {dt : Nat} {due : State → Bool} {f : Work → Work} {s t : State} (hf : ∀ w, Keeps w.st (f w).st)
    (h : event dt due f s = .next t) : Keeps s t := by
  cases h
  refine Keeps.gist_left ?_ (advance_gist dt s)
  split
  · exact finish_keeps (hf (Work.start (advance dt s)))
  · exact .refl _

/-- Every command keeps both invariants. -/
theorem exec_keeps {c : Instr} {s t : State} (h : exec c s = .next t) : Keeps s t := by
  cases c with
  | powerOnReset | coldPinReset | warmKeep => exact plainEvent_keeps (reset_keeps _ _) h
  | configurationLoadEnd dt record => exact plainEvent_keeps (loadEnd_keeps record) h
  | wearBlockRead dt record block => exact plainEvent_keeps (wearBlockRead_keeps record block) h
  | listenPeriodEnd dt => exact plainEvent_keeps listenEnd_keeps h
  | idlePoint dt => exact plainEvent_keeps idlePoint_keeps h
  | deferredFrameStart dt => exact plainEvent_keeps deferredStart_keeps h
  | lostContention dt => exact plainEvent_keeps lostContention_keeps h
  | readbackFault dt => exact plainEvent_keeps readbackFault_keeps h
  | checkFieldEnd dt heard => exact plainEvent_keeps (checkFieldEnd_keeps heard) h
  | objectionSlotRead dt driven => exact plainEvent_keeps (slotRead_keeps driven) h
  | source | abort | claim | release | cancel | beacon | clear | route | unroute | monitor | fence | saveWear | readWear
  | clearMarks | readFault | clearFault | status | ready | note | maintDone | maintForAnotherTargetNode =>
    exact plainEvent_keeps (dispatchFront_keeps _) h
  | arbiterDispatch dt => exact event_keeps arbitrate_keeps (show execArbiterDispatch dt s = .next t from h)
  | beaconPeriodBoundary dt => exact plainEvent_keeps beaconBoundary_keeps h
  | creditBoundary dt => exact event_keeps creditBoundary_keeps (show execCreditBoundary dt s = .next t from h)
  | settleEnd dt r => exact event_keeps (settle_keeps r) (show execSettleEnd dt r s = .next t from h)
  | connectHoldExpiry dt e => exact event_keeps (holdExpired_keeps e) (show execConnectHoldExpiry dt e s = .next t from h)
  | disconnectHoldExpiry dt e => exact event_keeps (holdExpired_keeps e) (show execDisconnectHoldExpiry dt e s = .next t from h)
  | awaitResourceDeadline dt e => exact event_keeps (fun w => abandon_keeps e _ w) (show execAwaitResourceDeadline dt e s = .next t from h)
  | awaitAnchorDeadline dt e => exact event_keeps (fun w => .of_gist (by simp [anchorWaitOver])) (show execAwaitAnchorDeadline dt e s = .next t from h)
  | awaitOpenedDeadline dt e => exact event_keeps (fun w => .of_gist (releaseWaitOver_gist e w)) (show execAwaitOpenedDeadline dt e s = .next t from h)
  | monitorClaimWaitExpiry dt e => exact event_keeps (fun w => .of_gist (monitorWaitOver_gist e w)) (show execMonitorClaimWaitExpiry dt e s = .next t from h)
  | coolingEnd dt r => exact event_keeps (f := coolingEnd r) (fun w => .of_gist rfl) (show execCoolingEnd dt r s = .next t from h)
  | senseEnd dt high => exact event_keeps (senseOver_keeps high) (show execSenseEnd dt high s = .next t from h)
  | stepEnd dt => exact event_keeps (fun w => finishSteps_keeps w.st) (show execStepEnd dt s = .next t from h)
  | blockWriteEnd dt => exact plainEvent_keeps writeEnd_keeps h
  | blockWriteFailure dt => exact plainEvent_keeps writeFailure_keeps h
  | resetAsserted dt => exact plainEvent_keeps resetAsserted_keeps h

/-- Every step keeps both invariants; taking a command from the queue touches neither. -/
theorem step_keeps {s t : State} (h : step s = .next t) : Keeps s t := by
  unfold step at h
  split at h
  · cases h; exact .refl s
  · exact (exec_keeps h).gist_left rfl

/-- Settles O55, command by command: the meter is only spent, refilled up to Cmax, or set to the Cmax of a ranged record. -/
theorem everyStepKeepsCreditWithinCmax : Obligations.EveryStepKeepsCreditWithinCmax := fun _ _ hs h => (step_keeps h).credit hs

/-- Settles O59, command by command: a mark comes from a sense job or a block of the store, and jobs from crosspoints of a wave. -/
theorem everyStepKeepsMarksOnCrosspoints : Obligations.EveryStepKeepsMarksOnCrosspoints := fun _ _ hs h => (step_keeps h).marks hs

end Sys2Proof.Machine
end

