-- ==== Sys2Proof/Proofs/PinResets.lean ====
section
/-! The pin resets (R10, R11, R60, R180): what the cold pin reset forgets, and what the warm keep keeps. -/

namespace Sys2Proof.Machine

/-! ### The cold pin reset -/

theorem exec_coldPinReset (dt : Nat) (straps : Node) (s : State) :
    exec (.coldPinReset dt straps) s = .next (reset .coldPin straps (advance dt s)) := rfl

theorem exec_warmKeep (dt : Nat) (straps : Node) (s : State) :
    exec (.warmKeep dt straps) s = .next (reset .warmKeep straps (advance dt s)) := rfl

theorem exec_powerOnReset (dt : Nat) (straps : Node) (s : State) :
    exec (.powerOnReset dt straps) s = .next (powerOn straps (advance dt s)) := rfl

/-- Before the load of a power-on reset has ended, a pin reset is a power-on reset (R180). -/
theorem reset_during_load {s : State} (h : s.cfl.powerOnLoad = true) (straps : Node) (k : ResetKind) :
    reset k straps s = powerOn straps s := by
  cases k with
  | powerOn => rfl
  | coldPin => exact if_pos h
  | warmKeep => exact if_pos h

theorem reset_coldPin {s : State} (h : s.cfl.powerOnLoad = false) (straps : Node) : reset .coldPin straps s = coldPin straps s :=
  if_neg (by simp [h])

theorem reset_warmKeep {s : State} (h : s.cfl.powerOnLoad = false) (straps : Node) :
    reset .warmKeep straps s = warmKeep straps s := if_neg (by simp [h])

/-- Settles O5: the cold pin reset, field by field, over the state that the assertion leaves. -/
theorem coldPinResetKeepsWearAndRecord : Obligations.ColdPinResetKeepsWearAndRecord := by
  intro dt straps s
  rw [exec_coldPinReset, exec_powerOnReset]
  refine ⟨fun h => by rw [reset_during_load (by simpa using h)], fun h r hr => ⟨_, rfl, ?_⟩⟩
  rw [reset_coldPin (by simpa using h), coldPin, ← hr]
  refine ⟨rfl, rfl, rfl, rfl, rfl, rfl, rfl, rfl, fun x => ?_, rfl, rfl, rfl, rfl, rfl, rfl, rfl, rfl, rfl, rfl⟩
  simp only [State.relay, look_each]
  rfl

/-! ### The warm keep -/

/-- A dropped list takes the owner of its OPEN relays and changes nothing else (R8). -/
theorem State.dropListed_relay (rs : List Relay) (s : State) (x : Relay) : (s.dropListed rs).relay x =
    if x ∈ rs ∧ (s.relay x).state = .opened then { s.relay x with owner := none } else s.relay x := by
  unfold State.dropListed
  induction rs generalizing s with
  | nil => simp
  | cons r rs ih =>
    rw [List.foldl_cons, ih]
    by_cases hx : r = x
    · subst hx
      by_cases ho : (s.relay r).state = .opened <;> simp [ho]
    · have e : (if (s.relay r).state = .opened then s.setRelay r { s.relay r with owner := none } else s).relay x = s.relay x := by
        split
        · exact State.setRelay_relay_ne s _ hx
        · rfl
      rw [e]
      simp [Ne.symm hx]

/-- A dropped list changes the RM's records alone. -/
theorem State.dropListed_eq (rs : List Relay) (s : State) :
    s.dropListed rs = { s with rm := { s.rm with relays := (s.dropListed rs).rm.relays } } := by
  unfold State.dropListed
  induction rs generalizing s with
  | nil => rfl
  | cons r rs ih =>
    rw [List.foldl_cons, ih]
    split <;> rfl

/-- The captures of a warm keep reach the FCU alone (R171). -/
theorem captureInFlight_eq (es : List Entry) (s : State) : captureInFlight es s = { s with fcu := (captureInFlight es s).fcu } := by
  have one : ∀ (c : Capture) (u : State), capture c u = { u with fcu := (capture c u).fcu } := by
    intro c u
    unfold capture
    split <;> rfl
  unfold captureInFlight
  induction es generalizing s with
  | nil => rfl
  | cons e es ih =>
    rw [List.foldl_cons, ih, captureEntry, one]

/-- A rested entry keeps its state and what it says of its net (R60). -/
theorem warmEntry_kept {x : NetEntry} (h : x.state.kept = true) (s : State) (e : Entry) : (warmEntry s e x).state = x.state ∧
    (warmEntry s e x).site = x.site ∧ (warmEntry s e x).net = x.net ∧ (warmEntry s e x).resource = x.resource ∧
    (warmEntry s e x).pins = x.pins := by
  unfold warmEntry
  split
  · exact ⟨rfl, rfl, rfl, rfl, rfl⟩
  · exact ⟨rfl, rfl, rfl, rfl, rfl⟩
  · split <;> exact ⟨rfl, rfl, rfl, rfl, rfl⟩
  · exact ⟨rfl, rfl, rfl, rfl, rfl⟩
  · cases hx : x.state <;> simp_all [EntryState.kept]

/-- An entry in flight is FAULTED with RESET_IN_FLIGHT (R60). -/
theorem warmEntry_flying {x : NetEntry} (h : x.state.kept = false) (s : State) (e : Entry) : (warmEntry s e x).state = .faulted ∧
    (warmEntry s e x).reason = some .resetInFlight ∧ (warmEntry s e x).releasePending = none ∧ (warmEntry s e x).deadline = none ∧
    (warmEntry s e x).site = x.site ∧ (warmEntry s e x).net = x.net := by
  unfold warmEntry
  split
  case h_5 => exact ⟨rfl, rfl, rfl, rfl, rfl, rfl⟩
  all_goals simp_all [EntryState.kept]

theorem moving_iff (x : RelayRec) : x.moving = true ↔ x.state = .closing ∨ x.state = .opening := by
  simp [RelayRec.moving]

/-- A relay on its way keeps its record when a list is dropped. -/
theorem State.dropListed_relay_moving {rs : List Relay} {s : State} {x : Relay}
    (h : (s.relay x).state = .closing ∨ (s.relay x).state = .opening) : (s.dropListed rs).relay x = s.relay x := by
  rw [State.dropListed_relay, if_neg]
  rintro ⟨-, ho⟩
  rcases h with h | h <;> rw [h] at ho <;> cases ho

theorem State.dropListed_moving (rs : List Relay) (s : State) (x : Relay) :
    ((s.dropListed rs).relay x).moving = (s.relay x).moving := by
  rw [State.dropListed_relay]
  split <;> rfl

theorem recoveryList_dropListed (rs : List Relay) (s : State) : recoveryList (s.dropListed rs) = allRelays.filterMap (fun x =>
    if (s.relay x).state = .closing ∨ (s.relay x).state = .opening then (s.relay x).owner.map (fun e => (x, e)) else none) := by
  refine List.filterMap_congr fun x _ => ?_
  simp only [State.dropListed_moving, moving_iff]
  split
  · rw [State.dropListed_relay_moving (by assumption)]
  · rfl

theorem sweepUnfinished_dropListed (rs : List Relay) (s : State) : (!sweepUnfinished (s.dropListed rs)) = true ↔
    ∀ x, (s.relay x).state = .closing ∨ (s.relay x).state = .opening → (s.relay x).owner ≠ none := by
  simp only [sweepUnfinished, allRelays, Bool.not_eq_true', List.any_eq_false, List.mem_finRange, true_implies, Bool.and_eq_true,
    State.dropListed_moving, moving_iff, not_and, Option.isNone_iff_eq_none]
  refine forall_congr' fun x => imp_congr_right fun h => ?_
  rw [State.dropListed_relay_moving h]

theorem mem_unpulsedRelays (s : State) (x : Relay) :
    x ∈ unpulsedRelays s ↔ ∃ v ∈ s.wsu.queue ++ s.wsu.held, ∃ p ∈ v.todo, p.1 = x := by
  simp only [unpulsedRelays, List.mem_flatMap, List.mem_map]

/-- Settles O6: the warm keep, block by block, over the state that the assertion leaves. -/
theorem warmKeepKeepsRestedEntries : Obligations.WarmKeepKeepsRestedEntries := by
  intro dt straps s
  rw [exec_warmKeep, exec_powerOnReset]
  refine ⟨fun h => by rw [reset_during_load (by simpa using h)], fun h r hr => ⟨_, rfl, ?_⟩⟩
  rw [reset_warmKeep (by simpa using h), warmKeep, ← hr, captureInFlight_eq]
  have huRelay := State.dropListed_relay (unpulsedRelays r) r
  have huList := recoveryList_dropListed (unpulsedRelays r) r
  have huSweep := sweepUnfinished_dropListed (unpulsedRelays r) r
  have huEq := State.dropListed_eq (unpulsedRelays r) r
  generalize r.dropListed (unpulsedRelays r) = u at huRelay huList huSweep huEq
  have hne : u.ne = r.ne := by rw [huEq]
  have hrcu : u.rcu = r.rcu := by rw [huEq]
  have hent : ∀ e, u.entry e = r.entry e := fun e => by rw [State.entry, hne]; rfl
  have hwarm : ∀ e, look (warmNe u).entries e = warmEntry u e (r.entry e) := fun e => by
    rw [warmNe, look_each, hne]; rfl
  have hmarks : ∀ e, (r.entry e).state.kept = true →
      look (warmNe u).status e = look r.ne.status e ∧ look (warmNe u).cancel e = look r.ne.cancel e := fun e he => by
    simp [warmNe, State.inFlightEntry, hent, he, hne]
  have hgone : ∀ e, (r.entry e).state.kept = false →
      look (warmNe u).status e = none ∧ look (warmNe u).cancel e = none := fun e he => by
    simp [warmNe, State.inFlightEntry, hent, he]
  refine ⟨fun e he => ?_, fun e he => ?_, fun i => ?_, ?_, ?_, fun x => ?_,
    fun e => ?_, rfl, fun x => ?_, fun x hx => ?_, fun x ho hx => ?_, fun x => ?_, rfl, rfl, rfl, rfl, ?_, ?_,
    rfl, rfl, rfl, ?_, rfl, rfl, rfl, ?_, ?_⟩
  · obtain ⟨hstate, hsite, hnet, hres, hpins⟩ := warmEntry_kept he u e
    simp only [State.entry, hwarm]
    exact ⟨hstate, hsite, hnet, hres, hpins, hmarks e he⟩
  · obtain ⟨hstate, hreason, hpend, hdead, hsite, hnet⟩ := warmEntry_flying he u e
    simp only [State.entry, hwarm]
    exact ⟨hstate, hreason, hpend, hdead, hsite, hnet, hgone e he⟩
  · simp only [warmNe, look_fill]
  · simp only [warmNe, hne]
  · simp only [warmRcu, hrcu]
  · simp only [warmRcu, look_each, hrcu]
  · simp only [warmRcu, look_fill]
  · show (u.relay x).state = _ ∧ (u.relay x).slow = _ ∧ (u.relay x).suspect = _ ∧ (u.relay x).settleEnd = _
    rw [huRelay]
    split <;> exact ⟨rfl, rfl, rfl, rfl⟩
  · show (u.relay x).owner = _
    rw [huRelay, if_neg]
    rintro ⟨hm, ho⟩
    obtain ⟨v, hv, p, hp, e⟩ := (mem_unpulsedRelays r x).mp hm
    exact hx.elim (fun h => h ho) (fun h => h v hv p hp e)
  · show (u.relay x).owner = _
    rw [huRelay, if_pos ⟨(mem_unpulsedRelays r x).mpr hx, ho⟩]
  · simp only [State.viewOf, warmRcu, look_each, hrcu]
    rfl
  · dsimp only
    exact huList
  · dsimp only
    exact huSweep
  · dsimp only
    rw [huEq]
    rfl
  · dsimp only
    rw [huEq]
  · dsimp only
    rw [huEq]

end Sys2Proof.Machine
end

