-- ==== Sys2Proof/Proofs/Pulses.lean ====
section
/-! The pulse of one relay and the run of pulses of the head of the queue (R110, R113, R116–R118, R122, R123, R157). -/

namespace Sys2Proof.Machine

/-! ### One pulse -/

/-- Counting a pulse: the count is the worn one, whether or not it changed (R157). -/
theorem addWear_counts (r : Relay) (c : Bool) (k : PulseKind) (s : State) :
    (addWear r c k s).wru.counts = put s.wru.counts r (wornCount (look s.wru.counts r) (pulseWeight k c)) := by
  unfold addWear
  dsimp only
  split
  · rename_i h
    rw [h]
    apply table_ext
    intro i
    rw [look_put]
    split
    · subst_vars; rfl
    · rfl
  · split
    · simp only [pendNote, State.renew]
      split <;> (try split) <;> rfl
    · rfl

/-- Counting a pulse leaves the waves and the relay records alone. -/
theorem addWear_parts (r : Relay) (c : Bool) (k : PulseKind) (s : State) :
    (addWear r c k s).wsu = s.wsu ∧ (addWear r c k s).rm = s.rm := by
  unfold addWear pendNote
  dsimp only
  split
  · exact ⟨rfl, rfl⟩
  · split
    · exact ⟨renew_wsu _ _, renew_rm _ _⟩
    · exact ⟨rfl, rfl⟩

theorem pulse_wsu (v : Wave) (r : Relay) (c : Bool) (s : State) : (pulse v r c s).wsu = { s.wsu with
    credit := s.wsu.credit.map (fun x => x - (s.classParams r).cost)
    chain := s.wsu.chain ++ [s.pulsePattern r c] } := (addWear_parts _ _ _ _).1

theorem pulse_rm (v : Wave) (r : Relay) (c : Bool) (s : State) : (pulse v r c s).rm.relays =
    put s.rm.relays r (pulsedRecord (s.relay r) c (later s.now (s.settleTime r c))) :=
  congrArg Rm.relays (addWear_parts _ _ _ _).2

theorem pulse_relay (v : Wave) (r : Relay) (c : Bool) (s : State) (x : Relay) : (pulse v r c s).relay x =
    if r = x then pulsedRecord (s.relay r) c (later s.now (s.settleTime r c)) else s.relay x := by
  rw [State.relay, pulse_rm, look_put]
  rfl

theorem pulse_counts (v : Wave) (r : Relay) (c : Bool) (s : State) : (pulse v r c s).wru.counts =
    put s.wru.counts r (wornCount (look s.wru.counts r) (pulseWeight (s.pulseKind v) c)) := addWear_counts _ _ _ _

/-- The weight of a pulse by the owner of its wave (R117, R138, R157). -/
theorem pulseWeight_pulseKind (v : Wave) (c : Bool) (s : State) : pulseWeight (s.pulseKind v) c = match v.owner with
    | .sweep => 0
    | .recovery => 8
    | .entry _ => if v.trunk.any s.live = true then 8 else if c = true then 1 else 0 := by
  unfold State.pulseKind
  cases v.owner with
  | sweep => rfl
  | recovery => rfl
  | entry e =>
    cases v.trunk with
    | none => rfl
    | some t =>
      dsimp only [Option.any_some]
      split <;> rfl

theorem driverOf_val (r : Relay) (c : Bool) : (driverOf r c).val = if c = true then 2 * r.val else 2 * r.val + 1 := by
  unfold driverOf
  cases c <;> simp

/-! ### A run of pulses -/

/-- What a pulse leaves of what the next one asks: the parameters, the live test and the instant. -/
theorem pulse_classParams (v : Wave) (r : Relay) (c : Bool) (s : State) (x : Relay) :
    (pulse v r c s).classParams x = s.classParams x := by
  rw [State.classParams, (pulse_follows v r c s).cfl]
  rfl

theorem pulse_live (v : Wave) (r : Relay) (c : Bool) (s : State) : (pulse v r c s).live = s.live := by
  funext t
  rw [State.live, (pulse_follows v r c s).cfl, (pulse_follows v r c s).roster]
  rfl

theorem blocked_congr {u v : Wave} {s t : State} (hq : u.queried = v.queried) (hf : u.forcedHot = v.forcedHot)
    (ht : u.trunk = v.trunk) (hl : s.live = t.live) : s.blocked u = t.blocked v := by
  unfold State.blocked
  rw [hq, hf, ht, hl]

/-- A pulse asks of its wave only the owner and the trunk. -/
theorem pulse_congr {u v : Wave} (ho : u.owner = v.owner) (ht : u.trunk = v.trunk) (r : Relay) (c : Bool) (s : State) :
    pulse u r c s = pulse v r c s := by
  unfold pulse
  rw [show s.pulseKind u = s.pulseKind v by unfold State.pulseKind; rw [ho, ht]]

/-- The pulses of some relays of a wave, one after another. -/
def pulses (v : Wave) (l : List (Relay × Bool)) (s : State) : State := l.foldl (fun u p => pulse v p.1 p.2 u) s

theorem pulses_congr {u v : Wave} (ho : u.owner = v.owner) (ht : u.trunk = v.trunk) (l : List (Relay × Bool)) (s : State) :
    pulses u l s = pulses v l s := by
  unfold pulses
  simp only [pulse_congr ho ht]

theorem pulses_wsu (v : Wave) (l : List (Relay × Bool)) (s : State) :
    (pulses v l s).wsu = { s.wsu with credit := (pulses v l s).wsu.credit, chain := (pulses v l s).wsu.chain } := by
  unfold pulses
  induction l generalizing s with
  | nil => rfl
  | cons p l ih => rw [List.foldl_cons, ih, pulse_wsu]

theorem pulses_now (v : Wave) (l : List (Relay × Bool)) (s : State) : (pulses v l s).now = s.now := by
  unfold pulses
  induction l generalizing s with
  | nil => rfl
  | cons p l ih =>
    rw [List.foldl_cons, ih]
    exact congrArg Tb.count (pulse_follows v p.1 p.2 s).tb

/-- What the run of an entry's wave over a list comes to: the pulses of the first k relays, each against credit that reaches its
cost, and why the run stops there (R110, R113, R118). -/
structure RunsTo (l : List (Relay × Bool)) (v : Wave) (s : State) (k : Nat) (out : State × Wave × Stop) : Prop where
  done : out.2.1.done = v.done ++ l.take k
  todo : out.2.1.todo = l.drop k
  owner : out.2.1.owner = v.owner
  state : out.1 = pulses v (l.take k) s
  paid : ∀ j r c, j < k → l[j]? = some (r, c) → (s.classParams r).cost ≤ (pulses v (l.take j) s).wsu.credit.getD 0
  blocked : s.blocked v = true → out.1 = s
  finished : out.2.2 = .finished → out.2.1.todo = []
  credit : out.2.2 = .credit → ∃ r c rest, out.2.1.todo = (r, c) :: rest ∧ out.1.wsu.credit.getD 0 < (s.classParams r).cost
  live : out.2.2 = .live → s.blocked v = true ∧ out = (s, { v with todo := l }, .live) ∧ l ≠ []

/-- A wave of an entry passes over no relay. -/
theorem passesOver_entry {v : Wave} {e : Entry} (h : v.owner = .entry e) (s : State) (r : Relay) : passesOver s v r = false := by
  simp [passesOver, h]

theorem pulseRun_runsTo {e : Entry} (l : List (Relay × Bool)) (v : Wave) (s : State) (hv : v.owner = .entry e) :
    ∃ k, RunsTo l v s k (pulseRun l v s) := by
  induction l generalizing v s with
  | nil => exact ⟨0, by simp [pulseRun], rfl, rfl, rfl, fun _ _ _ h => by omega, fun _ => rfl, fun _ => rfl, (fun h => by cases h),
      fun h => by cases h⟩
  | cons p rest ih =>
    obtain ⟨r, c⟩ := p
    unfold pulseRun
    rw [if_neg (by simp [passesOver_entry hv])]
    split
    · rename_i hc
      exact ⟨0, by simp, rfl, rfl, rfl, fun _ _ _ h => by omega, fun _ => rfl, (fun h => by cases h),
        fun _ => ⟨r, c, rest, rfl, hc⟩, fun h => by cases h⟩
    · rename_i hc
      split
      · rename_i hb
        exact ⟨0, by simp, rfl, rfl, rfl, fun _ _ _ h => by omega, fun _ => rfl, (fun h => by cases h), (fun h => by cases h),
          fun _ => ⟨hb, rfl, by simp⟩⟩
      · rename_i hb
        obtain ⟨k, hk⟩ := ih (v.pulsed s.now (later s.now (s.settleTime r c)) (r, c) rest) (pulse v r c s) hv
        have hblocked : (pulse v r c s).blocked (v.pulsed s.now (later s.now (s.settleTime r c)) (r, c) rest) = s.blocked v :=
          blocked_congr rfl rfl rfl (pulse_live v r c s)
        have hpulses : ∀ l t, pulses (v.pulsed s.now (later s.now (s.settleTime r c)) (r, c) rest) l t = pulses v l t :=
          fun l t => pulses_congr rfl rfl l t
        refine ⟨k + 1, ?_, hk.todo, hk.owner, ?_, ?_, fun h => absurd h hb, hk.finished, fun h => ?_, fun h => ?_⟩
        · rw [hk.done, Wave.pulsed, List.append_assoc]
          rfl
        · rw [hk.state, hpulses]
          rfl
        · intro j q d hj hq
          cases j with
          | zero =>
            obtain ⟨rfl, rfl⟩ : r = q ∧ c = d := by simpa using hq
            exact Nat.le_of_not_lt hc
          | succ j =>
            have := hk.paid j q d (by omega) (by simpa using hq)
            rw [pulse_classParams, hpulses] at this
            exact this
        · obtain ⟨q, d, left, htodo, hcost⟩ := hk.credit h
          rw [pulse_classParams] at hcost
          exact ⟨q, d, left, htodo, hcost⟩
        · exact absurd ((hblocked ▸ (hk.live h).1)) hb

end Sys2Proof.Machine
end

