-- ==== Sys2Proof/Proofs/WaveFrame.lean ====
section
/-! What an entry's course leaves of the Wave Scheduler and of the hold records: the waves it builds wait to join (R109), so that
the queue, the held set, the settling set and the holds stand. -/

namespace Sys2Proof.Machine

/-- The Wave Scheduler and the Interlock Unit. -/
def State.waves (s : State) : Wsu × Ilu := (s.wsu, s.ilu)

@[simp] theorem State.setRelay_waves (s : State) (r : Relay) (x : RelayRec) : (s.setRelay r x).waves = s.waves := rfl
@[simp] theorem State.setEntry_waves (s : State) (e : Entry) (x : NetEntry) : (s.setEntry e x).waves = s.waves := rfl
@[simp] theorem State.dropOpenOwners_waves (s : State) (e : Entry) : (s.dropOpenOwners e).waves = s.waves := by simp [State.waves]
@[simp] theorem oweReleases_waves (e : Entry) (s : State) : (oweReleases e s).waves = s.waves := rfl
theorem ite_waves {c : Prop} [Decidable c] {a b : Work} {x : Wsu × Ilu} (ha : a.st.waves = x) (hb : b.st.waves = x) :
    (if c then a else b).st.waves = x := by
  split <;> assumption

@[simp] theorem Work.setState_waves (e : Entry) (q : EntryState) (w : Work) : (w.setState e q).st.waves = w.st.waves := rfl

@[simp] theorem State.dropListed_waves (rs : List Relay) (s : State) : (s.dropListed rs).waves = s.waves := by
  rw [State.dropListed_eq]
  rfl

@[simp] theorem ownRelays_waves (e : Entry) (rs : List Relay) (s : State) : (ownRelays e rs s).waves = s.waves := by
  unfold ownRelays
  induction rs generalizing s with
  | nil => rfl
  | cons r rs ih =>
    rw [List.foldl_cons, ih]
    rfl

@[simp] theorem State.renew_waves (m : Owed) (s : State) : (s.renew m).waves = s.waves := by
  rw [State.waves, renew_wsu, renew_ilu]
  rfl

@[simp] theorem owe_waves (e : Entry) (r : Report) (s : State) : (owe e r s).waves = s.waves := by
  obtain ⟨-, -, -, hwsu, -, -, -, hilu, -⟩ := countReport_parts r { s with ne := { s.ne with status := put s.ne.status e (some r) } }
  rw [owe, State.renew_waves, State.waves, hwsu, hilu]
  rfl

@[simp] theorem oweEntry_waves (e : Entry) (o : StatusOutcome) (r : Reason) (s : State) : (oweEntry e o r s).waves = s.waves :=
  owe_waves _ _ _
@[simp] theorem oweOpened_waves (e : Entry) (s : State) : (oweOpened e s).waves = s.waves := owe_waves _ _ _

@[simp] theorem oweRefused_waves (e : Entry) (r : Reason) (s : State) : (oweRefused e r s).waves = s.waves := by
  unfold oweRefused
  split
  · rfl
  · exact oweEntry_waves _ _ _ _

@[simp] theorem abortReady_waves (i : Site) (s : State) : (abortReady i s).waves = s.waves := by
  obtain ⟨-, -, hwsu, -, -, -, -, hilu⟩ := abortReady_parts i s
  rw [State.waves, hwsu, hilu]
  rfl

@[simp] theorem endClaim_waves (e : Entry) (s : State) : (endClaim e s).waves = s.waves := by
  obtain ⟨-, -, -, hwsu, -, -, -, -, hilu⟩ := withdrawOwn_parts e (unclaim e s)
  rw [endClaim, State.waves, hwsu, hilu]
  rfl

@[simp] theorem endMonitorClaim_waves (e : Entry) (w : Work) : (endMonitorClaim e w).st.waves = w.st.waves := by
  unfold endMonitorClaim
  split <;> simp

@[simp] theorem buildWave_waves (e : Entry) (ph : Phase) (w : Work) : (buildWave e ph w).st.waves = w.st.waves := by
  unfold buildWave
  dsimp only
  split <;> split <;> simp

@[simp] theorem freeEntry_waves (e : Entry) (w : Work) : (freeEntry e w).st.waves = w.st.waves := by
  simp only [freeEntry, abortReady_waves]
  exact (endClaim_waves e (w.st.dropOpenOwners e)).trans (State.dropOpenOwners_waves _ _)

@[simp] theorem closingReport_waves (e : Entry) (w : Work) : (closingReport e w).st.waves = w.st.waves := by
  unfold closingReport
  dsimp only
  split <;> simp

@[simp] theorem tryFree_waves (e : Entry) (w : Work) : (tryFree e w).st.waves = w.st.waves := by
  unfold tryFree
  dsimp only
  split <;> simp

@[simp] theorem handshake_waves (e : Entry) (w : Work) : (handshake e w).st.waves = w.st.waves := by
  unfold handshake
  dsimp only
  split <;> simp

@[simp] theorem awaitOpened_waves (e : Entry) (w : Work) : (awaitOpened e w).st.waves = w.st.waves := by simp [awaitOpened]

@[simp] theorem endCourse_waves (e : Entry) (w : Work) : (endCourse e w).st.waves = w.st.waves := by
  unfold endCourse
  dsimp only
  split
  · split <;> simp
  · split
    · simp
    · split <;> simp

@[simp] theorem endFaulted_waves (e : Entry) (k : ReleasePending) (w : Work) : (endFaulted e k w).st.waves = w.st.waves := by
  unfold endFaulted
  dsimp only
  apply ite_waves <;> simp

@[simp] theorem takeFaulted_waves (e : Entry) (w : Work) : (takeFaulted e w).st.waves = w.st.waves := by
  unfold takeFaulted
  dsimp only
  split
  · rfl
  · split <;> simp

@[simp] theorem faultedOpen_waves (e : Entry) (w : Work) : (faultedOpen e w).st.waves = w.st.waves := by
  unfold faultedOpen
  simp only [takeFaulted_waves]
  split <;> simp

@[simp] theorem disconnectInner_waves (e : Entry) (w : Work) : (disconnectInner e w).st.waves = w.st.waves := by
  unfold disconnectInner
  dsimp only
  split
  · simp
  · split <;> simp

@[simp] theorem outerDone_waves (e : Entry) (w : Work) : (outerDone e w).st.waves = w.st.waves := by
  unfold outerDone
  dsimp only
  split
  · split <;> simp
  · simp
  · rfl

@[simp] theorem proceedOuter_waves (e : Entry) (w : Work) : (proceedOuter e w).st.waves = w.st.waves := by
  unfold proceedOuter
  dsimp only
  split
  · rfl
  · split <;> simp

@[simp] theorem takeRelease_waves (e : Entry) (w : Work) : (takeRelease e w).st.waves = w.st.waves := by
  simp [takeRelease, disconnectOuter]

@[simp] theorem connected_waves (e : Entry) (w : Work) : (connected e w).st.waves = w.st.waves := by
  unfold connected
  dsimp only
  split <;> simp

@[simp] theorem connectOuter_waves (e : Entry) (w : Work) : (connectOuter e w).st.waves = w.st.waves := by
  unfold connectOuter
  dsimp only
  split <;> simp

/-- A connect wave that settles with nothing pulsed ends its hold, and its entry goes on without a word to the WSU (R136). -/
theorem waveSettled_connect_waves {ph : Phase} (hp : ph.connects = true) (e : Entry) (w : Work) :
    (waveSettled e ph [] w).st.waves = (clearHold e w.st).waves := by
  have inner : ∀ u : Work, (innerConnected e [] u).st.waves = u.st.waves := fun u => by simp [innerConnected]
  have goes : ∀ u : Work, (match (u.ent e).state with
      | .connectInner => if (u.ent e).releasePending.isSome then takeRelease e u else innerConnected e [] u
      | .connectOuter => if (u.ent e).releasePending.isSome then takeRelease e u else connected e u
      | .disconnectOuter => proceedOuter e u
      | _ => u).st.waves = u.st.waves := by
    intro u
    split
    · split
      · simp
      · exact inner u
    · split <;> simp
    · simp
    · rfl
  cases ph with
  | innerConnect => exact goes _
  | outerConnect => exact goes _
  | _ => cases hp

@[simp] theorem monitorOpened_waves (r : Relay) (o : Option Entry) (s : State) : (monitorOpened r o s).waves = s.waves := by
  unfold monitorOpened
  dsimp only
  split
  · split <;> rfl
  · rfl

@[simp] theorem settleRelay_waves (r : Relay) (w : Work) : (settleRelay r w).st.waves = w.st.waves := by
  unfold settleRelay
  dsimp only
  split
  · split
    · simp
    · rfl
  · rfl

@[simp] theorem settleRelays_waves (rs : List Relay) (w : Work) : (settleRelays rs w).st.waves = w.st.waves := by
  unfold settleRelays
  induction rs generalizing w with
  | nil => rfl
  | cons r rs ih => rw [List.foldl_cons, ih, settleRelay_waves]

/-- A wave cut short ends its hold and leaves the held set alone (R121). -/
theorem cutWave_held (e : Entry) (v : Wave) (w : Work) :
    (cutWave e v w).st.wsu.held = w.st.wsu.held ∧ (cutWave e v w).st.ilu = (clearHold e w.st).ilu := by
  have h : ((clearHold e w.st).dropListed (v.todo.map Prod.fst)).wsu.held = w.st.wsu.held ∧
      ((clearHold e w.st).dropListed (v.todo.map Prod.fst)).ilu = (clearHold e w.st).ilu := by
    rw [State.dropListed_eq]
    exact ⟨rfl, rfl⟩
  unfold cutWave
  dsimp only
  split
  · exact h
  · exact h
  · split
    · have hw := settleRelays_waves (v.done.map Prod.fst)
        { w with st := (clearHold e w.st).dropListed (v.todo.map Prod.fst), pass := true }
      rw [State.waves, State.waves, Prod.mk.injEq] at hw
      rw [hw.1, hw.2]
      exact h
    · exact h

end Sys2Proof.Machine
end

