-- ==== Sys2Proof/Proofs/Service.lean ====
section
/-! The service of the head of the wave queue (R110, R113, R118, R132, R136). -/

namespace Sys2Proof.Machine

/-- A wave of an entry tells no part of the recovery wave anything. -/
theorem partsGone_self (l : List (Relay × Entry)) : partsGone l l = [] := by
  simp [partsGone]

theorem pulseRun_recovery {l : List (Relay × Bool)} {v : Wave} {s : State} {k : Nat} {out : State × Wave × Stop}
    (h : RunsTo l v s k out) : out.1.wsu.recovery = s.wsu.recovery := by
  rw [h.state, pulses_wsu]

section
variable {w : Work} {v v' : Wave} {rest : List Wave} {e : Entry} {s' : State} {why : Stop}

/-- A head that credit stops keeps its place (R113). -/
theorem serveHead_credit (hq : w.st.wsu.queue = v :: rest) (ho : v.owner = .entry e) (hr : pulseRun v.todo v w.st = (s', v', .credit)) :
    serveHead w = { w with
      st := { s' with wsu := { s'.wsu with queue := v' :: rest, creditStop := some w.st.now } }, serve := false } := by
  obtain ⟨k, hk⟩ := pulseRun_runsTo v.todo v w.st ho
  have hrec := pulseRun_recovery hk
  have hnow : (pulseRun v.todo v w.st).1.now = w.st.now := by rw [hk.state, pulses_now]
  rw [hr] at hrec hnow
  dsimp only at hrec hnow
  unfold serveHead
  simp only [hq, hr, hrec, hnow, partsGone_self]
  rfl

/-- A head that has made its last pulse joins the settling set (R110). -/
theorem serveHead_finished (hq : w.st.wsu.queue = v :: rest) (ho : v.owner = .entry e)
    (hr : pulseRun v.todo v w.st = (s', v', .finished)) : (serveHead w).st =
      { s' with wsu := { s'.wsu with queue := rest, creditStop := none, settling := s'.wsu.settling ++ [v'] } } := by
  obtain ⟨k, hk⟩ := pulseRun_runsTo v.todo v w.st ho
  have hrec := pulseRun_recovery hk
  have howner : v'.owner = .entry e := by
    have := hk.owner
    rw [hr] at this
    exact this.trans ho
  rw [hr] at hrec
  dsimp only at hrec
  unfold serveHead
  simp only [hq, hr, hrec, partsGone_self]
  unfold waveFinished
  rw [howner]
  rfl

/-- A head on a live trunk has pulsed nothing and is reported (R118). -/
theorem serveHead_live (hq : w.st.wsu.queue = v :: rest) (ho : v.owner = .entry e) (hr : pulseRun v.todo v w.st = (s', v', .live)) :
    ∃ t, v.trunk = some t ∧ serveHead w =
      waveMetLive e v t { w with st := { w.st with wsu := { w.st.wsu with queue := rest, creditStop := none } } } := by
  obtain ⟨k, hk⟩ := pulseRun_runsTo v.todo v w.st ho
  obtain ⟨hb, hout, -⟩ := hk.live (by rw [hr])
  obtain ⟨t, ht⟩ : ∃ t, v.trunk = some t := by
    cases ht : v.trunk with
    | none => simp [State.blocked, ht] at hb
    | some t => exact ⟨t, rfl⟩
  refine ⟨t, ht, ?_⟩
  cases v
  dsimp only at ho ht
  subst ho ht
  unfold serveHead
  simp only [hq, hout]

end

/-- The wave is held, its deadline not reached: the record is set or kept, and nothing else happens (R132). -/
theorem holdWave_waits {w : Work} {v : Wave} {t : Trunk} {e : Entry} {h : Hold}
    (hh : h = match look w.st.ilu.holds e with
      | none => ⟨t, v.phase.connects, laterMs w.st.now (if v.abortMark then w.st.cfl.config.abortGrace else w.st.cfl.config.holdLimit),
          v.abortMark, true⟩
      | some h => { h with held := true })
    (hr : reached w.st.now h.deadline = false) : (holdWave e v t w).st = { w.st with
      ilu := { w.st.ilu with holds := put w.st.ilu.holds e (some h) }
      wsu := { w.st.wsu with held := w.st.wsu.held ++ [v] } } := by
  unfold holdWave
  dsimp only
  generalize look w.st.ilu.holds e = o at hh ⊢
  cases o <;> (subst hh; exact congrArg Work.st (if_neg (Bool.eq_false_iff.mp hr)))

/-- A connect wave of a net that is being ended is discarded with its hold (R136). -/
theorem waveMetLive_discards {w : Work} {v : Wave} {e : Entry} (t : Trunk) (h : discardsAtQuery (w.ent e) v = true) :
    (waveMetLive e v t w).st.wsu.held = w.st.wsu.held ∧ look (waveMetLive e v t w).st.ilu.holds e = none := by
  obtain ⟨hheld, hilu⟩ := cutWave_held e v w
  have hconnects : v.phase.connects = true := (Bool.and_eq_true_iff.mp h).1
  unfold waveMetLive
  dsimp only
  rw [if_pos h]
  split
  · exact ⟨hheld, by rw [hilu]; simp [clearHold]⟩
  · have hw := waveSettled_connect_waves hconnects e (cutWave e v w)
    rw [State.waves, State.waves, Prod.mk.injEq] at hw
    rw [hw.1, hw.2]
    exact ⟨hheld, by simp [clearHold]⟩

/-- Settles O53: one pulse, the run of the head by induction on its list, and where its wave goes. -/
theorem pulseTakesCreditSettleAndWear : Obligations.PulseTakesCreditSettleAndWear := by
  refine ⟨?_, ?_, ?_⟩
  · rintro v r closing s t rfl p m rfl rfl
    refine ⟨?_, by rw [pulse_wsu], ?_, ?_, fun x hx => ⟨?_, ?_⟩⟩
    · rw [pulse_relay, if_pos rfl]
      rfl
    · rw [pulse_wsu]
      simp [State.pulsePattern, driverOf_val]
    · rw [pulse_counts, look_put_same, pulseWeight_pulseKind]
      rfl
    · rw [pulse_relay, if_neg (Ne.symm hx)]
    · rw [pulse_counts, look_put_ne _ _ (Ne.symm hx)]
  · intro v v' s s' why e ho hr
    obtain ⟨k, hk⟩ := pulseRun_runsTo v.todo v s ho
    rw [← hr] at hk
    refine ⟨⟨k, hk.done, hk.todo, hk.state, hk.paid⟩, hk.blocked, hk.finished, hk.credit, fun h => ?_⟩
    obtain ⟨hb, hout, hne⟩ := hk.live h
    cases hout
    exact ⟨hb, rfl, hne⟩
  · rintro w w' v v' rest e s' why hq ho hr rfl
    refine ⟨?_, ?_, ?_, ?_⟩
    · rintro rfl
      rw [serveHead_credit hq ho hr.symm]
      exact ⟨rfl, rfl⟩
    · rintro rfl
      exact serveHead_finished hq ho hr.symm
    · rintro k h rfl hk hd hh hreached
      obtain ⟨t, ht, hs⟩ := serveHead_live hq ho hr.symm
      cases hk.symm.trans ht
      rw [hs]
      unfold waveMetLive
      rw [if_neg (by rw [Bool.not_eq_true]; exact hd)]
      exact holdWave_waits hh hreached
    · rintro rfl hd
      obtain ⟨t, -, hs⟩ := serveHead_live hq ho hr.symm
      rw [hs]
      exact waveMetLive_discards t hd

end Sys2Proof.Machine
end

