-- ==== Sys2Proof/Proofs/Courses.lean ====
section
/-! The acts of an entry's course as later proofs use them: the wave a phase builds (R13, R14, R108), the disconnect that
release-pending starts (R70, R71), and the end at FREE (R16). -/

namespace Sys2Proof.Machine

/-! ### Building a wave -/

/-- Taking relays into ownership changes the RM's records alone (R13). -/
theorem ownRelays_eq (e : Entry) (rs : List Relay) (s : State) :
    ownRelays e rs s = { s with rm := { s.rm with relays := (ownRelays e rs s).rm.relays } } := by
  unfold ownRelays
  induction rs generalizing s with
  | nil => rfl
  | cons r rs ih =>
    rw [List.foldl_cons, ih]
    rfl

/-- A wave built changes the RM alone; the wave itself waits to join the queue (R109). -/
theorem buildWave_eq (e : Entry) (ph : Phase) (w : Work) : (buildWave e ph w).st = { w.st with rm := (buildWave e ph w).st.rm } := by
  have howned := ownRelays_eq e (qualifying w.st e ph) w.st
  have hdropped := State.dropListed_eq (unpulsedOwned w.st e ph) w.st
  unfold buildWave
  dsimp only
  split <;> split
  · rw [howned]
  · rw [hdropped]
  · rw [howned]
  · rw [hdropped]

@[simp] theorem buildWave_ne (e : Entry) (ph : Phase) (w : Work) : (buildWave e ph w).st.ne = w.st.ne := by rw [buildWave_eq]
@[simp] theorem buildWave_rcu (e : Entry) (ph : Phase) (w : Work) : (buildWave e ph w).st.rcu = w.st.rcu := by rw [buildWave_eq]
@[simp] theorem buildWave_wsu (e : Entry) (ph : Phase) (w : Work) : (buildWave e ph w).st.wsu = w.st.wsu := by rw [buildWave_eq]
@[simp] theorem buildWave_serve (e : Entry) (ph : Phase) (w : Work) : (buildWave e ph w).serve = w.serve := by
  unfold buildWave
  dsimp only
  split <;> rfl

theorem buildWave_joining (e : Entry) (ph : Phase) (w : Work) : (buildWave e ph w).joining =
    if qualifying w.st e ph = [] then w.joining else w.joining ++ [newWave e (w.st.entry e) ph (qualifying w.st e ph)] := by
  unfold buildWave
  dsimp only
  split <;> rfl

/-- An opening phase leaves a CLOSED relay as it is until its pulse (R14). -/
theorem buildWave_relay_closed {ph : Phase} (hp : ph.closes = false) {w : Work} {x : Relay} (hx : (w.st.relay x).state = .closed)
    (e : Entry) : (buildWave e ph w).st.relay x = w.st.relay x := by
  have hdropped : (w.st.dropListed (unpulsedOwned w.st e ph)).relay x = w.st.relay x := by
    rw [State.dropListed_relay, if_neg]
    rw [hx]
    rintro ⟨-, h⟩
    cases h
  unfold buildWave
  dsimp only
  rw [hp]
  split <;> exact hdropped

theorem State.dropOpenOwners_relay_closed {s : State} {x : Relay} (hx : (s.relay x).state = .closed) (e : Entry) :
    (s.dropOpenOwners e).relay x = s.relay x := by
  unfold State.dropOpenOwners State.relay
  rw [look_each, if_neg]
  exact fun h => by
    rw [show (look s.rm.relays x).state = .closed from hx] at h
    cases h.2

theorem qualifying_opening {ph : Phase} (hp : ph.closes = false) (s : State) (e : Entry) : qualifying s e ph =
    (phaseRelays (s.entry e) ph).filter (fun q =>
      decide ((s.relay q).owner = some e) && decide ((s.relay q).state = .closed)) := by
  simp [qualifying, hp]

theorem qualifying_closing {ph : Phase} (hp : ph.closes = true) (s : State) (e : Entry) : qualifying s e ph =
    (phaseRelays (s.entry e) ph).filter (fun q => decide ((s.relay q).state = .opened)) := by
  simp [qualifying, hp]

/-- An opening phase has a wave where the entry owns one of its relays in CLOSED (R14). -/
theorem qualifying_ne_nil {ph : Phase} (hp : ph.closes = false) {s : State} {e : Entry} {q : Relay}
    (hq : q ∈ phaseRelays (s.entry e) ph) (ho : (s.relay q).owner = some e) (hc : (s.relay q).state = .closed) :
    qualifying s e ph ≠ [] := by
  rw [qualifying_opening hp]
  exact List.ne_nil_of_mem (List.mem_filter.2 ⟨hq, by simp [ho, hc]⟩)

/-- An entry's wave that is to join is in flight (R109). -/
theorem buildWave_inFlight {e : Entry} {ph : Phase} {w : Work} (h : qualifying w.st e ph ≠ []) :
    (buildWave e ph w).inFlight e = true := by
  simp [Work.inFlight, buildWave_joining, h, newWave]

theorem buildWave_idle {e : Entry} {ph : Phase} {w : Work} (h : qualifying w.st e ph = []) :
    (buildWave e ph w).inFlight e = w.inFlight e := by
  simp [Work.inFlight, buildWave_joining, h]

/-- A wave built where nobody waits for a resource joins behind those that stand in the queue, and nothing else follows. -/
theorem finish_buildWave {e : Entry} {ph : Phase} {w : Work} (hn : w.st.noWaiter) (hj : w.joining = []) (hs : w.serve = false)
    (hq : w.st.wsu.queue ≠ []) (h : qualifying w.st e ph ≠ []) : (finish (buildWave e ph w)).ne = w.st.ne ∧
      (finish (buildWave e ph w)).rcu = w.st.rcu ∧ (finish (buildWave e ph w)).wsu.queue =
        w.st.wsu.queue ++ [newWave e (w.st.entry e) ph (qualifying w.st e ph)] := by
  rw [finish_waits (noWaiter_of_entries hn (by rw [buildWave_ne])) (by rw [buildWave_serve, hs]) (by rw [buildWave_wsu]; exact hq),
    buildWave_joining, if_neg h, hj]
  dsimp only
  rw [buildWave_ne, buildWave_rcu, buildWave_wsu]
  exact ⟨rfl, rfl, rfl⟩

/-! ### One entry changed -/

theorem entry_of_put {s t : State} {e : Entry} {x : NetEntry} (h : t.ne.entries = put s.ne.entries e x) : t.entry e = x := by
  rw [State.entry, h, look_put_same]

theorem entry_of_put_ne {s t : State} {e i : Entry} {x : NetEntry} (h : t.ne.entries = put s.ne.entries e x) (hi : i ≠ e) :
    t.entry i = s.entry i := by
  rw [State.entry, h, look_put_ne _ _ (Ne.symm hi)]
  rfl

/-- An entry changed to one that waits for nothing leaves no waiter where no other entry waits. -/
theorem noWaiter_of_put_other {s t : State} {e : Entry} {x : NetEntry} (hn : s.noOtherWaiter e)
    (h : t.ne.entries = put s.ne.entries e x) (h1 : x.state ≠ .awaitResource) (h2 : x.monitor ≠ .claiming) : t.noWaiter := by
  intro i
  by_cases hi : i = e
  · subst hi
    rw [entry_of_put h]
    exact ⟨h1, h2⟩
  · rw [entry_of_put_ne h hi]
    exact hn i hi

theorem noWaiter_of_put {s t : State} {e : Entry} {x : NetEntry} (hn : s.noWaiter) (h : t.ne.entries = put s.ne.entries e x)
    (h1 : x.state ≠ .awaitResource) (h2 : x.monitor ≠ .claiming) : t.noWaiter :=
  noWaiter_of_put_other (fun i _ => hn i) h h1 h2

/-! ### Connect and disconnect -/

theorem connectOuter_builds {e : Entry} {w : Work} (h : qualifying (w.setState e .connectOuter).st e .outerConnect ≠ []) :
    connectOuter e w = buildWave e .outerConnect (w.setState e .connectOuter) := by
  unfold connectOuter
  dsimp only
  rw [if_pos (buildWave_inFlight h)]

theorem disconnectInner_builds {e : Entry} {w : Work} (h : qualifying w.st e .innerDisconnect ≠ []) :
    disconnectInner e w = buildWave e .innerDisconnect w := by
  unfold disconnectInner
  dsimp only
  rw [if_pos (buildWave_inFlight h)]

theorem proceedOuter_builds {e : Entry} {w : Work} (hi : w.inFlight e = false) (hv : w.st.verifying e = false)
    (h : qualifying w.st e .outerDisconnect ≠ []) : proceedOuter e w = buildWave e .outerDisconnect w := by
  unfold proceedOuter
  dsimp only
  rw [if_neg (by simp [hi, hv]), if_pos (buildWave_inFlight h)]

theorem proceedOuter_passes {e : Entry} {w : Work} (hi : w.inFlight e = false) (hv : w.st.verifying e = false)
    (h : qualifying w.st e .outerDisconnect = []) : proceedOuter e w = outerDone e (buildWave e .outerDisconnect w) := by
  unfold proceedOuter
  dsimp only
  rw [if_neg (by simp [hi, hv]), buildWave_idle h, if_neg (by simp [hi])]

/-- The end of the outer disconnect phase with an inner wave to build: the entry is in DISCONNECT_INNER, or FAULTED after a fault,
and the wave joins the queue (R71, R78). -/
theorem finish_outerDone {e : Entry} {w : Work} {q : Relay} (hn : w.st.noWaiter) (hj : w.joining = []) (hs : w.serve = false)
    (hqueue : w.st.wsu.queue ≠ []) (hstate : (w.ent e).state = .disconnectOuter) (hq : q ∈ phaseRelays (w.ent e) .innerDisconnect)
    (ho : (w.st.relay q).owner = some e) (hc : (w.st.relay q).state = .closed) :
    (finish (outerDone e w)).entry e =
      { w.ent e with state := if (w.ent e).headingToFaulted = true then .faulted else .disconnectInner } ∧
    ∃ v : Wave, v.owner = .entry e ∧ v.phase = .innerDisconnect ∧
      (finish (outerDone e w)).wsu.queue = w.st.wsu.queue ++ [v] := by
  have builds : ∀ (k : EntryState) (u : Work), k ≠ .awaitResource → u.joining = [] → u.serve = false →
      u.st.ne.entries = put w.st.ne.entries e { w.ent e with state := k } → u.st.wsu = w.st.wsu → u.st.relay q = w.st.relay q →
      (finish (disconnectInner e u)).entry e = { w.ent e with state := k } ∧ ∃ v : Wave, v.owner = .entry e ∧
        v.phase = .innerDisconnect ∧ (finish (disconnectInner e u)).wsu.queue = w.st.wsu.queue ++ [v] := by
    intro k u hk huj hus hune huwsu hurelay
    have hent := entry_of_put hune
    have hqual : qualifying u.st e .innerDisconnect ≠ [] := by
      refine qualifying_ne_nil rfl (q := q) ?_ (by rw [hurelay, ho]) (by rw [hurelay, hc])
      rw [hent]
      exact hq
    obtain ⟨hne, -, htail⟩ := finish_buildWave (noWaiter_of_put hn hune hk (hn e).2) huj hus (by rw [huwsu]; exact hqueue) hqual
    rw [disconnectInner_builds hqual]
    exact ⟨by rw [State.entry, hne]; exact hent, _, rfl, rfl, by rw [htail, huwsu]⟩
  unfold outerDone
  dsimp only
  rw [hstate]
  dsimp only
  cases hf : (w.ent e).headingToFaulted with
  | true =>
    refine builds .faulted _ (by decide) hj hs ?_ ?_ (State.dropOpenOwners_relay_closed hc e)
    · rw [Work.upd_st, State.dropOpenOwners_ne]
      rfl
    · rw [Work.upd_st, State.dropOpenOwners_wsu]
      rfl
  | false => exact builds .disconnectInner _ (by decide) hj hs rfl rfl rfl

/-! ### Release-pending taken (R70) -/

/-- An entry that takes its release-pending and enters DISCONNECT_OUTER. -/
def NetEntry.released (x : NetEntry) : NetEntry := { x with
  state := .disconnectOuter
  releasePending := none
  reason := if x.releasePending = some .cancel ∧ x.reason = none then some .cancelled else x.reason }

/-- The event at the moment at which release-pending is taken. -/
def Work.release (e : Entry) (w : Work) : Work := { w with st := w.st.setEntry e (w.ent e).released, pass := true }

theorem takeRelease_eq {e : Entry} {w : Work} (h : (w.ent e).monitor ≠ .claiming) :
    takeRelease e w = proceedOuter e (w.release e) := by
  have hset : ((w.modEnt e (fun x => { x with
      releasePending := none
      reason := if x.releasePending = some .cancel ∧ x.reason = none then some .cancelled else x.reason })).setState e
        .disconnectOuter) = w.release e := by
    simp only [Work.setState, Work.release, Work.modEnt, State.setEntry_entry_same, setEntry_setEntry]
    rfl
  unfold takeRelease disconnectOuter
  dsimp only
  rw [hset]
  unfold endMonitorClaim
  rw [if_neg]
  simpa [Work.ent, Work.release, NetEntry.released] using h

section
variable {e : Entry} {w : Work}

theorem released_entry : (w.release e).st.entry e = (w.ent e).released := State.setEntry_entry_same _ _ _

theorem released_noWaiter (hn : w.st.noWaiter) : (w.release e).st.noWaiter :=
  noWaiter_of_put hn rfl (fun h => by cases h) (hn e).2

/-- Release-pending is taken with an outer disconnect wave to build (R70, R71). -/
theorem finish_takeRelease {opens : List Relay} (hn : w.st.noWaiter) (hj : w.joining = []) (hs : w.serve = false)
    (hq : w.st.wsu.queue ≠ []) (hi : w.inFlight e = false) (hv : w.st.verifying e = false)
    (ho : ((w.ent e).pins.map relayS).filter (fun q =>
      decide ((w.st.relay q).owner = some e) && decide ((w.st.relay q).state = .closed)) = opens) (hne : opens ≠ []) :
    (finish (takeRelease e w)).ne = { w.st.ne with entries := put w.st.ne.entries e (w.ent e).released } ∧
    (finish (takeRelease e w)).rcu = w.st.rcu ∧
    (finish (takeRelease e w)).wsu.queue = w.st.wsu.queue ++ [outerWave e (w.ent e).released opens] := by
  have hqual : qualifying (w.release e).st e .outerDisconnect = opens := by
    rw [qualifying_opening rfl, released_entry, ← ho]
    rfl
  rw [takeRelease_eq (hn e).2, proceedOuter_builds (w := w.release e) hi hv (by rw [hqual]; exact hne)]
  obtain ⟨hne, hrcu, hqueue⟩ := finish_buildWave (e := e) (ph := .outerDisconnect)
    (w := w.release e) (released_noWaiter hn) hj hs hq (by rw [hqual]; assumption)
  refine ⟨hne, hrcu, ?_⟩
  rw [hqueue, hqual, released_entry]
  rfl

/-- Release-pending is taken with no outer relay to open: the entry goes straight on to its inner disconnect (R14, R71). -/
theorem finish_takeRelease_inner {q : Relay} (hn : w.st.noWaiter) (hj : w.joining = []) (hs : w.serve = false)
    (hqueue : w.st.wsu.queue ≠ []) (hi : w.inFlight e = false) (hv : w.st.verifying e = false)
    (hfault : (w.ent e).released.headingToFaulted = false) (hnone : ∀ i ∈ (w.ent e).pins, (w.st.relay (relayS i)).owner ≠ some e)
    (hq : q ∈ phaseRelays (w.ent e) .innerDisconnect) (ho : (w.st.relay q).owner = some e) (hc : (w.st.relay q).state = .closed) :
    (finish (takeRelease e w)).entry e = { (w.ent e).released with state := .disconnectInner } ∧
    ∃ v : Wave, v.owner = .entry e ∧ v.phase = .innerDisconnect ∧
      (finish (takeRelease e w)).wsu.queue = w.st.wsu.queue ++ [v] := by
  have hqual : qualifying (w.release e).st e .outerDisconnect = [] := by
    rw [qualifying_opening rfl, released_entry, List.filter_eq_nil_iff]
    intro r hr
    obtain ⟨i, hi, rfl⟩ := List.mem_map.1 hr
    have hno : decide (((w.release e).st.relay (relayS i)).owner = some e) = false := decide_eq_false (hnone i hi)
    simp [hno]
  have hrelay := buildWave_relay_closed (ph := .outerDisconnect) rfl
    (w := w.release e) hc e
  have hentry : (buildWave e .outerDisconnect (w.release e)).ent e =
      (w.ent e).released := by
    rw [Work.ent, State.entry, buildWave_ne]
    exact released_entry
  rw [takeRelease_eq (hn e).2, proceedOuter_passes (w := w.release e) hi hv hqual]
  have hdone := finish_outerDone (e := e) (q := q)
    (w := buildWave e .outerDisconnect (w.release e))
    (noWaiter_of_entries (released_noWaiter hn) (by rw [buildWave_ne])) (by rw [buildWave_joining, if_pos hqual]; exact hj)
    (by rw [buildWave_serve]; exact hs) (by rw [buildWave_wsu]; exact hqueue) (by rw [hentry]; rfl)
    (by rw [hentry]; exact hq) (by rw [hrelay]; exact ho) (by rw [hrelay]; exact hc)
  rw [hentry, hfault, buildWave_wsu] at hdone
  exact hdone

/-! ### FREE -/

/-- An entry that becomes FREE leaves no waiter and nothing to do (R16). -/
theorem finish_freeEntry (hn : w.st.noWaiter) (hj : w.joining = []) (hs : w.serve = false) :
    finish (freeEntry e w) = (freeEntry e w).st :=
  finish_noWaiter (noWaiter_of_put hn (by rw [freeEntry_ne]) (fun h => by cases h) (fun h => by cases h)) hj hs

theorem freeEntry_entry : (freeEntry e w).st.entry e = NetEntry.free :=
  entry_of_put (s := w.st) (by rw [freeEntry_ne])

theorem freeEntry_unbound (p : Pin) : look (freeEntry e w).st.ne.binding p ≠ some e := by
  rw [freeEntry_ne]
  dsimp only
  rw [look_each]
  split
  · exact fun h => by cases h
  · assumption

theorem freeEntry_status : (freeEntry e w).st.ne.status = w.st.ne.status := by rw [freeEntry_ne]

end

end Sys2Proof.Machine
end

