-- ==== Sys2Proof/Proofs/SettleEnds.lean ====
section
/-! Settle ends (R8, R124, R125): what the relays of a settling wave become, and how its entry goes on. -/

namespace Sys2Proof.Machine

/-! ### Relays at their settle ends -/

theorem settledRecord_settleEnd (x : RelayRec) : (settledRecord x).settleEnd = none := by
  unfold settledRecord
  split <;> rfl

/-- A relay is CLOSED after its settle end exactly where it was CLOSING, or CLOSED already. -/
theorem settledRecord_closed (x : RelayRec) : (settledRecord x).state = .closed ↔ x.state = .closed ∨ x.state = .closing := by
  unfold settledRecord
  cases x.state <;> simp

theorem settledRecord_opening {x : RelayRec} (h : x.state = .opening) :
    settledRecord x = { x with state := .opened, owner := none, settleEnd := none } := by
  simp only [settledRecord, h]

theorem settledRecord_closing {x : RelayRec} (h : x.state = .closing) :
    settledRecord x = { x with state := .closed, settleEnd := none } := by
  simp only [settledRecord, h]

/-- A settle end gives no relay an owner, and takes none from a relay that is to be CLOSED. -/
theorem settledRecord_owner (x : RelayRec) : (settledRecord x).owner = x.owner ∨
    (settledRecord x).owner = none ∧ x.state = .opening := by
  unfold settledRecord
  cases h : x.state <;> simp

/-- A monitor that settles OPEN changes its entry's monitor alone (R71). -/
theorem monitorOpened_eq (r : Relay) (o : Option Entry) (s : State) :
    monitorOpened r o s = { s with ne := { s.ne with entries := (monitorOpened r o s).ne.entries } } := by
  unfold monitorOpened
  dsimp only
  split
  · split <;> rfl
  · rfl

/-- A monitor that settles OPEN is OFF, where its entry is in DISCONNECT_INNER or FAULTED. -/
theorem monitorOpened_entry (r : Relay) (o : Option Entry) (s : State) (e : Entry) : (monitorOpened r o s).entry e = s.entry e ∨
    ((s.entry e).state = .disconnectInner ∨ (s.entry e).state = .faulted) ∧
      (monitorOpened r o s).entry e = { s.entry e with monitor := .off } := by
  unfold monitorOpened
  dsimp only
  split
  · rename_i i
    split
    · rename_i h
      by_cases hi : i = e
      · subst hi
        exact .inr ⟨h.2, State.setEntry_entry_same _ _ _⟩
      · exact .inl (State.setEntry_entry_ne _ _ hi)
    · exact .inl rfl
  · exact .inl rfl

theorem monitorOpened_none {r : Relay} {o : Option Entry} (h : r.val < 624 ∨ o = none) (s : State) : monitorOpened r o s = s := by
  unfold monitorOpened
  dsimp only
  split
  · rcases h with h | h
    · exact if_neg (by omega)
    · cases h
  · rfl

/-- A settle end changes the relay records and the monitors of entries alone. -/
theorem settleRelay_eq (r : Relay) (w : Work) : (settleRelay r w).st = { w.st with
    rm := { w.st.rm with relays := (settleRelay r w).st.rm.relays }
    ne := { w.st.ne with entries := (settleRelay r w).st.ne.entries } } := by
  unfold settleRelay
  dsimp only
  split
  · split
    · dsimp only
      rw [monitorOpened_eq]
      rfl
    · rfl
  · rfl

theorem settleRelay_relay (r : Relay) (w : Work) (x : Relay) : (settleRelay r w).st.relay x =
    if r = x ∧ w.st.settleDue r = true then settledRecord (w.st.relay r) else w.st.relay x := by
  have hset : (w.st.setRelay r (settledRecord (w.st.relay r))).relay x =
      if r = x then settledRecord (w.st.relay r) else w.st.relay x := by
    split
    · subst_vars
      exact State.setRelay_relay_same _ _ _
    · exact State.setRelay_relay_ne _ _ (by assumption)
  unfold settleRelay
  dsimp only
  split
  · rename_i hd
    have hmon : ∀ o, (monitorOpened r o (w.st.setRelay r (settledRecord (w.st.relay r)))).relay x =
        (w.st.setRelay r (settledRecord (w.st.relay r))).relay x := fun o => by rw [monitorOpened_eq]; rfl
    split
    · simpa [hd, hset] using hmon _
    · simpa [hd] using hset
  · rename_i hd
    simp [hd]

theorem settleRelay_entry (r : Relay) (w : Work) (e : Entry) : (settleRelay r w).st.entry e = w.st.entry e ∨
    ((w.st.entry e).state = .disconnectInner ∨ (w.st.entry e).state = .faulted) ∧
      (settleRelay r w).st.entry e = { w.st.entry e with monitor := .off } := by
  unfold settleRelay
  dsimp only
  split
  · split
    · exact monitorOpened_entry r _ (w.st.setRelay r (settledRecord (w.st.relay r))) e
    · exact .inl rfl
  · exact .inl rfl

theorem settleRelay_flags (r : Relay) (w : Work) : (settleRelay r w).joining = w.joining ∧ (settleRelay r w).serve = w.serve := by
  unfold settleRelay
  dsimp only
  split
  · split <;> exact ⟨rfl, rfl⟩
  · exact ⟨rfl, rfl⟩

/-- A relay whose settle end has been taken has none. -/
theorem settleRelay_due (r : Relay) (w : Work) (x : Relay) : (settleRelay r w).st.settleDue x =
    (decide (r ≠ x) && w.st.settleDue x) := by
  have hnow : (settleRelay r w).st.now = w.st.now := by rw [settleRelay_eq]; rfl
  rw [State.settleDue, settleRelay_relay, hnow]
  by_cases hx : r = x
  · subst hx
    by_cases hd : w.st.settleDue r = true
    · rw [if_pos ⟨rfl, hd⟩, settledRecord_settleEnd]
      simp
    · rw [if_neg (fun h => hd h.2)]
      simpa [State.settleDue] using hd
  · rw [if_neg (fun h => hx h.1)]
    simp [hx, State.settleDue]

/-! ### The relays of a wave -/

theorem settleRelays_eq (rs : List Relay) (w : Work) : (settleRelays rs w).st = { w.st with
    rm := { w.st.rm with relays := (settleRelays rs w).st.rm.relays }
    ne := { w.st.ne with entries := (settleRelays rs w).st.ne.entries } } := by
  unfold settleRelays
  induction rs generalizing w with
  | nil => rfl
  | cons r rs ih => rw [List.foldl_cons, ih, settleRelay_eq]

/-- Every relay of the list that is due takes its settle end, and no other changes (R124). -/
theorem settleRelays_relay (rs : List Relay) (w : Work) (x : Relay) : (settleRelays rs w).st.relay x =
    if x ∈ rs ∧ w.st.settleDue x = true then settledRecord (w.st.relay x) else w.st.relay x := by
  unfold settleRelays
  induction rs generalizing w with
  | nil => simp
  | cons r rs ih =>
    rw [List.foldl_cons, ih, settleRelay_due, settleRelay_relay]
    by_cases hx : r = x
    · subst hx
      by_cases hd : w.st.settleDue r = true <;> simp [hd]
    · simp [hx, Ne.symm hx]

/-- Settle ends change of an entry its monitor alone, and that only in DISCONNECT_INNER and FAULTED (R71). -/
theorem settleRelays_entry (rs : List Relay) (w : Work) (e : Entry) : (settleRelays rs w).st.entry e = w.st.entry e ∨
    ((w.st.entry e).state = .disconnectInner ∨ (w.st.entry e).state = .faulted) ∧
      (settleRelays rs w).st.entry e = { w.st.entry e with monitor := .off } := by
  unfold settleRelays
  induction rs generalizing w with
  | nil => exact .inl rfl
  | cons r rs ih =>
    rw [List.foldl_cons]
    rcases settleRelay_entry r w e with h | ⟨hs, h⟩ <;> rcases ih (settleRelay r w) with k | ⟨ks, k⟩ <;> rw [h] at k
    · exact .inl k
    · exact .inr ⟨h ▸ ks, k⟩
    · exact .inr ⟨hs, k⟩
    · exact .inr ⟨hs, k⟩

theorem settleRelays_flags (rs : List Relay) (w : Work) :
    (settleRelays rs w).joining = w.joining ∧ (settleRelays rs w).serve = w.serve := by
  unfold settleRelays
  induction rs generalizing w with
  | nil => exact ⟨rfl, rfl⟩
  | cons r rs ih =>
    rw [List.foldl_cons, (ih _).1, (ih _).2]
    exact settleRelay_flags r w

theorem settleRelays_noWaiter {rs : List Relay} {w : Work} (h : w.st.noWaiter) : (settleRelays rs w).st.noWaiter := by
  intro e
  rcases settleRelays_entry rs w e with k | ⟨-, k⟩
  · rw [k]
    exact h e
  · rw [k]
    exact ⟨(h e).1, fun h => by cases h⟩

/-! ### The settle end of one relay -/

theorem exec_settleEnd {dt : Nat} {s s1 : State} {r : Relay} (hs1 : s1 = advance dt s) (hp : s.cfl.phase ≠ .inReset)
    (hd : s1.settleDue r = true) : exec (.settleEnd dt r) s = .next (finish (settle r (Work.start s1))) := by
  subst hs1
  show event dt (fun s => s.settles r) (settle r) s = _
  unfold event
  dsimp only
  rw [if_pos (by simp [State.settles, hp, hd])]

/-- A settle end that ends no wave changes its relay alone. -/
theorem settle_alone {s : State} {r : Relay} (hw : s.settlingWave r = none) (hr : s.recovered r = false) :
    settle r (Work.start s) = settleRelay r (Work.start s) := by
  have hsame : (settleRelay r (Work.start s)).st.recovered r = false := by
    rw [settleRelay_eq]
    exact hr
  unfold settle
  rw [show (Work.start s).st.settlingWave r = none from hw]
  dsimp only
  rw [recoverRelay, hsame]
  rfl

theorem settleRelay_closing {s : State} {r : Relay} (hd : s.settleDue r = true) (hc : (s.relay r).state = .closing) :
    settleRelay r (Work.start s) =
      Work.start (s.setRelay r { s.relay r with state := .closed, settleEnd := none }) := by
  unfold settleRelay
  rw [if_pos (show (Work.start s).st.settleDue r = true from hd)]
  dsimp only
  rw [show (Work.start s).st = s from rfl, if_neg (by rw [hc]; decide), settledRecord_closing hc]
  rfl

theorem settleRelay_opening {s : State} {r : Relay} (hd : s.settleDue r = true) (ho : (s.relay r).state = .opening)
    (hm : r.val < 624 ∨ (s.relay r).owner = none) : settleRelay r (Work.start s) =
      { Work.start (s.setRelay r { s.relay r with state := .opened, owner := none, settleEnd := none }) with pass := true } := by
  unfold settleRelay
  rw [if_pos (show (Work.start s).st.settleDue r = true from hd)]
  dsimp only
  rw [show (Work.start s).st = s from rfl, if_pos ho, settledRecord_opening ho, monitorOpened_none hm]
  rfl

/-! ### The wave that settles with a relay -/

/-- The event at which a wave settles, at the moment its owner is told (R124, R125). -/
def settledWork (v : Wave) (s : State) : Work :=
  (settleRelays (v.done.map Prod.fst) (Work.start s)).upd (fun s => { s with wsu := { s.wsu with
    settling := s.wsu.settling.filter (fun u => decide (u.owner ≠ v.owner)) } })

theorem settle_wave {s : State} {r : Relay} {v : Wave} (h : s.settlingWave r = some v) :
    settle r (Work.start s) = tellOwner v (settledWork v s) := by
  unfold settle
  rw [show (Work.start s).st.settlingWave r = some v from h]
  rfl

theorem settledWork_noWaiter {v : Wave} {s : State} (h : s.noWaiter) : (settledWork v s).st.noWaiter :=
  noWaiter_of_entries (settleRelays_noWaiter (rs := v.done.map Prod.fst) (w := Work.start s) h) rfl

theorem settledWork_relay (v : Wave) (s : State) (x : Relay) : (settledWork v s).st.relay x =
    if x ∈ v.done.map Prod.fst ∧ s.settleDue x = true then settledRecord (s.relay x) else s.relay x :=
  settleRelays_relay _ _ _

/-- The start sweep settles: its relays are at rest and the RM is ready (R10, R125). -/
theorem finish_ready {v : Wave} {s : State} (h : s.noWaiter) : finish (ready (settledWork v s)) = (ready (settledWork v s)).st := by
  obtain ⟨hj, hs⟩ := settleRelays_flags (v.done.map Prod.fst) (Work.start s)
  exact finish_noWaiter (noWaiter_of_entries (settledWork_noWaiter h) rfl) hj hs

/-- The event at the moment entry e is told that its wave v has settled: what the relays' settle ends have left of the state s
before, at the instant of s1. -/
structure Told (s s1 : State) (v : Wave) (e : Entry) (u : Work) : Prop where
  entry : ∃ m, u.ent e = { s.entry e with monitor := m }
  same : (s.entry e).state ≠ .disconnectInner → (s.entry e).state ≠ .faulted → u.ent e = s.entry e
  noWaiter : u.st.noWaiter
  joining : u.joining = []
  serve : u.serve = false
  status : u.st.ne.status = s.ne.status
  rcu : u.st.rcu = s.rcu
  liu : u.st.liu = s.liu
  snu : u.st.snu = s.snu
  cfl : u.st.cfl = s.cfl
  now : u.st.now = s1.now
  queue : u.st.wsu.queue = s.wsu.queue
  held : u.st.wsu.held = s.wsu.held
  recovery : u.st.wsu.recovery = s.wsu.recovery
  settling : ∀ w ∈ u.st.wsu.settling, w.owner ≠ .entry e
  before : s1.relay = s.relay
  relay : ∀ x, u.st.relay x =
    if x ∈ v.done.map Prod.fst ∧ s1.settleDue x = true then settledRecord (s.relay x) else s.relay x

theorem settledWork_eq (v : Wave) (s : State) : (settledWork v s).st = { s with
    rm := (settledWork v s).st.rm
    ne := { s.ne with entries := (settledWork v s).st.ne.entries }
    wsu := { s.wsu with settling := s.wsu.settling.filter (fun u => decide (u.owner ≠ v.owner)) } } := by
  unfold settledWork
  rw [Work.upd_st, settleRelays_eq]
  rfl

/-- A settled wave of an entry ends its hold, and its entry is told (R125, R132). -/
theorem told_settledWork {dt : Nat} {s s1 : State} {v : Wave} {e : Entry} (hs1 : s1 = advance dt s) (ho : v.owner = .entry e)
    (hn : s.noWaiter) : Told s s1 v e ((settledWork v s1).upd (clearHold e)) := by
  have hst := congrArg (clearHold e) (settledWork_eq v s1)
  have hentry : (settledWork v s1).st.entry e = s.entry e ∨ ((s.entry e).state = .disconnectInner ∨ (s.entry e).state = .faulted) ∧
      (settledWork v s1).st.entry e = { s.entry e with monitor := .off } := by
    have h := settleRelays_entry (v.done.map Prod.fst) (Work.start s1) e
    rwa [show (Work.start s1).st.entry e = s.entry e by rw [hs1]; exact advance_entry dt s e] at h
  exact {
    entry := by
      rcases hentry with h | ⟨-, h⟩
      · exact ⟨_, h⟩
      · exact ⟨_, h⟩
    same := fun h1 h2 => by
      rcases hentry with h | ⟨h | h, -⟩
      · exact h
      · exact absurd h h1
      · exact absurd h h2
    noWaiter := noWaiter_of_entries (settledWork_noWaiter (v := v) (by rw [hs1]; exact advance_noWaiter dt s hn)) rfl
    joining := (settleRelays_flags _ _).1
    serve := (settleRelays_flags _ _).2
    status := by rw [Work.upd_st, hst, hs1]; show (advance dt s).ne.status = _; rw [advance_ne]
    rcu := by rw [Work.upd_st, hst, hs1]; exact advance_rcu dt s
    liu := by rw [Work.upd_st, hst, hs1]; exact advance_liu dt s
    snu := by rw [Work.upd_st, hst, hs1]; exact advance_snu dt s
    cfl := by rw [Work.upd_st, hst, hs1]; exact advance_cfl dt s
    now := by rw [Work.upd_st, hst]; rfl
    queue := by rw [Work.upd_st, hst, hs1]; exact advance_queue dt s
    held := by rw [Work.upd_st, hst, hs1]; exact advance_held dt s
    recovery := by rw [Work.upd_st, hst, hs1]; exact advance_recovery dt s
    settling := by
      rw [Work.upd_st, hst, ← ho]
      exact fun w hw => of_decide_eq_true (List.mem_filter.1 hw).2
    before := by rw [hs1]; exact funext (advance_relay dt s)
    relay := fun x => by
      have h := settledWork_relay v s1 x
      rwa [show s1.relay x = s.relay x by rw [hs1]; exact advance_relay dt s x] at h }

end Sys2Proof.Machine
end

