-- ==== Sys2Proof/Proofs/SettledWaves.lean ====
section
/-! How an entry goes on when its wave has settled (R67, R69–R72, R78, R81, R82, R125), and the statement on SETTLE_END. -/

namespace Sys2Proof.Machine

/-! ### What the acts leave of the net table -/

theorem connected_ne (e : Entry) (w : Work) : (connected e w).st.ne = { w.st.ne with
    entries := put w.st.ne.entries e { w.ent e with state := .connected }
    status := if (w.ent e).quiet = true then w.st.ne.status else put w.st.ne.status e
      (some ⟨(w.ent e).site, (w.ent e).net, .connected, .none, (w.ent e).resource.map NetResource.code, none⟩) } := by
  have hentry : (w.setState e .connected).ent e = { w.ent e with state := .connected } := State.setEntry_entry_same _ _ _
  have hstate : (w.setState e .connected).st.entry e = { w.ent e with state := .connected } := hentry
  unfold connected
  dsimp only
  rw [hentry]
  dsimp only
  split
  · rfl
  · rw [Work.upd_st, oweEntry, owe_ne, hstate]
    rfl

theorem connected_flags (e : Entry) (w : Work) : (connected e w).joining = w.joining ∧ (connected e w).serve = w.serve := by
  unfold connected
  dsimp only
  split <;> exact ⟨rfl, rfl⟩

theorem startSense_verifications (s : State) :
    (startSense s).ne = s.ne ∧ (startSense s).snu.verifications = s.snu.verifications := by
  unfold startSense
  split <;> exact ⟨rfl, rfl⟩

/-- A batch handed over gives its entry a verification record, and the net table stands (R145, R146). -/
theorem handOver_verifications (e : Entry) (rs : List Relay) (s : State) :
    (handOver e rs s).ne = s.ne ∧ look (handOver e rs s).snu.verifications e ≠ none := by
  unfold handOver
  split
  · rw [(startSense_verifications _).1, (startSense_verifications _).2]
    refine ⟨rfl, ?_⟩
    unfold admitJobs openVerification
    dsimp only
    rw [look_each, look_put_same]
    simp
  · refine ⟨rfl, ?_⟩
    unfold waitAdmission openVerification
    dsimp only
    rw [look_put_same]
    simp

theorem awaitOpened_waits {e : Entry} {w : Work} (h : (w.ent e).awaited ≠ []) : awaitOpened e w =
    { w with st := w.st.setEntry e { w.ent e with
      state := .awaitOpened, deadline := some (laterMs w.st.now w.st.cfl.config.releaseWait), reported := false }, pass := true } := by
  have hset : ((w.setState e .awaitOpened).modEnt e (fun x => { x with
      deadline := some (laterMs w.st.now w.st.cfl.config.releaseWait), reported := false })) =
      { w with st := w.st.setEntry e { w.ent e with
        state := .awaitOpened, deadline := some (laterMs w.st.now w.st.cfl.config.releaseWait), reported := false }, pass := true } := by
    simp only [Work.setState, Work.modEnt, State.setEntry_entry_same, setEntry_setEntry]
    rfl
  unfold awaitOpened
  dsimp only
  rw [hset]
  unfold handshake
  dsimp only
  rw [if_neg]
  rintro ⟨ha, -⟩
  rw [Work.ent, State.setEntry_entry_same] at ha
  exact h ha

/-! ### The wave's phase and the entry's state -/

section
variable {e : Entry} {w : Work}

theorem waveSettled_outerConnect (h : ((w.upd (clearHold e)).ent e).state = .connectOuter) (b : List Relay) :
    waveSettled e .outerConnect b w = if ((w.upd (clearHold e)).ent e).releasePending.isSome
      then takeRelease e (w.upd (clearHold e)) else connected e (w.upd (clearHold e)) := by
  unfold waveSettled
  dsimp only
  rw [h]

theorem waveSettled_innerConnect (h : ((w.upd (clearHold e)).ent e).state = .connectInner) (b : List Relay) :
    waveSettled e .innerConnect b w = if ((w.upd (clearHold e)).ent e).releasePending.isSome
      then takeRelease e (w.upd (clearHold e)) else innerConnected e b (w.upd (clearHold e)) := by
  unfold waveSettled
  dsimp only
  rw [h]

theorem waveSettled_innerDisconnect (h : ((w.upd (clearHold e)).ent e).state = .disconnectInner) (b : List Relay) :
    waveSettled e .innerDisconnect b w = endCourse e (w.upd (clearHold e)) := by
  unfold waveSettled
  dsimp only
  rw [h, if_neg (by decide), if_pos rfl]

theorem waveSettled_innerDisconnect_faulted (h : ((w.upd (clearHold e)).ent e).state = .faulted) (b : List Relay) :
    waveSettled e .innerDisconnect b w = faultedOpen e (w.upd (clearHold e)) := if_pos h

theorem endCourse_participant (h : (w.ent e).role = .participant) (hr : (w.ent e).reason ≠ some .holdTimeout) :
    endCourse e w = freeEntry e (w.upd (oweOpened e)) := by
  unfold endCourse
  dsimp only
  rw [h]
  dsimp only
  rw [if_neg hr]

theorem endCourse_anchor_free (h : (w.ent e).role = .anchor) (hh : (w.ent e).request = .localBus ∨ w.st.holding e = false) :
    endCourse e w = freeEntry e (if (w.ent e).refused then w else w.upd (oweOpened e)) := by
  unfold endCourse
  dsimp only
  rw [h]
  dsimp only
  rw [if_neg]
  rintro ⟨h1, h2⟩
  rcases hh with hh | hh
  · exact h1 hh
  · rw [hh] at h2
    cases h2

theorem endCourse_anchor_awaits (h : (w.ent e).role = .anchor) (hl : (w.ent e).request ≠ .localBus) (hh : w.st.holding e = true) :
    endCourse e w = awaitOpened e w := by
  unfold endCourse
  dsimp only
  rw [h]
  exact if_pos ⟨hl, hh⟩

/-- The monitor of a CONNECTED entry with its close wave settled (R81). -/
theorem monitorClosed_on (hs : (w.ent e).state = .connected) (hp : (w.ent e).releasePending = none)
    (ho : (w.ent e).monitorOffPending = false) :
    monitorClosed e w = (w.modEnt e (fun x => { x with monitor := .on })).upd (oweMonitor e .monitorOn .none) := by
  unfold monitorClosed
  dsimp only
  rw [if_neg (not_not.2 hs), if_neg (by simp [hp]), if_neg (by simp [ho])]

theorem monitorClosed_off (hs : (w.ent e).state = .connected) (hp : (w.ent e).releasePending = none)
    (ho : (w.ent e).monitorOffPending = true) : monitorClosed e w =
      buildWave e .monitorOpen (w.modEnt e (fun x => { x with monitor := .opening, monitorOffPending := false })) := by
  unfold monitorClosed
  dsimp only
  rw [if_neg (not_not.2 hs), if_neg (by simp [hp]), if_pos ho]

theorem monitorClosed_release (hs : (w.ent e).state = .connected) (hp : (w.ent e).releasePending.isSome = true) : monitorClosed e w =
    takeRelease e (w.modEnt e (fun x => { x with monitor := .on, monitorOffPending := false })) := by
  unfold monitorClosed
  dsimp only
  rw [if_neg (not_not.2 hs), if_pos hp]

/-- The event once a monitor has been opened: it is OFF, and RELEASE MON is owed where it is held (R82). -/
def Work.monitorOff (e : Entry) (w : Work) : Work :=
  { (w.modEnt e (fun x => { x with monitor := .off, monitorOffPending := false })).upd (oweReleaseMon e) with pass := true }

theorem monitorOpenedWave_off (hs : (w.ent e).state = .connected) (hp : (w.ent e).releasePending = none) (r : Reason) :
    monitorOpenedWave e r w = (w.monitorOff e).upd (oweMonitor e .monitorOff r) := by
  unfold monitorOpenedWave
  dsimp only
  rw [if_neg (not_not.2 hs), if_neg (by simp [hp])]
  rfl

theorem monitorOpenedWave_release (hs : (w.ent e).state = .connected) (hp : (w.ent e).releasePending.isSome = true) (r : Reason) :
    monitorOpenedWave e r w = takeRelease e (w.monitorOff e) := by
  unfold monitorOpenedWave
  dsimp only
  rw [if_neg (not_not.2 hs), if_pos hp]
  rfl

theorem oweReleaseMon_eq (e : Entry) (s : State) : oweReleaseMon e s = { s with rcu := (oweReleaseMon e s).rcu } := by
  unfold oweReleaseMon
  split <;> rfl

theorem oweReleaseMon_owed {s : State} (h : look s.rcu.holdings 16 = some e) : look (oweReleaseMon e s).rcu.releases 16 = true := by
  rw [oweReleaseMon, if_pos h]
  exact look_put_same _ _ _

theorem monitorOff_eq : (w.monitorOff e).st = { w.st with
    ne := { w.st.ne with entries := put w.st.ne.entries e { w.ent e with monitor := .off, monitorOffPending := false } }
    rcu := (w.monitorOff e).st.rcu } :=
  oweReleaseMon_eq e _

theorem monitorOff_owed (h : look w.st.rcu.holdings 16 = some e) : look (w.monitorOff e).st.rcu.releases 16 = true :=
  oweReleaseMon_owed (s := w.st.setEntry e { w.ent e with monitor := .off, monitorOffPending := false }) h

end

/-- An entry without release-pending stays FAULTED (R70). -/
theorem takeFaulted_none {e : Entry} {w : Work} (h : (w.ent e).releasePending = none) : takeFaulted e w = w := by
  unfold takeFaulted
  dsimp only
  rw [h]

/-- The FAULT of an entry (R63, R78). -/
def NetEntry.faultReport (x : NetEntry) : Report := ⟨x.site, x.net, .fault, x.reason.getD .none, x.resource.map NetResource.code,
  if x.reason = some .contactFail then x.reasonRelay else none⟩

theorem faultedOpen_owes {e : Entry} {w : Work} (hr : (w.ent e).reason ≠ some .aborted) (hp : (w.ent e).releasePending = none) :
    faultedOpen e w = (w.modEnt e (fun x => { x with monitor := .off, monitorOffPending := false, winding := false })).upd
      (owe e (w.ent e).faultReport) := by
  have hentry : (w.modEnt e (fun x => { x with monitor := .off, monitorOffPending := false, winding := false })).ent e =
      { w.ent e with monitor := .off, monitorOffPending := false, winding := false } := State.setEntry_entry_same _ _ _
  have howes : ∀ r, (((w.modEnt e (fun x => { x with monitor := .off, monitorOffPending := false, winding := false })).upd
      (owe e r)).ent e).releasePending = none := by
    intro r
    rw [Work.ent, State.entry, Work.upd_st, owe_ne]
    exact (congrArg NetEntry.releasePending hentry).trans hp
  unfold faultedOpen
  dsimp only
  rw [hentry]
  dsimp only
  split
  · exact absurd (by assumption) hr
  · exact takeFaulted_none (howes _)

/-! ### One clause per phase -/

section
variable {s s1 : State} {v : Wave} {e : Entry} {u : Work}

theorem Told.relays_unmoved (h : Told s s1 v e u) {x : Relay} (hx : ∀ p ∈ v.done, p.1 ≠ x) : u.st.relay x = s.relay x := by
  rw [h.relay, if_neg]
  rintro ⟨hm, -⟩
  obtain ⟨p, hp, rfl⟩ := List.mem_map.1 hm
  exact hx p hp rfl

/-- A relay is CLOSED once the wave has settled as the statement says it (R8, R124). -/
theorem Told.closed_iff (h : Told s s1 v e u) (x : Relay) : (u.st.relay x).state = .closed ↔ v.closedAfter s1 x := by
  rw [h.relay, Wave.closedAfter, h.before]
  simp only [List.mem_map]
  split
  · rename_i hd
    rw [settledRecord_closed]
    exact or_congr_right ⟨fun hc => ⟨hc, hd⟩, And.left⟩
  · rename_i hd
    exact ⟨.inl, fun hc => hc.elim id (fun hc => absurd hc.2 hd)⟩

theorem Told.owner (h : Told s s1 v e u) (x : Relay) : (u.st.relay x).owner = (s.relay x).owner ∨
    (u.st.relay x).owner = none ∧ (s.relay x).state = .opening := by
  rw [h.relay]
  split
  · exact settledRecord_owner _
  · exact .inl rfl

/-- An entry owns a relay in CLOSED after the settle ends where it owned it before and the relay is CLOSED then. -/
theorem Told.ownedClosed (h : Told s s1 v e u) (x : Relay) :
    (u.st.relay x).owner = some e ∧ (u.st.relay x).state = .closed ↔ (s.relay x).owner = some e ∧ v.closedAfter s1 x := by
  rw [h.closed_iff]
  refine and_congr_left fun hc => ?_
  rcases h.owner x with ho | ⟨-, hop⟩
  · rw [ho]
  · rw [Wave.closedAfter, h.before, hop] at hc
    rcases hc with hc | ⟨hc, -⟩ <;> cases hc

theorem Told.not_owner (h : Told s s1 v e u) {x : Relay} (ho : (s.relay x).owner ≠ some e) : (u.st.relay x).owner ≠ some e := by
  rcases h.owner x with k | ⟨k, -⟩
  · rw [k]
    exact ho
  · rw [k]
    exact fun h => by cases h

/-- With no other wave of the entry anywhere, nothing of it is in flight (R109). -/
theorem Told.idle (h : Told s s1 v e u) (hw : ∀ w ∈ s.wsu.queue ++ s.wsu.held, w.owner ≠ .entry e)
    (hr : ∀ q ∈ s.wsu.recovery, q.2 ≠ e) : u.inFlight e = false := by
  have hsettling := h.settling
  simp only [List.mem_append] at hw
  simp only [Work.inFlight, h.joining, h.queue, h.held, h.recovery, Bool.or_eq_false_iff, List.any_eq_false, decide_eq_true_eq]
  exact ⟨⟨⟨⟨fun _ h => absurd h List.not_mem_nil, fun w hm => hw w (.inl hm)⟩, fun w hm => hw w (.inr hm)⟩, hsettling⟩, hr⟩

theorem Told.holding (h : Told s s1 v e u) : u.st.holding e = s.holding e := by
  simp only [State.holding, State.held, State.claimOnLine, h.rcu, h.liu]

/-- The outer connect wave settles: CONNECTED (R69). -/
theorem Told.connects (h : Told s s1 v e u) (hs : (s.entry e).state = .connectOuter) :
    (finish (connected e u)).entry e = { s.entry e with state := .connected } ∧
    look (finish (connected e u)).ne.status e = if (s.entry e).quiet = true then look s.ne.status e
      else some ⟨(s.entry e).site, (s.entry e).net, .connected, .none, (s.entry e).resource.map NetResource.code, none⟩ := by
  have hent : u.ent e = s.entry e := h.same (by rw [hs]; decide) (by rw [hs]; decide)
  have hne := connected_ne e u
  rw [hent, h.status] at hne
  have hentries := congrArg Ne.entries hne
  rw [finish_noWaiter (noWaiter_of_put h.noWaiter hentries (fun h => by cases h) (hent ▸ (h.noWaiter e).2))
    ((connected_flags e u).1.trans h.joining) ((connected_flags e u).2.trans h.serve)]
  refine ⟨entry_of_put hentries, ?_⟩
  rw [hne]
  dsimp only
  split
  · rfl
  · exact look_put_same _ _ _

/-- The inner connect wave settles with contacts to verify: VERIFYING (R67, R145). -/
theorem Told.verifies (h : Told s s1 v e u) (hs : (s.entry e).state = .connectInner) (hv : (s.entry e).verify = true)
    {b : List Relay} (hb : b ≠ []) : (finish (innerConnected e b u)).entry e = { s.entry e with state := .verifying } ∧
      look (finish (innerConnected e b u)).snu.verifications e ≠ none := by
  have hent : u.ent e = s.entry e := h.same (by rw [hs]; decide) (by rw [hs]; decide)
  obtain ⟨hne, hrec⟩ := handOver_verifications e b (u.setState e .verifying).st
  have hentries : ((u.setState e .verifying).upd (handOver e b)).st.ne.entries =
      put u.st.ne.entries e { s.entry e with state := .verifying } := by
    rw [Work.upd_st, hne, ← hent]
    rfl
  unfold innerConnected
  rw [if_pos ⟨by rw [hent]; exact hv, hb⟩, finish_noWaiter (noWaiter_of_put h.noWaiter hentries (fun h => by cases h)
    (hent ▸ (h.noWaiter e).2)) h.joining h.serve]
  exact ⟨entry_of_put hentries, hrec⟩

/-- The inner connect wave settles with nothing to verify: CONNECT_OUTER and its wave (R67). -/
theorem Told.goesOuter (h : Told s s1 v e u) (hs : (s.entry e).state = .connectInner) {b : List Relay}
    (hv : (s.entry e).verify = false ∨ b = []) (hq : s.wsu.queue ≠ []) (hd : ∀ p ∈ v.done, p.1.val < 592)
    {closes : List Relay} (hc : closes = ((s.entry e).pins.map relayS).filter (fun q => decide ((s.relay q).state = .opened)))
    (hne : closes ≠ []) : (finish (innerConnected e b u)).entry e = { s.entry e with state := .connectOuter } ∧
      (finish (innerConnected e b u)).wsu.queue = s.wsu.queue ++ [⟨.entry e, .outerConnect, [], closes.map (fun q => (q, true)),
        (s.entry e).trunk, (s.entry e).trunk.isSome && !(s.entry e).hot, false, decide ((s.entry e).reason = some .aborted),
        none⟩] := by
  have hent : u.ent e = s.entry e := h.same (by rw [hs]; decide) (by rw [hs]; decide)
  have hset : (u.setState e .connectOuter).st.entry e = { s.entry e with state := .connectOuter } := by
    rw [← hent]
    exact State.setEntry_entry_same _ _ _
  have hqual : qualifying (u.setState e .connectOuter).st e .outerConnect = closes := by
    rw [qualifying_closing rfl, hset, hc]
    refine List.filter_congr fun q hq => ?_
    obtain ⟨i, -, rfl⟩ := List.mem_map.1 hq
    have hsame : (u.setState e .connectOuter).st.relay (relayS i) = s.relay (relayS i) :=
      h.relays_unmoved fun p hp hr => by
        have hlt := hd p hp
        rw [hr, relayS] at hlt
        dsimp only at hlt
        omega
    rw [hsame]
  unfold innerConnected
  rw [if_neg (by rw [hent]; rintro ⟨h1, h2⟩; rcases hv with hv | hv <;> simp_all), connectOuter_builds (by rw [hqual]; exact hne)]
  obtain ⟨hne, -, hqueue⟩ := finish_buildWave (e := e) (ph := .outerConnect) (w := u.setState e .connectOuter)
    (noWaiter_of_put h.noWaiter rfl (fun h => by cases h) (h.noWaiter e).2) h.joining h.serve (by rw [← h.queue] at hq; exact hq)
    (by rw [hqual]; assumption)
  refine ⟨by rw [State.entry, hne]; exact hset, ?_⟩
  rw [hqueue, hqual, hset]
  exact congrArg (· ++ _) h.queue

end

end Sys2Proof.Machine
end

