-- ==== Sys2Proof/Proofs/SettleEndRests.lean ====
section
/-! The disconnect, monitor and release clauses of SETTLE_END, and its statement. -/

namespace Sys2Proof.Machine

section
variable {s s1 : State} {v : Wave} {e : Entry} {u : Work}

/-- The outer disconnect wave settles (R71, R78). -/
theorem Told.goesInner (h : Told s s1 v e u) (hs : (s.entry e).state = .disconnectOuter) (hq : s.wsu.queue ≠ [])
    (hx : ∃ q ∈ phaseRelays (s.entry e) .innerDisconnect,
      (∀ p ∈ v.done, p.1 ≠ q) ∧ (s.relay q).owner = some e ∧ (s.relay q).state = .closed) :
    (finish (outerDone e u)).entry e =
      { s.entry e with state := if (s.entry e).headingToFaulted = true then .faulted else .disconnectInner } ∧
    ∃ w : Wave, w.owner = .entry e ∧ w.phase = .innerDisconnect ∧ (finish (outerDone e u)).wsu.queue = s.wsu.queue ++ [w] := by
  have hent : u.ent e = s.entry e := h.same (by rw [hs]; decide) (by rw [hs]; decide)
  obtain ⟨q, hmem, hother, ho, hc⟩ := hx
  have hrelay := h.relays_unmoved hother
  have hdone := finish_outerDone (e := e) (w := u) (q := q) h.noWaiter h.joining h.serve (by rw [h.queue]; exact hq)
    (by rw [hent]; exact hs) (by rw [hent]; exact hmem) (by rw [hrelay]; exact ho) (by rw [hrelay]; exact hc)
  rwa [hent, h.queue] at hdone

/-- The entry that ends its course is FREE, its pins unbound and its OPENED owed (R16, R63, R72). -/
theorem Told.frees (h : Told s s1 v e u) : ((finish (freeEntry e (u.upd (oweOpened e)))).entry e).state = .free ∧
    (∀ p, look (finish (freeEntry e (u.upd (oweOpened e)))).ne.binding p ≠ some e) ∧
    look (finish (freeEntry e (u.upd (oweOpened e)))).ne.status e = some ⟨(s.entry e).site, (s.entry e).net, .opened,
      openedReason (s.entry e).reason, (s.entry e).resource.map NetResource.code, none⟩ := by
  obtain ⟨m, hm⟩ := h.entry
  have hn : (u.upd (oweOpened e)).st.noWaiter := noWaiter_of_entries h.noWaiter (by rw [Work.upd_st, oweOpened_ne])
  rw [finish_freeEntry hn h.joining h.serve]
  refine ⟨congrArg NetEntry.state freeEntry_entry, freeEntry_unbound, ?_⟩
  rw [freeEntry_status, Work.upd_st, oweOpened_ne, show u.st.entry e = _ from hm]
  exact look_put_same _ _ _

/-- An anchor that owes no OPENED ends its course the same way (R63, R72). -/
theorem Told.frees_refused (h : Told s s1 v e u) :
    ((finish (freeEntry e u)).entry e).state = .free ∧ ∀ p, look (finish (freeEntry e u)).ne.binding p ≠ some e := by
  rw [finish_freeEntry h.noWaiter h.joining h.serve]
  exact ⟨congrArg NetEntry.state freeEntry_entry, freeEntry_unbound⟩

theorem finish_setEntry {w : Work} {x : NetEntry} (hn : w.st.noWaiter) (hj : w.joining = []) (hs : w.serve = false)
    (h1 : x.state ≠ .awaitResource) (h2 : x.monitor ≠ .claiming) :
    finish { w with st := w.st.setEntry e x, pass := true } = w.st.setEntry e x :=
  finish_noWaiter (noWaiter_of_put hn rfl h1 h2) hj hs

/-- The inner disconnect wave of an anchor that holds its trunk and awaits other cards settles (R72). -/
theorem Told.awaits (h : Told s s1 v e u) (ha : (s.entry e).awaited ≠ []) :
    ((finish (awaitOpened e u)).entry e).state = .awaitOpened ∧ ((finish (awaitOpened e u)).entry e).awaited = (s.entry e).awaited ∧
    ((finish (awaitOpened e u)).entry e).deadline = some (later s1.now (s.cfl.config.releaseWait * 1000)) := by
  obtain ⟨m, hm⟩ := h.entry
  have hawaited : (u.ent e).awaited = (s.entry e).awaited := by rw [hm]
  rw [awaitOpened_waits (by rw [hawaited]; exact ha), h.now, h.cfl]
  rw [finish_setEntry h.noWaiter h.joining h.serve (fun h => by cases h) (by exact (h.noWaiter e).2),
    State.setEntry_entry_same]
  exact ⟨rfl, hawaited, rfl⟩

/-- The inner disconnect wave of a FAULTED entry settles (R78). -/
theorem Told.faults (h : Told s s1 v e u) (hs : (s.entry e).state = .faulted) (hp : (s.entry e).releasePending = none)
    (hr : (s.entry e).reason ≠ some .aborted) : ((finish (faultedOpen e u)).entry e).state = .faulted ∧
    look (finish (faultedOpen e u)).ne.status e = some ⟨(s.entry e).site, (s.entry e).net, .fault, (s.entry e).reason.getD .none,
      (s.entry e).resource.map NetResource.code,
      if (s.entry e).reason = some .contactFail then (s.entry e).reasonRelay else none⟩ := by
  obtain ⟨m, hm⟩ := h.entry
  have hne : (faultedOpen e u).st.ne = { u.st.ne with
      entries := put u.st.ne.entries e { u.ent e with monitor := .off, monitorOffPending := false, winding := false }
      status := put u.st.ne.status e (some (u.ent e).faultReport) } := by
    rw [faultedOpen_owes (by rw [hm]; exact hr) (by rw [hm]; exact hp), Work.upd_st, owe_ne]
    rfl
  have hentries := congrArg Ne.entries hne
  have hstate : (u.ent e).state = .faulted := by
    rw [hm]
    exact hs
  have hflags : (faultedOpen e u).joining = [] ∧ (faultedOpen e u).serve = false := by
    rw [faultedOpen_owes (by rw [hm]; exact hr) (by rw [hm]; exact hp)]
    exact ⟨h.joining, h.serve⟩
  rw [finish_noWaiter (noWaiter_of_put h.noWaiter hentries (by dsimp only; rw [hstate]; decide) (fun h => by cases h))
    hflags.1 hflags.2, entry_of_put hentries, hne]
  refine ⟨hstate, ?_⟩
  dsimp only
  rw [look_put_same, hm]
  rfl

/-- The monitor close wave settles: ON (R81). -/
theorem Told.monitorOn (h : Told s s1 v e u) (hs : (s.entry e).state = .connected) (hp : (s.entry e).releasePending = none)
    (ho : (s.entry e).monitorOffPending = false) : (finish (monitorClosed e u)).entry e = { s.entry e with monitor := .on } ∧
    look (finish (monitorClosed e u)).ne.status e = some ⟨(s.entry e).site, (s.entry e).net, .monitorOn, .none,
      (s.entry e).trunk.map (fun k => (NetResource.trunk k).code), none⟩ := by
  have hent : u.ent e = s.entry e := h.same (by rw [hs]; decide) (by rw [hs]; decide)
  have hset : (u.modEnt e (fun x => { x with monitor := .on })).st.entry e = { s.entry e with monitor := .on } := by
    rw [← hent]
    exact State.setEntry_entry_same _ _ _
  have hne : (monitorClosed e u).st.ne = { u.st.ne with
      entries := put u.st.ne.entries e { s.entry e with monitor := .on }
      status := put u.st.ne.status e (some ⟨(s.entry e).site, (s.entry e).net, .monitorOn, .none,
        (s.entry e).trunk.map (fun k => (NetResource.trunk k).code), none⟩) } := by
    rw [monitorClosed_on (by rw [hent]; exact hs) (by rw [hent]; exact hp) (by rw [hent]; exact ho), Work.upd_st, oweMonitor,
      owe_ne, hset, ← hent]
    rfl
  have hentries := congrArg Ne.entries hne
  have hflags : (monitorClosed e u).joining = [] ∧ (monitorClosed e u).serve = false := by
    rw [monitorClosed_on (by rw [hent]; exact hs) (by rw [hent]; exact hp) (by rw [hent]; exact ho)]
    exact ⟨h.joining, h.serve⟩
  rw [finish_noWaiter (noWaiter_of_put h.noWaiter hentries (by dsimp only; rw [hs]; decide) (fun h => by cases h))
    hflags.1 hflags.2, entry_of_put hentries, hne]
  exact ⟨rfl, look_put_same _ _ _⟩

/-- The monitor close wave settles after MONITOR off came: the open wave is built (R81). -/
theorem Told.monitorOpens (h : Told s s1 v e u) {k : Trunk} (hs : (s.entry e).state = .connected)
    (hp : (s.entry e).releasePending = none) (ho : (s.entry e).monitorOffPending = true) (ht : (s.entry e).trunk = some k)
    (hq : s.wsu.queue ≠ []) (hown : (s.relay (relayM k)).owner = some e) (hc : v.closedAfter s1 (relayM k)) :
    (finish (monitorClosed e u)).entry e = { s.entry e with monitor := .opening, monitorOffPending := false } ∧
    (finish (monitorClosed e u)).wsu.queue = s.wsu.queue ++ [⟨.entry e, .monitorOpen, [], [(relayM k, false)], some k, false, false,
      decide ((s.entry e).reason = some .aborted), none⟩] := by
  have hent : u.ent e = s.entry e := h.same (by rw [hs]; decide) (by rw [hs]; decide)
  have hset : (u.modEnt e (fun x => { x with monitor := .opening, monitorOffPending := false })).st.entry e =
      { s.entry e with monitor := .opening, monitorOffPending := false } := by
    rw [← hent]
    exact State.setEntry_entry_same _ _ _
  have htrunk : ({ s.entry e with monitor := .opening, monitorOffPending := false } : NetEntry).trunk = some k := ht
  obtain ⟨ho', hc'⟩ := (h.ownedClosed (relayM k)).2 ⟨hown, hc⟩
  have hqual : qualifying (u.modEnt e (fun x => { x with monitor := .opening, monitorOffPending := false })).st e .monitorOpen =
      [relayM k] := by
    rw [qualifying_opening rfl, hset, phaseRelays, htrunk]
    exact List.filter_eq_self.2 (fun r hr => by
      rw [List.mem_singleton.1 hr]
      exact Bool.and_eq_true_iff.2 ⟨decide_eq_true ho', decide_eq_true hc'⟩)
  rw [monitorClosed_off (by rw [hent]; exact hs) (by rw [hent]; exact hp) (by rw [hent]; exact ho)]
  obtain ⟨hne, -, hqueue⟩ := finish_buildWave (e := e) (ph := .monitorOpen)
    (w := u.modEnt e (fun x => { x with monitor := .opening, monitorOffPending := false }))
    (noWaiter_of_put h.noWaiter rfl (h.noWaiter e).1 (fun h => by cases h)) h.joining h.serve
    (by rw [← h.queue] at hq; exact hq) (by rw [hqual]; exact List.cons_ne_nil _ _)
  refine ⟨by rw [State.entry, hne]; exact hset, ?_⟩
  rw [hqueue, hqual, hset, newWave, htrunk]
  exact congrArg (· ++ _) h.queue

/-- Once a monitor is opened its entry alone has changed of the net table (R82). -/
theorem Told.monitorOff_entry (h : Told s s1 v e u) (hs : (s.entry e).state = .connected) :
    (u.monitorOff e).st.ne = { u.st.ne with
      entries := put u.st.ne.entries e { s.entry e with monitor := .off, monitorOffPending := false } } := by
  rw [monitorOff_eq, h.same (by rw [hs]; decide) (by rw [hs]; decide)]

/-- The monitor open wave settles: OFF (R82). -/
theorem Told.monitorOff (h : Told s s1 v e u) (hs : (s.entry e).state = .connected) (hp : (s.entry e).releasePending = none) :
    (finish (monitorOpenedWave e .none u)).entry e = { s.entry e with monitor := .off, monitorOffPending := false } ∧
    (look s.rcu.holdings 16 = some e → look (finish (monitorOpenedWave e .none u)).rcu.releases 16 = true) ∧
    look (finish (monitorOpenedWave e .none u)).ne.status e = some ⟨(s.entry e).site, (s.entry e).net, .monitorOff, .none,
      (s.entry e).trunk.map (fun k => (NetResource.trunk k).code), none⟩ := by
  have hent : u.ent e = s.entry e := h.same (by rw [hs]; decide) (by rw [hs]; decide)
  have hoff := h.monitorOff_entry hs
  have hset : (u.monitorOff e).st.entry e = { s.entry e with monitor := .off, monitorOffPending := false } :=
    entry_of_put (congrArg Ne.entries hoff)
  have hne : (monitorOpenedWave e .none u).st.ne = { u.st.ne with
      entries := put u.st.ne.entries e { s.entry e with monitor := .off, monitorOffPending := false }
      status := put u.st.ne.status e (some ⟨(s.entry e).site, (s.entry e).net, .monitorOff, .none,
        (s.entry e).trunk.map (fun k => (NetResource.trunk k).code), none⟩) } := by
    rw [monitorOpenedWave_off (by rw [hent]; exact hs) (by rw [hent]; exact hp), Work.upd_st, oweMonitor, owe_ne, hset, hoff]
    rfl
  have hrcu : (monitorOpenedWave e .none u).st.rcu = (u.monitorOff e).st.rcu := by
    rw [monitorOpenedWave_off (by rw [hent]; exact hs) (by rw [hent]; exact hp), Work.upd_st, oweMonitor, owe_rcu]
  have hentries := congrArg Ne.entries hne
  have hflags : (monitorOpenedWave e .none u).joining = [] ∧ (monitorOpenedWave e .none u).serve = false := by
    rw [monitorOpenedWave_off (by rw [hent]; exact hs) (by rw [hent]; exact hp)]
    exact ⟨h.joining, h.serve⟩
  rw [finish_noWaiter (noWaiter_of_put h.noWaiter hentries (by dsimp only; rw [hs]; decide) (fun h => by cases h))
    hflags.1 hflags.2, entry_of_put hentries, hne, hrcu]
  exact ⟨rfl, fun hh => monitorOff_owed (by rw [h.rcu]; exact hh), look_put_same _ _ _⟩

/-- Release-pending is taken by an entry with content b, which differs from the entry before in its monitor (R70, R82). -/
theorem Told.releases (h : Told s s1 v e u) {w : Work} {b : NetEntry} {p : ReleasePending} {opens : List Relay}
    (hn : w.st.noWaiter) (hj : w.joining = []) (hserve : w.serve = false) (hwsu : w.st.wsu = u.st.wsu) (hrm : w.st.rm = u.st.rm)
    (hsnu : w.st.snu = u.st.snu) (hstatus : w.st.ne.status = u.st.ne.status) (hb : w.ent e = b)
    (hpins : b.pins = (s.entry e).pins) (hreason : b.reason = (s.entry e).reason) (hp : b.releasePending = some p)
    (hq : s.wsu.queue ≠ []) (hw : ∀ w ∈ s.wsu.queue ++ s.wsu.held, w.owner ≠ .entry e) (hr : ∀ q ∈ s.wsu.recovery, q.2 ≠ e)
    (hv : look s.snu.verifications e = none)
    (ho : opens = ((s.entry e).pins.map relayS).filter (fun q =>
      decide ((s.relay q).owner = some e) && decide (v.closedAfter s1 q))) (hne : opens ≠ []) :
    (finish (takeRelease e w)).entry e = { b with
      state := .disconnectOuter, releasePending := none
      reason := if p = .cancel ∧ (s.entry e).reason = none then some .cancelled else (s.entry e).reason } ∧
    look (finish (takeRelease e w)).ne.status e = look s.ne.status e ∧ (finish (takeRelease e w)).rcu = w.st.rcu ∧
    (finish (takeRelease e w)).wsu.queue = s.wsu.queue ++ [outerWave e ((finish (takeRelease e w)).entry e) opens] := by
  have hidle : w.inFlight e = false := by
    have := h.idle hw hr
    rw [Work.inFlight] at this ⊢
    rwa [hj, hwsu, ← h.joining]
  have hopens : ((w.ent e).pins.map relayS).filter (fun q =>
      decide ((w.st.relay q).owner = some e) && decide ((w.st.relay q).state = .closed)) = opens := by
    rw [hb, hpins, ho]
    refine List.filter_congr fun q _ => ?_
    have hrelay : w.st.relay q = u.st.relay q := by rw [State.relay, hrm]; rfl
    rw [hrelay, Bool.eq_iff_iff]
    simp only [Bool.and_eq_true, decide_eq_true_eq]
    exact h.ownedClosed q
  obtain ⟨hne, hrcu, hqueue⟩ := finish_takeRelease hn hj hserve (by rw [hwsu, h.queue]; exact hq) hidle
    (by rw [State.verifying, hsnu, h.snu, hv]; rfl) hopens hne
  have hentry := entry_of_put (s := w.st) (congrArg Ne.entries hne)
  have hreleased : b.released = { b with
      state := .disconnectOuter, releasePending := none
      reason := if p = .cancel ∧ (s.entry e).reason = none then some .cancelled else (s.entry e).reason } := by
    simp only [NetEntry.released, hp, hreason, Option.some.injEq]
  rw [hb] at hentry hqueue
  refine ⟨hentry.trans hreleased, ?_, hrcu, ?_⟩
  · rw [hne, ← h.status, ← hstatus]
  · rw [hqueue, hentry, hwsu, h.queue]

/-- Release-pending is taken where no outer relay is the entry's own: DISCONNECT_INNER at once (R14, R70, R71). -/
theorem Told.releasesInner (h : Told s s1 v e u) {p : ReleasePending} (hs : (s.entry e).state = .connectInner)
    (hp : (s.entry e).releasePending = some p) (hreason : (s.entry e).reason = none)
    (hq : s.wsu.queue ≠ []) (hw : ∀ w ∈ s.wsu.queue ++ s.wsu.held, w.owner ≠ .entry e) (hr : ∀ q ∈ s.wsu.recovery, q.2 ≠ e)
    (hv : look s.snu.verifications e = none) (hnone : ∀ i ∈ (s.entry e).pins, (s.relay (relayS i)).owner ≠ some e)
    (hx : ∃ q ∈ phaseRelays (s.entry e) .innerDisconnect, (s.relay q).owner = some e ∧ v.closedAfter s1 q) :
    (finish (takeRelease e u)).entry e = { s.entry e with
      state := .disconnectInner, releasePending := none, reason := if p = .cancel then some .cancelled else none } ∧
    ∃ w : Wave, w.owner = .entry e ∧ w.phase = .innerDisconnect ∧ (finish (takeRelease e u)).wsu.queue = s.wsu.queue ++ [w] := by
  have hent : u.ent e = s.entry e := h.same (by rw [hs]; decide) (by rw [hs]; decide)
  obtain ⟨q, hmem, hown, hc⟩ := hx
  obtain ⟨ho', hc'⟩ := (h.ownedClosed q).2 ⟨hown, hc⟩
  have hreleased : { (s.entry e).released with state := .disconnectInner } = { s.entry e with
      state := .disconnectInner, releasePending := none, reason := if p = .cancel then some .cancelled else none } := by
    simp [NetEntry.released, hp, hreason]
  have hfault : (s.entry e).released.headingToFaulted = false := by
    cases p <;> simp [NetEntry.headingToFaulted, NetEntry.released, hp, hreason, Reason.isFault]
  have hdone := finish_takeRelease_inner (e := e) (w := u) (q := q) h.noWaiter h.joining h.serve (by rw [h.queue]; exact hq)
    (h.idle hw hr) (by rw [State.verifying, h.snu, hv]; rfl) (by rw [hent]; exact hfault)
    (fun i hi => h.not_owner (hnone i (hent ▸ hi))) (by rw [hent]; exact hmem) ho' hc'
  rwa [hent, hreleased, h.queue] at hdone

/-- Release-pending is taken when a connect or a monitor wave has settled (R70, R82). -/
theorem told_releases {w : Work} (h : Told s s1 v e (w.upd (clearHold e))) {p : ReleasePending} {opens : List Relay}
    (hp : (s.entry e).releasePending = some p)
    (hwhen : v.phase = .innerConnect ∧ (s.entry e).state = .connectInner ∨ v.phase = .outerConnect ∧
      (s.entry e).state = .connectOuter ∨ (v.phase = .monitorClose ∨ v.phase = .monitorOpen) ∧ (s.entry e).state = .connected)
    (hq : s.wsu.queue ≠ []) (hw : ∀ w ∈ s.wsu.queue ++ s.wsu.held, w.owner ≠ .entry e) (hr : ∀ q ∈ s.wsu.recovery, q.2 ≠ e)
    (hv : look s.snu.verifications e = none)
    (ho : opens = ((s.entry e).pins.map relayS).filter (fun q =>
      decide ((s.relay q).owner = some e) && decide (v.closedAfter s1 q))) (hne : opens ≠ []) (b : List Relay) :
    (finish (waveSettled e v.phase b w)).entry e = { v.monitorAfter (s.entry e) with
      state := .disconnectOuter, releasePending := none
      reason := if p = .cancel ∧ (s.entry e).reason = none then some .cancelled else (s.entry e).reason } ∧
    look (finish (waveSettled e v.phase b w)).ne.status e = look s.ne.status e ∧
    (v.phase = .monitorOpen → look s.rcu.holdings 16 = some e → look (finish (waveSettled e v.phase b w)).rcu.releases 16 = true) ∧
    (finish (waveSettled e v.phase b w)).wsu.queue =
      s.wsu.queue ++ [outerWave e ((finish (waveSettled e v.phase b w)).entry e) opens] := by
  have hent : (w.upd (clearHold e)).ent e = s.entry e := by
    rcases hwhen with ⟨-, hs⟩ | ⟨-, hs⟩ | ⟨-, hs⟩ <;> exact h.same (by rw [hs]; decide) (by rw [hs]; decide)
  have hpending : ((w.upd (clearHold e)).ent e).releasePending.isSome = true := by simp [hent, hp]
  rcases hwhen with ⟨hph, hs⟩ | ⟨hph, hs⟩ | ⟨hph | hph, hs⟩ <;> rw [Wave.monitorAfter, hph]
  · rw [waveSettled_innerConnect (by rw [hent]; exact hs), if_pos hpending]
    obtain ⟨h1, h2, -, h4⟩ := h.releases h.noWaiter h.joining h.serve rfl rfl rfl rfl hent rfl rfl hp hq hw hr hv ho hne
    exact ⟨h1, h2, (fun h => by cases h), h4⟩
  · rw [waveSettled_outerConnect (by rw [hent]; exact hs), if_pos hpending]
    obtain ⟨h1, h2, -, h4⟩ := h.releases h.noWaiter h.joining h.serve rfl rfl rfl rfl hent rfl rfl hp hq hw hr hv ho hne
    exact ⟨h1, h2, (fun h => by cases h), h4⟩
  · rw [show waveSettled e .monitorClose b w = _ from monitorClosed_release (by rw [hent]; exact hs) hpending]
    have hn : ((w.upd (clearHold e)).modEnt e (fun x => { x with monitor := .on, monitorOffPending := false })).st.noWaiter :=
      noWaiter_of_put h.noWaiter rfl (h.noWaiter e).1 (fun h => by cases h)
    have hset : ((w.upd (clearHold e)).modEnt e (fun x => { x with monitor := .on, monitorOffPending := false })).ent e =
        { s.entry e with monitor := .on, monitorOffPending := false } := by
      rw [← hent]
      exact State.setEntry_entry_same _ _ _
    obtain ⟨h1, h2, -, h4⟩ := h.releases hn h.joining h.serve rfl rfl rfl rfl hset rfl rfl hp hq hw hr hv ho hne
    exact ⟨h1, h2, (fun h => by cases h), h4⟩
  · rw [show waveSettled e .monitorOpen b w = _ from monitorOpenedWave_release (by rw [hent]; exact hs) hpending .none]
    have hoff := h.monitorOff_entry hs
    have hentries := congrArg Ne.entries hoff
    have hn : ((w.upd (clearHold e)).monitorOff e).st.noWaiter :=
      noWaiter_of_put h.noWaiter hentries (hent ▸ (h.noWaiter e).1) (fun h => by cases h)
    obtain ⟨h1, h2, h3, h4⟩ := h.releases hn h.joining h.serve (by rw [monitorOff_eq]) (by rw [monitorOff_eq])
      (by rw [monitorOff_eq]) (by rw [hoff]) (entry_of_put hentries) rfl rfl hp hq hw hr hv ho hne
    exact ⟨h1, h2, fun _ hh => by rw [h3]; exact monitorOff_owed (by rw [h.rcu]; exact hh), h4⟩

end

/-- Settles O43: a relay alone, the sweep, and the wave of an entry by its phase and its entry's state. -/
theorem settleEndRestsRelay : Obligations.SettleEndRestsRelay := by
  intro dt s s1 r hs1 hphase hdue
  have hrelay : ∀ x, s1.relay x = s.relay x := fun x => by rw [hs1]; exact advance_relay dt s x
  have hwaiter : s.noWaiter → s1.noWaiter := fun h => by rw [hs1]; exact advance_noWaiter dt s h
  rw [exec_settleEnd hs1 hphase hdue]
  refine ⟨fun hw hr hc => ?_, fun hw hr ho hn hm => ?_, fun v hw hv hn => ⟨_, rfl, ?_⟩, ?_⟩
  · rw [settle_alone hw hr, settleRelay_closing hdue (by rw [hrelay]; exact hc), finish_start, hrelay]
  · rw [settle_alone hw hr, settleRelay_opening hdue (by rw [hrelay]; exact ho) (by rw [hrelay]; exact hm)]
    rw [finish_noWaiter (noWaiter_of_entries (hwaiter hn) rfl) rfl rfl, hrelay]
    rfl
  · rw [settle_wave hw, tellOwner, hv]
    dsimp only
    rw [finish_ready (hwaiter hn)]
    refine ⟨rfl, fun p hp hd ho => ?_⟩
    have hsettled := settledWork_relay v s1 p.1
    rw [if_pos ⟨List.mem_map_of_mem hp, hd⟩, hrelay, settledRecord_opening ho] at hsettled
    rw [show (ready (settledWork v s1)).st.relay p.1 = _ from hsettled]
    exact ⟨rfl, rfl, rfl⟩
  · rintro v e a hw hv rfl hn
    have h := told_settledWork hs1 hv hn
    obtain ⟨m, hm⟩ := h.entry
    refine ⟨_, rfl, ?_⟩
    rw [settle_wave hw, tellOwner, hv]
    dsimp only
    refine ⟨fun hph hs hp => ?_, fun hph hs hp hver hcross => ?_, fun hph hs hp hver hq hd closes hc hne => ?_,
      fun hph hs hq hx => ?_, fun hph hs hrole hr => ?_, fun hph hs hrole hh => ?_, fun hph hs hrole hl hh ha => ?_,
      fun hph hs hp ho => ?_, fun k hph hs hp ho ht hq hown hc => ?_, fun hph hs hp => ?_,
      fun b p opens hb hp hwhen hq hfree hrec hver hopens hne => ?_, fun p hph hs hp hr hq hfree hrec hver hnone hx => ?_,
      fun hph hs hp hr => ?_⟩
    · rw [hph, waveSettled_outerConnect (by rw [hm]; exact hs), if_neg (by simp [hm, hp])]
      exact h.connects hs
    · rw [hph, waveSettled_innerConnect (by rw [hm]; exact hs), if_neg (by simp [hm, hp])]
      exact h.verifies hs hver hcross
    · rw [hph, waveSettled_innerConnect (by rw [hm]; exact hs), if_neg (by simp [hm, hp])]
      exact h.goesOuter hs hver hq hd hc hne
    · rw [hph]
      exact h.goesInner hs hq hx
    · rw [hph, waveSettled_innerDisconnect (by rw [hm]; exact hs),
        endCourse_participant (by rw [hm]; exact hrole) (by rw [hm]; exact hr)]
      exact h.frees
    · rw [hph, waveSettled_innerDisconnect (by rw [hm]; exact hs),
        endCourse_anchor_free (by rw [hm]; exact hrole) (by rw [hm, h.holding]; exact hh)]
      split
      · rename_i hrefused
        rw [hm] at hrefused
        exact ⟨h.frees_refused.1, h.frees_refused.2, fun hn => absurd (hn.symm.trans hrefused) (by decide)⟩
      · exact ⟨h.frees.1, h.frees.2.1, fun _ => h.frees.2.2⟩
    · rw [hph, waveSettled_innerDisconnect (by rw [hm]; exact hs),
        endCourse_anchor_awaits (by rw [hm]; exact hrole) (by rw [hm]; exact hl) (by rw [h.holding]; exact hh)]
      exact h.awaits ha
    · rw [hph]
      exact h.monitorOn hs hp ho
    · rw [hph]
      exact h.monitorOpens hs hp ho ht hq hown hc
    · rw [hph]
      exact h.monitorOff hs hp
    · rw [hb]
      exact told_releases h hp hwhen hq hfree hrec hver hopens hne _
    · rw [hph, waveSettled_innerConnect (by rw [hm]; exact hs), if_pos (by simp [hm, hp])]
      exact h.releasesInner hs hp hr hq hfree hrec hver hnone hx
    · rw [hph, waveSettled_innerDisconnect_faulted (by rw [hm]; exact hs)]
      exact h.faults hs hp hr

end Sys2Proof.Machine
end

