-- ==== Sys2Proof/Proofs/Choices.lean ====
section
/-! The choice pass where one entry alone waits (R86–R89), and what the choice of a trunk answers. -/

namespace Sys2Proof.Machine

/-! ### A pass over the entries in which one alone acts -/

theorem foldl_idle {α β : Type} {f : β → α → β} {b : β} {as : List α} (h : ∀ a ∈ as, f b a = b) : as.foldl f b = b := by
  induction as with
  | nil => rfl
  | cons a as ih => rw [List.foldl_cons, h a List.mem_cons_self, ih fun x hx => h x (List.mem_cons_of_mem a hx)]

/-- Where every other element leaves the value alone, before and after it, a pass comes to the act of one. -/
theorem foldl_single {α β : Type} {f : β → α → β} {b : β} {as : List α} {a : α} (hn : as.Nodup) (ha : a ∈ as)
    (before : ∀ x, x ≠ a → f b x = b) (after : ∀ x, x ≠ a → f (f b a) x = f b a) : as.foldl f b = f b a := by
  obtain ⟨l, r, rfl⟩ := List.append_of_mem ha
  have hl : ∀ x ∈ l, x ≠ a := fun x hx he => by
    subst he
    exact (List.nodup_append.1 hn).2.2 x hx x List.mem_cons_self rfl
  have hr : ∀ x ∈ r, x ≠ a := fun x hx he => by
    subst he
    exact (List.nodup_cons.1 (List.nodup_append.1 hn).2.1).1 hx
  rw [List.foldl_append, List.foldl_cons, foldl_idle fun x hx => before x (hl x hx), foldl_idle fun x hx => after x (hr x hx)]

theorem passEntry_idle {e : Entry} {w : Work} (h : (w.st.entry e).state ≠ .awaitResource) : passEntry e w = w := if_neg h

theorem passMonitor_idle {e : Entry} {w : Work} (h : (w.st.entry e).monitor ≠ .claiming) : passMonitor e w = w :=
  if_neg fun k => h k.1

/-- With one entry waiting for a resource and no monitor for MON, the pass is the choice of that entry (R86). -/
theorem choicePass_single {e : Entry} {w : Work} (hw : w.st.noOtherWaiter e)
    (ho : (passEntry e { w with pass := false }).st.noOtherWaiter e)
    (hm : ((passEntry e { w with pass := false }).st.entry e).monitor ≠ .claiming) :
    choicePass w = passEntry e { w with pass := false } := by
  have hentries := foldl_single (f := fun (u : Work) (x : Entry) => passEntry x u) (b := { w with pass := false })
    (List.nodup_finRange 64) (List.mem_finRange e) (fun x hx => passEntry_idle (hw x hx).1) (fun x hx => passEntry_idle (ho x hx).1)
  have hmonitors := foldl_idle (f := fun (u : Work) (x : Entry) => passMonitor x u)
    (b := passEntry e { w with pass := false }) (as := List.finRange 64) (fun x _ => passMonitor_idle (by
      by_cases hx : x = e
      · rw [hx]
        exact hm
      · exact (ho x hx).2))
  unfold choicePass
  dsimp only
  rw [hentries, hmonitors]

theorem finish_passes {w : Work} (h : w.pass = true) : finish w = (settleDown 4095 (choicePass w)).st := by
  show (settleDown (4095 + 1) w).st = _
  rw [settleDown, if_pos h]

theorem settleDown_rests (n : Nat) {w : Work} (hp : w.pass = false) (hj : w.joining = []) (hs : w.serve = false) :
    settleDown (n + 1) w = w := by
  rw [settleDown]
  simp [hp, hj, hs]

/-- A wave built at a choice joins behind those that stand in the queue, and nothing else follows. -/
theorem settleDown_waits (n : Nat) {w : Work} {v : Wave} (h : w.st.noWaiter) (hp : w.pass = true) (hj : w.joining = [v])
    (hs : w.serve = false) (hq : w.st.wsu.queue ≠ []) :
    (settleDown (n + 3) w).st = { w.st with wsu := { w.st.wsu with queue := w.st.wsu.queue ++ [v] } } := by
  rw [settleDown, if_pos hp, choicePass_noWaiter h, settleDown]
  simp only [hj, hs, Bool.false_and, Bool.false_eq_true, if_false, List.isEmpty_cons, if_true]
  have hflush : flush { w with pass := false, joining := [v], serve := false } = { w with
      st := { w.st with wsu := { w.st.wsu with queue := w.st.wsu.queue ++ [v] } }, pass := false, joining := [], serve := false } := by
    have hq' : w.st.wsu.queue.isEmpty = false := by simpa using hq
    simp [flush, hq', sortWaves, insertWave]
  rw [hflush, settleDown_rests n rfl rfl rfl]

/-! ### The trunk chosen (R87, R88) -/

theorem candidate_iff (s : State) (e : Entry) (k : Trunk) : s.candidate e k = true ↔
    s.permitted (s.entry e).site k = true ∧ s.unclaimed (trunkResource k) = true ∧
      s.reservedElsewhere (s.entry e).site k = false ∧ s.segmentFree e k = true ∧ s.suspectX (s.entry e).pins k = none := by
  simp [State.candidate, and_assoc]

/-- The trunks that may be chosen: the candidates, a named trunk alone (R87, R88). -/
def State.choosable (s : State) (e : Entry) (k : Trunk) : Prop :=
  ((s.entry e).request = .any ∨ (s.entry e).request = .trunk k) ∧ s.candidate e k = true

theorem mem_candidates (s : State) (e : Entry) (k : Trunk) :
    k ∈ (List.finRange 16).filter (fun t => s.candidate e t) ↔ s.candidate e k = true := by
  simp

theorem candidates_sorted (s : State) (e : Entry) : ((List.finRange 16).filter (fun t => s.candidate e t)).Pairwise (· < ·) :=
  List.Pairwise.filter _ (List.pairwise_lt_finRange 16)

/-- What find? answers in an ascending list is the lowest element that meets the test. -/
theorem find?_lowest {n : Nat} {p : Fin n → Bool} {l : List (Fin n)} (hl : l.Pairwise (· < ·)) {k : Fin n} (h : l.find? p = some k) :
    ∀ j ∈ l, p j = true → k ≤ j := by
  intro j hj hp
  induction l with
  | nil => cases hj
  | cons a l ih =>
    rw [List.find?_cons] at h
    obtain ⟨ha, hl⟩ := List.pairwise_cons.1 hl
    cases hpa : p a with
    | true =>
      rw [hpa] at h
      cases h
      rcases List.mem_cons.1 hj with rfl | hj
      · exact le_refl _
      · exact le_of_lt (ha j hj)
    | false =>
      rw [hpa] at h
      rcases List.mem_cons.1 hj with rfl | hj
      · rw [hpa] at hp
        cases hp
      · exact ih hl h hj

theorem head?_lowest {n : Nat} {l : List (Fin n)} (hl : l.Pairwise (· < ·)) {k : Fin n} (h : l.head? = some k) :
    k ∈ l ∧ ∀ j ∈ l, k ≤ j := by
  cases l with
  | nil => cases h
  | cons a l =>
    cases h
    refine ⟨List.mem_cons_self, fun j hj => ?_⟩
    rcases List.mem_cons.1 hj with rfl | hj
    · exact le_refl _
    · exact le_of_lt ((List.pairwise_cons.1 hl).1 j hj)

theorem chooseTrunk_any {s : State} {e : Entry} (h : (s.entry e).request = .any) : s.chooseTrunk e =
    (((List.finRange 16).filter (fun t => s.candidate e t)).find? (fun t => s.reservedTo (s.entry e).site t)).or
      ((List.finRange 16).filter (fun t => s.candidate e t)).head? := by
  unfold State.chooseTrunk
  dsimp only
  rw [h]
  cases ((List.finRange 16).filter (fun t => s.candidate e t)).find? (fun t => s.reservedTo (s.entry e).site t) <;> rfl

theorem chooseTrunk_named {s : State} {e : Entry} {t : Trunk} (h : (s.entry e).request = .trunk t) : s.chooseTrunk e =
    ((List.finRange 16).filter (fun t => s.candidate e t)).find? (fun u => decide (u = t)) := by
  unfold State.chooseTrunk
  dsimp only
  rw [h]

/-- No trunk is chosen only where none may be (R87, R88). -/
theorem chooseTrunk_none {s : State} {e : Entry} (h : s.chooseTrunk e = none) (k : Trunk) :
    ¬ s.choosable e k := by
  rintro ⟨hreq, hc⟩
  have hmem := (mem_candidates s e k).2 hc
  rcases hreq with hreq | hreq
  · rw [chooseTrunk_any hreq, Option.or_eq_none_iff, List.head?_eq_none_iff] at h
    rw [h.2] at hmem
    cases hmem
  · rw [chooseTrunk_named hreq, List.find?_eq_none] at h
    exact h k hmem (decide_eq_true rfl)

/-- The trunk chosen may be chosen; one reserved to the site comes before any other, and the lowest before the rest (R87, R88). -/
theorem chooseTrunk_some {s : State} {e : Entry} (hl : (s.entry e).request ≠ .localBus) {k : Trunk} (h : s.chooseTrunk e = some k) :
    s.choosable e k ∧ ∀ j, s.choosable e j →
      (s.reservedTo (s.entry e).site j = true → s.reservedTo (s.entry e).site k = true ∧ k ≤ j) ∧
      (s.reservedTo (s.entry e).site k = false → k ≤ j) := by
  have hsorted := candidates_sorted s e
  cases hreq : (s.entry e).request with
  | localBus => exact absurd hreq hl
  | trunk t =>
    rw [chooseTrunk_named hreq] at h
    have hk : k = t := of_decide_eq_true (List.find?_some (p := fun u => decide (u = t)) h)
    subst hk
    refine ⟨⟨.inr hreq, (mem_candidates s e k).1 (List.mem_of_find?_eq_some h)⟩, fun j hj => ?_⟩
    obtain ⟨hj, -⟩ := hj
    rw [hreq] at hj
    have hkj : k = j := by simpa using hj
    subst hkj
    exact ⟨fun hr => ⟨hr, le_refl _⟩, fun _ => le_refl _⟩
  | any =>
    rw [chooseTrunk_any hreq, Option.or_eq_some_iff] at h
    rcases h with ht | ⟨hnone, h⟩
    · have hres : s.reservedTo (s.entry e).site k = true := List.find?_some ht
      refine ⟨⟨.inl hreq, (mem_candidates s e k).1 (List.mem_of_find?_eq_some ht)⟩, fun j hj => ⟨fun hr => ⟨hres, ?_⟩, fun hn => ?_⟩⟩
      · exact find?_lowest hsorted ht j ((mem_candidates s e j).2 hj.2) hr
      · rw [hres] at hn
        cases hn
    · obtain ⟨hmem, hlow⟩ := head?_lowest hsorted h
      refine ⟨⟨.inl hreq, (mem_candidates s e k).1 hmem⟩, fun j hj => ⟨fun hr => ?_, fun _ => ?_⟩⟩
      · exact absurd hr (List.find?_eq_none.1 hnone j ((mem_candidates s e j).2 hj.2))
      · exact hlow j ((mem_candidates s e j).2 hj.2)

/-! ### The bus chosen (R89) -/

theorem chooseBus_none {s : State} {e : Entry} (h : ∀ l, s.busFree e l = true → s.suspectY (s.entry e).pins l = true) :
    s.chooseBus e = none := by
  unfold State.chooseBus
  rw [List.find?_eq_none]
  intro l _
  cases hf : s.busFree e l with
  | false => simp
  | true => simp [h l hf]

theorem chooseBus_some {s : State} {e : Entry} {l : Bus} (hf : s.busFree e l = true) (hs : s.suspectY (s.entry e).pins l = false)
    (hlow : ∀ j, s.busFree e j = true → s.suspectY (s.entry e).pins j = false → l ≤ j) : s.chooseBus e = some l := by
  cases hc : s.chooseBus e with
  | none =>
    have := List.find?_eq_none.1 hc l (List.mem_finRange l)
    simp [hf, hs] at this
  | some j =>
    have hj := List.find?_some hc
    simp only [Bool.and_eq_true, Bool.not_eq_true'] at hj
    have hle := find?_lowest (List.pairwise_lt_finRange 2) hc l (List.mem_finRange l) (by simp [hf, hs])
    rw [le_antisymm hle (hlow j hj.1 hj.2)]

end Sys2Proof.Machine
end

