-- ==== Sys2Proof/Proofs/RouteDispatch.lean ====
section
/-! The dispatch of a ROUTE record (R64, R65, R75, R86–R91): the refusals, the waiting participant, and the anchor that chooses. -/

namespace Sys2Proof.Machine

/-! ### The record leaves its queue -/

theorem select_eq {s t : State} {c : Fin 4} {i : Site} (h : select s = some (c, i, t)) :
    t = { s with squ := { s.squ with budgets := t.squ.budgets } } := by
  unfold select at h
  split at h
  · split at h
    · cases h
      rfl
    · obtain ⟨p, -, hp⟩ := Option.map_eq_some_iff.1 h
      cases hp
      rfl
  · obtain ⟨p, -, hp⟩ := Option.map_eq_some_iff.1 h
    cases hp
    rfl

/-- The state p in which a record is acted on: since s time has passed, and the SQU has let the record go (R40, R55–R57). -/
structure Popped (s s1 p : State) : Prop where
  ne : p.ne = s.ne
  rcu : p.rcu = s.rcu
  rm : p.rm = s.rm
  cfl : p.cfl = s.cfl
  liu : p.liu = s.liu
  queue : p.wsu.queue = s.wsu.queue
  now : p.now = s1.now

theorem exec_arbiterDispatch_route {dt : Nat} {s s1 s2 : State} {c : Fin 4} {i : Site} {rec : RouteRecord} {b : Bool}
    {rest : List QueueRecord} (hs1 : s1 = advance dt s) (hsel : select s1 = some (c, i, s2))
    (hq : (s.queueOf i).records = ⟨.route rec, b⟩ :: rest) : ∃ p, Popped s s1 p ∧
      exec (.arbiterDispatch dt) s = .next (finish (dispatchRoute i rec ⟨p, [], true, false⟩)) := by
  have hs2 := select_eq hsel
  have hhead : (s2.queueOf i).records = ⟨.route rec, b⟩ :: rest := by
    rw [hs2, ← hq, hs1]
    exact congrArg SiteQueue.records (advance_queueOf dt s i)
  refine ⟨popHead i (noteServed c i s2), ?_, ?_⟩
  · rw [hs2, hs1]
    exact ⟨advance_ne dt s, advance_rcu dt s, advance_rm dt s, advance_cfl dt s, advance_liu dt s, advance_queue dt s, rfl⟩
  · show event dt State.arbiterDue arbitrate s = _
    unfold event arbitrate
    dsimp only
    rw [← hs1, if_pos (by simp [State.arbiterDue, hsel]), show (Work.start s1).st = s1 from rfl, hsel]
    dsimp only
    rw [hhead]
    rfl

/-! ### The entry made (R59, R64) -/

/-- The entry of a record put in place, its pins bound (R16, R64). -/
def placed (e : Entry) (rec : RouteRecord) (x : NetEntry) (p : State) : State := { p with ne := { p.ne with
  entries := put p.ne.entries e x
  binding := each (fun q b => if q ∈ rec.pins then some e else b) p.ne.binding } }

theorem placed_setEntry (e : Entry) (rec : RouteRecord) (x y : NetEntry) (p : State) :
    (placed e rec x p).setEntry e y = placed e rec y p := by
  unfold placed State.setEntry
  dsimp only
  rw [put_put]

theorem placed_entry (e : Entry) (rec : RouteRecord) (x : NetEntry) (p : State) : (placed e rec x p).entry e = x :=
  look_put_same _ _ _

theorem placed_entry_ne {e i : Entry} (hi : i ≠ e) (rec : RouteRecord) (x : NetEntry) (p : State) :
    (placed e rec x p).entry i = p.entry i := look_put_ne _ _ (Ne.symm hi)

/-- The entry of a record as it waits in a state until a deadline (R64, R65). -/
def waitingEntry (i : Site) (rec : RouteRecord) (q : EntryState) (d : Time) : NetEntry :=
  { newEntry i rec with state := q, deadline := some d }

theorem placed_waits (e : Entry) (i : Site) (rec : RouteRecord) (q : EntryState) (d : Time) (p : State) (j : List Wave) (b v : Bool) :
    ((⟨placed e rec (newEntry i rec) p, j, b, v⟩ : Work).setState e q).modEnt e (fun x => { x with deadline := some d }) =
      ⟨placed e rec (waitingEntry i rec q d) p, j, true, v⟩ := by
  simp only [Work.setState, Work.modEnt, placed_entry, placed_setEntry]
  rfl

section
variable {i : Site} {rec : RouteRecord} {w : Work}

theorem dispatchRoute_netExists (h : w.st.findNet i rec.net ≠ none) :
    dispatchRoute i rec w = w.upd (oweSite ⟨i, rec.net, .refused, .netExists, none, none⟩) :=
  if_pos (Option.isSome_iff_ne_none.2 h)

theorem dispatchRoute_pinBusy (h : w.st.findNet i rec.net = none) (hb : w.st.pinsBusy rec.pins = true) :
    dispatchRoute i rec w = w.upd (oweSite ⟨i, rec.net, .refused, .pinBusy, none, none⟩) := by
  unfold dispatchRoute
  dsimp only
  rw [if_neg (by simp [h]), if_pos hb]

theorem dispatchRoute_placed {e : Entry} (h : w.st.findNet i rec.net = none) (hb : w.st.pinsBusy rec.pins = false)
    (he : w.st.freeIndex = some e) : dispatchRoute i rec w = match rec.role with
      | .anchor => dispatchAnchor e { w with st := placed e rec (newEntry i rec) w.st }
      | .participant => dispatchParticipant e { w with st := placed e rec (newEntry i rec) w.st } := by
  unfold dispatchRoute
  dsimp only
  rw [if_neg (by simp [h]), if_neg (by simp [hb]), he]
  rfl

end

theorem oweSite_ne (r : Report) (s : State) : (oweSite r s).ne = { s.ne with siteStatus := put s.ne.siteStatus r.site (some r) } := by
  simp [oweSite, renew_ne, (countReport_parts _ _).1]

/-- A refusal in the site mark leaves the net table alone (R64). -/
theorem finish_oweSite {w : Work} (hn : w.st.noWaiter) (hj : w.joining = []) (hs : w.serve = false) (r : Report) :
    (finish (w.upd (oweSite r))).ne = { w.st.ne with siteStatus := put w.st.ne.siteStatus r.site (some r) } := by
  rw [finish_noWaiter (w := w.upd (oweSite r)) (noWaiter_of_entries hn (by rw [Work.upd_st, oweSite_ne])) hj hs, Work.upd_st,
    oweSite_ne]

/-! ### An anchor refused at its dispatch (R75, R88) -/

theorem renew_claimOnLine (m : Owed) (s : State) (e : Entry) : (s.renew m).claimOnLine e = s.claimOnLine e := by
  unfold State.renew
  split
  · rename_i o h
    split
    · simp [State.claimOnLine, h]
    · rfl
  · rfl

theorem owe_claimOnLine (e : Entry) (r : Report) (s : State) (x : Entry) : (owe e r s).claimOnLine x = s.claimOnLine x := by
  obtain ⟨-, -, hliu, -⟩ := countReport_parts r { s with ne := { s.ne with status := put s.ne.status e (some r) } }
  rw [owe, renew_claimOnLine, State.claimOnLine, hliu]
  rfl

/-- A claim withdrawn by an entry that has no trunk takes no resource from it (R91). -/
theorem withdrawClaim_trunkless {e : Entry} {w : Work} (h : (w.ent e).resource = none) : withdrawClaim e w = w.upd (endClaim e) := by
  unfold withdrawClaim
  have ht : (w.ent e).trunk = none := by rw [NetEntry.trunk, h]; rfl
  dsimp only
  rw [ht]
  cases look w.st.rcu.claims e <;> rfl

theorem oweCancel_ne (e : Entry) (s : State) : (oweCancel e s).ne = { s.ne with
    cancel := put s.ne.cancel e (some ((s.entry e).site, (s.entry e).net)) } := by
  simp [oweCancel, renew_ne]

section
variable {e : Entry} {w : Work} {r : Reason}

/-- The event once an anchor's refusal is owed, its claim withdrawn, before it is FREE (R75). -/
def Work.refused (e : Entry) (r : Reason) (w : Work) : Work :=
  (((w.modEnt e (fun x => { x with reason := some r })).upd (oweRefused e r)).upd (oweCancel e)).upd (endClaim e)

theorem oweRefused_ne (hr : r ≠ .aborted) : (oweRefused e r (w.modEnt e (fun x => { x with reason := some r })).st).ne = { w.st.ne with
    entries := put w.st.ne.entries e { w.ent e with reason := some r }
    status := put w.st.ne.status e
      (some ⟨(w.ent e).site, (w.ent e).net, .refused, r, (w.ent e).resource.map NetResource.code, none⟩) } := by
  have hent : (w.modEnt e (fun x => { x with reason := some r })).st.entry e = { w.ent e with reason := some r } :=
    State.setEntry_entry_same _ _ _
  unfold oweRefused oweEntry
  rw [hent, if_neg (by simpa using hr), owe_ne]
  rfl

theorem oweRefused_entry (hr : r ≠ .aborted) : (oweRefused e r (w.modEnt e (fun x => { x with reason := some r })).st).entry e =
    { w.ent e with reason := some r } := entry_of_put (s := w.st) (congrArg Ne.entries (oweRefused_ne hr))

theorem oweRefused_claimOnLine (s : State) (x : Entry) : (oweRefused e r s).claimOnLine x = s.claimOnLine x := by
  unfold oweRefused
  split
  · rfl
  · exact owe_claimOnLine _ _ _ _

theorem refused_ne (hr : r ≠ .aborted) : (w.refused e r).st.ne = { w.st.ne with
    entries := put w.st.ne.entries e { w.ent e with reason := some r }
    status := put w.st.ne.status e
      (some ⟨(w.ent e).site, (w.ent e).net, .refused, r, (w.ent e).resource.map NetResource.code, none⟩)
    cancel := put w.st.ne.cancel e (some ((w.ent e).site, (w.ent e).net)) } := by
  unfold Work.refused
  rw [Work.upd_st, (endClaim_parts _ _).1, Work.upd_st, oweCancel_ne, Work.upd_st, oweRefused_entry hr, oweRefused_ne hr]

theorem abandon_free (hr : r ≠ .aborted) (hs : (w.ent e).state = .awaitResource) (hq : (w.ent e).request ≠ .localBus)
    (ht : (w.ent e).resource = none) (hline : w.st.claimOnLine e = false) : abandon e r w = freeEntry e (w.refused e r) := by
  have hent1 : ((w.modEnt e (fun x => { x with reason := some r })).upd (oweRefused e r)).ent e = { w.ent e with reason := some r } :=
    oweRefused_entry hr
  have hent2 : (((w.modEnt e (fun x => { x with reason := some r })).upd (oweRefused e r)).upd (oweCancel e)).ent e =
      { w.ent e with reason := some r } := by
    rw [← hent1, Work.ent, Work.ent, State.entry, Work.upd_st, oweCancel_ne]
    rfl
  have hline2 : (((w.modEnt e (fun x => { x with reason := some r })).upd (oweRefused e r)).upd (oweCancel e)).st.claimOnLine e =
      false := by
    rw [Work.upd_st, oweCancel]
    dsimp only
    rw [renew_claimOnLine]
    exact (oweRefused_claimOnLine _ _).trans hline
  have hcancel : (((w.modEnt e (fun x => { x with reason := some r })).upd (oweRefused e r)).ent e).request ≠ .localBus := by
    rw [hent1]
    exact hq
  unfold abandon
  dsimp only
  simp only [if_pos hcancel]
  rw [if_pos (by rw [hent2]; exact hs), if_neg (by rw [hline2]; decide),
    withdrawClaim_trunkless (by rw [hent2]; exact ht)]
  rfl

/-- An anchor of a trunk net with no claim on the line is refused: REFUSED and CANCEL are owed, and it is FREE (R75). -/
theorem finish_abandon (hn : w.st.noOtherWaiter e) (hj : w.joining = []) (hv : w.serve = false) (hr : r ≠ .aborted)
    (hs : (w.ent e).state = .awaitResource) (hq : (w.ent e).request ≠ .localBus) (ht : (w.ent e).resource = none)
    (hline : w.st.claimOnLine e = false) : ((finish (abandon e r w)).entry e).state = .free ∧
      look (finish (abandon e r w)).ne.cancel e = some ((w.ent e).site, (w.ent e).net) ∧
      look (finish (abandon e r w)).ne.status e = some ⟨(w.ent e).site, (w.ent e).net, .refused, r, none, none⟩ ∧
      ∀ x, x ≠ e → (finish (abandon e r w)).entry x = w.st.entry x := by
  have hne : (freeEntry e (w.refused e r)).st.ne = _ := freeEntry_ne e (w.refused e r)
  rw [refused_ne hr, put_put] at hne
  have hentries : (freeEntry e (w.refused e r)).st.ne.entries = put w.st.ne.entries e NetEntry.free := congrArg Ne.entries hne
  have hwaiter := noWaiter_of_put_other hn hentries (fun h => by cases h) (fun h => by cases h)
  rw [abandon_free hr hs hq ht hline, finish_noWaiter hwaiter hj hv]
  refine ⟨congrArg NetEntry.state (entry_of_put hentries), ?_, ?_, fun x hx => entry_of_put_ne hentries hx⟩
  · rw [hne]
    exact look_put_same _ _ _
  · rw [hne]
    dsimp only
    rw [look_put_same, ht]
    rfl

end

end Sys2Proof.Machine
end

