-- ==== Sys2Proof/Proofs/RouteChoice.lean ====
section
/-! The choice of the anchor that a ROUTE record makes, and the statement on its dispatch (R64, R65, R86–R91). -/

namespace Sys2Proof.Machine

/-! ### The choice of a trunk -/

/-- Whether a relay is free for an entry is a matter of the relay records (R12). -/
theorem relayFree_congr {s t : State} (hrm : t.rm = s.rm) : t.relayFree = s.relayFree := by
  funext e r
  have hrelay : t.relay r = s.relay r := by rw [State.relay, hrm]; rfl
  rw [State.relayFree, hrelay]
  rfl

/-- Whether a resource is free for an entry is a matter of the other entries (R12). -/
theorem resourceFree_congr {s t : State} {e : Entry} (h : ∀ x, x ≠ e → t.entry x = s.entry x) (q : NetResource) :
    t.resourceFree e q = s.resourceFree e q := by
  unfold State.resourceFree
  refine congrArg (List.all _) (funext fun x => ?_)
  by_cases hx : x = e
  · simp [hx]
  · rw [h x hx]

theorem segmentFree_congr {s t : State} {e : Entry} (hrm : t.rm = s.rm) (h : ∀ x, x ≠ e → t.entry x = s.entry x) (k : Trunk) :
    t.segmentFree e k = s.segmentFree e k := by
  rw [State.segmentFree, State.segmentFree, relayFree_congr hrm, resourceFree_congr h]

theorem busFree_congr {s t : State} {e : Entry} (hrm : t.rm = s.rm) (h : ∀ x, x ≠ e → t.entry x = s.entry x) (l : Bus) :
    t.busFree e l = s.busFree e l := by
  rw [State.busFree, State.busFree, relayFree_congr hrm, resourceFree_congr h]

theorem suspectX_congr {s t : State} (hrm : t.rm = s.rm) (pins : List Pin) (k : Trunk) : t.suspectX pins k = s.suspectX pins k := by
  simp only [State.suspectX, State.relay, hrm]

theorem suspectY_congr {s t : State} (hrm : t.rm = s.rm) (pins : List Pin) (l : Bus) : t.suspectY pins l = s.suspectY pins l := by
  simp only [State.suspectY, State.relay, hrm]

theorem permitted_congr {s t : State} (hcfl : t.cfl = s.cfl) (i : Site) (k : Trunk) : t.permitted i k = s.permitted i k := by
  simp only [State.permitted, hcfl]

theorem reservedTo_congr {s t : State} (hcfl : t.cfl = s.cfl) (i : Site) (k : Trunk) : t.reservedTo i k = s.reservedTo i k := by
  simp only [State.reservedTo, hcfl]

theorem reservedElsewhere_congr {s t : State} (hcfl : t.cfl = s.cfl) (i : Site) (k : Trunk) :
    t.reservedElsewhere i k = s.reservedElsewhere i k := by
  simp only [State.reservedElsewhere, State.reservedTo, hcfl]

theorem unclaimed_congr {s t : State} (hview : t.rcu.view = s.rcu.view) (r : Resource) : t.unclaimed r = s.unclaimed r := by
  have hviewOf : t.viewOf r = s.viewOf r := by rw [State.viewOf, hview]; rfl
  rw [State.unclaimed, hviewOf]
  rfl

/-- The choice of a trunk is a matter of the net table, the view, the relay records and the parameters (R87). -/
theorem chooseTrunk_congr {s t : State} (hne : t.ne = s.ne) (hview : t.rcu.view = s.rcu.view) (hrm : t.rm = s.rm)
    (hcfl : t.cfl = s.cfl) (e : Entry) : t.chooseTrunk e = s.chooseTrunk e := by
  have hentry : ∀ x, t.entry x = s.entry x := fun x => by rw [State.entry, hne]; rfl
  simp only [State.chooseTrunk, State.candidate, hentry, permitted_congr hcfl, unclaimed_congr hview, reservedElsewhere_congr hcfl,
    segmentFree_congr hrm (fun x _ => hentry x), suspectX_congr hrm, reservedTo_congr hcfl]

section
variable {e : Entry} {w : Work}

/-- The event with an owed CLAIM of the entry withdrawn before a fresh choice (R87). -/
def Work.withdrawn (e : Entry) (w : Work) : Work := if (look w.st.rcu.claims e).isSome then withdrawClaim e w else w

theorem withdrawn_parts (ht : (w.ent e).resource = none) : (w.withdrawn e).st.ne = w.st.ne ∧
    (w.withdrawn e).st.rcu.view = w.st.rcu.view ∧ (w.withdrawn e).st.rm = w.st.rm ∧ (w.withdrawn e).st.cfl = w.st.cfl ∧
    look (w.withdrawn e).st.rcu.claims e = none ∧ (w.withdrawn e).joining = w.joining ∧ (w.withdrawn e).pass = w.pass ∧
    (w.withdrawn e).serve = w.serve := by
  unfold Work.withdrawn
  split
  · obtain ⟨hne, hrcu, -, -, -, hrm, hcfl, -⟩ := withdrawOwn_parts e (unclaim e w.st)
    rw [withdrawClaim_trunkless ht, Work.upd_st, endClaim, hne, hrcu, hrm, hcfl]
    exact ⟨rfl, rfl, rfl, rfl, look_put_same _ _ _, rfl, rfl, rfl⟩
  · rename_i h
    exact ⟨rfl, rfl, rfl, rfl, by simpa using h, rfl, rfl, rfl⟩

theorem passTrunk_trunkless (ht : (w.ent e).resource = none) : passTrunk e w = match w.st.chooseTrunk e with
    | some t => ((w.withdrawn e).modEnt e (fun x => { x with resource := some (.trunk t) })).upd (oweClaim e (trunkResource t))
    | none => w.withdrawn e := by
  obtain ⟨hne, hview, hrm, hcfl, -⟩ := withdrawn_parts ht
  have htrunk : (w.ent e).trunk = none := by rw [NetEntry.trunk, ht]; rfl
  rw [← chooseTrunk_congr hne hview hrm hcfl]
  unfold passTrunk
  rw [htrunk]
  rfl

/-- The pass of an anchor that has no trunk: it takes the one chosen and owes its CLAIM, or keeps none (R86–R88, R91). -/
theorem passTrunk_fresh (ht : (w.ent e).resource = none) :
    (passTrunk e w).st.entry e = { w.ent e with resource := (w.st.chooseTrunk e).map .trunk } ∧
    (∀ x, x ≠ e → (passTrunk e w).st.entry x = w.st.entry x) ∧
    look (passTrunk e w).st.rcu.claims e = (w.st.chooseTrunk e).map trunkResource ∧
    (passTrunk e w).joining = w.joining ∧ (passTrunk e w).pass = w.pass ∧ (passTrunk e w).serve = w.serve := by
  obtain ⟨hne, -, -, -, hclaims, hj, hp, hs⟩ := withdrawn_parts ht
  have hentry : ∀ x, (w.withdrawn e).st.entry x = w.st.entry x := fun x => by rw [State.entry, hne]; rfl
  rw [passTrunk_trunkless ht]
  cases w.st.chooseTrunk e with
  | none =>
    refine ⟨?_, fun x _ => hentry x, hclaims, hj, hp, hs⟩
    rw [Option.map_none, ← ht]
    exact hentry e
  | some t =>
    refine ⟨?_, fun x hx => ?_, look_put_same _ _ _, hj, hp, hs⟩
    · rw [Work.ent, ← hentry]
      exact State.setEntry_entry_same _ _ _
    · rw [← hentry]
      exact State.setEntry_entry_ne _ _ (Ne.symm hx)

theorem passEntry_trunk (hs : (w.ent e).state = .awaitResource) (hq : (w.ent e).request ≠ .localBus) :
    passEntry e w = passTrunk e w := by
  unfold passEntry
  rw [if_pos hs, if_neg hq]

theorem passEntry_local (hs : (w.ent e).state = .awaitResource) (hq : (w.ent e).request = .localBus) :
    passEntry e w = passBus e w := by
  unfold passEntry
  rw [if_pos hs, if_pos hq]

/-- An anchor of a trunk net that alone waits chooses at the end of its event (R86–R88). -/
theorem finish_chooses (hn : w.st.noOtherWaiter e) (hp : w.pass = true) (hj : w.joining = []) (hv : w.serve = false)
    (hs : (w.ent e).state = .awaitResource) (hm : (w.ent e).monitor ≠ .claiming) (hq : (w.ent e).request ≠ .localBus)
    (ht : (w.ent e).resource = none) :
    (finish w).entry e = { w.ent e with resource := (w.st.chooseTrunk e).map .trunk } ∧
    look (finish w).rcu.claims e = (w.st.chooseTrunk e).map trunkResource ∧
    ∀ x, x ≠ e → (finish w).entry x = w.st.entry x := by
  have hpass : passEntry e { w with pass := false } = passTrunk e { w with pass := false } :=
    passEntry_trunk (w := { w with pass := false }) hs hq
  obtain ⟨hent, hothers, hclaims, hj', hp', hv'⟩ := passTrunk_fresh (w := { w with pass := false }) ht
  rw [finish_passes hp, choicePass_single hn (by rw [hpass]; exact fun x hx => by rw [hothers x hx]; exact hn x hx)
    (by rw [hpass, hent]; exact hm), hpass, settleDown_rests 4094 hp' (hj'.trans hj) (hv'.trans hv)]
  exact ⟨hent, hclaims, hothers⟩

/-! ### The choice of a bus -/

/-- An anchor of a LOCAL net that finds no bus waits on (R65, R89). -/
theorem finish_busless (hn : w.st.noOtherWaiter e) (hp : w.pass = true) (hj : w.joining = []) (hv : w.serve = false)
    (hs : (w.ent e).state = .awaitResource) (hm : (w.ent e).monitor ≠ .claiming) (hq : (w.ent e).request = .localBus)
    (hc : w.st.chooseBus e = none) : finish w = w.st := by
  have hpass : passEntry e { w with pass := false } = { w with pass := false } := by
    rw [passEntry_local (w := { w with pass := false }) hs hq, passBus]
    dsimp only
    rw [hc]
  rw [finish_passes hp, choicePass_single hn (by rw [hpass]; exact hn) (by rw [hpass]; exact hm), hpass,
    settleDown_rests (w := { w with pass := false }) 4094 rfl hj hv]

/-- An anchor of a LOCAL net connects at the choice (R65, R67). -/
def NetEntry.connecting (l : Bus) (x : NetEntry) : NetEntry :=
  { x with state := .connectInner, resource := some (.bus l), deadline := none }

theorem connectInner_builds {l : Bus} {v : Work} (hv : v = { w with st := w.st.setEntry e ((w.ent e).connecting l), pass := true })
    (h : qualifying v.st e .innerConnect ≠ []) :
    connectInner e (w.modEnt e (fun x => { x with resource := some (.bus l) })) = buildWave e .innerConnect v := by
  have hset : (((w.modEnt e (fun x => { x with resource := some (.bus l) })).setState e .connectInner).modEnt e
      (fun x => { x with deadline := none })) = v := by
    rw [hv]
    simp only [Work.setState, Work.modEnt, State.setEntry_entry_same, setEntry_setEntry]
    rfl
  unfold connectInner
  dsimp only
  rw [hset, if_pos (buildWave_inFlight h)]

/-- An anchor of a LOCAL net that finds a bus is in CONNECT_INNER at this event, with its inner connect wave in the queue (R65, R67,
R89). -/
theorem finish_connectsBus {l : Bus} {closes : List Relay} (hn : w.st.noOtherWaiter e) (hp : w.pass = true) (hj : w.joining = [])
    (hv : w.serve = false) (hs : (w.ent e).state = .awaitResource) (hm : (w.ent e).monitor ≠ .claiming)
    (hq : (w.ent e).request = .localBus) (hc : w.st.chooseBus e = some l) (hqueue : w.st.wsu.queue ≠ [])
    (hcloses : closes = ((w.ent e).pins.map (fun p => relayY p l)).filter (fun q => decide ((w.st.relay q).state = .opened)))
    (hne : closes ≠ []) : (finish w).entry e = (w.ent e).connecting l ∧
      (finish w).wsu.queue = w.st.wsu.queue ++ [newWave e ((w.ent e).connecting l) .innerConnect closes] := by
  let v : Work := { w with st := w.st.setEntry e ((w.ent e).connecting l), pass := true }
  have hent : v.st.entry e = (w.ent e).connecting l := State.setEntry_entry_same _ _ _
  have hqual : qualifying v.st e .innerConnect = closes := by
    rw [qualifying_closing rfl, hent, hcloses]
    rfl
  have hpass : passEntry e { w with pass := false } = buildWave e .innerConnect v := by
    rw [passEntry_local (w := { w with pass := false }) hs hq, passBus]
    dsimp only
    rw [hc]
    exact connectInner_builds (w := { w with pass := false }) rfl (by rw [hqual]; exact hne)
  have hwaiter : (buildWave e .innerConnect v).st.noWaiter := by
    refine noWaiter_of_put_other (x := (w.ent e).connecting l) hn ?_ (fun h => by cases h) hm
    rw [buildWave_ne]
    rfl
  have hjoins : (buildWave e .innerConnect v).joining = [newWave e ((w.ent e).connecting l) .innerConnect closes] := by
    rw [buildWave_joining, hqual, if_neg hne, hent, show v.joining = [] from hj, List.nil_append]
  have hpassed : (buildWave e .innerConnect v).pass = true := by
    unfold buildWave
    dsimp only
    split <;> rfl
  rw [finish_passes hp, choicePass_single hn (by rw [hpass]; exact fun x _ => hwaiter x) (by rw [hpass]; exact (hwaiter e).2), hpass,
    settleDown_waits 4092 hwaiter hpassed hjoins (by rw [buildWave_serve]; exact hv) (by rw [buildWave_wsu]; exact hqueue)]
  dsimp only
  rw [buildWave_wsu]
  refine ⟨?_, rfl⟩
  rw [← hent]
  exact congrArg (fun n => look (Ne.entries n) e) (buildWave_ne e .innerConnect v)

end

end Sys2Proof.Machine
end

