-- ==== Sys2Proof/Proofs/RouteEntry.lean ====
section
/-! The statement on the dispatch of a ROUTE record, clause by clause. -/

namespace Sys2Proof.Machine

/-- The event of a dispatch once its entry waits: an anchor for its resource (R65). -/
def anchored (e : Entry) (i : Site) (rec : RouteRecord) (p : State) : Work :=
  ⟨placed e rec (waitingEntry i rec .awaitResource (laterMs p.now p.cfl.config.claimWait)) p, [], true, false⟩

/-- A participant waits for its anchor's claim (R64). -/
def awaiting (e : Entry) (i : Site) (rec : RouteRecord) (p : State) : Work :=
  ⟨placed e rec (waitingEntry i rec .awaitAnchor (laterMs p.now (p.cfl.config.claimWait + 100))) p, [], true, false⟩

theorem dispatchAnchor_placed (e : Entry) (i : Site) (rec : RouteRecord) (p : State) :
    dispatchAnchor e ⟨placed e rec (newEntry i rec) p, [], true, false⟩ = match rec.request with
      | .trunk t =>
        if p.permitted i t = false then abandon e .trunkNotPermitted (anchored e i rec p)
        else if p.reservedElsewhere i t then abandon e .trunkReserved (anchored e i rec p)
        else anchored e i rec p
      | _ => anchored e i rec p := by
  have hrequest : ((anchored e i rec p).ent e).request = rec.request := by
    rw [anchored, Work.ent, placed_entry]
    rfl
  have hsite : ((anchored e i rec p).ent e).site = i := by
    rw [anchored, Work.ent, placed_entry]
    rfl
  unfold dispatchAnchor
  dsimp only
  rw [placed_waits]
  change (match ((anchored e i rec p).ent e).request with
    | .trunk t =>
      if (anchored e i rec p).st.permitted ((anchored e i rec p).ent e).site t = false then
        abandon e .trunkNotPermitted (anchored e i rec p)
      else if (anchored e i rec p).st.reservedElsewhere ((anchored e i rec p).ent e).site t then
        abandon e .trunkReserved (anchored e i rec p)
      else anchored e i rec p
    | _ => anchored e i rec p) = _
  rw [hrequest, hsite]
  rfl

theorem dispatchParticipant_placed {e : Entry} {i : Site} {rec : RouteRecord} {p : State}
    (h : p.claimedTrunk rec.anchor (i, rec.net) = none) :
    dispatchParticipant e ⟨placed e rec (newEntry i rec) p, [], true, false⟩ = awaiting e i rec p := by
  have hclaimed : (awaiting e i rec p).st.claimedTrunk ((awaiting e i rec p).ent e).anchor
      (((awaiting e i rec p).ent e).site, ((awaiting e i rec p).ent e).net) = none := by
    rw [awaiting, Work.ent, placed_entry]
    exact h
  unfold dispatchParticipant
  dsimp only
  rw [placed_waits]
  change (match (awaiting e i rec p).st.claimedTrunk ((awaiting e i rec p).ent e).anchor
      (((awaiting e i rec p).ent e).site, ((awaiting e i rec p).ent e).net) with
    | some t => participantClaim e t (awaiting e i rec p)
    | none => awaiting e i rec p) = _
  rw [hclaimed]

section
variable {s s1 p : State} {i : Site} {rec : RouteRecord} {e : Entry}

theorem Popped.entry (h : Popped s s1 p) (x : Entry) : p.entry x = s.entry x := by
  rw [State.entry, h.ne]
  rfl

theorem Popped.noWaiter (h : Popped s s1 p) (hn : s.noWaiter) : p.noWaiter := noWaiter_of_entries hn (by rw [h.ne])

theorem Popped.findNet (h : Popped s s1 p) (n : NetId) : p.findNet i n = s.findNet i n := by
  simp only [State.findNet, h.entry]

theorem Popped.freeIndex (h : Popped s s1 p) : p.freeIndex = s.freeIndex := by
  simp only [State.freeIndex, h.entry, h.ne]

theorem Popped.claimOnLine (h : Popped s s1 p) (x : Entry) : p.claimOnLine x = s.claimOnLine x := by
  simp only [State.claimOnLine, h.liu]

theorem Popped.claimedTrunk (h : Popped s s1 p) (n : Node) (net : Site × NetId) : p.claimedTrunk n net = s.claimedTrunk n net := by
  simp only [State.claimedTrunk, h.rcu]

theorem Popped.pinsBusy (h : Popped s s1 p) (pins : List Pin) : p.pinsBusy pins = true ↔ ∃ q ∈ pins, look s.ne.binding q ≠ none := by
  simp only [State.pinsBusy, h.ne, List.any_eq_true, Option.isSome_iff_ne_none]

theorem Popped.pinsFree (h : Popped s s1 p) {pins : List Pin} (hf : ∀ q ∈ pins, look s.ne.binding q = none) :
    p.pinsBusy pins = false := by
  rw [← Bool.not_eq_true, h.pinsBusy]
  rintro ⟨q, hq, hb⟩
  exact hb (hf q hq)

theorem anchored_entry : (anchored e i rec p).ent e = waitingEntry i rec .awaitResource (laterMs p.now p.cfl.config.claimWait) :=
  placed_entry _ _ _ _

/-- The entries other than the new one stand. -/
theorem Popped.others (h : Popped s s1 p) (x : Entry) (hx : x ≠ e) : (anchored e i rec p).st.entry x = s.entry x :=
  (placed_entry_ne hx _ _ _).trans (h.entry x)

theorem Popped.noOtherWaiter (h : Popped s s1 p) (hn : s.noWaiter) : (anchored e i rec p).st.noOtherWaiter e := by
  intro x hx
  rw [h.others x hx]
  exact hn x

theorem Popped.anchored_rm (h : Popped s s1 p) : (anchored e i rec p).st.rm = s.rm := h.rm
theorem Popped.anchored_cfl (h : Popped s s1 p) : (anchored e i rec p).st.cfl = s.cfl := h.cfl

/-- A waiting anchor stands as the statement gives it (R65). -/
theorem Popped.waiting (h : Popped s s1 p) : (anchored e i rec p).ent e = { newEntry i rec with
    state := .awaitResource, deadline := some (later s1.now (s.cfl.config.claimWait * 1000)) } := by
  rw [anchored_entry, h.now, h.cfl]
  rfl

/-- A participant whose anchor's claim is not in the view waits for it (R64). -/
theorem Popped.participant (h : Popped s s1 p) (hn : s.noWaiter) : (finish (awaiting e i rec p)).entry e = { newEntry i rec with
      state := .awaitAnchor, deadline := some (later s1.now ((s.cfl.config.claimWait + 100) * 1000)) } ∧
    (∀ x, x ≠ e → (finish (awaiting e i rec p)).entry x = s.entry x) ∧
    ∀ q, look (finish (awaiting e i rec p)).ne.binding q = if q ∈ rec.pins then some e else look s.ne.binding q := by
  have hwaiter : (awaiting e i rec p).st.noWaiter :=
    noWaiter_of_put (h.noWaiter hn) rfl (fun h => by cases h) (fun h => by cases h)
  rw [finish_noWaiter hwaiter rfl rfl]
  refine ⟨?_, fun x hx => (placed_entry_ne hx _ _ _).trans (h.entry x), fun q => ?_⟩
  · rw [awaiting]
    dsimp only
    rw [placed_entry, h.now, h.cfl]
    rfl
  · rw [awaiting, placed]
    dsimp only
    rw [look_each, h.ne]

/-- An anchor refused at its dispatch (R75, R88). -/
theorem Popped.refusedAnchor (h : Popped s s1 p) (hn : s.noWaiter) {r : Reason} (hr : r ≠ .aborted) (hq : rec.request ≠ .localBus)
    (hline : s.claimOnLine e = false) : ((finish (abandon e r (anchored e i rec p))).entry e).state = .free ∧
      look (finish (abandon e r (anchored e i rec p))).ne.cancel e = some (i, rec.net) ∧
      look (finish (abandon e r (anchored e i rec p))).ne.status e = some ⟨i, rec.net, .refused, r, none, none⟩ ∧
      ∀ x, x ≠ e → (finish (abandon e r (anchored e i rec p))).entry x = s.entry x := by
  obtain ⟨hfree, hcancel, hstatus, hothers⟩ := finish_abandon (w := anchored e i rec p) (h.noOtherWaiter hn) rfl rfl hr
    (by rw [anchored_entry]; rfl) (by rw [anchored_entry]; exact hq) (by rw [anchored_entry]; rfl)
    ((h.claimOnLine e).trans hline)
  rw [anchored_entry] at hcancel hstatus
  exact ⟨hfree, hcancel, hstatus, fun x hx => (hothers x hx).trans (h.others x hx)⟩

/-- The trunks that the new anchor may choose, as the statement says it (R87, R88). -/
theorem Popped.choosable (h : Popped s s1 p) (k : Trunk) : (anchored e i rec p).st.choosable e k ↔
    (rec.request = .any ∨ rec.request = .trunk k) ∧ s.permitted i k = true ∧ s.unclaimed (trunkResource k) = true ∧
      s.reservedElsewhere i k = false ∧ s.segmentFree e k = true ∧ s.suspectX rec.pins k = none := by
  have hview : (anchored e i rec p).st.rcu.view = s.rcu.view := congrArg Rcu.view h.rcu
  rw [State.choosable, candidate_iff, show (anchored e i rec p).st.entry e = _ from anchored_entry,
    permitted_congr h.anchored_cfl, unclaimed_congr hview, reservedElsewhere_congr h.anchored_cfl,
    segmentFree_congr h.anchored_rm h.others, suspectX_congr h.anchored_rm]
  rfl

theorem dispatchAnchor_waits (hok : ∀ k, rec.request = .trunk k → p.permitted i k = true ∧ p.reservedElsewhere i k = false) :
    dispatchAnchor e ⟨placed e rec (newEntry i rec) p, [], true, false⟩ = anchored e i rec p := by
  rw [dispatchAnchor_placed]
  split
  · rename_i t ht
    obtain ⟨hperm, hres⟩ := hok t ht
    rw [if_neg (by simp [hperm]), if_neg (by simp [hres])]
  · rfl

/-- The new anchor of a trunk net takes the trunk the statement gives, or none (R86–R88, R91). -/
theorem Popped.chooses (h : Popped s s1 p) (hn : s.noWaiter) (hq : rec.request ≠ .localBus) : ∃ ch : Option Trunk,
    (finish (anchored e i rec p)).entry e = { newEntry i rec with
      state := .awaitResource, deadline := some (later s1.now (s.cfl.config.claimWait * 1000)), resource := ch.map .trunk } ∧
    look (finish (anchored e i rec p)).rcu.claims e = ch.map trunkResource ∧
    (∀ x, x ≠ e → (finish (anchored e i rec p)).entry x = s.entry x) ∧
    ∀ fits : Trunk → Prop, (∀ k, fits k ↔ (rec.request = .any ∨ rec.request = .trunk k) ∧ s.permitted i k = true ∧
        s.unclaimed (trunkResource k) = true ∧ s.reservedElsewhere i k = false ∧ s.segmentFree e k = true ∧
        s.suspectX rec.pins k = none) →
      (ch = none → ∀ k, ¬ fits k) ∧
      ∀ k, ch = some k → fits k ∧ ∀ j, fits j →
        (s.reservedTo i j = true → s.reservedTo i k = true ∧ k ≤ j) ∧ (s.reservedTo i k = false → k ≤ j) := by
  have hent : (anchored e i rec p).st.entry e = _ := anchored_entry
  have hrequest : ((anchored e i rec p).st.entry e).request ≠ .localBus := by
    rw [hent]
    exact hq
  obtain ⟨hentry, hclaims, hothers⟩ := finish_chooses (w := anchored e i rec p) (h.noOtherWaiter hn) rfl rfl rfl
    (by rw [anchored_entry]; rfl) (by rw [anchored_entry]; exact fun h => by cases h) hrequest (by rw [anchored_entry]; rfl)
  refine ⟨(anchored e i rec p).st.chooseTrunk e, by rw [hentry, h.waiting], hclaims,
    fun x hx => (hothers x hx).trans (h.others x hx), fun fits hfits => ?_⟩
  have hfits' : ∀ k, fits k ↔ (anchored e i rec p).st.choosable e k := fun k => (hfits k).trans (h.choosable k).symm
  refine ⟨fun hnone k hk => chooseTrunk_none hnone k ((hfits' k).1 hk), fun k hsome => ?_⟩
  obtain ⟨hk, hbest⟩ := chooseTrunk_some hrequest hsome
  refine ⟨(hfits' k).2 hk, fun j hj => ?_⟩
  have hj' := hbest j ((hfits' j).1 hj)
  rw [hent] at hj'
  rwa [reservedTo_congr h.anchored_cfl, reservedTo_congr h.anchored_cfl] at hj'

/-- The new anchor of a LOCAL net with no bus to be had waits (R65, R89). -/
theorem Popped.busless (h : Popped s s1 p) (hn : s.noWaiter) (hq : rec.request = .localBus)
    (hnone : ∀ l, s.busFree e l = true → s.suspectY rec.pins l = true) : (finish (anchored e i rec p)).entry e =
      { newEntry i rec with state := .awaitResource, deadline := some (later s1.now (s.cfl.config.claimWait * 1000)) } := by
  have hc : (anchored e i rec p).st.chooseBus e = none := by
    refine chooseBus_none fun l hl => ?_
    rw [busFree_congr h.anchored_rm h.others] at hl
    rw [suspectY_congr h.anchored_rm, show (anchored e i rec p).st.entry e = _ from anchored_entry]
    exact hnone l hl
  rw [finish_busless (w := anchored e i rec p) (h.noOtherWaiter hn) rfl rfl rfl (by rw [anchored_entry]; rfl)
    (by rw [anchored_entry]; exact fun h => by cases h) (by rw [anchored_entry]; exact hq) hc]
  exact h.waiting

/-- The new anchor of a LOCAL net takes the lower bus and connects at this event (R65, R67, R89). -/
theorem Popped.takesBus (h : Popped s s1 p) (hn : s.noWaiter) (hq : rec.request = .localBus) {l : Bus} {closes : List Relay}
    (hfree : s.busFree e l = true) (hsuspect : s.suspectY rec.pins l = false)
    (hlow : ∀ j, s.busFree e j = true → s.suspectY rec.pins j = false → l ≤ j) (hqueue : s.wsu.queue ≠ [])
    (hcloses : closes = (rec.pins.map (fun p => relayY p l)).filter (fun q => decide ((s.relay q).state = .opened)))
    (hne : closes ≠ []) : (finish (anchored e i rec p)).entry e =
        { newEntry i rec with state := .connectInner, resource := some (.bus l) } ∧
      (finish (anchored e i rec p)).wsu.queue = s.wsu.queue ++ [⟨.entry e, .innerConnect, [], closes.map (fun q => (q, true)), none,
        false, false, false, none⟩] := by
  have hent : (anchored e i rec p).st.entry e = _ := anchored_entry
  have hbus : ∀ j, (anchored e i rec p).st.busFree e j = s.busFree e j := busFree_congr h.rm h.others
  have hmarked : ∀ j, (anchored e i rec p).st.suspectY ((anchored e i rec p).st.entry e).pins j = s.suspectY rec.pins j := by
    intro j
    rw [hent]
    exact suspectY_congr h.rm _ _
  have hc : (anchored e i rec p).st.chooseBus e = some l := by
    refine chooseBus_some ((hbus l).trans hfree) ((hmarked l).trans hsuspect) fun j hj hs => hlow j ?_ ?_
    · rwa [hbus] at hj
    · rwa [hmarked] at hs
  have hrelay : ∀ q, (anchored e i rec p).st.relay q = s.relay q := fun q => congrArg (fun r => look (Rm.relays r) q) h.rm
  obtain ⟨hentry, htail⟩ := finish_connectsBus (w := anchored e i rec p) (closes := closes) (h.noOtherWaiter hn) rfl rfl rfl
    (by rw [anchored_entry]; rfl) (by rw [anchored_entry]; exact fun h => by cases h) (by rw [anchored_entry]; exact hq) hc
    (by rw [← h.queue] at hqueue; exact hqueue) (by simp only [hrelay, anchored_entry]; exact hcloses) hne
  rw [anchored_entry] at hentry htail
  refine ⟨hentry, ?_⟩
  rw [htail, show (anchored e i rec p).st.wsu.queue = s.wsu.queue from h.queue]
  rfl

end

/-- Settles O40: the refusals, the waiting participant, and the anchor's refusals and choice. -/
theorem arbiterRouteMakesEntry : Obligations.ArbiterRouteMakesEntry := by
  intro dt s s1 s2 c i rec b rest hs1 hsel hq hn
  obtain ⟨p, h, hexec⟩ := exec_arbiterDispatch_route hs1 hsel hq
  refine ⟨_, hexec, fun hnet => ?_, fun hnet hbusy => ?_, fun e hnet hpins he => ?_⟩
  · rw [dispatchRoute_netExists (by rw [← h.findNet] at hnet; exact hnet), finish_oweSite (h.noWaiter hn) rfl rfl]
    exact ⟨by rw [← h.ne], look_put_same _ _ _⟩
  · rw [dispatchRoute_pinBusy ((h.findNet _).trans hnet) ((h.pinsBusy _).2 hbusy), finish_oweSite (h.noWaiter hn) rfl rfl]
    exact ⟨by rw [← h.ne], look_put_same _ _ _⟩
  · rw [dispatchRoute_placed (w := ⟨p, [], true, false⟩) ((h.findNet _).trans hnet) (h.pinsFree hpins) (h.freeIndex.trans he)]
    refine ⟨fun hrole hclaim => ?_, fun k hrole hreq hperm hline => ?_, fun k hrole hreq hperm hres hline => ?_,
      fun hrole hreq hok => ?_, fun hrole hreq => ?_⟩ <;> rw [hrole]
    · dsimp only
      rw [dispatchParticipant_placed ((h.claimedTrunk _ _).trans hclaim)]
      exact h.participant hn
    · dsimp only
      rw [dispatchAnchor_placed, hreq]
      dsimp only
      rw [if_pos ((permitted_congr h.cfl _ _).trans hperm)]
      exact h.refusedAnchor hn (by decide) (by rw [hreq]; exact fun h => by cases h) hline
    · dsimp only
      rw [dispatchAnchor_placed, hreq]
      dsimp only
      rw [if_neg (by rw [permitted_congr h.cfl, hperm]; decide), if_pos ((reservedElsewhere_congr h.cfl _ _).trans hres)]
      exact h.refusedAnchor hn (by decide) (by rw [hreq]; exact fun h => by cases h) hline
    · dsimp only
      rw [dispatchAnchor_waits (by simpa only [permitted_congr h.cfl, reservedElsewhere_congr h.cfl] using hok)]
      exact h.chooses hn hreq
    · dsimp only
      rw [dispatchAnchor_waits (by rw [hreq]; exact fun _ h => by cases h)]
      exact ⟨h.busless hn hreq, fun l hfree hsuspect hlow hqueue closes hcloses hne =>
        h.takesBus hn hreq hfree hsuspect hlow hqueue hcloses hne⟩

end Sys2Proof.Machine
end

