-- ==== Sys2Proof/Proofs/LinkCounts.lean ====
section
/-! The link's counts and its receive buffer (R26, R29–R31). `State.wire` is the LIU without the part's own frame, which every block
but the LIU leaves alone; the LIU's own acts keep the counts below the ends they act at. -/

namespace Sys2Proof.Machine

/-- The LIU without the part's own frame on the line, whose mark may be renewed or withdrawn by any block. -/
def State.wire (s : State) : Liu := { s.liu with own := none }

theorem wire_of_liu {s t : State} (h : t.liu = s.liu) : t.wire = s.wire := by rw [State.wire, h]; rfl

/-- What leaves the core alone leaves the wire alone. -/
theorem wire_of_base {s t : State} (h : t.base = s.base) : t.wire = s.wire := congrArg (fun b => { b.liu with own := none }) h

theorem wire_of_core {s t : State} (h : t.core = s.core) : t.wire = s.wire := wire_of_base (congrArg (fun p => p.1) h)

theorem Follows.wire {s t : State} (k : Follows s t) : t.wire = s.wire := wire_of_base k.base

theorem foldl_wire {α β : Type} (g : β → State) (f : β → α → β) (h : ∀ w a, (g (f w a)).wire = (g w).wire) (as : List α) (w : β) :
    (g (as.foldl f w)).wire = (g w).wire := by
  induction as generalizing w with
  | nil => rfl
  | cons a as ih => rw [List.foldl_cons, ih, h]

theorem link_of_wire {s t : State} (h : t.wire = s.wire) : t.liu.link = s.liu.link := (by rw [h] : t.wire.link = s.wire.link)
theorem objections_of_wire {s t : State} (h : t.wire = s.wire) : t.liu.objections = s.liu.objections :=
  (by rw [h] : t.wire.objections = s.wire.objections)
theorem cleans_of_wire {s t : State} (h : t.wire = s.wire) : t.liu.cleans = s.liu.cleans :=
  (by rw [h] : t.wire.cleans = s.wire.cleans)
theorem rx_of_wire {s t : State} (h : t.wire = s.wire) : t.liu.rx = s.liu.rx := (by rw [h] : t.wire.rx = s.wire.rx)
theorem roster_of_wire {s t : State} (h : t.wire = s.wire) : t.liu.roster = s.liu.roster :=
  (by rw [h] : t.wire.roster = s.wire.roster)

/-- The invariant of the link is a matter of its state, its counts and its buffer. -/
theorem linkOk_of_eq {s t : State} (k : s.linkOk) (hl : t.liu.link = s.liu.link) (ho : t.liu.objections = s.liu.objections)
    (hc : t.liu.cleans = s.liu.cleans) (hr : t.liu.rx = s.liu.rx) : t.linkOk :=
  ⟨by rw [ho]; exact k.objections, by rw [hc]; exact k.cleans, by rw [hr]; exact k.buffer, by rw [hl, ho, hc]; exact k.latched⟩

theorem linkOk_of_wire {s t : State} (h : t.wire = s.wire) (k : s.linkOk) : t.linkOk :=
  linkOk_of_eq k (link_of_wire h) (objections_of_wire h) (cleans_of_wire h) (rx_of_wire h)

/-! ### Claims: what changes the view and the holdings -/

@[simp] theorem claimOff_core (e : Entry) (w : Work) : (claimOff e w).st.core = w.st.core := by
  have drop : (dropClaimed e w).st.core = w.st.core := by
    unfold dropClaimed
    dsimp only
    split
    · apply ite_core <;> simp
    · rfl
  unfold claimOff
  dsimp only
  split <;> simp [drop]

@[simp] theorem offLine_core (m : Owed) (w : Work) : (offLine m w).st.core = w.st.core := by
  unfold offLine
  split <;> simp

@[simp] theorem objected_core (o : OwnFrame) (w : Work) : (objected o w).st.core = w.st.core := by
  unfold objected claimObjected
  split <;> simp

@[simp] theorem clearHeard_core (r : Resource) (w : Work) : (clearHeard r w).st.core = w.st.core := by
  unfold clearHeard
  split
  · split <;> simp
  · rfl

@[simp] theorem trunkClaimed_core (e : Entry) (t : Trunk) (w : Work) : (trunkClaimed e t w).st.core = w.st.core := by
  unfold trunkClaimed
  split <;> simp

@[simp] theorem monitorClaimed_core (e : Entry) (b : Bool) (w : Work) : (monitorClaimed e b w).st.core = w.st.core := by
  unfold monitorClaimed
  dsimp only
  (repeat' split) <;> simp

@[simp] theorem withdrawFor_core (r : Resource) (w : Work) : (withdrawFor r w).st.core = w.st.core := by
  refine foldl_core _ (fun w e => ?_) _ w
  apply ite_core <;> simp

/-- What a naming leads to in the NE leaves the view, the holdings and the wire alone (R79, R94, R106). -/
@[simp] theorem actNamed_core (r : Resource) (o : Naming) (w : Work) : (actNamed r o w).st.core = w.st.core := by
  have withdrawn : (if o.changed then { withdrawFor r w with pass := true } else w : Work).st.core = w.st.core := by
    split
    · dsimp only
      exact withdrawFor_core r w
    · rfl
  have dropped : ∀ u : Work, u.st.core = w.st.core →
      (match o.dropped with | some (e, reason) => holdingDropped e r reason u | none => u).st.core = w.st.core := by
    intro u hu
    split <;> simp [hu]
  unfold actNamed
  dsimp only
  exact ite_core ((watch_core _ _).trans (dropped _ withdrawn)) (dropped _ withdrawn)

theorem capture_wire (c : Capture) (s : State) : (capture c s).wire = s.wire := wire_of_core (capture_core c s)
theorem renew_wire (m : Owed) (s : State) : (s.renew m).wire = s.wire := wire_of_core (State.renew_core m s)

/-- A note pending is a matter of the FCU and of the part's own frame (R178, R179). -/
theorem pendNote_wire (c : Fin 8) (d : BitVec 16) (s : State) : (pendNote c d s).wire = s.wire :=
  (renew_wire _ _).trans (wire_of_liu rfl)

theorem named_wire (n : Node) (r : Resource) (net : Option (Site × NetId)) (s : State) : (named n r net s).1.wire = s.wire := by
  unfold named
  dsimp only
  split
  · split
    · rfl
    · split
      · exact (capture_wire _ _).trans rfl
      · exact (wire_of_liu rfl).trans (capture_wire _ _)
  · (repeat' split) <;> rfl

theorem clearView_wire (n : Node) (r : Resource) (s : State) : (clearView n r s).1.wire = s.wire := by
  unfold clearView
  split <;> rfl

theorem beaconView_wire (n : Node) (mask : BitVec 24) (rs : List Resource) (s : State) :
    (beaconView n mask rs s).1.wire = s.wire := by
  induction rs generalizing s with
  | nil => rfl
  | cons r rs ih =>
    simp only [beaconView, ih]
    unfold beaconResource
    split
    · exact named_wire _ _ _ _
    · exact clearView_wire _ _ _

theorem claimHeard_wire (n : Node) (r : Resource) (i : Site) (m : NetId) (w : Work) :
    (claimHeard n r i m w).st.wire = w.st.wire := by
  have h : (actNamed r (named n r (some (i, m)) w.st).2 { w with st := (named n r (some (i, m)) w.st).1 }).st.wire = w.st.wire :=
    (wire_of_core (actNamed_core _ _ _)).trans (named_wire _ _ _ _)
  unfold claimHeard
  dsimp only
  split
  · exact (wire_of_core (foldl_core _ (fun w e => participantClaim_core e _ w) _ _)).trans h
  · exact h

/-- The reports of a BEACON to the NE leave what its view changes left (R96, R107). -/
theorem beaconHeard_core (n : Node) (mask : BitVec 24) (w : Work) :
    (beaconHeard n mask w).st.core = (beaconView n mask (List.finRange 17) w.st).1.core := by
  unfold beaconHeard
  dsimp only
  exact foldl_core (fun w (p : Resource × Naming) => actNamed p.1 p.2 w) (fun _ _ => actNamed_core _ _ _) _ _

theorem releaseSent_wire (e : Entry) (r : Resource) (w : Work) : (releaseSent e r w).st.wire = w.st.wire := by
  have ite : ∀ {c : Prop} [Decidable c] {a b : Work}, a.st.wire = w.st.wire → b.st.wire = w.st.wire →
      (if c then a else b).st.wire = w.st.wire := by
    intro c _ a b ha hb
    split
    · exact ha
    · exact hb
  have drop : (if decide (look w.st.rcu.holdings r = some e) then w.upd (dropHolding r) else w).st.wire = w.st.wire := ite rfl rfl
  have free : ∀ u : Work, u.st.wire = w.st.wire →
      (if decide (look w.st.rcu.holdings r = some e) then tryFree e u else u).st.wire = w.st.wire := fun u hu =>
    ite ((wire_of_core (tryFree_core e u)).trans hu) hu
  unfold releaseSent
  dsimp only
  refine free _ (ite ?_ drop)
  refine (wire_of_core (watch_core _ _)).trans ?_
  exact drop

theorem claimSent_wire (e : Entry) (r : Resource) (b : Bool) (w : Work) : (claimSent e r b w).st.wire = w.st.wire := by
  unfold claimSent
  dsimp only
  split
  · exact (wire_of_core (trunkClaimed_core _ _ _)).trans rfl
  · exact (wire_of_core ((handshake_core _ _).trans (monitorClaimed_core _ _ _))).trans rfl

/-- The RCU's own part of a self-open is a matter of the RCU, the FCU and the part's own frame (R103). -/
theorem dropAll_wire (s : State) : (dropAll s).wire = s.wire :=
  ((pendNote_wire _ _ _).trans (capture_wire _ _)).trans
    (foldl_wire id (fun s (p : Resource × Entry) => (dropHolding p.1 s).setView p.1 (s.viewOf p.1).clear) (fun _ _ => rfl)
      s.ownHoldings s)

theorem reportChanges_core (rs : List Resource) (w : Work) : (reportChanges rs w).st.core = w.st.core :=
  foldl_core (fun w r => actNamed r ⟨none, true⟩ w) (fun _ _ => actNamed_core _ _ _) rs w

/-- A self-open leaves what its own part in the RCU left, where the card holds something (R103). -/
theorem selfOpen_core (w : Work) : (selfOpen w).st.core = if w.st.ownHoldings = [] then w.st.core else (dropAll w.st).core := by
  unfold selfOpen
  dsimp only
  split
  · rfl
  · exact foldl_core (fun w (p : Resource × Entry) => actNamed p.1 ⟨some (p.2, .selfOpen), true⟩ w)
      (fun _ _ => actNamed_core _ _ _) _ _

theorem selfOpen_wire (w : Work) : (selfOpen w).st.wire = w.st.wire := by
  have h := selfOpen_core w
  split at h
  · exact wire_of_core h
  · exact (wire_of_core h).trans (dropAll_wire _)

/-- The RCU's own part of a beacon-period boundary: the failure count, the BEACON and the aging of the view (R101, R102, R104). -/
def countPeriod (s : State) : State := ageView { s with rcu := { s.rcu with
  failures := failureCount s.rcu.beaconSent s.rcu.failures
  beaconSent := false
  beaconOwed := true } }

theorem countPeriod_wire (s : State) : (countPeriod s).wire = s.wire := rfl

/-- A boundary in the RCU: the period counted, the changes of the view reported, and at a failure count of 2 the self-open. -/
theorem rcuBoundary_eq (w : Work) : ∃ u : Work, u.st.core = (countPeriod w.st).core ∧
    rcuBoundary w = if u.st.rcu.failures = 2 then selfOpen u else u :=
  ⟨_, reportChanges_core (changedHolders w.st (countPeriod w.st)) (w.upd countPeriod), rfl⟩

theorem rcuBoundary_wire (w : Work) : (rcuBoundary w).st.wire = w.st.wire := by
  obtain ⟨u, hu, h⟩ := rcuBoundary_eq w
  have hw : u.st.wire = w.st.wire := (wire_of_core hu).trans (countPeriod_wire _)
  rw [h]
  split
  · exact (selfOpen_wire u).trans hw
  · exact hw

/-! ### Queues, the wear store and the flags -/

theorem oweSite_wire (r : Report) (s : State) : (oweSite r s).wire = s.wire := wire_of_core (oweSite_core r s)

theorem writeRecord_wire (i : Site) (b : QueueBody) (s : State) : (writeRecord i b s).wire = s.wire := by
  unfold writeRecord
  dsimp only
  split <;> rfl

theorem breakStaging_wire (i : Site) (s : State) : (breakStaging i s).wire = s.wire := by
  unfold breakStaging refuseSite
  dsimp only
  split
  · rfl
  · split
    · rfl
    · exact (oweSite_wire _ _).trans rfl

theorem commit_wire (i : Site) (g : Staging) (s : State) : (commit i g s).wire = s.wire := by
  unfold commit refuseSite
  split
  · rfl
  · split
    · exact oweSite_wire _ _
    · exact writeRecord_wire _ _ _

theorem routeHeard_wire (i : Site) (more : Bool) (fl : RouteFlags) (q : Request) (n : NetId) (ends : List (Node × Pin)) (s : State) :
    (routeHeard i more fl q n ends s).wire = s.wire := by
  have broken : (breakUnless i fl q n s).wire = s.wire := by
    unfold breakUnless
    split
    · split
      · rfl
      · exact breakStaging_wire _ _
    · rfl
  unfold routeHeard
  dsimp only
  split
  · exact broken
  · exact (commit_wire _ _ _).trans broken

/-- A request that breaks a staging and then may do one thing more. -/
theorem broken_wire {c : Prop} [Decidable c] {i : Site} {s t u : State} (ht : t.wire = (breakStaging i s).wire)
    (hu : u.wire = (breakStaging i s).wire) : (if c then t else u).wire = s.wire := by
  split
  · exact ht.trans (breakStaging_wire i s)
  · exact hu.trans (breakStaging_wire i s)

theorem saveAdvance_wire (a b : Nat) (s : State) : (saveAdvance a b s).wire = s.wire := by
  unfold saveAdvance
  split
  · rfl
  · exact renew_wire _ _

theorem saveFail_wire (v : Save) (s : State) : (saveFail v s).wire = s.wire := renew_wire _ _

theorem saveWear_wire (s : State) : (saveWear s).wire = s.wire := by
  unfold saveWear
  split
  · rfl
  · split
    · rfl
    · exact saveAdvance_wire _ _ _

theorem maintHeard_wire (op : MaintOp) (w : Work) : (maintHeard op w).st.wire = w.st.wire := by
  unfold maintHeard
  split
  · rfl
  · cases op with
    | saveWear => exact saveWear_wire _
    | readWear i =>
      show (readWear i w.st).wire = _
      unfold readWear
      split <;> rfl
    | clearMarks first last =>
      show (clearMarks first last w.st).wire = _
      unfold clearMarks
      split
      · simp only [State.wire, clearSpan]
      · rfl
    | readFault => rfl
    | clearFault => rfl

/-! ### Heard frames (R26, R32) -/

theorem abortHeard_wire (i : Site) (w : Work) : (abortHeard i w).st.wire = w.st.wire := by
  have emptied : (abortSite i (w.upd (emptySite i))).st.wire = (w.upd (emptySite i)).st.wire := wire_of_core (abortSite_core _ _)
  simp only [abortHeard, Work.upd_st]
  exact (wire_of_core (abortReady_core i _)).trans (emptied.trans (wire_of_liu (emptySite_liu _ _)))

/-- The blocks named for a frame's kind leave the wire alone (R32). -/
theorem act_wire (n : Node) (m : Msg) (w : Work) : (act n m w).st.wire = w.st.wire := by
  cases m with
  | source t on => rfl
  | abort i => exact abortHeard_wire _ _
  | claim r i net => exact claimHeard_wire _ _ _ _ _
  | release r i net => exact (wire_of_core (actNamed_core _ _ _)).trans (clearView_wire _ _ _)
  | cancel i net =>
    show (cancelHeard n i net w).st.wire = _
    unfold cancelHeard
    dsimp only
    split
    · exact (wire_of_core (cancelEntry_core _ _)).trans rfl
    · rfl
  | beacon k mask live => exact (wire_of_core (beaconHeard_core n mask w)).trans (beaconView_wire _ _ _ _)
  | clear r => exact wire_of_core (clearHeard_core _ _)
  | route i more fl q net ends => exact routeHeard_wire _ _ _ _ _ _ _
  | unroute i net => exact broken_wire (writeRecord_wire _ _ _) rfl
  | monitor i net on => exact broken_wire (writeRecord_wire _ _ _) rfl
  | fence i token => exact broken_wire (writeRecord_wire _ _ _) (wire_of_core (oweReady_core _ _ _ _))
  | maint target op =>
    show (if target = w.st.cfl.node then maintHeard op w else w).st.wire = _
    split
    · exact maintHeard_wire _ _
    · rfl
  | status i net o => exact wire_of_core (statusHeard_core _ _ _ _ _)
  | ready => rfl
  | note => rfl
  | maintDone => rfl

theorem takeMsg_wire (n : Node) (m : Msg) (s : State) : (takeMsg n m s).wire = (hear n m s).wire :=
  (finish_follows _).wire.trans ((act_wire n m _).trans (wire_of_core (resumeHeld_core _)))

theorem captureDuplicate_wire (k : Kind) (s : State) : (captureDuplicate k s).wire = s.wire :=
  (pendNote_wire _ _ _).trans (capture_wire _ _)

/-- In DUPLICATE_LATCH both counts are 0 (R31). -/
theorem latch_linkOk {k : Kind} {s : State} (h : s.linkOk) : (latch k s).linkOk :=
  linkOk_of_wire (captureDuplicate_wire k _) ⟨Nat.zero_lt_succ _, Nat.zero_lt_succ _, h.buffer, fun _ => ⟨rfl, rfl⟩⟩

theorem dispatchFront_linkOk {fits : State → Frame → Bool} {s : State} (h : s.linkOk) : (dispatchFront fits s).linkOk := by
  have pop : (popFrame s).linkOk :=
    ⟨h.objections, h.cleans, ((List.tail_sublist _).length_le).trans h.buffer, h.latched⟩
  unfold dispatchFront
  split
  · exact h
  · split
    · unfold takeFrame
      split
      · exact pop
      · split
        · exact latch_linkOk pop
        · exact linkOk_of_wire (takeMsg_wire _ _ _) ⟨pop.objections, pop.cleans, pop.buffer, pop.latched⟩
    · exact h

/-! ### The link (R20–R31) -/

theorem startFrame_wire (s : State) : (startFrame s).wire = s.wire := by
  unfold startFrame
  split <;> rfl

theorem idlePoint_linkOk {s : State} (h : s.linkOk) : (idlePoint s).linkOk := by
  have marked : (s.updLiu (fun u => { u with synced := true, idle := true, discarding := false })).linkOk :=
    linkOk_of_eq h rfl rfl rfl rfl
  unfold idlePoint
  dsimp only
  split
  · split
    · exact linkOk_of_wire (startFrame_wire _) marked
    · exact marked
  · exact h

theorem deferredStart_linkOk {s : State} (h : s.linkOk) : (deferredStart s).linkOk := by
  unfold deferredStart
  split
  · exact linkOk_of_wire (startFrame_wire _) h
  · exact h

theorem leaveLine_linkOk {t : Time} {s : State} (h : s.linkOk) : (leaveLine t s).linkOk := linkOk_of_eq h rfl rfl rfl rfl

theorem finish_linkOk {w : Work} (h : w.st.linkOk) : (finish w).linkOk := linkOk_of_wire (finish_follows w).wire h

theorem lostContention_linkOk {s : State} (h : s.linkOk) : (lostContention s).linkOk := by
  unfold lostContention
  split
  · split
    · exact finish_linkOk (linkOk_of_wire (wire_of_core (offLine_core _ _)) (leaveLine_linkOk h))
    · exact h
  · exact h

theorem readbackFault_linkOk {s : State} (h : s.linkOk) : (readbackFault s).linkOk := by
  have left : ∀ t, (discardRest (leaveLine t s)).linkOk := fun t => linkOk_of_eq (s := leaveLine t s) (leaveLine_linkOk h) rfl rfl rfl rfl
  unfold readbackFault
  split
  · split
    · exact finish_linkOk (linkOk_of_wire (wire_of_core (offLine_core _ _)) (latch_linkOk (left _)))
    · exact h
  · exact h

/-- The consecutive-clean count stays below 32: the 32nd frame sets it to 0 (R30). -/
theorem countClean_linkOk {d : Bool} {s : State} (h : s.linkOk) : (countClean d s).linkOk := by
  unfold countClean
  split
  · exact h
  · rename_i hm
    have muted : s.liu.link = .muted := by simpa using hm
    have latched : ∀ p : Prop, s.liu.link = .duplicateLatch → p := fun _ hl => by rw [muted] at hl; cases hl
    split
    · exact ⟨h.objections, Nat.zero_lt_succ _, h.buffer, fun hl => latched _ hl⟩
    · split
      · rename_i hc
        exact ⟨h.objections, hc, h.buffer, fun hl => latched _ hl⟩
      · exact linkOk_of_wire (pendNote_wire _ _ _) ⟨Nat.zero_lt_succ _, Nat.zero_lt_succ _, h.buffer, fun _ => ⟨rfl, rfl⟩⟩

theorem checkFieldEnd_linkOk {x : Sampled} {s : State} (h : s.linkOk) : (checkFieldEnd x s).linkOk := by
  unfold checkFieldEnd
  dsimp only
  split
  · split
    · exact linkOk_of_eq h rfl rfl rfl rfl
    · exact linkOk_of_eq (countClean_linkOk h) rfl rfl rfl rfl
  · exact h

/-- The consecutive-objection count stays below 16: the 16th objected frame mutes the LIU (R29). -/
theorem countObjection_linkOk {s : State} (h : s.linkOk) : (countObjection s).linkOk := by
  unfold countObjection
  split
  · exact h
  · rename_i ha
    have active : s.liu.link = .active := by simpa using ha
    split
    · rename_i ho
      exact ⟨ho, h.cleans, h.buffer, fun hl => by rw [State.updLiu, active] at hl; cases hl⟩
    · exact linkOk_of_wire (capture_wire _ _) ⟨Nat.zero_lt_succ _, Nat.zero_lt_succ _, h.buffer, fun hl => by cases hl⟩

theorem clearSent_wire (o : OwnFrame) (s : State) : (clearSent o s).wire = s.wire := by
  unfold clearSent
  split
  · rfl
  · split <;> rfl

/-- The producing block of a frame sent leaves the wire alone (R25). -/
theorem sent_wire (o : OwnFrame) (w : Work) : (sent o w).st.wire = w.st.wire := by
  have cleared : (w.upd (clearSent o)).st.wire = w.st.wire := clearSent_wire o w.st
  unfold sent
  dsimp only
  split
  · exact (claimSent_wire _ _ _ _).trans cleared
  · exact (releaseSent_wire _ _ _).trans cleared
  · exact cleared
  · exact (wire_of_core (takeFaulted_core _ _)).trans cleared
  · exact cleared

theorem ownOutcome_linkOk {o : OwnFrame} {driven : Bool} {s : State} (h : s.linkOk) : (ownOutcome o driven s).linkOk := by
  have left : (leaveLine s.afterEnd s).linkOk := leaveLine_linkOk h
  unfold ownOutcome
  dsimp only
  split
  · exact finish_linkOk (linkOk_of_wire (wire_of_core (objected_core _ _)) (countObjection_linkOk left))
  · refine finish_linkOk (linkOk_of_wire (sent_wire _ _) ?_)
    exact ⟨Nat.zero_lt_succ _, left.cleans, left.buffer, fun hl => ⟨rfl, (left.latched hl).2⟩⟩

/-- A frame joins the receive buffer where it holds fewer than four (R26). -/
theorem deliver_linkOk {t : Time} {x : Hearing} {driven : Bool} {s : State} (h : s.linkOk) :
    (s.updLiu (deliver t x driven)).linkOk := by
  unfold State.updLiu deliver
  dsimp only
  split
  · split
    · exact ⟨h.objections, h.cleans, h.buffer, h.latched⟩
    · rename_i hc
      simp only [Bool.or_eq_true, decide_eq_true_eq, not_or, Nat.not_le] at hc
      exact ⟨h.objections, h.cleans, by simpa using hc.2, h.latched⟩
  · exact ⟨h.objections, h.cleans, h.buffer, h.latched⟩

theorem slotRead_linkOk {driven : Bool} {s : State} (h : s.linkOk) : (slotRead driven s).linkOk := by
  unfold slotRead
  split
  · split
    · exact ownOutcome_linkOk h
    · exact deliver_linkOk h
    · exact h
  · exact h

/-- A boundary begins: the next one is a period later, and the roster is aged (R34, R101). -/
def beginBoundary (s : State) : State :=
  ageRoster { s with tb := { s.tb with nextBeacon := laterMs s.tb.nextBeacon s.cfl.config.period } }

theorem beaconBoundary_due {s : State} (h : s.beaconDue = true) :
    beaconBoundary s = finish (rcuBoundary (resumeHeld (Work.start (beginBoundary s)))) := if_pos h

theorem beaconBoundary_wire {s : State} (h : s.beaconDue = true) : (beaconBoundary s).wire = (beginBoundary s).wire := by
  rw [beaconBoundary_due h]
  exact (finish_follows _).wire.trans ((rcuBoundary_wire _).trans (wire_of_core (resumeHeld_core _)))

theorem beaconBoundary_linkOk {s : State} (h : s.linkOk) : (beaconBoundary s).linkOk := by
  by_cases hd : s.beaconDue = true
  · refine linkOk_of_wire (beaconBoundary_wire hd) (linkOk_of_eq h ?_ ?_ ?_ ?_) <;> simp only [beginBoundary, ageRoster, State.updLiu]
  · rw [beaconBoundary, if_neg hd]
    exact h

/-! ### Resets and the load (R31, R180–R183) -/

theorem cutSave_wire (s : State) : (cutSave s).wire = s.wire := by
  unfold cutSave
  split
  · rfl
  · exact saveFail_wire _ _

theorem resetAsserted_linkOk {s : State} (h : s.linkOk) : (resetAsserted s).linkOk := by
  have frame : ∀ {t : State}, t.linkOk → (cutFrame t).linkOk := by
    intro t ht
    unfold cutFrame
    split
    · exact ownOutcome_linkOk ht
    · exact ht
  have cut := linkOk_of_wire (cutSave_wire _) (frame (t := enterReset s) ⟨h.objections, h.cleans, h.buffer, h.latched⟩)
  unfold resetAsserted
  split
  · exact h
  · exact ⟨cut.objections, cut.cleans, cut.buffer, cut.latched⟩

/-- The LIU after each of the three resets (R31). -/
theorem linkOk_of_reset {s : State} (h : s.liu = Liu.reset) : s.linkOk :=
  ⟨by rw [h]; exact Nat.zero_lt_succ _, by rw [h]; exact Nat.zero_lt_succ _, by rw [h]; exact Nat.zero_le _,
    by rw [h]; intro hl; cases hl⟩

theorem reset_linkOk (k : ResetKind) (straps : Node) (s : State) : (reset k straps s).linkOk := by
  have warm : (warmKeep straps s).linkOk := linkOk_of_reset (by rw [warmKeep, captureInFlight_eq])
  unfold reset
  split
  · exact linkOk_of_reset rfl
  · split <;> exact linkOk_of_reset rfl
  · split
    · exact linkOk_of_reset rfl
    · exact warm

theorem wearBlockRead_wire (record block : MemAnswer) (s : State) : (wearBlockRead record block s).wire = s.wire := by
  have judged : (ensureJudged record s).wire = s.wire := by
    unfold ensureJudged
    split <;> rfl
  have present : ∀ (c : Prop) [Decidable c] (t : State),
      (if c then { t with wru := { t.wru with storeAbsent := false } } else t : State).wire = t.wire := by
    intro c _ t
    split <;> rfl
  have next : ∀ b (t : State), (takeNext b block t).wire = t.wire := by
    intro b t
    unfold takeNext
    dsimp only
    split
    · exact wire_of_liu (takeBlock_liu _ _ _ _ _)
    · exact (pendNote_wire _ _ _).trans (wire_of_liu (takeBlock_liu _ _ _ _ _))
  unfold wearBlockRead
  split
  · split
    · rfl
    · dsimp only
      split
      · have absent : ∀ c (t : State), (pendNote noteStoreAbsent 0#16 (takeAbsent c t)).wire = t.wire := fun c t =>
          (pendNote_wire _ _ _).trans (by simp only [State.wire, takeAbsent])
        exact (absent _ _).trans judged
      · exact (next _ _).trans ((present _ _).trans judged)
  · rfl

theorem loadEnd_linkOk {record : MemAnswer} {s : State} (h : s.linkOk) : (loadEnd record s).linkOk := by
  have start : ∀ w : Work, (queueStart w).st.wire = w.st.wire := by
    intro w
    unfold queueStart
    dsimp only
    split
    · rfl
    · split <;> rfl
  have note : ∀ n (t : State), (judgeHeld (noteRecord n t)).wire = t.wire := by
    intro n t
    show (noteRecord n t).wire = t.wire
    unfold noteRecord
    split
    · exact pendNote_wire _ _ _
    · rfl
  unfold loadEnd
  split
  · refine finish_linkOk (linkOk_of_wire ((start _).trans ((wire_of_core (tellParts_core _ _)).trans (note _ _))) ?_)
    exact ⟨h.objections, h.cleans, h.buffer, h.latched⟩
  · exact h

theorem listenEnd_linkOk {s : State} (h : s.linkOk) : (listenEnd s).linkOk := by
  unfold listenEnd
  split
  · refine finish_linkOk (linkOk_of_wire ?_ h)
    split
    · exact (wire_of_core (foldl_core _ (fun w t => watch_core _ w) _ _)).trans ((wire_of_core (resumeHeld_core _)).trans rfl)
    · exact (wire_of_core (resumeHeld_core _)).trans rfl
  · exact h

/-! ### The step -/

theorem advance_linkOk (dt : Nat) {s : State} (h : s.linkOk) : (advance dt s).linkOk := linkOk_of_wire (wire_of_liu (advance_liu dt s)) h

theorem plainEvent_linkOk {dt : Nat} {f : State → State} {s t : State} (hf : ∀ {u : State}, u.linkOk → (f u).linkOk)
    (h : plainEvent dt f s = .next t) (k : s.linkOk) : t.linkOk := by
  cases h
  exact hf (advance_linkOk dt k)

/-- An event whose acts leave the wire alone. -/
theorem event_linkOk {dt : Nat} {due : State → Bool} {f : Work → Work} {s t : State} (hf : ∀ w, (f w).st.wire = w.st.wire)
    (h : event dt due f s = .next t) (k : s.linkOk) : t.linkOk := by
  cases h
  split
  · exact finish_linkOk (linkOk_of_wire (hf _) (advance_linkOk dt k))
  · exact advance_linkOk dt k

theorem arbitrate_wire (w : Work) : (arbitrate w).st.wire = w.st.wire := by
  have act : ∀ i b (u : Work), (actRecord i b u).st.wire = u.st.wire := by
    intro i b u
    cases b with
    | route r => exact wire_of_core (dispatchRoute_core _ _ _)
    | unroute n =>
      show (match u.st.findNet i n with | some e => unrouteEntry e u | none => u).st.wire = _
      split
      · exact wire_of_core (unrouteEntry_core _ _)
      · rfl
    | monitor n on => exact wire_of_core (dispatchMonitor_core _ _ _ _)
    | fence token => exact wire_of_core (oweReady_core _ _ _ _)
  unfold arbitrate
  split
  · rfl
  · rename_i h
    split
    · rfl
    · rw [act, select_eq h]
      rfl

theorem senseOver_core (high : Bool) (w : Work) : (senseOver high w).st.core = w.st.core := by
  unfold senseOver
  split
  · simp
  · apply ite_core <;> simp
  · rfl

theorem releaseWaitOver_core (e : Entry) (w : Work) : (releaseWaitOver e w).st.core = w.st.core := by
  unfold releaseWaitOver
  dsimp only
  split <;> simp

theorem monitorWaitOver_core (e : Entry) (w : Work) : (monitorWaitOver e w).st.core = w.st.core := by
  unfold monitorWaitOver
  split <;> simp

theorem writeEnd_wire (s : State) : (writeEnd s).wire = s.wire := by
  unfold writeEnd
  split
  · split
    · exact saveAdvance_wire _ _ _
    · rfl
  · rfl

theorem writeFailure_wire (s : State) : (writeFailure s).wire = s.wire := by
  unfold writeFailure
  split
  · split
    · exact saveFail_wire _ _
    · rfl
  · rfl

/-- Every command keeps the link's invariant. -/
theorem exec_linkOk {c : Instr} {s t : State} (h : exec c s = .next t) (k : s.linkOk) : t.linkOk := by
  cases c with
  | powerOnReset | coldPinReset | warmKeep => exact plainEvent_linkOk (f := reset _ _) (fun _ => reset_linkOk _ _ _) h k
  | configurationLoadEnd dt record => exact plainEvent_linkOk loadEnd_linkOk h k
  | wearBlockRead dt record block => exact plainEvent_linkOk (linkOk_of_wire (wearBlockRead_wire record block _)) h k
  | listenPeriodEnd dt => exact plainEvent_linkOk listenEnd_linkOk h k
  | idlePoint dt => exact plainEvent_linkOk idlePoint_linkOk h k
  | deferredFrameStart dt => exact plainEvent_linkOk deferredStart_linkOk h k
  | lostContention dt => exact plainEvent_linkOk lostContention_linkOk h k
  | readbackFault dt => exact plainEvent_linkOk readbackFault_linkOk h k
  | checkFieldEnd dt heard => exact plainEvent_linkOk checkFieldEnd_linkOk h k
  | objectionSlotRead dt driven => exact plainEvent_linkOk slotRead_linkOk h k
  | source | abort | claim | release | cancel | beacon | clear | route | unroute | monitor | fence | saveWear | readWear
  | clearMarks | readFault | clearFault | status | ready | note | maintDone | maintForAnotherTargetNode =>
    exact plainEvent_linkOk dispatchFront_linkOk h k
  | arbiterDispatch dt => exact event_linkOk arbitrate_wire (show execArbiterDispatch dt s = .next t from h) k
  | beaconPeriodBoundary dt => exact plainEvent_linkOk beaconBoundary_linkOk h k
  | creditBoundary dt => exact event_linkOk (f := creditBoundary) (fun _ => rfl) (show execCreditBoundary dt s = .next t from h) k
  | settleEnd dt r => exact event_linkOk (fun w => wire_of_core (settle_core r w)) (show execSettleEnd dt r s = .next t from h) k
  | connectHoldExpiry dt e =>
    exact event_linkOk (fun w => wire_of_core (holdExpired_core e w)) (show execConnectHoldExpiry dt e s = .next t from h) k
  | disconnectHoldExpiry dt e =>
    exact event_linkOk (fun w => wire_of_core (holdExpired_core e w)) (show execDisconnectHoldExpiry dt e s = .next t from h) k
  | awaitResourceDeadline dt e =>
    exact event_linkOk (fun w => wire_of_core (abandon_core e _ w)) (show execAwaitResourceDeadline dt e s = .next t from h) k
  | awaitAnchorDeadline dt e =>
    exact event_linkOk (fun w => wire_of_core (by simp [anchorWaitOver])) (show execAwaitAnchorDeadline dt e s = .next t from h) k
  | awaitOpenedDeadline dt e =>
    exact event_linkOk (fun w => wire_of_core (releaseWaitOver_core e w)) (show execAwaitOpenedDeadline dt e s = .next t from h) k
  | monitorClaimWaitExpiry dt e =>
    exact event_linkOk (fun w => wire_of_core (monitorWaitOver_core e w)) (show execMonitorClaimWaitExpiry dt e s = .next t from h) k
  | coolingEnd dt r => exact event_linkOk (f := coolingEnd r) (fun _ => rfl) (show execCoolingEnd dt r s = .next t from h) k
  | senseEnd dt high =>
    exact event_linkOk (fun w => wire_of_core (senseOver_core high w)) (show execSenseEnd dt high s = .next t from h) k
  | stepEnd dt => exact event_linkOk (fun w => wire_of_core (finishSteps_core w.st)) (show execStepEnd dt s = .next t from h) k
  | blockWriteEnd dt => exact plainEvent_linkOk (linkOk_of_wire (writeEnd_wire _)) h k
  | blockWriteFailure dt => exact plainEvent_linkOk (linkOk_of_wire (writeFailure_wire _)) h k
  | resetAsserted dt => exact plainEvent_linkOk resetAsserted_linkOk h k

/-- Settles O57, command by command: what is not the LIU's own leaves the wire alone, and the LIU's acts stop at their ends. -/
theorem everyStepKeepsLinkCounts : Obligations.EveryStepKeepsLinkCounts := by
  intro s t hs h
  unfold step at h
  split at h
  · cases h
    exact hs
  · exact exec_linkOk h ⟨hs.objections, hs.cleans, hs.buffer, hs.latched⟩

end Sys2Proof.Machine
end

