-- ==== Sys2Proof/Proofs/LineEvents.lean ====
section
/-! Events on the line (R17–R31): how a frame of the part's own starts, leaves the line and is cut off, how the end of a heard
frame's check field is judged, and how an undamaged frame is delivered. -/

namespace Sys2Proof.Machine

theorem exec_resetAsserted (dt : Nat) (s : State) : exec (.resetAsserted dt) s = .next (resetAsserted (advance dt s)) := rfl
theorem exec_idlePoint (dt : Nat) (s : State) : exec (.idlePoint dt) s = .next (idlePoint (advance dt s)) := rfl
theorem exec_deferredFrameStart (dt : Nat) (s : State) :
    exec (.deferredFrameStart dt) s = .next (deferredStart (advance dt s)) := rfl
theorem exec_lostContention (dt : Nat) (s : State) : exec (.lostContention dt) s = .next (lostContention (advance dt s)) := rfl
theorem exec_readbackFault (dt : Nat) (s : State) : exec (.readbackFault dt) s = .next (readbackFault (advance dt s)) := rfl
theorem exec_checkFieldEnd (dt : Nat) (h : Sampled) (s : State) :
    exec (.checkFieldEnd dt h) s = .next (checkFieldEnd h (advance dt s)) := rfl
theorem exec_objectionSlotRead (dt : Nat) (driven : Bool) (s : State) :
    exec (.objectionSlotRead dt driven) s = .next (slotRead driven (advance dt s)) := rfl

/-! ### Captures and notes -/

/-- A capture is a matter of the FCU (R171). -/
theorem capture_eq (c : Capture) (s : State) : capture c s = { s with fcu := (capture c s).fcu } := by
  unfold capture
  split <;> rfl

/-- With no frame of the part on the line there is no mark to renew. -/
theorem renew_none {s : State} (h : s.liu.own = none) (m : Owed) : s.renew m = s := by
  unfold State.renew
  rw [h]

/-- With no frame of the part on the line a note pending is a matter of the FCU (R178). -/
theorem pendNote_eq {s : State} (h : s.liu.own = none) (c : Fin 8) (d : BitVec 16) :
    pendNote c d s = { s with fcu := { s.fcu with notes := put s.fcu.notes c (some d) } } :=
  renew_none (s := { s with fcu := { s.fcu with notes := put s.fcu.notes c (some d) } }) h _

/-- Where the part runs a capture whose cause is severe qualifies in either mode (R172, R173). -/
theorem capture_severe {c : Capture} {s : State} (hr : s.running = true) (hc : c.cause.severe = true) :
    capture c s = { s with fcu := { s.fcu with
      record := match s.fcu.record with
        | none => some ⟨c, s.fcu.millis, 1⟩
        | some r => some { r with count := min 255 (r.count + 1) } } } := by
  unfold capture judgeCapture qualifies
  rw [if_pos hr, if_pos (by simp [hc])]
  split <;> simp [*]

/-- The capture and the note of DUPLICATE_NODE (R171, R178). -/
theorem captureDuplicate_eq {s : State} (hr : s.running = true) (ho : s.liu.own = none) (k : Kind) :
    captureDuplicate k s = { s with fcu := { s.fcu with
      record := match s.fcu.record with
        | none => some ⟨⟨.duplicateNode, none, none, none, some k⟩, s.fcu.millis, 1⟩
        | some r => some { r with count := min 255 (r.count + 1) }
      notes := put s.fcu.notes noteDuplicateNode (some (BitVec.ofNat 16 (Kind.code k).val)) } } := by
  rw [captureDuplicate, capture_severe hr rfl, pendNote_eq (by exact ho)]

/-! ### The objection count (R29) -/

theorem countObjection_below {s : State} (h : s.liu.link = .active) (hc : s.liu.objections + 1 < 16) :
    countObjection s = { s with liu := { s.liu with objections := s.liu.objections + 1 } } := by
  rw [countObjection, if_neg (by simp [h]), if_pos hc]
  rfl

theorem countObjection_mutes {s : State} (h : s.liu.link = .active) (hc : 16 ≤ s.liu.objections + 1) :
    countObjection s = capture ⟨.muted, none, none, none, none⟩
      { s with liu := { s.liu with link := .muted, objections := 0, cleans := 0 } } := by
  rw [countObjection, if_neg (by simp [h]), if_neg (by omega)]
  rfl

/-- Counting an objection is a matter of the LIU and the FCU, and touches no frame on the line. -/
theorem countObjection_eq (s : State) :
    countObjection s = { s with liu := (countObjection s).liu, fcu := (countObjection s).fcu } ∧
      (countObjection s).liu.own = s.liu.own := by
  unfold countObjection
  split
  · exact ⟨rfl, rfl⟩
  · split
    · exact ⟨rfl, rfl⟩
    · rw [capture_eq]
      exact ⟨rfl, rfl⟩

/-- What an objected frame of the part's own leads to (R25, R29). -/
theorem ownOutcome_objected (o : OwnFrame) (s : State) :
    Follows (countObjection (leaveLine s.afterEnd s)) (ownOutcome o true s) :=
  finish_follows_of (objected_core o (Work.start (countObjection (leaveLine s.afterEnd s))))

/-! ### RESET_ASSERTED (R25, R29, R154, R166, R180) -/

/-- The frame on the line is cut off: what counts it aside, the line is quiet and the blocks named here stand (R25). -/
theorem cutFrame_parts (s : State) : (cutFrame s).cfl = s.cfl ∧ (cutFrame s).memory = s.memory ∧
    (cutFrame s).wru.save = s.wru.save ∧ (cutFrame s).liu.own = none := by
  unfold cutFrame
  split
  · rename_i o ho
    obtain ⟨heq, hown⟩ := countObjection_eq (leaveLine s.afterEnd s)
    have k := ownOutcome_objected o s
    rw [k.cfl, k.memory, k.field (fun u => u.wru.save) (fun _ => rfl), heq]
    exact ⟨rfl, rfl, rfl, k.own_none (hown.trans rfl)⟩
  · exact ⟨rfl, rfl, rfl, by assumption⟩

/-- A frame cut off counts as objected (R25, R29). -/
theorem cutFrame_counts {s : State} (ho : s.liu.own ≠ none) (ha : s.liu.link = .active) :
    (s.liu.objections + 1 < 16 → (cutFrame s).liu.objections = s.liu.objections + 1 ∧ (cutFrame s).liu.link = .active) ∧
      (16 ≤ s.liu.objections + 1 → (cutFrame s).liu.objections = 0 ∧ (cutFrame s).liu.link = .muted) := by
  obtain ⟨o, ho⟩ := Option.ne_none_iff_exists'.mp ho
  have k := ownOutcome_objected o s
  have hcut : cutFrame s = ownOutcome o true s := by rw [cutFrame, ho]
  rw [hcut, k.objections, k.link]
  refine ⟨fun h => ?_, fun h => ?_⟩
  · rw [countObjection_below (s := leaveLine s.afterEnd s) ha h]
    exact ⟨rfl, ha⟩
  · rw [countObjection_mutes (s := leaveLine s.afterEnd s) ha h, capture_eq]
    exact ⟨rfl, rfl⟩

/-- A save cut short ends FAILED, its block dirty again and torn in the memory (R166). -/
theorem cutSave_some {s : State} {v : Save} (hv : s.wru.save = some v) (ho : s.liu.own = none) : cutSave s = { s with
    wru := { s.wru with
      save := none, dirty := put s.wru.dirty v.block true, saveEnd := some (.saveFailed v.written (some v.block)) }
    memory := { s.memory with torn := put s.memory.torn v.block true } } := by
  simp only [cutSave, hv, saveFail]
  rw [renew_none (by exact ho)]

theorem cutSave_none {s : State} (hv : s.wru.save = none) : cutSave s = s := by rw [cutSave, hv]

/-- The state once the frame on the line and the save in flight have been cut. -/
theorem resetAsserted_eq {s r : State} (h : s.cfl.phase ≠ .inReset) (hr : r = cutSave (cutFrame (enterReset s))) :
    resetAsserted s = { r with
      liu := { r.liu with hearing := none }
      snu := { r.snu with sensing := none, senseEnd := none, ended := none } } := by
  subst hr
  exact if_neg h

/-- Settles O3: the frame, the save and the sense are cut one after another. -/
theorem resetAssertedCutsWork : Obligations.ResetAssertedCutsWork := by
  intro dt s
  rw [exec_resetAsserted]
  refine ⟨fun h => by rw [resetAsserted, if_pos (by simpa using h)], fun h => ⟨_, rfl, ?_⟩⟩
  rw [resetAsserted_eq (by simpa using h) rfl]
  obtain ⟨hcfl, hmem, hsave, hown⟩ := cutFrame_parts (enterReset (advance dt s))
  have hcounts := @cutFrame_counts (enterReset (advance dt s))
  have hidle : s.liu.own = none → cutFrame (enterReset (advance dt s)) = enterReset (advance dt s) := fun ho => by
    rw [cutFrame, enterReset, advance_liu, ho]
  generalize cutFrame (enterReset (advance dt s)) = r at hcfl hmem hsave hown hcounts hidle ⊢
  simp only [enterReset, advance_cfl, advance_liu, advance_memory, advance_wru] at hcfl hmem hsave hcounts
  have hcells : r.memory.cells = s.memory.cells := by rw [hmem]
  cases hv : s.wru.save with
  | none =>
    rw [cutSave_none (hsave.trans hv)]
    refine ⟨hcfl, hown, rfl, rfl, rfl, rfl, hcells, hsave.trans hv, (fun v hv' => by cases hv'),
      hcounts, fun ho _ => ?_⟩
    rw [hidle ho, enterReset]
    simp only [advance_liu, advance_cfl, advance_snu]
  | some v =>
    rw [cutSave_some (hsave.trans hv) hown]
    refine ⟨hcfl, hown, rfl, rfl, rfl, rfl, hcells, rfl, (fun v' hv' => ?_), hcounts,
      fun _ hn => by cases hn⟩
    cases hv'
    exact ⟨look_put_same _ _ _, look_put_same _ _ _, rfl⟩

/-! ### Starting a frame (R17–R21, R26, R36) -/

theorem quietLine_parts {s : State} (h : s.quietLine = true) : s.running = true ∧ s.liu.own = none ∧ s.liu.hearing = none := by
  simpa [State.quietLine, and_assoc] using h

/-- What the start of a frame does on a line without a frame of the part (R21). -/
theorem startFrame_eq {s : State} (h : s.liu.own = none) :
    startFrame s = { s with liu := { s.liu with own := s.chosen.map s.ownFrameOf } } := by
  unfold startFrame
  cases s.chosen with
  | none =>
    dsimp only [Option.map_none]
    rw [← h]
  | some m => rfl

/-- The choice of a frame and its content ask of the LIU its state alone. -/
theorem chosen_updLiu {s : State} {f : Liu → Liu} (h : (f s.liu).link = s.liu.link) : (s.updLiu f).chosen = s.chosen := by
  show (if (f s.liu).link ≠ .active then none else _) = _
  rw [h]
  rfl

theorem idleCount_counting {s : State} (h : s.liu.idle = false) (hn : (s.now - s.liu.idleFrom).toNat < 2147483648) :
    s.idleCount = min 11 (s.now - s.liu.idleFrom).toNat := by
  rw [State.idleCount, if_neg (by simp [h]), if_pos (by simpa [reached] using hn)]

theorem idlePoint_early {s : State} (h : s.idleCount < 11) : idlePoint s = s := by
  rw [idlePoint, if_neg]
  simp [State.idleReached, Nat.ne_of_lt h]

/-- The state that the idle point finds once it is noted (R20). -/
def idleNoted (s : State) : State := s.updLiu (fun u => { u with synced := true, idle := true, discarding := false })

theorem idlePoint_reached {s : State} (hq : s.quietLine = true) (h : s.idleCount = 11) :
    idlePoint s = if s.liu.rx = [] then startFrame (idleNoted s) else idleNoted s := by
  rw [idlePoint, if_pos (by simp [State.idleReached, hq, h])]
  rfl

theorem deferredStart_due {s : State} (hq : s.quietLine = true) (hs : s.liu.synced = true) (hi : s.liu.idle = true)
    (hx : s.liu.rx = []) : deferredStart s = startFrame s := by
  rw [deferredStart, if_pos (by simp [hq, hs, hi, hx])]

/-- Settles O11: the idle point is noted at 11 released bit times, and the frame chosen starts where the buffer is empty. -/
theorem idlePointStartsChosenFrame : Obligations.IdlePointStartsChosenFrame := by
  intro dt s s1 started hs1 hquiet hstarted
  obtain ⟨-, hown, -⟩ := quietLine_parts hquiet
  have hliu : s1.liu = s.liu := by rw [hs1, advance_liu]
  have hstarted' : started = s1.chosen.map s1.ownFrameOf := hstarted
  rw [exec_idlePoint, exec_deferredFrameStart, ← hs1]
  rw [← hliu]
  refine ⟨fun hidle n hn hlt => ?_, fun h => by rw [idlePoint_early h], fun h hx => ?_, fun h hx => ?_, fun hx hsync hidle => ?_⟩
  · rw [idleCount_counting hidle (hn ▸ hlt), hn]
  · have hchosen : (idleNoted s1).chosen = s1.chosen := chosen_updLiu rfl
    rw [idlePoint_reached hquiet h, if_pos hx, startFrame_eq (s := idleNoted s1) hown, hchosen, hstarted']
    rfl
  · rw [idlePoint_reached hquiet h, if_neg hx]
    rfl
  · rw [deferredStart_due hquiet hsync hidle hx, startFrame_eq hown, hstarted']

/-! ### Leaving the line (R21, R23) -/

/-- An entry that neither waits in its release handshake nor with its monitor's wait passed goes on as it was (R75, R81, R92). -/
theorem claimOff_idle {e : Entry} {w : Work} (hm : ¬ ((w.ent e).monitor = .claiming ∧ (w.ent e).deadline = none))
    (ho : (w.ent e).state ≠ .awaitOpened) (hb : (w.ent e).state ≠ .releaseBlocked) : claimOff e w = w := by
  have hdrop : dropClaimed e w = w := by
    unfold dropClaimed
    dsimp only
    split
    · exact if_neg fun h => h.1.elim ho hb
    · rfl
  unfold claimOff
  dsimp only
  rw [if_neg hm, hdrop]
  exact if_neg fun h => h.1.elim ho hb

/-- A frame that carries no CLAIM leaves nothing to act on (R21). -/
theorem offLine_other {m : Owed} (h : ∀ e r, m ≠ .claim e r) (w : Work) : offLine m w = w := by
  cases m with
  | claim e r => exact absurd rfl (h e r)
  | _ => rfl

/-- Settles O13: the line is left with the mark standing, and only an entry that waited for its CLAIM acts. -/
theorem lostContentionKeepsMark : Obligations.LostContentionKeepsMark := by
  intro dt s u o hrun hown hu
  have hleft : leaveLine ((advance dt s).frameOver o) (advance dt s) = u := by
    rw [hu, leaveLine, State.updLiu, advance_liu]
  have hent : ∀ e, u.entry e = s.entry e := fun e => by
    rw [hu]
    exact advance_entry dt s e
  have hexec : exec (.lostContention dt) s = .next (finish (offLine o.owed (Work.start u))) := by
    rw [exec_lostContention, lostContention, advance_liu, hown]
    dsimp only
    rw [if_pos (by simpa using hrun), hleft]
  refine ⟨_, hexec, finish_follows_of (offLine_core _ _), fun h => ?_⟩
  have hidle : offLine o.owed (Work.start u) = Work.start u := by
    cases hm : o.owed with
    | claim e r =>
      obtain ⟨ho, hb, hc⟩ := h e r hm
      have hwork : (Work.start u).ent e = s.entry e := hent e
      exact claimOff_idle (by rw [hwork]; exact hc) (by rw [hwork]; exact ho) (by rw [hwork]; exact hb)
    | _ => rfl
  rw [hidle, finish_start]

/-- Settles O14: the frame is abandoned, the LIU latches, and only an entry that waited for its CLAIM acts. -/
theorem readbackFaultLatches : Obligations.ReadbackFaultLatches := by
  intro dt s u o hrun hown hu
  have hlatched : latch o.frame.kind (discardRest (leaveLine ((advance dt s).frameOver o) (advance dt s))) =
      captureDuplicate o.frame.kind u := by
    rw [hu, latch]
    simp only [discardRest, leaveLine, State.updLiu, advance_liu]
    rfl
  have hexec : exec (.readbackFault dt) s =
      .next (finish (offLine o.owed (Work.start (captureDuplicate o.frame.kind u)))) := by
    rw [exec_readbackFault, readbackFault, advance_liu, hown]
    dsimp only
    rw [if_pos (by simpa using hrun), hlatched]
  have hfollows : Follows (captureDuplicate o.frame.kind u) (finish (offLine o.owed (Work.start (captureDuplicate o.frame.kind u)))) :=
    finish_follows_of (offLine_core _ _)
  refine ⟨_, hexec, hfollows, ?_, fun h => ?_⟩
  · rw [hfollows.link, link_of_wire (captureDuplicate_wire _ _), hu]
  · have hurun : u.running = true := by
      rw [hu]
      exact (advance_running dt s).trans hrun
    have hfcu : u.fcu.record = s.fcu.record ∧ u.fcu.notes = s.fcu.notes := by
      rw [hu]
      exact ⟨advance_record dt s, advance_notes dt s⟩
    have hcaptured := captureDuplicate_eq hurun (by rw [hu]) o.frame.kind
    rw [hfcu.1, hfcu.2] at hcaptured
    rw [offLine_other h, finish_start]
    exact hcaptured

/-! ### The end of a check field (R23, R24, R30, R31) -/

theorem checkFieldEnd_discards {s : State} (h : Sampled) (hq : s.quietLine = true) (hs : s.liu.synced = true)
    (hd : s.liu.discarding = true) : checkFieldEnd h s =
      s.updLiu (fun u => { u with discarding := false, idle := false, idleFrom := later s.now 9 }) := by
  rw [checkFieldEnd, if_pos (by simp [hq, hs]), if_pos hd]

/-- What the part makes of a heard frame at the end of its check field (R24, R31). -/
def State.judges (s : State) (h : Sampled) : Hearing :=
  ⟨if sampledDamaged h then none else some (sampledFrame h),
    decide (s.liu.link ≠ .duplicateLatch) && (sampledDamaged h || s.objectsTo (sampledFrame h)), s.now⟩

theorem checkFieldEnd_judges {s : State} (h : Sampled) (hq : s.quietLine = true) (hs : s.liu.synced = true)
    (hd : s.liu.discarding = false) : checkFieldEnd h s =
      (countClean (sampledDamaged h) s).updLiu (fun u => { u with hearing := some (s.judges h), idle := false }) := by
  rw [checkFieldEnd, if_pos (by simp [hq, hs]), if_neg (by simp [hd])]
  rfl

/-- The clean count, with no frame of the part's own on the line (R30). -/
theorem countClean_eq {s : State} (ho : s.liu.own = none) (damaged : Bool) : countClean damaged s =
    if s.liu.link ≠ .muted then s
    else if damaged = true then { s with liu := { s.liu with cleans := 0 } }
    else if s.liu.cleans + 1 < 32 then { s with liu := { s.liu with cleans := s.liu.cleans + 1 } }
    else { s with
      liu := { s.liu with link := .active, objections := 0, cleans := 0 }
      fcu := { s.fcu with notes := put s.fcu.notes noteMutedLeft (some 0#16) } } := by
  unfold countClean
  split
  · rfl
  · split
    · rfl
    · split
      · rfl
      · rw [pendNote_eq (by exact ho)]
        rfl

/-- The clean count leaves the buffer, the roster and the line alone. -/
theorem countClean_parts {s : State} (ho : s.liu.own = none) (damaged : Bool) : (countClean damaged s).liu.rx = s.liu.rx ∧
    (countClean damaged s).liu.roster = s.liu.roster ∧ (countClean damaged s).liu.own = none := by
  rw [countClean_eq ho]
  split
  · exact ⟨rfl, rfl, ho⟩
  · split
    · exact ⟨rfl, rfl, ho⟩
    · split <;> exact ⟨rfl, rfl, ho⟩

theorem sampledDamaged_iff (h : Sampled) : sampledDamaged h = true ↔
    12 < h.length.val ∨ frameCheck h.prio h.kind h.src h.length.val h.payload ≠ h.check := by
  simp [sampledDamaged]

/-- A MAINT writes no record, so that room is no matter to it (R48). -/
theorem lacksRoom_maint (s : State) (n : Node) (op : MaintOp) : s.lacksRoom (.maint n op) = false := rfl

/-- The grounds of an objection to an undamaged frame (R24). -/
theorem objectsTo_iff (s : State) (f : Frame) : s.objectsTo f = true ↔ 4 ≤ s.liu.rx.length ∨
    (∃ op, parse f = some (.maint s.cfl.node op) ∧ s.afterBuffer.maintOwed = true) ∨
    ∃ m, parse f = some m ∧ f.src ≠ s.cfl.node ∧ s.afterBuffer.lacksRoom m = true := by
  rw [State.objectsTo, Bool.or_eq_true, decide_eq_true_eq]
  refine or_congr_right ?_
  cases hp : parse f with
  | none => simp
  | some m =>
    cases m with
    | maint target op => simp [lacksRoom_maint, and_assoc]
    | _ => simp

/-- Settles O15: what the part makes of the frame is fixed before its clean count. -/
theorem checkFieldEndDecidesObjection : Obligations.CheckFieldEndDecidesObjection := by
  intro dt h s s1 hs1 hquiet hsync
  obtain ⟨-, hown, -⟩ := quietLine_parts hquiet
  have hliu : s1.liu = s.liu := by rw [hs1, advance_liu]
  have hcfl : s1.cfl = s.cfl := by rw [hs1, advance_cfl]
  rw [exec_checkFieldEnd, ← hs1]
  rw [← hliu] at hsync ⊢
  rw [← hcfl]
  refine ⟨fun hd => by rw [checkFieldEnd_discards h hquiet hsync hd]; rfl, fun hd => ⟨_, s1.judges h, rfl, ?_⟩⟩
  obtain ⟨hrx, hroster, hnone⟩ := countClean_parts hown (sampledDamaged h)
  rw [checkFieldEnd_judges h hquiet hsync hd]
  refine ⟨rfl, rfl, hrx, hroster, hnone, rfl, sampledDamaged_iff h, ?_⟩
  simp only [State.judges, Bool.and_eq_true, decide_eq_true_eq, Bool.or_eq_true, objectsTo_iff]
  rfl

/-- Settles O16: the clean count by the link state, the damage and the 32nd frame. -/
theorem mutedCountsCleanFrames : Obligations.MutedCountsCleanFrames := by
  intro dt h s s1 hs1 hquiet hsync hd
  obtain ⟨-, hown, -⟩ := quietLine_parts hquiet
  have hliu : s1.liu = s.liu := by rw [hs1, advance_liu]
  rw [exec_checkFieldEnd, ← hs1]
  rw [← hliu] at hsync hd ⊢
  refine ⟨_, rfl, ?_⟩
  rw [checkFieldEnd_judges h hquiet hsync hd, countClean_eq hown]
  refine ⟨fun hm => ?_, fun hm hdam => ?_, fun hm hdam hc => ?_, fun hm hdam hc => ?_⟩
  · rw [if_pos hm]
    exact ⟨rfl, rfl, rfl⟩
  · rw [if_neg (by simp [hm]), if_pos hdam]
    exact ⟨hm, rfl⟩
  · rw [if_neg (by simp [hm]), if_neg (by simp [hdam]), if_pos hc]
    exact ⟨hm, rfl⟩
  · rw [if_neg (by simp [hm]), if_neg (by simp [hdam]), if_neg (by omega)]
    exact ⟨rfl, rfl, rfl, look_put_same _ _ _⟩

/-! ### The objection slot of a heard frame (R25, R26, R31) -/

/-- Settles O17: the frame joins the buffer on the three grounds, or nothing but the line changes. -/
theorem slotReadDeliversHeardFrame : Obligations.SlotReadDeliversHeardFrame := by
  intro dt driven s s1 h hs1 hrun hown hh
  have hliu : s1.liu = s.liu := by rw [hs1, advance_liu]
  have hrun1 : s1.running = true := by rw [hs1, advance_running, hrun]
  rw [exec_objectionSlotRead, ← hs1, slotRead, if_pos hrun1]
  rw [← hliu] at hown hh ⊢
  rw [hown, hh]
  dsimp only
  simp only [State.updLiu, State.afterEnd, deliver]
  cases h.frame with
  | none => simp
  | some f =>
    by_cases hjoin : driven = false ∧ h.objecting = false ∧ s1.liu.rx.length < 4
    · obtain ⟨h1, h2, h3⟩ := hjoin
      simp [h1, h2, h3]
    · rw [if_neg hjoin]
      have : (driven || h.objecting || decide (4 ≤ s1.liu.rx.length)) = true := by
        simp only [Bool.or_eq_true, decide_eq_true_eq]
        by_contra hn
        simp only [not_or, Bool.not_eq_true, Nat.not_le] at hn
        exact hjoin ⟨hn.1.1, hn.1.2, hn.2⟩
      simp [this]

end Sys2Proof.Machine
end

