-- ==== Sys2Proof/Proofs/OwedFrames.lean ====
section
/-! The choice of an owed frame (R36): the owed marks stand in the order of their arbitration values, and the first is chosen. -/

namespace Sys2Proof.Machine

/-- The place of a mark's kind in the order in which the LIU takes them (R36). -/
def Owed.order : Owed → Nat
  | .claim _ _ => 0 | .release _ _ => 1 | .cancel _ => 2 | .beacon => 3 | .status _ => 4 | .siteStatus _ => 5
  | .ready _ => 6 | .note _ => 7 | .wearAnswer => 8 | .saveEnd => 9 | .faultAnswer => 10

/-- The place of a mark among those of its kind: by entry, site or cause, and a RELEASE by its resource after that (R36, R93). -/
def Owed.index : Owed → Nat
  | .claim e _ => e.val
  | .release e r => e.val * 17 + r.val
  | .cancel e => e.val
  | .status e => e.val
  | .siteStatus i => i.val
  | .ready i => i.val
  | .note c => c.val
  | _ => 0

/-- A mark is taken no later than another. -/
def Owed.before (m m' : Owed) : Prop := m.order < m'.order ∨ m.order = m'.order ∧ m.index ≤ m'.index

theorem Owed.before_refl (m : Owed) : m.before m := .inr ⟨rfl, le_refl _⟩

/-- Some marks stand in order, all of a place below k. -/
def Ranked (k : Nat) (l : List Owed) : Prop := l.Pairwise Owed.before ∧ ∀ m ∈ l, m.order < k

/-- The marks of the next place join in order of their own. -/
theorem Ranked.append {k : Nat} {l l' : List Owed} (h : Ranked k l) (ho : ∀ m ∈ l', m.order = k)
    (hi : l'.Pairwise fun a b => a.index ≤ b.index) : Ranked (k + 1) (l ++ l') := by
  obtain ⟨hl, hk⟩ := h
  refine ⟨List.pairwise_append.2 ⟨hl, ?_, fun a ha b hb => .inl ?_⟩, fun m hm => ?_⟩
  · exact hi.imp_of_mem fun ha hb hab => .inr ⟨(ho _ ha).trans (ho _ hb).symm, hab⟩
  · rw [ho b hb]
    exact hk a ha
  · rcases List.mem_append.1 hm with hm | hm
    · exact Nat.lt_succ_of_lt (hk m hm)
    · rw [ho m hm]
      exact Nat.lt_succ_self k

/-- The marks of the first place. -/
theorem Ranked.first {l : List Owed} (ho : ∀ m ∈ l, m.order = 0) (hi : l.Pairwise fun a b => a.index ≤ b.index) : Ranked 1 l := by
  have h := Ranked.append (k := 0) (l := []) (l' := l) ⟨.nil, by simp⟩ ho hi
  rwa [List.nil_append] at h

theorem indices_sorted {α : Type} {n : Nat} (t : Table n α) (p : Fin n → α → Bool) : (indices t p).Pairwise (· < ·) :=
  List.Pairwise.filter _ (List.pairwise_lt_finRange n)

/-- Marks made from ascending indices, each placed by its index. -/
theorem map_sorted {n : Nat} {l : List (Fin n)} (hl : l.Pairwise (· < ·)) {f : Fin n → Owed} (hf : ∀ i, (f i).index = i.val) :
    (l.map f).Pairwise fun a b => a.index ≤ b.index := by
  refine List.pairwise_map.2 (hl.imp fun {i j} hij => ?_)
  rw [hf, hf]
  exact le_of_lt hij

/-- A RELEASE of an entry is owed for a resource that it holds (R93). -/
theorem mem_releaseMarks {s : State} {e : Entry} {m : Owed} (h : m ∈ s.releaseMarks e) : ∃ r, m = .release e r := by
  obtain ⟨r, -, rfl⟩ := List.mem_map.1 h
  exact ⟨r, rfl⟩

theorem releases_sorted (s : State) :
    ((List.finRange 64).flatMap s.releaseMarks).Pairwise fun a b => a.index ≤ b.index := by
  refine List.pairwise_flatMap.2 ⟨fun e _ => ?_, (List.pairwise_lt_finRange 64).imp fun {e f} hef a ha b hb => ?_⟩
  · refine List.pairwise_map.2 ((List.Pairwise.filter _ (indices_sorted _ _)).imp fun {r q} hrq => ?_)
    have : r.val < q.val := hrq
    simp only [Owed.index]
    omega
  · obtain ⟨r, rfl⟩ := mem_releaseMarks ha
    obtain ⟨q, rfl⟩ := mem_releaseMarks hb
    have : e.val < f.val := hef
    simp only [Owed.index]
    omega

theorem claims_sorted (s : State) : ((List.finRange 64).filterMap (fun e => (look s.rcu.claims e).map (fun r => Owed.claim e r))).Pairwise
    fun a b => a.index ≤ b.index := by
  refine List.pairwise_filterMap.2 ((List.pairwise_lt_finRange 64).imp fun {e f} hef a ha b hb => ?_)
  obtain ⟨r, -, rfl⟩ := Option.map_eq_some_iff.1 ha
  obtain ⟨q, -, rfl⟩ := Option.map_eq_some_iff.1 hb
  exact le_of_lt hef

/-- A mark that stands alone in its place. -/
theorem single_sorted (c : Bool) (m : Owed) : (if c then [m] else []).Pairwise fun a b => a.index ≤ b.index := by
  cases c <;> simp

theorem single_order {c : Bool} {m m' : Owed} (h : m' ∈ if c then [m] else []) : m' = m := by
  cases c <;> simp at h
  exact h

/-- The owed marks stand in the order in which the LIU takes them (R36). -/
theorem owedMarks_ranked (s : State) : Ranked 11 s.owedMarks := by
  have placed : ∀ {n : Nat} {l : List (Fin n)} {f : Fin n → Owed} {k : Nat}, (∀ i, (f i).order = k) →
      ∀ m ∈ l.map f, m.order = k := by
    intro n l f k hf m hm
    obtain ⟨i, -, rfl⟩ := List.mem_map.1 hm
    exact hf i
  have alone : ∀ {c : Bool} {m : Owed}, ∀ m' ∈ (if c then [m] else []), m'.order = m.order := fun m' hm' => by
    rw [single_order hm']
  have claims : Ranked 1 ((List.finRange 64).filterMap (fun e => (look s.rcu.claims e).map (fun r => Owed.claim e r))) := by
    refine Ranked.first (fun m hm => ?_) (claims_sorted s)
    obtain ⟨e, -, he⟩ := List.mem_filterMap.1 hm
    obtain ⟨r, -, rfl⟩ := Option.map_eq_some_iff.1 he
    rfl
  have releases := claims.append (l' := (List.finRange 64).flatMap s.releaseMarks) (fun m hm => by
    obtain ⟨e, -, he⟩ := List.mem_flatMap.1 hm
    obtain ⟨r, rfl⟩ := mem_releaseMarks he
    rfl) (releases_sorted s)
  unfold State.owedMarks
  refine Ranked.append (Ranked.append (Ranked.append (Ranked.append (Ranked.append (Ranked.append (Ranked.append (Ranked.append
    (Ranked.append releases (placed fun _ => rfl) ?_) alone ?_) (placed fun _ => rfl) ?_) (placed fun _ => rfl) ?_)
    (placed fun _ => rfl) ?_) (placed fun _ => rfl) ?_) alone ?_) alone ?_) alone ?_
  · exact map_sorted (indices_sorted _ _) fun _ => rfl
  · exact single_sorted _ _
  · exact map_sorted (indices_sorted _ _) fun _ => rfl
  · exact map_sorted (indices_sorted _ _) fun _ => rfl
  · exact map_sorted (indices_sorted _ _) fun _ => rfl
  · exact map_sorted (indices_sorted _ _) fun _ => rfl
  · exact single_sorted _ _
  · exact single_sorted _ _
  · exact single_sorted _ _

/-- The arbitration value of a mark's frame without its node, by the place of its kind (R18, R32). -/
def orderValue (k : Nat) : Nat := if k < 4 then 1024 + 64 * (k + 2) else 3072 + 64 * min 15 (max 12 (k + 7))

theorem orderValue_mono {j k : Nat} (h : j ≤ k) : orderValue j ≤ orderValue k := by
  unfold orderValue
  split <;> split <;> omega

theorem orderValue_order (m : Owed) : (Kind.prio m.kind).val * 1024 + (Kind.code m.kind).val * 64 = orderValue m.order := by
  cases m <;> simp [Owed.kind, Kind.prio, Kind.code, orderValue, Owed.order]

theorem arbitrationValue_frameOf (s : State) (m : Owed) : arbitrationValue (s.frameOf m) = orderValue m.order + s.cfl.node.val :=
  congrArg (· + s.cfl.node.val) (orderValue_order m)

/-- A mark taken no later than another has no higher an arbitration value. -/
theorem Owed.before.value {m m' : Owed} (h : m.before m') (s : State) :
    arbitrationValue (s.frameOf m) ≤ arbitrationValue (s.frameOf m') := by
  rw [arbitrationValue_frameOf, arbitrationValue_frameOf]
  have : m.order ≤ m'.order := h.elim le_of_lt fun h => le_of_eq h.1
  exact Nat.add_le_add_right (orderValue_mono this) _

/-- Of two marks of one kind the one with the lower place is taken first. -/
theorem Owed.before.index_le {m m' : Owed} (h : m.before m') (ho : m.order = m'.order) : m.index ≤ m'.index :=
  h.elim (fun hlt => absurd ho (Nat.ne_of_lt hlt)) And.right

/-- The RELEASE marks of an entry are taken by their resource (R93). -/
theorem Owed.before.release_le {e e' : Entry} {r r' : Resource} (h : (Owed.release e r).before (.release e' r')) :
    e < e' ∨ e = e' ∧ r ≤ r' := by
  have hle : e.val * 17 + r.val ≤ e'.val * 17 + r'.val := h.index_le rfl
  rcases lt_trichotomy e e' with hlt | heq | hgt
  · exact .inl hlt
  · subst heq
    exact .inr ⟨rfl, Nat.le_of_add_le_add_left hle⟩
  · have : e'.val < e.val := hgt
    omega

/-- The mark chosen outside the listen period comes before every other (R36). -/
theorem chosen_before {s : State} (ha : s.liu.link = .active) (hl : s.cfl.listen = false) {m : Owed} (hm : s.chosen = some m) :
    m ∈ s.owedMarks ∧ ∀ m' ∈ s.owedMarks, m.before m' := by
  rw [State.chosen, if_neg (by simp [ha]), if_neg (by simp [hl])] at hm
  obtain ⟨hsorted, -⟩ := owedMarks_ranked s
  cases hmarks : s.owedMarks with
  | nil =>
    rw [hmarks] at hm
    cases hm
  | cons a rest =>
    rw [hmarks] at hm hsorted
    cases hm
    refine ⟨List.mem_cons_self, fun m' hm' => ?_⟩
    rcases List.mem_cons.1 hm' with rfl | hm'
    · exact Owed.before_refl _
    · exact (List.pairwise_cons.1 hsorted).1 m' hm'

/-- Settles O12: the marks stand in order, so that the first has the lowest place of all. -/
theorem chosenFrameHasLowestRank : Obligations.ChosenFrameHasLowestRank := by
  intro s
  refine ⟨fun h => by rw [State.chosen, if_pos h], fun ha hl m hm => ?_, fun ha hl => ⟨fun hn => ?_, fun m hm => ?_⟩⟩
  · rw [State.chosen, if_neg (by simp [ha]), if_pos hl] at hm
    split at hm
    · rename_i hb
      cases hm
      exact ⟨rfl, (Bool.and_eq_true_iff.1 hb).1⟩
    · cases hm
  · rw [State.chosen, if_neg (by simp [ha]), if_neg (by simp [hl])] at hn
    exact List.head?_eq_none_iff.1 hn
  · obtain ⟨hmem, hbefore⟩ := chosen_before ha hl hm
    refine ⟨hmem, fun m' hm' => ?_⟩
    have h := hbefore m' hm'
    refine ⟨h.value s, ?_, ?_, ?_, ?_, ?_, ?_, ?_, ?_⟩
    · rintro e r e' r' rfl rfl
      exact h.index_le rfl
    · rintro e r e' r' rfl rfl
      exact h.release_le
    · rintro e e' rfl rfl
      exact h.index_le rfl
    · rintro e e' rfl rfl
      exact h.index_le rfl
    · rintro i e' rfl rfl
      exact h.elim (Nat.lt_asymm (Nat.lt_succ_self 4)) fun heq => Nat.succ_ne_self 4 heq.1
    · rintro i i' rfl rfl
      exact h.index_le rfl
    · rintro i i' rfl rfl
      exact h.index_le rfl
    · rintro c c' rfl rfl
      exact h.index_le rfl

end Sys2Proof.Machine
end

