-- ==== Sys2Proof/Proofs/HeardReports.lean ====
section
/-! Heard frames that no block but the LIU acts on (R27, R28, R32, R33, R131): malformed ones, those of the part's own number, the
reports of other nodes, and SOURCE with the held waves that it lets go. -/

namespace Sys2Proof.Machine

/-! ### A frame at the front of the buffer -/

theorem dispatchFront_front {fits : State → Frame → Bool} {s : State} {f : Frame} {rest : List Frame} (hr : s.running = true)
    (hx : s.liu.rx = f :: rest) (hf : fits s f = true) : dispatchFront fits s = takeFrame f (popFrame s) := by
  unfold dispatchFront
  rw [hx]
  dsimp only
  rw [if_pos (by simp [hr, hf])]

/-- A message of a MAINT names a target and an operation. -/
theorem maint_of_kind {m : Msg} (h : m.kind = .maint) : ∃ target op, m = .maint target op := by
  cases m
  case maint target op => exact ⟨target, op, rfl⟩
  all_goals cases h

/-- The command of a frame's row takes it from the buffer, whether or not it is well-formed (R26, R27). -/
theorem exec_frameCommand {dt : Nat} {s : State} {f : Frame} {rest : List Frame} (hr : s.running = true)
    (hx : s.liu.rx = f :: rest) :
    exec (frameCommand dt s.cfl.node f) s = .next (takeFrame f (popFrame (advance dt s))) := by
  have key : ∀ fits : State → Frame → Bool, fits (advance dt s) f = true →
      plainEvent dt (dispatchFront fits) s = .next (takeFrame f (popFrame (advance dt s))) := fun fits hf => by
    rw [plainEvent, dispatchFront_front (by simpa using hr) (by rw [advance_liu]; exact hx) hf]
  cases hk : f.kind
  case maint =>
    cases hp : parse f with
    | none =>
      rw [show frameCommand dt s.cfl.node f = .maintForAnotherTargetNode dt by unfold frameCommand; rw [hk]; simp only [hp]]
      exact key _ (by simp [isMaintElsewhere, hk, hp])
    | some m =>
      obtain ⟨target, op, rfl⟩ := maint_of_kind ((parse_kind hp).symm.trans hk)
      by_cases ht : target = s.cfl.node
      · have fits : ∀ p : MaintOp → Bool, p op = true → isMaint p (advance dt s) f = true := fun p h => by
          simp [isMaint, hk, hp, ht, h]
        rw [frameCommand, hk]
        simp only [hp, ht, if_true]
        cases op with
        | saveWear => exact key _ (fits MaintOp.isSaveWear rfl)
        | readWear => exact key _ (fits MaintOp.isReadWear rfl)
        | clearMarks => exact key _ (fits MaintOp.isClearMarks rfl)
        | readFault => exact key _ (fits MaintOp.isReadFault rfl)
        | clearFault => exact key _ (fits MaintOp.isClearFault rfl)
      · rw [frameCommand, hk]
        simp only [hp, ht, if_false]
        exact key _ (by simp [isMaintElsewhere, hk, hp, ht])
  all_goals
    rw [frameCommand, hk]
    exact key _ (by simp [isKind, hk])

theorem linkDriven_latched {s : State} (h : s.liu.link = .duplicateLatch) : s.linkDriven = false := by
  simp [State.linkDriven, h]

/-- Settles O20: a malformed frame leaves the buffer alone, one of the own number latches. -/
theorem malformedAndDuplicateFrames : Obligations.MalformedAndDuplicateFrames := by
  intro dt s u f rest hrun hx hu
  have hpop : popFrame (advance dt s) = u := by rw [hu, popFrame, State.updLiu, advance_liu, hx]; rfl
  have hnode : u.cfl.node = s.cfl.node := by
    rw [hu]
    exact congrArg Cfl.node (advance_cfl dt s)
  have hhear : u.liu.hearing = s.liu.hearing := by rw [hu]
  rw [exec_frameCommand hrun hx, hpop]
  refine ⟨fun hp => by rw [takeFrame, hp], fun hp hsrc => ⟨_, rfl, ?_⟩⟩
  obtain ⟨m, hm⟩ := Option.ne_none_iff_exists'.mp hp
  have htake : takeFrame f u = latch f.kind u := by
    rw [takeFrame, hm]
    exact if_pos (hsrc.trans hnode.symm)
  rw [htake]
  refine ⟨linkDriven_latched ?_, ?_⟩
  · rw [latch, link_of_wire (captureDuplicate_wire _ _)]
    rfl
  · rw [← hhear]
    rfl

/-! ### Reports of other nodes (R32, R33) -/

/-- A message that no block but the LIU acts on: a report, or a MAINT for another node than the given one (R32). -/
def Msg.reports (node : Node) : Msg → Prop
  | .ready | .note | .maintDone => True
  | .maint n _ => n ≠ node
  | _ => False

theorem act_report {n : Node} {m : Msg} {w : Work} (h : m.reports w.st.cfl.node) : act n m w = w := by
  cases m
  case maint target op => exact if_neg h
  case ready | note | maintDone => rfl
  all_goals exact absurd h id

theorem heardFrom_report {node : Node} {m : Msg} (h : m.reports node) (x : RosterEntry) :
    heardFrom m x = { x with present := true, misses := 0, heard := true } := by
  cases m
  case maint | ready | note | maintDone => rfl
  all_goals exact absurd h id

/-- The roster takes a frame of a node and leaves the other nodes alone (R33). -/
theorem heard_roster (s : State) (dt : Nat) (f : Frame) (m : Msg) : (s.heard dt f m).liu.roster =
    put s.liu.roster f.src (heardFrom m (look s.liu.roster f.src)) := by
  rw [State.heard, hear, State.updLiu, popFrame, State.updLiu]
  simp only [advance_liu]

theorem heard_cfl (s : State) (dt : Nat) (f : Frame) (m : Msg) : (s.heard dt f m).cfl = s.cfl := advance_cfl dt s

/-- What the blocks act on once the held waves have been let go has the node of before. -/
theorem resumed_node (s : State) : (resumeHeld (Work.start s)).st.cfl.node = s.cfl.node :=
  congrArg Cfl.node (Follows.of_core (resumeHeld_core (Work.start s))).cfl

/-- The command of a report's row is the one that the statement names. -/
theorem frameCommand_report {dt : Nat} {s : State} {f : Frame} {m : Msg} {c : Instr} (h : s.Front f m)
    (hc : m = .ready ∧ c = .ready dt ∨ m = .note ∧ c = .note dt ∨ m = .maintDone ∧ c = .maintDone dt ∨
      (∃ n op, m = .maint n op ∧ n ≠ s.cfl.node) ∧ c = .maintForAnotherTargetNode dt) :
    frameCommand dt s.cfl.node f = c ∧ m.reports s.cfl.node := by
  have hk := parse_kind h.message
  obtain ⟨rfl, rfl⟩ | ⟨rfl, rfl⟩ | ⟨rfl, rfl⟩ | ⟨⟨n, op, rfl, hn⟩, rfl⟩ := hc
  case inr.inr.inr =>
    refine ⟨?_, hn⟩
    rw [frameCommand, hk]
    simp only [Msg.kind, h.message, hn, if_false]
  all_goals exact ⟨by rw [frameCommand, hk]; rfl, trivial⟩

/-- Settles O21: nothing acts on the frame but the roster and the held waves that it lets go. -/
theorem reportsUpdateRosterAlone : Obligations.ReportsUpdateRosterAlone := by
  intro dt s u f m c hfront hu hc
  obtain ⟨hcommand, hreport⟩ := frameCommand_report hfront hc
  have hexec : exec c s = .next (finish (resumeHeld (Work.start u))) := by
    rw [← hcommand, exec_front hfront, ← hu, act_report]
    rwa [resumed_node, hu, heard_cfl]
  have hroster := heard_roster s dt f m
  rw [← hu, heardFrom_report hreport] at hroster
  rw [hroster]
  refine ⟨look_put_same _ _ _, fun n hn => look_put_ne _ _ (Ne.symm hn), _, hexec, finish_follows_of (resumeHeld_core _),
    fun hh => ?_⟩
  rw [resumeHeld_none (by rw [hu]; exact (heard_held s dt f m).trans hh), finish_start]

/-! ### SOURCE (R33, R119, R131) -/

/-- One flag of a live mask set or cleared, the others as they were (R33). -/
theorem setFlag_getLsbD (mask : BitVec 16) (t i : Trunk) (on : Bool) :
    (setFlag mask t on).getLsbD i.val = if i = t then on else mask.getLsbD i.val := by
  have hone : (1#16 <<< t.val).getLsbD i.val = decide (i = t) := by
    rw [BitVec.getLsbD_shiftLeft, BitVec.getLsbD_one, Bool.eq_iff_iff]
    simp only [Bool.and_eq_true, decide_eq_true_eq, Bool.not_eq_true', decide_eq_false_iff_not, Fin.ext_iff]
    omega
  cases on
  · show (mask &&& ~~~(1#16 <<< t.val)).getLsbD i.val = _
    rw [BitVec.getLsbD_and, BitVec.getLsbD_not, hone]
    by_cases h : i = t <;> simp [h]
  · show (mask ||| (1#16 <<< t.val)).getLsbD i.val = _
    rw [BitVec.getLsbD_or, hone]
    by_cases h : i = t <;> simp [h]

theorem foldl_keepHold_wsu (vs : List Wave) (s : State) : (vs.foldl (fun s v => keepHold v s) s).wsu = s.wsu := by
  induction vs generalizing s with
  | nil => rfl
  | cons v vs ih =>
    rw [List.foldl_cons, ih]
    unfold keepHold
    split <;> rfl

/-- The waves that resume leave the held set (R119, R131). -/
theorem resumeHeld_wsu (w : Work) :
    (resumeHeld w).st.wsu = { w.st.wsu with held := w.st.wsu.held.filter (fun v => !w.st.resumes v) } := by
  unfold resumeHeld
  dsimp only
  rw [foldl_keepHold_wsu]

/-- Settles O22: the flag is the roster's, and the waves that resume join at the tail. -/
theorem sourceSetsLiveFlag : Obligations.SourceSetsLiveFlag := by
  intro dt s u f tr on hfront hu
  have hcommand : frameCommand dt s.cfl.node f = .source dt := by
    rw [frameCommand, parse_kind hfront.message]
    rfl
  have hexec : exec (.source dt) s = .next (finish (resumeHeld (Work.start u))) := by
    rw [← hcommand, exec_front hfront, ← hu]
    rfl
  have hfollows : Follows u (finish (resumeHeld (Work.start u))) := finish_follows_of (resumeHeld_core _)
  have hroster := hfollows.roster
  rw [show u.liu.roster = _ from hu ▸ heard_roster s dt f _] at hroster
  have hwsu : u.wsu.held = s.wsu.held ∧ u.wsu.queue = s.wsu.queue := by
    rw [hu]
    exact ⟨advance_held dt s, advance_queue dt s⟩
  refine ⟨_, hexec, hfollows, fun n hn => ?_, fun x y hx hy => ?_, fun hh => ?_, fun hq => ?_⟩
  · rw [hroster, look_put_ne _ _ (Ne.symm hn)]
  · rw [hroster, look_put_same] at hy
    subst hx hy
    exact ⟨rfl, rfl, rfl, rfl, fun i => setFlag_getLsbD _ _ _ _⟩
  · rw [resumeHeld_none (hwsu.1.trans hh), finish_start]
  · have hqueue : (resumeHeld (Work.start u)).st.wsu.queue = s.wsu.queue := by
      rw [resumeHeld_wsu]
      exact hwsu.2
    rw [finish_joins rfl rfl (by rw [hqueue]; exact hq), resumeHeld_wsu]
    dsimp only
    rw [← hwsu.1, ← hwsu.2]
    exact ⟨rfl, rfl⟩

end Sys2Proof.Machine
end

