-- ==== Sys2Proof/Proofs/BeaconHeard.lean ====
section
/-! A BEACON heard (R33, R96, R98–R100): what it makes of one resource's view entry and holding, for each resource alone. -/

namespace Sys2Proof.Machine

/-- What the RCU holds for one resource: its view entry, the entry that holds it, and the unconfirmed mark. -/
structure Standing where
  view : ViewEntry
  held : Option Entry
  unconfirmed : Bool

def State.standing (s : State) (r : Resource) : Standing := ⟨s.viewOf r, look s.rcu.holdings r, look s.rcu.unconfirmed r⟩

/-- An own holding is yielded to a BEACON of node n (R98, R99). -/
def Standing.yields (n self : Node) (x : Standing) : Bool := x.unconfirmed || decide (n < self)

/-- A resource after a BEACON of node n that names it (R96, R98–R100). -/
def Standing.named (n self : Node) (x : Standing) : Standing :=
  match x.held with
  | some _ => if x.yields n self then ⟨x.view.install n none, none, false⟩ else x
  | none =>
    if x.view.holder = none then { x with view := x.view.install n none }
    else if x.view.holder = some n then { x with view := x.view.refresh } else x

/-- A resource after a BEACON of node n, its flag set or clear (R96). -/
def Standing.afterBeacon (n self : Node) (flag : Bool) (x : Standing) : Standing :=
  if flag then x.named n self else if x.view.holder = some n then { x with view := x.view.clear } else x

theorem Standing.named_held {n self : Node} {x : Standing} {e : Entry} (h : x.held = some e) :
    x.named n self = if x.yields n self then ⟨x.view.install n none, none, false⟩ else x := by
  rw [Standing.named, h]

theorem Standing.named_unheld {n self : Node} {x : Standing} (h : x.held = none) :
    x.named n self = if x.view.holder = none then { x with view := x.view.install n none }
      else if x.view.holder = some n then { x with view := x.view.refresh } else x := by
  unfold Standing.named
  split
  · simp_all
  · rfl

/-- A clear flag leaves the holding, and clears the sender's view entry (R96). -/
theorem Standing.afterBeacon_clear (n self : Node) (x : Standing) :
    x.afterBeacon n self false = { x with view := if x.view.holder = some n then x.view.clear else x.view } := by
  rw [Standing.afterBeacon, if_neg (by decide)]
  split <;> rfl

/-! ### One resource -/

theorem standing_of_rcu {s t : State} (h : t.rcu = s.rcu) (r : Resource) : t.standing r = s.standing r := by
  unfold State.standing State.viewOf
  rw [h]

theorem captureEntry_rcu (c : Cause) (x : NetEntry) (res : Option ResCode) (relay : Option Relay) (s : State) :
    (captureEntry c x res relay s).rcu = s.rcu := by
  rw [captureEntry, capture_eq]

theorem captureEntry_cfl (c : Cause) (x : NetEntry) (res : Option ResCode) (relay : Option Relay) (s : State) :
    (captureEntry c x res relay s).cfl = s.cfl := by
  rw [captureEntry, capture_eq]

/-- A holding dropped and a view entry set, of one resource. -/
theorem drop_install_standing (s : State) (r : Resource) (v : ViewEntry) :
    ((dropHolding r s).setView r v).standing r = ⟨v, none, false⟩ := by
  simp [State.standing, State.setView, dropHolding, State.viewOf]

theorem drop_install_standing_ne (s : State) {r q : Resource} (v : ViewEntry) (h : r ≠ q) :
    ((dropHolding r s).setView r v).standing q = s.standing q := by
  simp [State.standing, State.setView, dropHolding, State.viewOf, h]

theorem setView_standing (s : State) (r : Resource) (v : ViewEntry) :
    (s.setView r v).standing r = { s.standing r with view := v } := by
  simp [State.standing, State.setView, State.viewOf]

theorem setView_standing_ne (s : State) {r q : Resource} (v : ViewEntry) (h : r ≠ q) : (s.setView r v).standing q = s.standing q := by
  simp [State.standing, State.setView, State.viewOf, h]

/-- An own holding yielded (R98, R99). -/
theorem named_yields {n : Node} {r : Resource} {s : State} {e : Entry} (hh : look s.rcu.holdings r = some e)
    (hy : (s.standing r).yields n s.cfl.node = true) :
    (named n r none s).1.rcu = ((dropHolding r s).setView r ((s.viewOf r).install n none)).rcu := by
  unfold named
  simp only [hh]
  split
  · rfl
  · rename_i hu
    have hn : n < s.cfl.node := by simpa [Standing.yields, State.standing, hu] using hy
    rw [if_pos hn]
    exact captureEntry_rcu _ _ _ _ _

/-- An own holding kept, and a BEACON owed for it (R100). -/
theorem named_keeps {n : Node} {r : Resource} {s : State} {e : Entry} (hh : look s.rcu.holdings r = some e)
    (hy : (s.standing r).yields n s.cfl.node = false) : (named n r none s).1.rcu = { s.rcu with beaconOwed := true } := by
  simp only [Standing.yields, State.standing, Bool.or_eq_false_iff, decide_eq_false_iff_not] at hy
  obtain ⟨hu, hn⟩ := hy
  unfold named
  simp only [hh, hu, Bool.false_eq_true, if_false, hn]
  show { (captureEntry .claimClash (s.entry e) (some (resourceCode r)) none s).rcu with beaconOwed := true } = _
  rw [captureEntry_rcu]

/-- A resource that the card does not hold (R96). -/
theorem named_unheld {n : Node} {r : Resource} {s : State} (hh : look s.rcu.holdings r = none) :
    (named n r none s).1 = if (s.viewOf r).holder = none then s.setView r ((s.viewOf r).install n none)
      else if (s.viewOf r).holder = some n then s.setView r (s.viewOf r).refresh else s := by
  unfold named
  simp only [hh]
  split
  · rfl
  · split <;> rfl

theorem named_cfl (n : Node) (r : Resource) (s : State) : (named n r none s).1.cfl = s.cfl := by
  unfold named
  dsimp only
  split
  · split
    · rfl
    · split <;> exact captureEntry_cfl _ _ _ _ _
  · split
    · rfl
    · split <;> rfl

/-- A naming without a net, of the resource named (R96, R98–R100). -/
theorem named_standing (n : Node) (r : Resource) (s : State) :
    (named n r none s).1.standing r = (s.standing r).named n s.cfl.node := by
  cases hh : look s.rcu.holdings r with
  | some e =>
    rw [Standing.named_held (show (s.standing r).held = some e from hh)]
    cases hy : (s.standing r).yields n s.cfl.node
    · exact standing_of_rcu (s := { s with rcu := { s.rcu with beaconOwed := true } }) (named_keeps hh hy) r
    · exact (standing_of_rcu (named_yields hh hy) r).trans (drop_install_standing _ _ _)
  | none =>
    rw [Standing.named_unheld (show (s.standing r).held = none from hh), Machine.named_unheld hh]
    show _ = if (s.viewOf r).holder = none then _ else if (s.viewOf r).holder = some n then _ else _
    split
    · exact setView_standing _ _ _
    · split
      · exact setView_standing _ _ _
      · rfl

/-- A naming leaves the other resources alone. -/
theorem named_standing_ne (n : Node) {r q : Resource} (s : State) (h : r ≠ q) :
    (named n r none s).1.standing q = s.standing q := by
  cases hh : look s.rcu.holdings r with
  | some e =>
    cases hy : (s.standing r).yields n s.cfl.node
    · exact standing_of_rcu (s := { s with rcu := { s.rcu with beaconOwed := true } }) (named_keeps hh hy) q
    · exact (standing_of_rcu (named_yields hh hy) q).trans (drop_install_standing_ne _ _ h)
  | none =>
    rw [named_unheld hh]
    split
    · exact setView_standing_ne _ _ h
    · split
      · exact setView_standing_ne _ _ h
      · rfl

/-- An owed BEACON stays owed through a naming. -/
theorem named_beaconOwed (n : Node) (r : Resource) {s : State} (h : s.rcu.beaconOwed = true) :
    (named n r none s).1.rcu.beaconOwed = true := by
  cases hh : look s.rcu.holdings r with
  | some e =>
    cases hy : (s.standing r).yields n s.cfl.node
    · rw [named_keeps hh hy]
    · rw [named_yields hh hy]
      exact h
  | none =>
    rw [named_unheld hh]
    split
    · exact h
    · split <;> exact h

/-! ### A BEACON, resource by resource -/

theorem beaconResource_cfl (n : Node) (mask : BitVec 24) (r : Resource) (s : State) : (beaconResource n mask r s).1.cfl = s.cfl := by
  unfold beaconResource clearView
  split
  · exact named_cfl n r s
  · split <;> rfl

theorem beaconResource_standing (n : Node) (mask : BitVec 24) (r : Resource) (s : State) :
    (beaconResource n mask r s).1.standing r = (s.standing r).afterBeacon n s.cfl.node (mask.getLsbD r.val) := by
  unfold beaconResource Standing.afterBeacon
  split
  · exact named_standing n r s
  · unfold clearView
    split
    · rename_i hv
      rw [if_pos (by exact hv)]
      exact setView_standing _ _ _
    · rename_i hv
      rw [if_neg (by exact hv)]

theorem beaconResource_standing_ne (n : Node) (mask : BitVec 24) {r q : Resource} (s : State) (h : r ≠ q) :
    (beaconResource n mask r s).1.standing q = s.standing q := by
  unfold beaconResource
  split
  · exact named_standing_ne n s h
  · unfold clearView
    split
    · exact setView_standing_ne _ _ h
    · rfl

theorem beaconResource_beaconOwed (n : Node) (mask : BitVec 24) (r : Resource) {s : State} (h : s.rcu.beaconOwed = true) :
    (beaconResource n mask r s).1.rcu.beaconOwed = true := by
  unfold beaconResource
  split
  · exact named_beaconOwed n r h
  · unfold clearView
    split <;> exact h

theorem beaconView_cons (n : Node) (mask : BitVec 24) (r : Resource) (rs : List Resource) (s : State) :
    (beaconView n mask (r :: rs) s).1 = (beaconView n mask rs (beaconResource n mask r s).1).1 := rfl

/-- A resource not among those taken stands. -/
theorem beaconView_standing_not_mem (n : Node) (mask : BitVec 24) {rs : List Resource} {q : Resource} (s : State) (h : q ∉ rs) :
    (beaconView n mask rs s).1.standing q = s.standing q := by
  induction rs generalizing s with
  | nil => rfl
  | cons r rs ih =>
    rw [beaconView_cons, ih _ (List.not_mem_of_not_mem_cons h), beaconResource_standing_ne]
    exact (List.ne_of_not_mem_cons h).symm

/-- Each resource is taken once, and as it stood. -/
theorem beaconView_standing (n : Node) (mask : BitVec 24) {rs : List Resource} {q : Resource} (s : State) (hd : rs.Nodup)
    (hq : q ∈ rs) : (beaconView n mask rs s).1.standing q = (s.standing q).afterBeacon n s.cfl.node (mask.getLsbD q.val) := by
  induction rs generalizing s with
  | nil => cases hq
  | cons r rs ih =>
    obtain ⟨hr, hrs⟩ := List.nodup_cons.1 hd
    rw [beaconView_cons]
    by_cases h : r = q
    · subst h
      rw [beaconView_standing_not_mem n mask _ hr, beaconResource_standing]
    · rw [ih _ hrs ((List.mem_cons.1 hq).resolve_left (Ne.symm h)), beaconResource_standing_ne n mask s h, beaconResource_cfl]

theorem beaconView_beaconOwed (n : Node) (mask : BitVec 24) (rs : List Resource) {s : State} (h : s.rcu.beaconOwed = true) :
    (beaconView n mask rs s).1.rcu.beaconOwed = true := by
  induction rs generalizing s with
  | nil => exact h
  | cons r rs ih => exact ih (beaconResource_beaconOwed n mask r h)

/-- A holding kept against a BEACON that names it makes one owed (R100). -/
theorem beaconView_kept (n : Node) (mask : BitVec 24) {rs : List Resource} {q : Resource} {e : Entry} {s : State} (hq : q ∈ rs)
    (hm : mask.getLsbD q.val = true) (hh : look s.rcu.holdings q = some e) (hy : (s.standing q).yields n s.cfl.node = false) :
    (beaconView n mask rs s).1.rcu.beaconOwed = true := by
  induction rs generalizing s with
  | nil => cases hq
  | cons r rs ih =>
    rw [beaconView_cons]
    by_cases h : r = q
    · subst h
      refine beaconView_beaconOwed n mask rs ?_
      rw [beaconResource, if_pos hm, named_keeps hh hy]
    · have hs := beaconResource_standing_ne n mask s h
      refine ih ((List.mem_cons.1 hq).resolve_left (Ne.symm h)) ?_ ?_
      · exact (congrArg Standing.held hs).trans hh
      · rwa [hs, beaconResource_cfl]

/-! ### The command -/

theorem heard_rcu (s : State) (dt : Nat) (f : Frame) (m : Msg) : (s.heard dt f m).rcu = s.rcu := advance_rcu dt s

/-- What a BEACON leaves, up to what entries and reports do about it. -/
def State.afterBeacon (s : State) (dt : Nat) (f : Frame) (k : NodeKind) (mask : BitVec 24) (live : BitVec 16) : State :=
  (beaconView f.src mask (List.finRange 17) (resumeHeld (Work.start (s.heard dt f (.beacon k mask live)))).st).1

/-- BEACON: its effect on the view, and what follows from it. -/
theorem exec_beacon {dt : Nat} {s : State} {f : Frame} {k : NodeKind} {mask : BitVec 24} {live : BitVec 16}
    (h : s.Front f (.beacon k mask live)) : ∃ t, exec (.beacon dt) s = .next t ∧ Follows (s.afterBeacon dt f k mask live) t := by
  have hcommand : frameCommand dt s.cfl.node f = .beacon dt := by
    rw [frameCommand, parse_kind h.message]
    rfl
  refine ⟨_, hcommand ▸ exec_front h, finish_follows_of ?_⟩
  rw [show act f.src (.beacon k mask live) = beaconHeard f.src mask from rfl, beaconHeard_core, State.afterBeacon]

theorem Follows.rcu_standing {s t : State} (h : Follows s t) (r : Resource) : t.standing r = s.standing r := by
  have hu : t.rcu.unconfirmed = s.rcu.unconfirmed := h.field (fun u => u.rcu.unconfirmed) fun _ => rfl
  unfold State.standing State.viewOf
  rw [h.view, h.holdings, hu]

theorem Follows.beaconOwed {s t : State} (h : Follows s t) : t.rcu.beaconOwed = s.rcu.beaconOwed :=
  h.field (fun u => u.rcu.beaconOwed) fun _ => rfl

/-- The state in which the RCU takes a BEACON has the resources and the node of before. -/
theorem resumed_standing (s : State) (dt : Nat) (f : Frame) (m : Msg) (r : Resource) :
    (resumeHeld (Work.start (s.heard dt f m))).st.standing r = s.standing r :=
  ((Follows.of_core (resumeHeld_core (Work.start (s.heard dt f m)))).rcu_standing r).trans (standing_of_rcu (heard_rcu s dt f m) r)

/-- Each resource after a BEACON. -/
theorem afterBeacon_standing (s : State) (dt : Nat) (f : Frame) (k : NodeKind) (mask : BitVec 24) (live : BitVec 16) (r : Resource) :
    (s.afterBeacon dt f k mask live).standing r = (s.standing r).afterBeacon f.src s.cfl.node (mask.getLsbD r.val) := by
  rw [State.afterBeacon, beaconView_standing _ _ _ (List.nodup_finRange 17) (List.mem_finRange r), resumed_standing, resumed_node,
    heard_cfl]

theorem afterBeacon_roster (s : State) (dt : Nat) (f : Frame) (k : NodeKind) (mask : BitVec 24) (live : BitVec 16) :
    (s.afterBeacon dt f k mask live).liu.roster = put s.liu.roster f.src ⟨true, k, 0, true, live⟩ := by
  rw [State.afterBeacon, roster_of_wire ((beaconView_wire _ _ _ _).trans (wire_of_core (resumeHeld_core _)))]
  exact heard_roster s dt f (.beacon k mask live)

/-- A holding kept against the frame makes a BEACON owed (R100). -/
theorem afterBeacon_kept {s : State} {dt : Nat} {f : Frame} {k : NodeKind} {mask : BitVec 24} {live : BitVec 16} {r : Resource}
    {e : Entry} (hm : mask.getLsbD r.val = true) (hh : look s.rcu.holdings r = some e)
    (hy : (s.standing r).yields f.src s.cfl.node = false) : (s.afterBeacon dt f k mask live).rcu.beaconOwed = true := by
  have hs := resumed_standing s dt f (.beacon k mask live) r
  refine beaconView_kept f.src mask (List.mem_finRange r) hm ((congrArg Standing.held hs).trans hh) ?_
  rwa [hs, resumed_node, heard_cfl]

/-- A resource that the card does not hold after a BEACON (R96). -/
theorem afterBeacon_unheld {s : State} {r : Resource} (hh : look s.rcu.holdings r = none) (n self : Node) (flag : Bool) :
    (s.standing r).afterBeacon n self flag = ⟨if flag = true then
        (if (s.viewOf r).holder = none then ⟨some n, none, false, 0, true, (s.viewOf r).cooling⟩
        else if (s.viewOf r).holder = some n then { s.viewOf r with misses := 0, refreshed := true } else s.viewOf r)
      else if (s.viewOf r).holder = some n then ⟨none, none, false, 0, false, (s.viewOf r).cooling⟩ else s.viewOf r,
      none, look s.rcu.unconfirmed r⟩ := by
  have hx : s.standing r = ⟨s.viewOf r, none, look s.rcu.unconfirmed r⟩ := by rw [State.standing, hh]
  rw [hx]
  cases flag
  · exact Standing.afterBeacon_clear _ _ _
  · rw [Standing.afterBeacon, if_pos rfl, if_pos rfl, Standing.named_unheld rfl]
    split
    · rfl
    · split <;> rfl

/-- Settles O28: resource by resource, each as it stood. -/
theorem beaconSetsRosterAndView : Obligations.BeaconSetsRosterAndView := by
  intro dt s f k mask live hfront
  obtain ⟨t, hexec, ht⟩ := exec_beacon (dt := dt) hfront
  have hroster := ht.roster.trans (afterBeacon_roster s dt f k mask live)
  have hstanding : ∀ r, t.standing r = (s.standing r).afterBeacon f.src s.cfl.node (mask.getLsbD r.val) := fun r =>
    (ht.rcu_standing r).trans (afterBeacon_standing s dt f k mask live r)
  have parts : ∀ r x, t.standing r = x → t.viewOf r = x.view ∧ look t.rcu.holdings r = x.held ∧ look t.rcu.unconfirmed r = x.unconfirmed :=
    fun r x h => h ▸ ⟨rfl, rfl, rfl⟩
  refine ⟨t, hexec, by rw [hroster, look_put_same], fun n hn => by rw [hroster, look_put_ne _ _ (Ne.symm hn)], fun r hh => ?_,
    fun r e hh => ⟨fun hm hy => ?_, fun hm hu hn => ?_, fun hm => ?_⟩⟩
  · have hx := hstanding r
    rw [afterBeacon_unheld hh] at hx
    obtain ⟨hview, hheld, -⟩ := parts r _ hx
    exact ⟨hheld, hview⟩
  · have hy' : (s.standing r).yields f.src s.cfl.node = true := by simpa [Standing.yields, State.standing] using hy
    obtain ⟨hview, hheld, hunc⟩ := parts r ⟨(s.viewOf r).install f.src none, none, false⟩ (by
      rw [hstanding, hm, Standing.afterBeacon, if_pos rfl, Standing.named_held (show (s.standing r).held = some e from hh)]
      exact if_pos hy')
    exact ⟨hheld, hunc, hview⟩
  · have hy' : (s.standing r).yields f.src s.cfl.node = false := by simp [Standing.yields, State.standing, hu, lt_asymm hn]
    obtain ⟨hview, hheld, -⟩ := parts r (s.standing r) (by
      rw [hstanding, hm, Standing.afterBeacon, if_pos rfl, Standing.named_held (show (s.standing r).held = some e from hh)]
      exact if_neg (by simp [hy']))
    exact ⟨hheld.trans hh, hview, ht.beaconOwed.trans (afterBeacon_kept hm hh hy')⟩
  · have hx := hstanding r
    rw [hm, Standing.afterBeacon_clear] at hx
    obtain ⟨hview, hheld, -⟩ := parts r _ hx
    exact ⟨hheld.trans hh, hview⟩

end Sys2Proof.Machine
end

