-- ==== Sys2Proof/Proofs/BeaconBoundary.lean ====
section
/-! A beacon-period boundary (R34, R101–R104): the roster and the view aged, the failure count, and the self-open. -/

namespace Sys2Proof.Machine

theorem Follows.viewOf {s t : State} (h : Follows s t) (r : Resource) : t.viewOf r = s.viewOf r := congrArg (look · r) h.view

theorem Follows.failures {s t : State} (h : Follows s t) : t.rcu.failures = s.rcu.failures :=
  h.field (fun u => u.rcu.failures) fun _ => rfl

theorem Follows.beaconSent {s t : State} (h : Follows s t) : t.rcu.beaconSent = s.rcu.beaconSent :=
  h.field (fun u => u.rcu.beaconSent) fun _ => rfl

theorem Follows.selfOpenNote {s t : State} (h : Follows s t) : look t.fcu.notes noteSelfOpen = look s.fcu.notes noteSelfOpen :=
  h.note (by decide)

/-! ### The holdings of the card -/

/-- The resources among the card's own holdings are those that an entry holds. -/
theorem mem_ownHoldings {s : State} {r : Resource} : r ∈ s.ownHoldings.map Prod.fst ↔ look s.rcu.holdings r ≠ none := by
  rw [State.ownHoldings, List.mem_map]
  constructor
  · rintro ⟨p, hp, rfl⟩
    obtain ⟨q, -, hq⟩ := List.mem_filterMap.1 hp
    obtain ⟨e, he, rfl⟩ := Option.map_eq_some_iff.1 hq
    simp [he]
  · intro h
    obtain ⟨e, he⟩ := Option.ne_none_iff_exists'.1 h
    exact ⟨(r, e), List.mem_filterMap.2 ⟨r, List.mem_finRange r, by rw [he]; rfl⟩, rfl⟩

theorem ownHoldings_nil {s : State} : s.ownHoldings = [] ↔ ∀ r, look s.rcu.holdings r = none := by
  rw [← List.map_eq_nil_iff (f := Prod.fst), List.eq_nil_iff_forall_not_mem]
  simp only [mem_ownHoldings, not_not]

theorem filterMap_tagged_length {α β : Type} (h : α → Option β) (l : List α) :
    (l.filterMap fun a => (h a).map fun b => (a, b)).length = (l.filter fun a => (h a).isSome).length := by
  induction l with
  | nil => rfl
  | cons a l ih => cases ha : h a <;> simp [ha, ih]

theorem ownHoldings_length (s : State) : s.ownHoldings.length = (indices s.rcu.holdings fun _ h => h.isSome).length :=
  filterMap_tagged_length (look s.rcu.holdings) (List.finRange 17)

/-! ### The self-open (R103) -/

/-- Some holdings and their view entries go (R103). -/
def openHeld (own : List (Resource × Entry)) (s : State) : State :=
  own.foldl (fun s p => (dropHolding p.1 s).setView p.1 (s.viewOf p.1).clear) s

theorem openHeld_cons (p : Resource × Entry) (own : List (Resource × Entry)) (s : State) :
    openHeld (p :: own) s = openHeld own ((dropHolding p.1 s).setView p.1 (s.viewOf p.1).clear) := rfl

theorem dropAll_eq (s : State) : dropAll s = pendNote noteSelfOpen (BitVec.ofNat 16 s.ownHoldings.length)
    (capture ⟨.selfOpen, none, none, none, none⟩ (openHeld s.ownHoldings s)) := rfl

/-- It is a matter of the RCU. -/
theorem openHeld_eq (own : List (Resource × Entry)) (s : State) : openHeld own s = { s with rcu := (openHeld own s).rcu } := by
  induction own generalizing s with
  | nil => rfl
  | cons p own ih =>
    rw [openHeld_cons, ih]
    rfl

/-- The beacon marks and the failure count stand. -/
theorem openHeld_beacons (own : List (Resource × Entry)) (s : State) : (openHeld own s).rcu.failures = s.rcu.failures ∧
    (openHeld own s).rcu.beaconOwed = s.rcu.beaconOwed ∧ (openHeld own s).rcu.beaconSent = s.rcu.beaconSent := by
  induction own generalizing s with
  | nil => exact ⟨rfl, rfl, rfl⟩
  | cons p own ih => exact ih _

theorem openHeld_standing (own : List (Resource × Entry)) (s : State) (r : Resource) : (openHeld own s).standing r =
    if r ∈ own.map Prod.fst then ⟨(s.viewOf r).clear, none, false⟩ else s.standing r := by
  induction own generalizing s with
  | nil => rfl
  | cons p own ih =>
    rw [openHeld_cons, ih, List.map_cons]
    by_cases h : p.1 = r
    · subst h
      rw [if_pos List.mem_cons_self, drop_install_standing, State.setView_viewOf_same]
      split <;> rfl
    · rw [drop_install_standing_ne _ _ h, State.setView_viewOf_ne _ _ h]
      simp only [List.mem_cons, Ne.symm h, false_or]
      rfl

theorem pendNote_rcu (c : Fin 8) (d : BitVec 16) (s : State) : (pendNote c d s).rcu = s.rcu := by
  unfold pendNote State.renew
  split
  · split <;> rfl
  · rfl

theorem pendNote_fcu (c : Fin 8) (d : BitVec 16) (s : State) :
    (pendNote c d s).fcu = { s.fcu with notes := put s.fcu.notes c (some d) } := by
  unfold pendNote State.renew
  split
  · split <;> rfl
  · rfl

theorem pendNote_tb (c : Fin 8) (d : BitVec 16) (s : State) : (pendNote c d s).tb = s.tb := by
  unfold pendNote State.renew
  split
  · split <;> rfl
  · rfl

theorem capture_rcu (c : Capture) (s : State) : (capture c s).rcu = s.rcu := by rw [capture_eq]

theorem dropAll_rcu (s : State) : (dropAll s).rcu = (openHeld s.ownHoldings s).rcu := by
  rw [dropAll_eq, pendNote_rcu, capture_rcu]

theorem dropAll_tb (s : State) : (dropAll s).tb = s.tb := by
  rw [dropAll_eq, pendNote_tb, capture_eq, openHeld_eq]

/-- Every holding goes, with its view entry, and the other resources stand. -/
theorem dropAll_standing (s : State) (r : Resource) : (dropAll s).standing r =
    if look s.rcu.holdings r = none then s.standing r else ⟨(s.viewOf r).clear, none, false⟩ := by
  rw [standing_of_rcu (dropAll_rcu s), openHeld_standing]
  by_cases h : look s.rcu.holdings r = none
  · rw [if_neg (fun hm => mem_ownHoldings.1 hm h), if_pos h]
  · rw [if_pos (mem_ownHoldings.2 h), if_neg h]

theorem dropAll_note (s : State) : look (dropAll s).fcu.notes noteSelfOpen = some (BitVec.ofNat 16 s.ownHoldings.length) := by
  rw [dropAll_eq, pendNote_fcu]
  exact look_put_same _ _ _

/-- The act of dropping captures SELF_OPEN (R103, R171). -/
theorem dropAll_record {s : State} (hr : s.running = true) (h : s.fcu.record = none) :
    (dropAll s).fcu.record = some ⟨⟨.selfOpen, none, none, none, none⟩, s.fcu.millis, 1⟩ := by
  have hopen : (openHeld s.ownHoldings s).running = true ∧ (openHeld s.ownHoldings s).fcu = s.fcu := by
    rw [openHeld_eq]
    exact ⟨hr, rfl⟩
  rw [dropAll_eq, pendNote_fcu, capture_severe hopen.1 rfl, hopen.2, h]

/-! ### The boundary -/

/-- The RCU after the aging: the self-open where the failure count is 2 and the card holds something (R103). -/
def openOnFailure (s : State) : State := if s.rcu.failures = 2 ∧ s.ownHoldings ≠ [] then dropAll s else s

/-- What a boundary leaves is what the RCU's own part left. -/
theorem rcuBoundary_core (w : Work) :
    ∃ u, Follows (countPeriod w.st) u ∧ (rcuBoundary w).st.core = (openOnFailure u).core := by
  obtain ⟨u, hu, h⟩ := rcuBoundary_eq w
  refine ⟨u.st, .of_core hu, ?_⟩
  rw [h, openOnFailure]
  by_cases hf : u.st.rcu.failures = 2
  · rw [if_pos hf, selfOpen_core]
    by_cases ho : u.st.ownHoldings = []
    · rw [if_pos ho, if_neg (fun hc => hc.2 ho)]
    · rw [if_neg ho, if_pos ⟨hf, ho⟩]
  · rw [if_neg hf, if_neg (fun hc => hf hc.1)]

theorem openOnFailure_beacons (s : State) : (openOnFailure s).rcu.failures = s.rcu.failures ∧
    (openOnFailure s).rcu.beaconOwed = s.rcu.beaconOwed ∧ (openOnFailure s).rcu.beaconSent = s.rcu.beaconSent := by
  unfold openOnFailure
  split
  · rw [dropAll_rcu]
    exact openHeld_beacons _ _
  · exact ⟨rfl, rfl, rfl⟩

theorem openOnFailure_tb (s : State) : (openOnFailure s).tb = s.tb := by
  unfold openOnFailure
  split
  · exact dropAll_tb s
  · rfl

/-- A resource that the card does not hold stands through the self-open. -/
theorem openOnFailure_unheld {s : State} {r : Resource} (h : look s.rcu.holdings r = none) :
    (openOnFailure s).standing r = s.standing r := by
  unfold openOnFailure
  split
  · rw [dropAll_standing, if_pos h]
  · rfl

/-- A holding goes in the self-open, with its view entry. -/
theorem openOnFailure_held {s : State} {r : Resource} (hf : s.rcu.failures = 2) (h : look s.rcu.holdings r ≠ none) :
    (openOnFailure s).standing r = ⟨(s.viewOf r).clear, none, false⟩ := by
  rw [openOnFailure, if_pos ⟨hf, fun hn => h (ownHoldings_nil.1 hn r)⟩, dropAll_standing, if_neg h]

theorem openOnFailure_note {s : State} (hf : s.rcu.failures = 2) (h : s.ownHoldings ≠ []) :
    look (openOnFailure s).fcu.notes noteSelfOpen = some (BitVec.ofNat 16 s.ownHoldings.length) := by
  rw [openOnFailure, if_pos ⟨hf, h⟩, dropAll_note]

theorem openOnFailure_id {s : State} (h : s.rcu.failures ≠ 2 ∨ s.ownHoldings = []) : openOnFailure s = s :=
  if_neg fun hc => h.elim (fun hf => hf hc.1) hc.2

/-- The view entries of other holders are aged (R104). -/
theorem countPeriod_viewOf (s : State) (r : Resource) : (countPeriod s).viewOf r =
    if (s.viewOf r).holder = none ∨ (s.viewOf r).holder = some s.cfl.node then s.viewOf r
    else agedView s.now s.cfl.config.period (s.viewOf r) := by
  unfold countPeriod ageView State.viewOf
  rw [look_each]
  rfl

/-- The rest of what a boundary counts. -/
theorem countPeriod_parts (s : State) : (countPeriod s).rcu.failures = failureCount s.rcu.beaconSent s.rcu.failures ∧
    (countPeriod s).rcu.beaconOwed = true ∧ (countPeriod s).rcu.beaconSent = false ∧
    (countPeriod s).rcu.holdings = s.rcu.holdings ∧ (countPeriod s).fcu = s.fcu ∧ (countPeriod s).tb = s.tb := by
  simp only [countPeriod, ageView, and_self]

theorem beginBoundary_parts (s : State) : (beginBoundary s).rcu = s.rcu ∧ (beginBoundary s).fcu = s.fcu ∧ (beginBoundary s).cfl = s.cfl ∧
    (beginBoundary s).tb = { s.tb with nextBeacon := laterMs s.tb.nextBeacon s.cfl.config.period } := by
  simp only [beginBoundary, ageRoster, State.updLiu, and_self]

/-- The state once a boundary is counted and the views are aged, before the self-open. -/
structure State.Counted (s u : State) : Prop where
  failures : u.rcu.failures = failureCount s.rcu.beaconSent s.rcu.failures
  beaconOwed : u.rcu.beaconOwed = true
  beaconSent : u.rcu.beaconSent = false
  holdings : u.rcu.holdings = s.rcu.holdings
  views : ∀ r, u.viewOf r = if (s.viewOf r).holder = none ∨ (s.viewOf r).holder = some s.cfl.node then s.viewOf r
    else agedView s.now s.cfl.config.period (s.viewOf r)
  note : look u.fcu.notes noteSelfOpen = look s.fcu.notes noteSelfOpen
  timebase : u.tb = { s.tb with nextBeacon := laterMs s.tb.nextBeacon s.cfl.config.period }

theorem counted_of_follows {s b u : State} (hb : Follows (beginBoundary s) b) (hu : Follows (countPeriod b) u) : s.Counted u := by
  obtain ⟨hrcu, hfcu, hcfl, htb⟩ := beginBoundary_parts s
  obtain ⟨cfail, cowed, csent, chold, cfcu, ctb⟩ := countPeriod_parts b
  have hnow : b.now = s.now := by rw [State.now, hb.tb, htb, State.now]
  have hview : ∀ r, b.viewOf r = s.viewOf r := fun r => (hb.viewOf r).trans (by rw [State.viewOf, hrcu, State.viewOf])
  refine ⟨?_, hu.beaconOwed.trans cowed, hu.beaconSent.trans csent, ?_, fun r => ?_, ?_, ?_⟩
  · rw [hu.failures, cfail, hb.beaconSent, hb.failures, hrcu]
  · rw [hu.holdings, chold, hb.holdings, hrcu]
  · rw [hu.viewOf, countPeriod_viewOf, hview, hb.cfl, hcfl, hnow]
  · rw [hu.selfOpenNote, cfcu, hb.selfOpenNote, hfcu]
  · rw [hu.tb, ctb, hb.tb, htb]

/-- A boundary that is due: the part that is counted, then the self-open, and what follows from both. -/
theorem beaconBoundary_outcome {s : State} (h : s.beaconDue = true) :
    ∃ u, s.Counted u ∧ Follows (openOnFailure u) (beaconBoundary s) := by
  have hb : Follows (beginBoundary s) (resumeHeld (Work.start (beginBoundary s))).st := .of_core (resumeHeld_core _)
  obtain ⟨u, hu, hcore⟩ := rcuBoundary_core (resumeHeld (Work.start (beginBoundary s)))
  refine ⟨u, counted_of_follows hb hu, ?_⟩
  rw [beaconBoundary_due h]
  exact finish_follows_of hcore

/-- The roster at a boundary (R34). -/
theorem beaconBoundary_roster {s : State} (h : s.beaconDue = true) (n : Node) :
    look (beaconBoundary s).liu.roster n = agedEntry (look s.liu.roster n) := by
  rw [roster_of_wire (beaconBoundary_wire h)]
  exact look_each _ _ _

/-- Settles O41: the counted boundary, then the self-open. -/
theorem beaconBoundaryAgesAndSelfOpens : Obligations.BeaconBoundaryAgesAndSelfOpens := by
  rintro dt s s1 rfl hdue
  obtain ⟨u, hu, ht⟩ := beaconBoundary_outcome hdue
  have hroster := beaconBoundary_roster hdue
  have hexec : exec (.beaconPeriodBoundary dt) s = .next (beaconBoundary (advance dt s)) := rfl
  obtain ⟨hfail, howed, hsent⟩ := openOnFailure_beacons u
  generalize beaconBoundary (advance dt s) = t at ht hroster hexec
  have hfailures : t.rcu.failures = u.rcu.failures := ht.failures.trans hfail
  have hheld : ∀ r, look u.rcu.holdings r = look s.rcu.holdings r := fun r => by rw [hu.holdings, advance_rcu]
  have hunopened : t.rcu.failures ≠ 2 ∨ u.ownHoldings = [] → openOnFailure u = u := fun h => openOnFailure_id (hfailures ▸ h)
  have htb : t.tb = _ := (ht.tb.trans (openOnFailure_tb u)).trans hu.timebase
  refine ⟨t, hexec, ?_, ?_, ?_, ?_, ?_, ?_, fun hf r => ?_, fun hf => ?_, fun hf r e hr hv => ?_, fun hf own howns hne => ?_,
    fun h => ?_, fun x hx hrec => dropAll_record hx hrec, fun r v hv hr => ?_⟩
  · rw [htb]
    simp only [advance_nextBeacon, advance_cfl, laterMs]
  · rw [htb]
  · rintro n x rfl
    rw [hroster, advance_liu]
    rfl
  · exact (ht.beaconOwed.trans howed).trans hu.beaconOwed
  · exact (ht.beaconSent.trans hsent).trans hu.beaconSent
  · rw [hfailures, hu.failures, advance_rcu]
    rfl
  · rw [ht.holdings]
    by_cases hr : look u.rcu.holdings r = none
    · exact (congrArg Standing.held (openOnFailure_unheld hr)).trans hr
    · exact congrArg Standing.held (openOnFailure_held (hfailures ▸ hf) hr)
  · rw [ht.holdings, hunopened (.inl hf), hu.holdings, advance_rcu]
  · have hopen := openOnFailure_held (r := r) (hfailures ▸ hf) (by rw [hheld, hr]; simp)
    have hview : u.viewOf r = s.viewOf r := by
      rw [hu.views, if_pos (.inr (by rw [advance_viewOf, advance_cfl]; exact hv)), advance_viewOf]
    rw [ht.viewOf, show (openOnFailure u).viewOf r = _ from congrArg Standing.view hopen, hview]
    rfl
  · have howns' : own = indices u.rcu.holdings fun _ h => h.isSome := by rw [howns, hu.holdings, advance_rcu]
    subst howns'
    rw [ht.selfOpenNote, ← ownHoldings_length]
    refine openOnFailure_note (hfailures ▸ hf) fun hn => hne ?_
    rw [← List.length_eq_zero_iff, ← ownHoldings_length, hn]
    rfl
  · rw [ht.selfOpenNote, hunopened (h.imp_right fun hn => ownHoldings_nil.2 fun r => (hheld r).trans (hn r)), hu.note, advance_notes]
  · have hstand := openOnFailure_unheld ((hheld r).trans hr)
    subst hv
    rw [ht.viewOf, show (openOnFailure u).viewOf r = _ from congrArg Standing.view hstand]
    show u.viewOf r = _
    rw [hu.views, advance_viewOf, advance_cfl]
    rfl

end Sys2Proof.Machine
end

