-- ==== Sys2Proof/Proofs/OwnFrames.lean ====
section
/-! The outcome of a frame of the part's own (R25, R29, R62, R86–R92): the counts, the marks cleared, and the anchor whose CLAIM was
objected, which keeps its trunk or chooses again. -/

namespace Sys2Proof.Machine

/-! ### What the choice of a trunk rests on -/

/-- Two states between which an anchor's choice does not change: its entry but for its resource, the other entries, the view, the
relay records and the parameters (R86–R88). -/
structure SameChoice (e : Entry) (s t : State) : Prop where
  entry : ∃ r, t.entry e = { s.entry e with resource := r }
  others : ∀ x, x ≠ e → t.entry x = s.entry x
  view : t.rcu.view = s.rcu.view
  relays : t.rm = s.rm
  parameters : t.cfl = s.cfl

theorem SameChoice.trans {e : Entry} {s t u : State} (h : SameChoice e s t) (k : SameChoice e t u) : SameChoice e s u := by
  obtain ⟨r, hr⟩ := h.entry
  obtain ⟨q, hq⟩ := k.entry
  exact ⟨⟨q, by rw [hq, hr]⟩, fun x hx => (k.others x hx).trans (h.others x hx), k.view.trans h.view, k.relays.trans h.relays,
    k.parameters.trans h.parameters⟩

/-- Where the net table, the view, the relay records and the parameters stand, so does the choice. -/
theorem SameChoice.of_parts {e : Entry} {s t : State} (hne : t.ne = s.ne) (hview : t.rcu.view = s.rcu.view) (hrm : t.rm = s.rm)
    (hcfl : t.cfl = s.cfl) : SameChoice e s t := by
  have hentry : ∀ x, t.entry x = s.entry x := fun x => by rw [State.entry, hne]; rfl
  exact ⟨⟨(s.entry e).resource, hentry e⟩, fun x _ => hentry x, hview, hrm, hcfl⟩

/-- A resource of the entry's own set or cleared. -/
theorem sameChoice_setResource (e : Entry) (s : State) (r : Option NetResource) :
    SameChoice e s (s.setEntry e { s.entry e with resource := r }) :=
  ⟨⟨r, State.setEntry_entry_same _ _ _⟩, fun _ hx => State.setEntry_entry_ne _ _ (Ne.symm hx), rfl, rfl, rfl⟩

theorem SameChoice.candidate {e : Entry} {s t : State} (h : SameChoice e s t) (k : Trunk) : t.candidate e k = s.candidate e k := by
  obtain ⟨r, hr⟩ := h.entry
  simp only [State.candidate, hr, permitted_congr h.parameters, unclaimed_congr h.view, reservedElsewhere_congr h.parameters,
    segmentFree_congr h.relays h.others, suspectX_congr h.relays]

theorem SameChoice.chooseTrunk {e : Entry} {s t : State} (h : SameChoice e s t) : t.chooseTrunk e = s.chooseTrunk e := by
  obtain ⟨r, hr⟩ := h.entry
  simp only [State.chooseTrunk, h.candidate, hr, reservedTo_congr h.parameters]

theorem SameChoice.noOtherWaiter {e : Entry} {s t : State} (h : SameChoice e s t) (hn : s.noOtherWaiter e) : t.noOtherWaiter e :=
  fun x hx => by rw [h.others x hx]; exact hn x hx

/-! ### The pass of an anchor of a trunk net -/

/-- The entry has a trunk that still meets the conditions of its choice (R86). -/
def State.keepsTrunk (s : State) (e : Entry) : Bool := (s.entry e).trunk.any (s.candidate e)

/-- The act of an anchor of a trunk net at a pass, by whether it keeps its trunk (R86, R91). -/
theorem passTrunk_eq (e : Entry) (w : Work) : passTrunk e w = if w.st.keepsTrunk e then w
    else match (w.withdrawn e).st.chooseTrunk e with
      | some k => ((w.withdrawn e).modEnt e (fun x => { x with resource := some (.trunk k) })).upd (oweClaim e (trunkResource k))
      | none => w.withdrawn e := by
  unfold passTrunk State.keepsTrunk
  rw [show w.ent e = w.st.entry e from rfl]
  cases (w.st.entry e).trunk <;> rfl

/-- A claim ended leaves what a choice rests on, and the entries. -/
theorem endClaim_choice (e : Entry) (s : State) : (endClaim e s).ne = s.ne ∧ SameChoice e s (endClaim e s) ∧
    look (endClaim e s).rcu.claims e = none := by
  obtain ⟨hne, hrcu, -, -, -, hrm, hcfl, -⟩ := withdrawOwn_parts e (unclaim e s)
  refine ⟨hne, .of_parts hne ?_ hrm hcfl, ?_⟩
  · rw [endClaim, hrcu]
    rfl
  · rw [endClaim, hrcu]
    exact look_put_same _ _ _

/-- A CLAIM withdrawn is ended, and at most the entry's resource goes with it (R91). -/
theorem withdrawClaim_cases (e : Entry) (w : Work) : withdrawClaim e w = w.upd (endClaim e) ∨
    withdrawClaim e w = { (w.upd (endClaim e)).modEnt e (fun x => { x with resource := none }) with pass := true } := by
  unfold withdrawClaim
  dsimp only
  exact (ite_eq_or_eq _ _ _).symm

/-- An anchor after a pass at which it kept no trunk: what its choice rests on stands, and its resource is the trunk chosen, or is
none or the one it had (R86, R91). -/
structure Rechosen (e : Entry) (c : Option Trunk) (w v : Work) : Prop where
  same : SameChoice e w.st v.st
  claim : look v.st.rcu.claims e = c.map trunkResource
  resource : ∀ k, c = some k → (v.st.entry e).resource = some (.trunk k)
  unchosen : c = none → (v.st.entry e).resource = (w.st.entry e).resource ∨ (v.st.entry e).resource = none
  joining : v.joining = w.joining
  serve : v.serve = w.serve

/-- A CLAIM withdrawn, or none owed (R91). -/
theorem withdrawn_rechosen (e : Entry) (w : Work) : Rechosen e none w (w.withdrawn e) := by
  obtain ⟨hne, hsame, hclaim⟩ := endClaim_choice e w.st
  have hentry : (endClaim e w.st).entry e = w.st.entry e := by rw [State.entry, hne]; rfl
  unfold Work.withdrawn
  split
  · rcases withdrawClaim_cases e w with h | h <;> rw [h]
    · exact ⟨hsame, hclaim, (fun _ h => by cases h), fun _ => .inl (congrArg NetEntry.resource hentry), rfl, rfl⟩
    · exact ⟨hsame.trans (sameChoice_setResource e _ none), hclaim, (fun _ h => by cases h),
        fun _ => .inr (congrArg NetEntry.resource (State.setEntry_entry_same _ _ _)), rfl, rfl⟩
  · rename_i h
    exact ⟨.of_parts rfl rfl rfl rfl, by simpa using h, (fun _ h => by cases h), fun _ => .inl rfl, rfl, rfl⟩

/-- An anchor that keeps no trunk takes the one chosen and owes its CLAIM, or has none owed (R86–R88, R91). -/
theorem passTrunk_rechosen {e : Entry} {w : Work} (h : w.st.keepsTrunk e = false) :
    Rechosen e (w.st.chooseTrunk e) w (passTrunk e w) := by
  have hw := withdrawn_rechosen e w
  rw [passTrunk_eq, if_neg (by simp [h]), hw.same.chooseTrunk]
  cases w.st.chooseTrunk e with
  | none => exact hw
  | some k =>
    have howed : ∀ s : State, SameChoice e s (oweClaim e (trunkResource k) s) := fun _ => .of_parts rfl rfl rfl rfl
    refine ⟨(hw.same.trans (sameChoice_setResource e _ _)).trans (howed _), look_put_same _ _ _, fun j hj => ?_, (fun h => by cases h), hw.joining,
      hw.serve⟩
    cases hj
    exact congrArg NetEntry.resource (State.setEntry_entry_same _ _ _)

/-- A second pass finds the choice as the first one made it. -/
theorem Rechosen.passTrunk_again {e : Entry} {w v : Work} (hv : Rechosen e (w.st.chooseTrunk e) w v)
    (h : w.st.keepsTrunk e = false) (hq : (w.st.entry e).request ≠ .localBus) (p : Bool) :
    passTrunk e { v with pass := p } = { v with pass := p } := by
  rw [passTrunk_eq]
  cases hc : w.st.chooseTrunk e with
  | some k =>
    obtain ⟨⟨-, hk⟩, -⟩ := chooseTrunk_some hq hc
    refine if_pos ?_
    rw [State.keepsTrunk, NetEntry.trunk, hv.resource k hc]
    exact (hv.same.candidate k).trans hk
  | none =>
    have hclaim : look v.st.rcu.claims e = none := by rw [hv.claim, hc]; rfl
    have hkeeps : v.st.keepsTrunk e = false := by
      rcases hv.unchosen hc with hr | hr
      · rw [State.keepsTrunk, NetEntry.trunk, hr, show v.st.candidate e = w.st.candidate e from funext hv.same.candidate]
        exact h
      · rw [State.keepsTrunk, NetEntry.trunk, hr]
        rfl
    have hwithdrawn : Work.withdrawn e { v with pass := p } = { v with pass := p } := if_neg (by simp [hclaim])
    rw [if_neg (by simp [hkeeps]), hwithdrawn, show v.st.chooseTrunk e = none from hv.same.chooseTrunk.trans hc]

/-! ### The anchor that waits alone -/

/-- An anchor of a trunk net waits for its resource, and no other entry waits. -/
structure State.WaitsAlone (s : State) (e : Entry) : Prop where
  state : (s.entry e).state = .awaitResource
  request : (s.entry e).request ≠ .localBus
  monitor : (s.entry e).monitor ≠ .claiming
  others : s.noOtherWaiter e

theorem SameChoice.waitsAlone {e : Entry} {s t : State} (h : SameChoice e s t) (hs : s.WaitsAlone e) : t.WaitsAlone e := by
  obtain ⟨r, hr⟩ := h.entry
  exact ⟨by rw [hr]; exact hs.state, by rw [hr]; exact hs.request, by rw [hr]; exact hs.monitor, h.noOtherWaiter hs.others⟩

/-- The pass is then the choice of that anchor (R86). -/
theorem State.WaitsAlone.choicePass {e : Entry} {w : Work} (h : w.st.WaitsAlone e)
    (hp : (passTrunk e { w with pass := false }).st.WaitsAlone e) : choicePass w = passTrunk e { w with pass := false } := by
  have hpass := passEntry_trunk (w := { w with pass := false }) h.state h.request
  rw [choicePass_single h.others (by rw [hpass]; exact hp.others) (by rw [hpass]; exact hp.monitor), hpass]

/-- It keeps a trunk that still meets its conditions, and nothing else follows (R86). -/
theorem finish_keeps_trunk {e : Entry} {w : Work} (h : w.st.WaitsAlone e) (hp : w.pass = true) (hj : w.joining = [])
    (hs : w.serve = false) (hk : w.st.keepsTrunk e = true) : finish w = w.st := by
  have hpass : passTrunk e { w with pass := false } = { w with pass := false } := by
    rw [passTrunk_eq]
    exact if_pos hk
  rw [finish_passes hp, h.choicePass (by rw [hpass]; exact h), hpass, settleDown_rests (w := { w with pass := false }) 4094 rfl hj hs]

/-- Otherwise it chooses again, once (R86–R88). -/
theorem finish_rechooses {e : Entry} {w : Work} (h : w.st.WaitsAlone e) (hp : w.pass = true) (hj : w.joining = [])
    (hs : w.serve = false) (hk : w.st.keepsTrunk e = false) : ∃ v, Rechosen e (w.st.chooseTrunk e) w v ∧ finish w = v.st := by
  have hv : Rechosen e (w.st.chooseTrunk e) w (passTrunk e { w with pass := false }) := by
    have := passTrunk_rechosen (w := { w with pass := false }) hk
    exact ⟨this.same, this.claim, this.resource, this.unchosen, this.joining, this.serve⟩
  refine ⟨_, hv, ?_⟩
  rw [finish_passes hp, h.choicePass (hv.same.waitsAlone h)]
  generalize passTrunk e { w with pass := false } = v at hv
  have hjv : v.joining = [] := hv.joining.trans hj
  have hsv : v.serve = false := hv.serve.trans hs
  cases hpv : v.pass with
  | false => rw [settleDown_rests 4094 hpv hjv hsv]
  | true =>
    have hagain := hv.passTrunk_again hk h.request false
    have halone := hv.same.waitsAlone h
    rw [settleDown, if_pos hpv, halone.choicePass (by rw [hagain]; exact halone), hagain,
      settleDown_rests (w := { v with pass := false }) 4093 rfl hjv hsv]

/-! ### An objected frame (R25, R29, R92) -/

/-- The state once the objection of a frame is counted below 16. -/
def State.countedObjection (s : State) : State := { s with liu := { s.liu with objections := s.liu.objections + 1 } }

theorem objected_other {o : OwnFrame} (h : ∀ e r, o.owed ≠ .claim e r) (w : Work) : objected o w = w := by
  unfold objected
  split
  · rename_i e r ho
    exact absurd ho (h e r)
  · rfl

/-- An objected CLAIM of an anchor that waits makes a pass due, and nothing else (R86, R92). -/
theorem objected_claim {o : OwnFrame} {e : Entry} {r : Resource} (ho : o.owed = .claim e r) {s : State} (h : s.WaitsAlone e) :
    objected o (Work.start s) = { Work.start s with pass := true } := by
  have hstate : ((Work.start s).ent e).state = .awaitResource := h.state
  have hmonitor : ((Work.start s).ent e).monitor ≠ .claiming := h.monitor
  have hidle : claimOff e (Work.start s) = Work.start s :=
    claimOff_idle (fun hc => hmonitor hc.1) (by rw [hstate]; decide) (by rw [hstate]; decide)
  rw [objected, ho]
  dsimp only
  rw [claimObjected, hidle]

/-! ### A frame sent without objection (R25, R62, R179) -/

theorem clearSent_entry (o : OwnFrame) (s : State) (e : Entry) : (clearSent o s).entry e = s.entry e := by
  unfold clearSent
  split
  · rfl
  · split <;> rfl

/-- A mark that is neither a CLAIM, a RELEASE nor the BEACON is cleared, and nothing else follows where no release pends behind a
STATUS (R25, R62). -/
theorem finish_sent_mark {o : OwnFrame} {s : State} (hc : ∀ e r, o.owed ≠ .claim e r) (hr : ∀ e r, o.owed ≠ .release e r)
    (hb : o.owed ≠ .beacon) (hs : ∀ e, o.owed = .status e → (s.entry e).releasePending = none) :
    finish (sent o (Work.start s)) = clearSent o s := by
  have hw : sent o (Work.start s) = Work.start (clearSent o s) := by
    unfold sent
    dsimp only
    split
    · rename_i e r ho
      exact absurd ho (hc e r)
    · rename_i e r ho
      exact absurd ho (hr e r)
    · rename_i ho
      exact absurd ho hb
    · rename_i e ho
      exact takeFaulted_none ((congrArg NetEntry.releasePending (clearSent_entry o s e)).trans (hs e ho))
    · rfl
  rw [hw, finish_start]

/-! ### The outcome -/

/-- A frame of the part's own ends at its objection slot (R25). -/
theorem exec_ownOutcome {dt : Nat} {driven : Bool} {s u : State} {o : OwnFrame} (hrun : s.running = true) (hown : s.liu.own = some o)
    (hu : u = { advance dt s with liu := { s.liu with own := none, idle := false, idleFrom := later (advance dt s).now 7 } }) :
    exec (.objectionSlotRead dt driven) s = .next (if driven then finish (objected o (Work.start (countObjection u)))
      else finish (sent o (Work.start { u with liu := { u.liu with objections := 0 } }))) := by
  have hleft : leaveLine (advance dt s).afterEnd (advance dt s) = u := by
    rw [hu, leaveLine, State.updLiu, advance_liu]
    rfl
  rw [exec_objectionSlotRead, slotRead, if_pos (by simpa using hrun), advance_liu, hown]
  dsimp only
  rw [ownOutcome, hleft]
  rfl

/-- The outcome of an objected CLAIM of an anchor that waits alone (R86, R88, R92). -/
theorem objectedClaim_outcome {o : OwnFrame} {e : Entry} {r : Resource} {u : State} (ho : o.owed = .claim e r)
    (h : u.WaitsAlone e) : let t := finish (objected o (Work.start u.countedObjection))
    (∀ k, (u.entry e).resource = some (.trunk k) → u.candidate e k = true → t = u.countedObjection) ∧
    ((∀ k, (u.entry e).resource = some (.trunk k) → u.candidate e k = false) →
      look t.rcu.claims e = (u.chooseTrunk e).map trunkResource ∧ (t.entry e).state = .awaitResource ∧
      (∀ k, u.chooseTrunk e = some k → (t.entry e).resource = some (.trunk k)) ∧ ∀ x, x ≠ e → t.entry x = u.entry x) := by
  have hsame : SameChoice e u u.countedObjection := .of_parts rfl rfl rfl rfl
  have halone := hsame.waitsAlone h
  have hkeeps : u.countedObjection.keepsTrunk e = u.keepsTrunk e := by
    rw [State.keepsTrunk, show u.countedObjection.candidate e = u.candidate e from funext hsame.candidate]
    rfl
  dsimp only
  rw [objected_claim ho halone]
  refine ⟨fun k hk hc => ?_, fun hnone => ?_⟩
  · refine finish_keeps_trunk halone rfl rfl rfl (hkeeps.trans ?_)
    rw [State.keepsTrunk, NetEntry.trunk, hk]
    exact hc
  · have hfails : u.keepsTrunk e = false := by
      rw [State.keepsTrunk, NetEntry.trunk, Bool.eq_false_iff]
      intro hany
      obtain ⟨k, hk, hc⟩ := (Option.any_eq_true _ _).1 hany
      cases hr : (u.entry e).resource with
      | none => simp [hr] at hk
      | some q =>
        cases q with
        | trunk j =>
          obtain rfl : j = k := by simpa [hr, NetResource.trunk?] using hk
          rw [hnone j hr] at hc
          cases hc
        | bus l => simp [hr, NetResource.trunk?] at hk
    obtain ⟨v, hv, hfinish⟩ := finish_rechooses (w := { Work.start u.countedObjection with pass := true }) halone rfl rfl rfl
      (hkeeps.trans hfails)
    rw [hfinish]
    have hchoice : u.countedObjection.chooseTrunk e = u.chooseTrunk e := hsame.chooseTrunk
    refine ⟨hv.claim.trans (by rw [← hchoice]; rfl), (hv.same.waitsAlone halone).state, fun k hk => hv.resource k (hchoice.trans hk),
      fun x hx => hv.same.others x hx⟩

/-- Settles O18: the counts, the marks by their kind, and the choice of an anchor whose CLAIM was objected. -/
theorem ownFrameOutcomeCountsAndClears : Obligations.OwnFrameOutcomeCountsAndClears := by
  intro dt driven s u o hrun hown hu
  have hexec := exec_ownOutcome (driven := driven) hrun hown hu
  have hliu : u.liu.link = s.liu.link ∧ u.liu.objections = s.liu.objections := by
    rw [hu]
    exact ⟨rfl, rfl⟩
  obtain ⟨hlink, hcount⟩ := hliu
  have hentry : ∀ e, u.entry e = s.entry e := fun e => by
    rw [hu]
    exact advance_entry dt s e
  have hbelow : s.liu.link = .active → s.liu.objections + 1 < 16 → countObjection u = u.countedObjection := fun hl hc =>
    countObjection_below (hlink.trans hl) (by rw [hcount]; exact hc)
  have hcounted : u.countedObjection = { u with liu := { u.liu with objections := s.liu.objections + 1 } } := by
    rw [State.countedObjection, hcount]
  have hobjected : Follows (countObjection u) (finish (objected o (Work.start (countObjection u)))) :=
    finish_follows_of (objected_core o _)
  refine ⟨_, hexec, ?_, ?_, ?_, ?_, ?_, ?_⟩
  · rintro rfl
    have hwire : (finish (sent o (Work.start { u with liu := { u.liu with objections := 0 } }))).wire = _ :=
      (finish_follows _).wire.trans (sent_wire o _)
    exact ⟨objections_of_wire hwire, (link_of_wire hwire).trans hlink⟩
  · rintro rfl hl hc
    rw [if_pos rfl, hobjected.objections, hobjected.link, hbelow hl hc, hcounted]
    exact ⟨rfl, hlink.trans hl⟩
  · rintro rfl hl hc
    have hmutes := countObjection_mutes (hlink.trans hl) (by rw [hcount]; exact hc)
    have hwire := capture_wire ⟨.muted, none, none, none, none⟩
      { u with liu := { u.liu with link := .muted, objections := 0, cleans := 0 } }
    rw [if_pos rfl, hobjected.objections, hobjected.cleans, hobjected.link, hmutes]
    exact ⟨objections_of_wire hwire, cleans_of_wire hwire, link_of_wire hwire⟩
  · rintro rfl hc hl ho
    rw [if_pos rfl, objected_other ho, finish_start, hbelow hl hc, hcounted]
  · rintro rfl hc hl e r ho hstate hreq hmon hothers
    have halone : u.WaitsAlone e := by
      refine ⟨?_, ?_, ?_, fun x hx => ?_⟩
      · rwa [hentry]
      · rwa [hentry]
      · rwa [hentry]
      · rw [hentry]
        exact hothers x hx
    have houtcome := objectedClaim_outcome ho halone
    rw [if_pos rfl, hbelow hl hc, ← hcounted]
    simp only [hentry] at houtcome
    exact houtcome
  · rintro rfl hrenewed u0 rfl
    rw [if_neg (by decide)]
    refine ⟨fun e ho => ?_, fun i ho => ?_, fun e ho hp => ?_, fun i ho => ?_, fun c ho => ?_, fun ho => ?_, fun ho => ?_, fun ho => ?_⟩
    all_goals
      refine (finish_sent_mark (by simp [ho]) (by simp [ho]) (by simp [ho]) ?_).trans
        (by simp only [clearSent, hrenewed, ho, Bool.false_eq_true, if_false, clearMark])
      rw [ho]
      rintro x hx
      cases hx
    exact (congrArg NetEntry.releasePending (hentry e)).trans hp

end Sys2Proof.Machine
end

