-- ==== Sys2Proof/Proofs/SiteQueues.lean ====
section
/-! The circular queue of one site (R38–R41, R48, R49): a word moved on stays in its area, and so every act on a queue keeps it
inside. -/

namespace Sys2Proof.Machine

theorem areaSound_iff {p : SiteParams} : areaSound p = true ↔ p.start < p.stop ∧ p.stop ≤ 1024 ∧ 16 ≤ areaSize p := by
  simp [areaSound, and_assoc]

/-- A word of an area moved on by no more than the area's size is a word of it again (R39). -/
theorem wrapWord_inside {p : SiteParams} {w k : Nat} (hw : p.start ≤ w ∧ w < p.stop) (hk : k ≤ areaSize p) :
    p.start ≤ wrapWord p (w + k) ∧ wrapWord p (w + k) < p.stop := by
  unfold wrapWord
  unfold areaSize at *
  split <;> omega

namespace SiteQueue

theorem empty_inside {p : SiteParams} (h : areaSound p = true) : (SiteQueue.empty p.start).inside p :=
  ⟨rfl, Nat.zero_le _, ⟨le_refl _, (areaSound_iff.1 h).1⟩, ⟨le_refl _, (areaSound_iff.1 h).1⟩⟩

/-- A record that the room holds goes in at the tail (R40, R41). -/
theorem push_inside {p : SiteParams} {q : SiteQueue} {b : QueueBody} (h : q.inside p) (hr : b.words ≤ q.room p) :
    (q.push p b).inside p := by
  obtain ⟨used, fits, head, tail⟩ := h
  have hfit : q.used + b.words ≤ areaSize p := by
    unfold room at hr
    omega
  refine ⟨?_, hfit, head, wrapWord_inside tail (by omega)⟩
  simp only [push, wordsHeld, List.map_append, List.sum_append, List.map_cons, List.map_nil, List.sum_cons, List.sum_nil, used]
  rfl

/-- The head record's words are free again (R40). -/
theorem drop_inside {p : SiteParams} {q : SiteQueue} (h : q.inside p) : (q.drop p).inside p := by
  obtain ⟨used, fits, head, tail⟩ := h
  unfold drop
  split
  · exact ⟨used, fits, head, tail⟩
  · rename_i r rest hq
    have hwords : q.used = r.body.words + (rest.map fun r => r.body.words).sum := by rw [used, wordsHeld, hq]; rfl
    exact ⟨by rw [hwords, Nat.add_sub_cancel_left]; rfl, by dsimp only; omega, wrapWord_inside head (by omega), tail⟩

theorem skip_inside {p : SiteParams} (fuel : Nat) {q : SiteQueue} (h : q.inside p) : (q.skip p fuel).inside p := by
  induction fuel generalizing q with
  | zero => exact h
  | succ fuel ih =>
    unfold skip
    split
    · split
      · exact ih (drop_inside h)
      · exact h
    · exact h

theorem settle_inside {p : SiteParams} {q : SiteQueue} (h : q.inside p) : (q.settle p).inside p := skip_inside _ h

/-- A removed mark changes no words (R49). -/
theorem removeOldest_words (n : NetId) (rs : List QueueRecord) :
    (removeOldest n rs).map (fun r => r.body.words) = rs.map (fun r => r.body.words) := by
  induction rs with
  | nil => rfl
  | cons r rest ih =>
    unfold removeOldest
    split
    · rfl
    · rw [List.map_cons, List.map_cons, ih]

theorem purged_inside {p : SiteParams} {q : SiteQueue} (n : NetId) (h : q.inside p) :
    ({ q with records := removeOldest n q.records }.settle p).inside p :=
  settle_inside ⟨by rw [wordsHeld, removeOldest_words]; exact h.used, h.fits, h.head, h.tail⟩

end SiteQueue

/-! ### The areas found VALID (R38) -/

theorem validFrom_sound (found : List SiteParams) (ps : List SiteParams) (k : Nat) (h : (validFrom found ps).getD k false = true) :
    ∃ p, ps[k]? = some p ∧ areaSound p = true := by
  induction ps generalizing found k with
  | nil => simp [validFrom] at h
  | cons p rest ih =>
    cases k with
    | zero => exact ⟨p, rfl, by simp [validFrom] at h; exact h.1⟩
    | succ k => exact ih _ k (by simpa [validFrom] using h)

/-- A VALID area is sound. -/
theorem validAreas_sound {sites : Table 8 SiteParams} {i : Site} (h : look (validAreas sites) i = true) :
    areaSound (look sites i) = true := by
  obtain ⟨p, hp, hs⟩ := validFrom_sound [] sites.toList i.val (by simpa [validAreas, look] using h)
  have hi : sites.toList[i.val]? = some (look sites i) := by simp [look]
  rw [hi] at hp
  cases hp
  exact hs

end Sys2Proof.Machine
end

