-- ==== Sys2Proof/Proofs/QueueAreas.lean ====
section
/-! Every command keeps each VALID site's queue inside its area (R38–R41). `State.areas` is what that speaks of: all but the SQU's
own acts and the load leave it alone. -/

namespace Sys2Proof.Machine

/-- Which areas are VALID, the queues, and the parameters in force. -/
def State.areas (s : State) : Table 8 Bool × Table 8 SiteQueue × Configuration := (s.squ.valid, s.squ.queues, s.cfl.config)

theorem areas_of_base {s t : State} (h : t.base = s.base) : t.areas = s.areas :=
  congrArg (fun b => (b.squ.valid, b.squ.queues, b.cfl.config)) h

theorem areas_of_core {s t : State} (h : t.core = s.core) : t.areas = s.areas := areas_of_base (congrArg (fun p => p.1) h)

theorem Follows.areas {s t : State} (k : Follows s t) : t.areas = s.areas := areas_of_base k.base

theorem queuesOk_of_areas {s t : State} (h : t.areas = s.areas) (k : s.queuesOk) : t.queuesOk := by
  simp only [State.areas, Prod.mk.injEq] at h
  obtain ⟨hv, hq, hc⟩ := h
  unfold State.queuesOk State.queueOf State.siteParams at *
  rwa [hv, hq, hc]

/-- One queue changed: it is enough that the new one lies inside its area (R39). -/
theorem queuesOk_setQueue {s : State} {i : Site} {q : SiteQueue} (k : s.queuesOk)
    (h : (s.queueOf i).inside (s.siteParams i) → areaSound (s.siteParams i) = true → q.inside (s.siteParams i)) :
    (s.setQueue i q).queuesOk := by
  intro j hj
  obtain ⟨sound, inside⟩ := k j hj
  refine ⟨sound, ?_⟩
  by_cases hij : i = j
  · subst hij
    rw [State.setQueue_queueOf_same]
    exact h inside sound
  · rw [State.setQueue_queueOf_ne _ _ hij]
    exact inside

/-- With no VALID area there is nothing to keep (R37). -/
theorem queuesOk_of_invalid {s : State} (h : s.squ.valid = fill 8 false) : s.queuesOk := by
  intro i hi
  rw [h, look_fill] at hi
  cases hi

theorem finish_queuesOk {w : Work} (h : w.st.queuesOk) : (finish w).queuesOk := queuesOk_of_areas (finish_follows w).areas h

/-- Held waves that resume leave the areas alone (R119). -/
theorem resumed_areas (s : State) : (resumeHeld (Work.start s)).st.areas = s.areas := areas_of_core (resumeHeld_core _)

/-! ### The SQU's own acts (R39–R52) -/

theorem writeRecord_queuesOk {i : Site} {b : QueueBody} {s : State} (k : s.queuesOk) : (writeRecord i b s).queuesOk := by
  unfold writeRecord
  dsimp only
  split
  · exact queuesOk_setQueue k fun inside _ => SiteQueue.push_inside inside (by assumption)
  · exact k

theorem purge_queuesOk {i : Site} {n : NetId} {s : State} (k : s.queuesOk) : (purge i n s).queuesOk :=
  queuesOk_setQueue k fun inside _ => SiteQueue.purged_inside n inside

theorem popHead_queuesOk {i : Site} {s : State} (k : s.queuesOk) : (popHead i s).queuesOk :=
  queuesOk_setQueue k fun inside _ => SiteQueue.settle_inside (SiteQueue.drop_inside inside)

theorem emptySite_queuesOk {i : Site} {s : State} (k : s.queuesOk) : (emptySite i s).queuesOk :=
  queuesOk_of_areas (s := s.setQueue i (SiteQueue.empty (s.siteParams i).start)) rfl
    (queuesOk_setQueue k fun _ sound => SiteQueue.empty_inside sound)

theorem breakStaging_areas (i : Site) (s : State) : (breakStaging i s).areas = s.areas := by
  unfold breakStaging refuseSite
  dsimp only
  split
  · rfl
  · split
    · rfl
    · exact (areas_of_core (oweSite_core _ _)).trans rfl

theorem commit_queuesOk {i : Site} {g : Staging} {s : State} (k : s.queuesOk) : (commit i g s).queuesOk := by
  unfold commit refuseSite
  split
  · exact k
  · split
    · exact queuesOk_of_areas (areas_of_core (oweSite_core _ _)) k
    · exact writeRecord_queuesOk k

theorem routeHeard_queuesOk {i : Site} {more : Bool} {fl : RouteFlags} {q : Request} {n : NetId} {ends : List (Node × Pin)}
    {s : State} (k : s.queuesOk) : (routeHeard i more fl q n ends s).queuesOk := by
  have broken : (breakUnless i fl q n s).areas = s.areas := by
    unfold breakUnless
    split
    · split
      · rfl
      · exact breakStaging_areas _ _
    · rfl
  unfold routeHeard
  dsimp only
  split
  · exact queuesOk_of_areas broken k
  · exact commit_queuesOk (queuesOk_of_areas (s := s) broken k)

/-- A request that breaks a staging and may then write a record. -/
theorem brokenWrite_queuesOk {c : Prop} [Decidable c] {i j : Site} {b : QueueBody} {s u : State} (k : s.queuesOk)
    (hu : u.areas = (breakStaging i s).areas) : (if c then writeRecord j b (breakStaging i s) else u).queuesOk := by
  split
  · exact writeRecord_queuesOk (queuesOk_of_areas (breakStaging_areas i s) k)
  · exact queuesOk_of_areas (hu.trans (breakStaging_areas i s)) k

theorem abortHeard_queuesOk {i : Site} {w : Work} (k : w.st.queuesOk) : (abortHeard i w).st.queuesOk := by
  have emptied : (w.upd (emptySite i)).st.queuesOk := emptySite_queuesOk k
  simp only [abortHeard, Work.upd_st]
  exact queuesOk_of_areas (areas_of_core ((abortReady_core i _).trans (abortSite_core i _))) emptied

theorem cancelHeard_queuesOk {n : Node} {i : Site} {net : NetId} {w : Work} (k : w.st.queuesOk) :
    (cancelHeard n i net w).st.queuesOk := by
  have purged : (purge i net w.st).queuesOk := purge_queuesOk k
  unfold cancelHeard
  dsimp only
  split
  · exact queuesOk_of_areas (areas_of_core (cancelEntry_core _ _)) purged
  · exact purged

/-! ### The view, the flags and the wear store -/

theorem pendNote_areas (c : Fin 8) (d : BitVec 16) (s : State) : (pendNote c d s).areas = s.areas :=
  (areas_of_core (State.renew_core _ _)).trans rfl

theorem capture_areas (c : Capture) (s : State) : (capture c s).areas = s.areas := areas_of_core (capture_core c s)

theorem named_areas (n : Node) (r : Resource) (net : Option (Site × NetId)) (s : State) :
    (named n r net s).1.areas = s.areas := by
  unfold named
  dsimp only
  split
  · split
    · rfl
    · split
      · exact (capture_areas _ _).trans rfl
      · exact capture_areas _ s
  · (repeat' split) <;> rfl

theorem clearView_areas (n : Node) (r : Resource) (s : State) : (clearView n r s).1.areas = s.areas := by
  unfold clearView
  split <;> rfl

theorem beaconView_areas (n : Node) (mask : BitVec 24) (rs : List Resource) (s : State) :
    (beaconView n mask rs s).1.areas = s.areas := by
  induction rs generalizing s with
  | nil => rfl
  | cons r rs ih =>
    simp only [beaconView, ih]
    unfold beaconResource
    split
    · exact named_areas _ _ _ _
    · exact clearView_areas _ _ _

theorem claimHeard_areas (n : Node) (r : Resource) (i : Site) (m : NetId) (w : Work) :
    (claimHeard n r i m w).st.areas = w.st.areas := by
  have h : (actNamed r (named n r (some (i, m)) w.st).2 { w with st := (named n r (some (i, m)) w.st).1 }).st.areas = w.st.areas :=
    (areas_of_core (actNamed_core _ _ _)).trans (named_areas _ _ _ _)
  unfold claimHeard
  dsimp only
  split
  · exact (areas_of_core (foldl_core _ (fun w e => participantClaim_core e _ w) _ _)).trans h
  · exact h

theorem saveAdvance_areas (a b : Nat) (s : State) : (saveAdvance a b s).areas = s.areas := by
  unfold saveAdvance
  split
  · rfl
  · exact (areas_of_core (State.renew_core _ _)).trans rfl

theorem saveFail_areas (v : Save) (s : State) : (saveFail v s).areas = s.areas := (areas_of_core (State.renew_core _ _)).trans rfl

theorem maintHeard_areas (op : MaintOp) (w : Work) : (maintHeard op w).st.areas = w.st.areas := by
  unfold maintHeard
  split
  · rfl
  · cases op with
    | saveWear =>
      show (saveWear w.st).areas = _
      unfold saveWear
      split
      · rfl
      · split
        · rfl
        · exact saveAdvance_areas _ _ _
    | readWear i =>
      show (readWear i w.st).areas = _
      unfold readWear
      split <;> rfl
    | clearMarks first last =>
      show (clearMarks first last w.st).areas = _
      unfold clearMarks
      split
      · simp only [State.areas, clearSpan]
      · rfl
    | readFault => rfl
    | clearFault => rfl

/-! ### Heard frames (R26, R32) -/

/-- The blocks named for a frame's kind keep the queues inside their areas (R32). -/
theorem act_queuesOk {n : Node} {m : Msg} {w : Work} (k : w.st.queuesOk) : (act n m w).st.queuesOk := by
  cases m with
  | source t on => exact k
  | abort i => exact abortHeard_queuesOk k
  | claim r i net => exact queuesOk_of_areas (claimHeard_areas _ _ _ _ _) k
  | release r i net => exact queuesOk_of_areas ((areas_of_core (actNamed_core _ _ _)).trans (clearView_areas _ _ _)) k
  | cancel i net => exact cancelHeard_queuesOk k
  | beacon kind mask live =>
    exact queuesOk_of_areas ((areas_of_core (beaconHeard_core n mask w)).trans (beaconView_areas _ _ _ _)) k
  | clear r => exact queuesOk_of_areas (areas_of_core (clearHeard_core _ _)) k
  | route i more fl q net ends => exact routeHeard_queuesOk k
  | unroute i net => exact brokenWrite_queuesOk k rfl
  | monitor i net on => exact brokenWrite_queuesOk k rfl
  | fence i token => exact brokenWrite_queuesOk k (areas_of_core (oweReady_core _ _ _ _))
  | maint target op =>
    show (if target = w.st.cfl.node then maintHeard op w else w).st.queuesOk
    split
    · exact queuesOk_of_areas (maintHeard_areas _ _) k
    · exact k
  | status i net o => exact queuesOk_of_areas (areas_of_core (statusHeard_core _ _ _ _ _)) k
  | ready => exact k
  | note => exact k
  | maintDone => exact k

theorem latch_areas (k : Kind) (s : State) : (latch k s).areas = s.areas :=
  (pendNote_areas _ _ _).trans ((capture_areas _ _).trans rfl)

theorem dispatchFront_queuesOk {fits : State → Frame → Bool} {s : State} (k : s.queuesOk) : (dispatchFront fits s).queuesOk := by
  unfold dispatchFront
  split
  · exact k
  · split
    · unfold takeFrame
      split
      · exact k
      · split
        · exact queuesOk_of_areas (latch_areas _ _) k
        · exact finish_queuesOk (act_queuesOk (queuesOk_of_areas (s := s) ((resumed_areas _).trans rfl) k))
    · exact k

/-! ### The link (R20–R30) and the beacon-period boundary (R101) -/

theorem startFrame_areas (s : State) : (startFrame s).areas = s.areas := by
  unfold startFrame
  split <;> rfl

theorem idlePoint_areas (s : State) : (idlePoint s).areas = s.areas := by
  unfold idlePoint
  dsimp only
  split
  · split
    · exact startFrame_areas _
    · rfl
  · rfl

theorem deferredStart_areas (s : State) : (deferredStart s).areas = s.areas := by
  unfold deferredStart
  split
  · exact startFrame_areas _
  · rfl

/-- An event on the line that ends as it began, or as a frame off the line leaves it. -/
theorem finish_offLine_areas (m : Owed) (s : State) : (finish (offLine m (Work.start s))).areas = s.areas :=
  (finish_follows _).areas.trans (areas_of_core (offLine_core _ _))

theorem lostContention_areas (s : State) : (lostContention s).areas = s.areas := by
  unfold lostContention
  split
  · split
    · exact finish_offLine_areas _ _
    · rfl
  · rfl

theorem readbackFault_areas (s : State) : (readbackFault s).areas = s.areas := by
  unfold readbackFault
  split
  · split
    · exact (finish_offLine_areas _ _).trans (latch_areas _ _)
    · rfl
  · rfl

theorem checkFieldEnd_areas (h : Sampled) (s : State) : (checkFieldEnd h s).areas = s.areas := by
  have counted : (countClean (sampledDamaged h) s).areas = s.areas := by
    unfold countClean
    (repeat' split)
    · rfl
    · rfl
    · rfl
    · exact pendNote_areas _ _ _
  unfold checkFieldEnd
  dsimp only
  split
  · split
    · rfl
    · exact counted
  · rfl

theorem releaseSent_areas (e : Entry) (r : Resource) (w : Work) : (releaseSent e r w).st.areas = w.st.areas := by
  have ite : ∀ {c : Prop} [Decidable c] {a b : Work}, a.st.areas = w.st.areas → b.st.areas = w.st.areas →
      (if c then a else b).st.areas = w.st.areas := by
    intro c _ a b ha hb
    split
    · exact ha
    · exact hb
  have dropped : (if decide (look w.st.rcu.holdings r = some e) then w.upd (dropHolding r) else w).st.areas = w.st.areas := ite rfl rfl
  have freed : ∀ u : Work, u.st.areas = w.st.areas →
      (if decide (look w.st.rcu.holdings r = some e) then tryFree e u else u).st.areas = w.st.areas := fun u hu =>
    ite ((areas_of_core (tryFree_core e u)).trans hu) hu
  unfold releaseSent
  dsimp only
  exact freed _ (ite ((areas_of_core (watch_core _ _)).trans dropped) dropped)

theorem claimSent_areas (e : Entry) (r : Resource) (b : Bool) (w : Work) : (claimSent e r b w).st.areas = w.st.areas := by
  unfold claimSent
  dsimp only
  split
  · exact (areas_of_core (trunkClaimed_core _ _ _)).trans rfl
  · exact (areas_of_core ((handshake_core _ _).trans (monitorClaimed_core _ _ _))).trans rfl

theorem sent_areas (o : OwnFrame) (w : Work) : (sent o w).st.areas = w.st.areas := by
  have cleared : (w.upd (clearSent o)).st.areas = w.st.areas := by
    show (clearSent o w.st).areas = _
    unfold clearSent
    split
    · rfl
    · split <;> rfl
  unfold sent
  dsimp only
  split
  · exact (claimSent_areas _ _ _ _).trans cleared
  · exact (releaseSent_areas _ _ _).trans cleared
  · exact cleared
  · exact (areas_of_core (takeFaulted_core _ _)).trans cleared
  · exact cleared

theorem ownOutcome_areas (o : OwnFrame) (driven : Bool) (s : State) : (ownOutcome o driven s).areas = s.areas := by
  have counted : ∀ u : State, (countObjection u).areas = u.areas := fun u => by
    unfold countObjection
    split
    · rfl
    · split
      · rfl
      · exact capture_areas _ _
  unfold ownOutcome
  dsimp only
  split
  · exact (finish_follows _).areas.trans ((areas_of_core (objected_core _ _)).trans (counted _))
  · exact (finish_follows _).areas.trans (sent_areas _ _)

theorem slotRead_areas (driven : Bool) (s : State) : (slotRead driven s).areas = s.areas := by
  unfold slotRead
  split
  · split
    · exact ownOutcome_areas _ _ _
    · rfl
    · rfl
  · rfl

theorem beaconBoundary_areas (s : State) : (beaconBoundary s).areas = s.areas := by
  have opened : ∀ u : State, (openOnFailure u).areas = u.areas := fun u => by
    unfold openOnFailure
    split
    · rw [dropAll_eq, openHeld_eq]
      exact (pendNote_areas _ _ _).trans (capture_areas _ _)
    · rfl
  have counted : ∀ u : State, (countPeriod u).areas = u.areas := fun _ => rfl
  by_cases hd : s.beaconDue = true
  · obtain ⟨u, hu, h⟩ := rcuBoundary_core (resumeHeld (Work.start (beginBoundary s)))
    calc (beaconBoundary s).areas
        = (rcuBoundary (resumeHeld (Work.start (beginBoundary s)))).st.areas := by
          rw [beaconBoundary_due hd]; exact (finish_follows _).areas
      _ = (openOnFailure u).areas := areas_of_core h
      _ = u.areas := opened u
      _ = (countPeriod (resumeHeld (Work.start (beginBoundary s))).st).areas := hu.areas
      _ = (resumeHeld (Work.start (beginBoundary s))).st.areas := counted _
      _ = (beginBoundary s).areas := resumed_areas _
      _ = s.areas := by simp only [State.areas, beginBoundary, ageRoster_squ, ageRoster_cfl]
  · rw [beaconBoundary, if_neg hd]

/-! ### Resets and the load (R37, R38, R180–R183) -/

theorem resetAsserted_areas (s : State) : (resetAsserted s).areas = s.areas := by
  have frame : ∀ t : State, (cutFrame t).areas = t.areas := fun t => by
    unfold cutFrame
    split
    · exact ownOutcome_areas _ _ _
    · rfl
  have save : ∀ t : State, (cutSave t).areas = t.areas := fun t => by
    unfold cutSave
    split
    · rfl
    · exact saveFail_areas _ _
  unfold resetAsserted
  split
  · rfl
  · exact (save _).trans (frame _)

/-- There is no site table until the load after a reset has ended (R37). -/
theorem reset_queuesOk (k : ResetKind) (straps : Node) (s : State) : (reset k straps s).queuesOk := by
  have power : (powerOn straps s).queuesOk := queuesOk_of_invalid rfl
  have warm : (warmKeep straps s).queuesOk := queuesOk_of_invalid (by rw [warmKeep, captureInFlight_eq]; rfl)
  unfold reset
  split
  · exact power
  · split
    · exact power
    · exact queuesOk_of_invalid rfl
  · split
    · exact power
    · exact warm

theorem wearBlockRead_areas (record block : MemAnswer) (s : State) : (wearBlockRead record block s).areas = s.areas := by
  have judged : (ensureJudged record s).areas = s.areas := by
    unfold ensureJudged
    split <;> rfl
  have present : ∀ (c : Prop) [Decidable c] (t : State),
      (if c then { t with wru := { t.wru with storeAbsent := false } } else t : State).areas = t.areas := by
    intro c _ t
    split <;> rfl
  have taken : ∀ b c f g (t : State), (takeBlock b c f g t).areas = t.areas := fun b c f g t => by
    simp only [State.areas, takeBlock_squ, takeBlock_cfl]
  have next : ∀ b (t : State), (takeNext b block t).areas = t.areas := by
    intro b t
    unfold takeNext
    dsimp only
    split
    · exact taken _ _ _ _ _
    · exact (pendNote_areas _ _ _).trans (taken _ _ _ _ _)
  have absent : ∀ c (t : State), (pendNote noteStoreAbsent 0#16 (takeAbsent c t)).areas = t.areas := fun c t =>
    (pendNote_areas _ _ _).trans (by simp only [State.areas, takeAbsent])
  unfold wearBlockRead
  split
  · split
    · rfl
    · dsimp only
      split
      · exact (absent _ _).trans judged
      · exact (next _ _).trans ((present _ _).trans judged)
  · rfl

/-- The load's areas are judged and every queue is empty at its start (R38, R39). -/
theorem takeParameters_queuesOk (c : Configuration) (s : State) : (takeParameters c s).queuesOk := by
  intro i hi
  have sound : areaSound (look c.sites i) = true := validAreas_sound hi
  have hq : (takeParameters c s).queueOf i = SiteQueue.empty (look c.sites i).start := by
    simp [takeParameters, State.queueOf, look]
  rw [hq]
  exact ⟨sound, SiteQueue.empty_inside sound⟩

theorem loadEnd_queuesOk {record : MemAnswer} {s : State} (k : s.queuesOk) : (loadEnd record s).queuesOk := by
  have start : ∀ w : Work, (queueStart w).st.areas = w.st.areas := by
    intro w
    unfold queueStart
    dsimp only
    (repeat' split) <;> rfl
  have note : ∀ n (t : State), (judgeHeld (noteRecord n t)).areas = t.areas := by
    intro n t
    show (noteRecord n t).areas = t.areas
    unfold noteRecord
    split
    · exact pendNote_areas _ _ _
    · rfl
  unfold loadEnd
  split
  · exact finish_queuesOk (queuesOk_of_areas ((start _).trans ((areas_of_core (tellParts_core _ _)).trans (note _ _)))
      (takeParameters_queuesOk _ s))
  · exact k

theorem listenEnd_areas (s : State) : (listenEnd s).areas = s.areas := by
  unfold listenEnd
  split
  · refine (finish_follows _).areas.trans ?_
    split
    · exact (areas_of_core (foldl_core _ (fun w t => watch_core _ w) _ _)).trans (resumed_areas _)
    · exact resumed_areas _
  · rfl

/-! ### The arbiter and the block writes (R55, R163) -/

theorem actRecord_core (i : Site) (b : QueueBody) (w : Work) : (actRecord i b w).st.core = w.st.core := by
  cases b with
  | route r => exact dispatchRoute_core _ _ _
  | unroute n =>
    show (match w.st.findNet i n with | some e => unrouteEntry e w | none => w).st.core = _
    split
    · exact unrouteEntry_core _ _
    · rfl
  | monitor n on => exact dispatchMonitor_core _ _ _ _
  | fence token => exact oweReady_core _ _ _ _

theorem arbitrate_queuesOk {w : Work} (k : w.st.queuesOk) : (arbitrate w).st.queuesOk := by
  unfold arbitrate
  split
  · exact k
  · rename_i h
    split
    · exact k
    · rw [select_eq h]
      exact queuesOk_of_areas (areas_of_core (actRecord_core _ _ _)) (popHead_queuesOk (queuesOk_of_areas (s := w.st) rfl k))

theorem writeEnd_areas (s : State) : (writeEnd s).areas = s.areas := by
  unfold writeEnd
  split
  · split
    · exact saveAdvance_areas _ _ _
    · rfl
  · rfl

theorem writeFailure_areas (s : State) : (writeFailure s).areas = s.areas := by
  unfold writeFailure
  split
  · split
    · exact saveFail_areas _ _
    · rfl
  · rfl

/-! ### The step -/

theorem advance_areas (dt : Nat) (s : State) : (advance dt s).areas = s.areas := by
  simp only [State.areas, advance_squ, advance_cfl]

theorem plainEvent_queuesOk {dt : Nat} {f : State → State} {s t : State} (hf : ∀ {u : State}, u.queuesOk → (f u).queuesOk)
    (h : plainEvent dt f s = .next t) (k : s.queuesOk) : t.queuesOk := by
  cases h
  exact hf (queuesOk_of_areas (advance_areas dt s) k)

theorem plainEvent_areas_queuesOk {dt : Nat} {f : State → State} {s t : State} (hf : ∀ u, (f u).areas = u.areas)
    (h : plainEvent dt f s = .next t) (k : s.queuesOk) : t.queuesOk :=
  plainEvent_queuesOk (fun {u} => queuesOk_of_areas (hf u)) h k

theorem event_queuesOk {dt : Nat} {due : State → Bool} {f : Work → Work} {s t : State}
    (hf : ∀ {w : Work}, w.st.queuesOk → (f w).st.queuesOk) (h : event dt due f s = .next t) (k : s.queuesOk) : t.queuesOk := by
  have advanced : (advance dt s).queuesOk := queuesOk_of_areas (advance_areas dt s) k
  cases h
  split
  · exact finish_queuesOk (hf advanced)
  · exact advanced

/-- An event whose acts leave the core alone. -/
theorem event_core_queuesOk {dt : Nat} {due : State → Bool} {f : Work → Work} {s t : State} (hf : ∀ w, (f w).st.core = w.st.core)
    (h : event dt due f s = .next t) (k : s.queuesOk) : t.queuesOk :=
  event_queuesOk (fun {w} => queuesOk_of_areas (areas_of_core (hf w))) h k

/-- Every command keeps the queues inside their areas. -/
theorem exec_queuesOk {c : Instr} {s t : State} (h : exec c s = .next t) (k : s.queuesOk) : t.queuesOk := by
  cases c with
  | powerOnReset | coldPinReset | warmKeep => exact plainEvent_queuesOk (f := reset _ _) (fun _ => reset_queuesOk _ _ _) h k
  | configurationLoadEnd dt record => exact plainEvent_queuesOk loadEnd_queuesOk h k
  | wearBlockRead dt record block => exact plainEvent_areas_queuesOk (wearBlockRead_areas record block) h k
  | listenPeriodEnd dt => exact plainEvent_areas_queuesOk listenEnd_areas h k
  | idlePoint dt => exact plainEvent_areas_queuesOk idlePoint_areas h k
  | deferredFrameStart dt => exact plainEvent_areas_queuesOk deferredStart_areas h k
  | lostContention dt => exact plainEvent_areas_queuesOk lostContention_areas h k
  | readbackFault dt => exact plainEvent_areas_queuesOk readbackFault_areas h k
  | checkFieldEnd dt heard => exact plainEvent_areas_queuesOk (checkFieldEnd_areas heard) h k
  | objectionSlotRead dt driven => exact plainEvent_areas_queuesOk (slotRead_areas driven) h k
  | source | abort | claim | release | cancel | beacon | clear | route | unroute | monitor | fence | saveWear | readWear
  | clearMarks | readFault | clearFault | status | ready | note | maintDone | maintForAnotherTargetNode =>
    exact plainEvent_queuesOk dispatchFront_queuesOk h k
  | arbiterDispatch dt => exact event_queuesOk arbitrate_queuesOk (show execArbiterDispatch dt s = .next t from h) k
  | beaconPeriodBoundary dt => exact plainEvent_areas_queuesOk beaconBoundary_areas h k
  | creditBoundary dt => exact event_queuesOk (f := creditBoundary) id (show execCreditBoundary dt s = .next t from h) k
  | settleEnd dt r => exact event_core_queuesOk (settle_core r) (show execSettleEnd dt r s = .next t from h) k
  | connectHoldExpiry dt e => exact event_core_queuesOk (holdExpired_core e) (show execConnectHoldExpiry dt e s = .next t from h) k
  | disconnectHoldExpiry dt e =>
    exact event_core_queuesOk (holdExpired_core e) (show execDisconnectHoldExpiry dt e s = .next t from h) k
  | awaitResourceDeadline dt e =>
    exact event_core_queuesOk (fun w => abandon_core e _ w) (show execAwaitResourceDeadline dt e s = .next t from h) k
  | awaitAnchorDeadline dt e =>
    exact event_core_queuesOk (fun w => by simp [anchorWaitOver]) (show execAwaitAnchorDeadline dt e s = .next t from h) k
  | awaitOpenedDeadline dt e =>
    exact event_core_queuesOk (releaseWaitOver_core e) (show execAwaitOpenedDeadline dt e s = .next t from h) k
  | monitorClaimWaitExpiry dt e =>
    exact event_core_queuesOk (monitorWaitOver_core e) (show execMonitorClaimWaitExpiry dt e s = .next t from h) k
  | coolingEnd dt r => exact event_queuesOk (f := coolingEnd r) id (show execCoolingEnd dt r s = .next t from h) k
  | senseEnd dt high => exact event_core_queuesOk (senseOver_core high) (show execSenseEnd dt high s = .next t from h) k
  | stepEnd dt => exact event_core_queuesOk (fun w => finishSteps_core w.st) (show execStepEnd dt s = .next t from h) k
  | blockWriteEnd dt => exact plainEvent_areas_queuesOk writeEnd_areas h k
  | blockWriteFailure dt => exact plainEvent_areas_queuesOk writeFailure_areas h k
  | resetAsserted dt => exact plainEvent_areas_queuesOk resetAsserted_areas h k

/-- Settles O58, command by command: a queue changes by the SQU's own acts and the load, and each keeps it inside its area. -/
theorem everyStepKeepsQueuesInsideAreas : Obligations.EveryStepKeepsQueuesInsideAreas := by
  intro s t hs h
  unfold step at h
  split at h
  · cases h
    exact hs
  · exact exec_queuesOk h (queuesOk_of_areas (s := s) rfl hs)

end Sys2Proof.Machine
end

