-- ==== Sys2Proof/Proofs/HeardRequests.lean ====
section
/-! Heard requests (R39, R40, R43–R47, R49, R77): the state in which the SQU takes them, what a broken staging and a written record
change, and the statements on FENCE, ROUTE and CANCEL. -/

namespace Sys2Proof.Machine

/-! ### The state that has heard a frame -/

/-- The state u has heard a frame in s: but for the line, the roster and the time that has passed it is s. -/
structure Heard (s u : State) : Prop where
  squ : u.squ = s.squ
  ne : u.ne = s.ne
  rcu : u.rcu = s.rcu
  rm : u.rm = s.rm
  snu : u.snu = s.snu
  cfl : u.cfl = s.cfl
  own : u.liu.own = s.liu.own
  queue : u.wsu.queue = s.wsu.queue
  held : u.wsu.held = s.wsu.held
  settling : u.wsu.settling = s.wsu.settling
  recovery : u.wsu.recovery = s.wsu.recovery

theorem heard_heard (s : State) (dt : Nat) (f : Frame) (m : Msg) : Heard s (s.heard dt f m) where
  squ := advance_squ dt s
  ne := advance_ne dt s
  rcu := advance_rcu dt s
  rm := advance_rm dt s
  snu := advance_snu dt s
  cfl := advance_cfl dt s
  own := show (advance dt s).liu.own = s.liu.own by rw [advance_liu]
  queue := advance_queue dt s
  held := advance_held dt s
  settling := advance_settling dt s
  recovery := advance_recovery dt s

section
variable {s u : State}

theorem Heard.entry (h : Heard s u) (e : Entry) : u.entry e = s.entry e := by rw [State.entry, h.ne]; rfl
theorem Heard.queueOf (h : Heard s u) (i : Site) : u.queueOf i = s.queueOf i := by rw [State.queueOf, h.squ]; rfl
theorem Heard.siteParams (h : Heard s u) (i : Site) : u.siteParams i = s.siteParams i := by rw [State.siteParams, h.cfl]; rfl
theorem Heard.claimOnLine (h : Heard s u) (e : Entry) : u.claimOnLine e = s.claimOnLine e := by
  rw [State.claimOnLine, h.own]
  rfl

end

/-- The command of a frame's row runs as the act of its blocks. -/
theorem exec_front_as {dt : Nat} {s : State} {f : Frame} {m : Msg} {c : Instr} (h : s.Front f m)
    (hc : ∀ g : Frame, g.kind = m.kind → frameCommand dt s.cfl.node g = c) :
    exec c s = .next (finish (act f.src m (resumeHeld (Work.start (s.heard dt f m))))) := by
  rw [← hc f (parse_kind h.message)]
  exact exec_front h

/-- With no wave held, the act of the blocks begins in the state that has heard the frame. -/
theorem exec_front_none_as {dt : Nat} {s : State} {f : Frame} {m : Msg} {c : Instr} (h : s.Front f m) (hh : s.wsu.held = [])
    (hc : ∀ g : Frame, g.kind = m.kind → frameCommand dt s.cfl.node g = c) :
    exec c s = .next (finish (act f.src m (Work.start (s.heard dt f m)))) := by
  rw [← hc f (parse_kind h.message)]
  exact exec_front_none h hh

/-- A request that the SQU takes alone sets nothing else in motion. -/
theorem finish_upd_start (g : State → State) (s : State) : finish ((Work.start s).upd g) = g s := finish_eq rfl rfl rfl

/-! ### A record written, a staging broken (R39, R40, R44, R48) -/

/-- A record goes in at the tail where the area has room for it. -/
theorem writeRecord_room {i : Site} {b : QueueBody} {s : State} (h : (s.queueOf i).used + b.words ≤ areaSize (s.siteParams i)) :
    writeRecord i b s = s.setQueue i ((s.queueOf i).push (s.siteParams i) b) := by
  have hroom : b.words ≤ (s.queueOf i).room (s.siteParams i) := by
    unfold SiteQueue.room
    omega
  exact if_pos hroom

/-- A record written or dropped changes the queue alone. -/
theorem writeRecord_parts (i : Site) (b : QueueBody) (s : State) :
    (writeRecord i b s).ne = s.ne ∧ (writeRecord i b s).squ.staging = s.squ.staging := by
  unfold writeRecord
  dsimp only
  split <;> exact ⟨rfl, rfl⟩

theorem breakStaging_none {i : Site} {s : State} (h : look s.squ.staging i = none) : breakStaging i s = s := by
  rw [breakStaging, h]

theorem refuseSite_squ (i : Site) (n : NetId) (r : Reason) (s : State) :
    (refuseSite i n r s).squ = { s.squ with refusals := (refuseSite i n r s).squ.refusals } := by
  simp only [refuseSite, oweSite, renew_squ]
  rfl

/-- A broken staging leaves the queues, the site table and the parameters alone. -/
theorem breakStaging_parts (i : Site) (s : State) : look (breakStaging i s).squ.staging i = none ∧
    (breakStaging i s).squ.valid = s.squ.valid ∧ (breakStaging i s).squ.queues = s.squ.queues ∧
    (breakStaging i s).cfl = s.cfl := by
  have hcfl : ∀ n r (t : State), (refuseSite i n r t).cfl = t.cfl := fun n r t => by
    simp only [refuseSite, oweSite, renew_cfl]
    rfl
  unfold breakStaging
  split
  · exact ⟨by assumption, rfl, rfl, rfl⟩
  · dsimp only
    split
    · exact ⟨look_put_same _ _ _, rfl, rfl, rfl⟩
    · rw [refuseSite_squ, hcfl]
      exact ⟨look_put_same _ _ _, rfl, rfl, rfl⟩

/-- A card with staged pins reports INCOMPLETE (R44). -/
theorem breakStaging_reports {i : Site} {s : State} {g : Staging} (h : look s.squ.staging i = some g) (hp : g.pins ≠ []) :
    look (breakStaging i s).ne.siteStatus i = some ⟨i, g.net, .refused, .incomplete, none, none⟩ := by
  rw [breakStaging, h]
  simp only [hp, if_false, refuseSite, oweSite_ne, look_put_same]

/-! ### FENCE (R47) -/

theorem oweReady_squ (i : Site) (token held : Nat) (s : State) : (oweReady i token held s).squ = { s.squ with
    ready := put s.squ.ready i (some ⟨token, held, look s.squ.refusals i, look s.squ.faults i⟩)
    refusals := put s.squ.refusals i 0
    faults := put s.squ.faults i 0 } := renew_squ _ _

theorem oweReady_ne (i : Site) (token held : Nat) (s : State) : (oweReady i token held s).ne = s.ne := renew_ne _ _

theorem exec_fence {dt : Nat} {s : State} {f : Frame} {i : Site} {token : Fin 255} (h : s.Front f (.fence i token))
    (hh : s.wsu.held = []) : exec (.fence dt) s = .next (fenceHeard i token (s.heard dt f (.fence i token))) := by
  rw [exec_front_none_as h hh (c := .fence dt) (fun g hg => by rw [frameCommand, hg]; rfl)]
  exact congrArg _ (finish_upd_start _ _)

/-- Settles O32: the staging breaks first, and the FENCE is written or answered. -/
theorem fenceQueuesOrAnswers : Obligations.FenceQueuesOrAnswers := by
  intro dt s u f i token hfront hu hheld
  have hheard := heard_heard s dt f (.fence i token)
  obtain ⟨hstaging, hvalid, hqueues, hcfl⟩ := breakStaging_parts i (s.heard dt f (.fence i token))
  have hreports : ∀ g, look s.squ.staging i = some g → g.pins ≠ [] →
      look u.ne.siteStatus i = some ⟨i, g.net, .refused, .incomplete, none, none⟩ := fun g hg hp => by
    rw [hu]
    exact breakStaging_reports (by rw [hheard.squ]; exact hg) hp
  rw [← hu] at hstaging hvalid hqueues hcfl
  rw [hheard.squ] at hvalid hqueues
  rw [hheard.cfl] at hcfl
  have hfence : fenceHeard i token (s.heard dt f (.fence i token)) =
      if look s.squ.valid i then writeRecord i (.fence token) u else oweReady i token.val 0 u := by
    rw [fenceHeard, ← hu, hvalid]
  have hqueue : u.queueOf i = s.queueOf i := congrArg (look · i) hqueues
  have hparams : u.siteParams i = s.siteParams i := by rw [State.siteParams, hcfl]; rfl
  refine ⟨_, exec_fence hfront hheld, ?_, fun g hg hp => ?_, fun hv hroom => ?_, fun hv => ?_⟩
  · rw [hfence]
    split
    · rw [(writeRecord_parts _ _ _).2]
      exact hstaging
    · rw [oweReady_squ]
      exact hstaging
  · rw [hfence]
    split
    · rw [(writeRecord_parts _ _ _).1]
      exact hreports g hg hp
    · rw [oweReady_ne]
      exact hreports g hg hp
  · rw [hfence, if_pos hv, writeRecord_room (by rw [hqueue, hparams]; exact hroom), hqueue, hparams]
    rfl
  · rw [hfence, if_neg (by rw [hv]; decide), oweReady_squ]
    exact ⟨hqueues, look_put_same _ _ _, look_put_same _ _ _, look_put_same _ _ _⟩

/-! ### Staging (R42, R43) -/

theorem mem_insertFin {n : Nat} {x y : Fin n} {l : List (Fin n)} : y ∈ insertFin x l ↔ y = x ∨ y ∈ l := by
  induction l with
  | nil => simp [insertFin]
  | cons a rest ih =>
    unfold insertFin
    split
    · rename_i h
      subst h
      simp
    · split
      · simp
      · simp only [List.mem_cons, ih]
        tauto

theorem insertFin_sorted {n : Nat} {x : Fin n} {l : List (Fin n)} (h : l.Pairwise (· < ·)) : (insertFin x l).Pairwise (· < ·) := by
  induction l with
  | nil => simp [insertFin]
  | cons a rest ih =>
    obtain ⟨ha, hrest⟩ := List.pairwise_cons.1 h
    unfold insertFin
    split
    · exact h
    · rename_i hne
      split
      · rename_i hlt
        refine List.pairwise_cons.2 ⟨fun y hy => ?_, h⟩
        rcases List.mem_cons.1 hy with rfl | hy
        · exact hlt
        · exact lt_trans hlt (ha y hy)
      · rename_i hle
        refine List.pairwise_cons.2 ⟨fun y hy => ?_, ih hrest⟩
        rcases mem_insertFin.1 hy with rfl | hy
        · exact lt_of_le_of_ne (not_lt.1 hle) (Ne.symm hne)
        · exact ha y hy

/-- What a staging has become when some endpoints have joined it (R43). -/
structure Staging.Extends (me : Node) (ends : List (Node × Pin)) (b g : Staging) : Prop where
  net : g.net = b.net
  flags : g.flags = b.flags
  request : g.request = b.request
  frames : g.frames = b.frames
  nodes_sorted : b.nodes.Pairwise (· < ·) → g.nodes.Pairwise (· < ·)
  nodes : ∀ x, x ∈ g.nodes ↔ x ∈ b.nodes ∨ ∃ p, (x, p) ∈ ends
  pins_sorted : b.pins.Pairwise (· < ·) → g.pins.Pairwise (· < ·)
  pins : ∀ p, p ∈ g.pins ↔ p ∈ b.pins ∨ (me, p) ∈ ends

theorem foldl_add_extends (me : Node) (ends : List (Node × Pin)) (b : Staging) :
    Staging.Extends me ends b (ends.foldl (fun g p => g.add me p) b) := by
  induction ends generalizing b with
  | nil => exact ⟨rfl, rfl, rfl, rfl, id, by simp, id, by simp⟩
  | cons q ends ih =>
    obtain ⟨net, flags, request, frames, nodesSorted, nodes, pinsSorted, pins⟩ := ih (b.add me q)
    refine ⟨net, flags, request, frames, fun h => nodesSorted (insertFin_sorted h), fun x => ?_, fun h => pinsSorted ?_, fun p => ?_⟩
    · rw [List.foldl_cons, nodes, Staging.add, mem_insertFin]
      simp only [List.mem_cons, Prod.ext_iff]
      grind
    · unfold Staging.add
      dsimp only
      split
      · exact insertFin_sorted h
      · exact h
    · have hadd : p ∈ (b.add me q).pins ↔ p ∈ b.pins ∨ (me, p) = q := by
        unfold Staging.add
        dsimp only
        split
        · rename_i hq
          rw [mem_insertFin, Prod.ext_iff, hq]
          tauto
        · rename_i hq
          rw [Prod.ext_iff]
          simp [Ne.symm hq]
      rw [List.foldl_cons, pins, hadd, List.mem_cons, or_assoc]

/-- The lowest node of a staging with some node of it. -/
theorem Staging.lowest_least {g : Staging} {me : Node} (hs : g.nodes.Pairwise (· < ·)) (hm : me ∈ g.nodes) :
    g.lowest me ∈ g.nodes ∧ ∀ x ∈ g.nodes, g.lowest me ≤ x := by
  unfold Staging.lowest
  cases hn : g.nodes with
  | nil => rw [hn] at hm; cases hm
  | cons a rest =>
    rw [hn] at hs
    refine ⟨List.mem_cons_self, fun x hx => ?_⟩
    rcases List.mem_cons.1 hx with rfl | hx
    · exact le_refl _
    · exact le_of_lt ((List.pairwise_cons.1 hs).1 x hx)

/-! ### ROUTE (R43, R45) -/

theorem exec_route {dt : Nat} {s : State} {f : Frame} {i : Site} {more : Bool} {fl : RouteFlags} {q : Request} {n : NetId}
    {ends : List (Node × Pin)} (h : s.Front f (.route i more fl q n ends)) (hh : s.wsu.held = []) :
    exec (.route dt) s = .next (routeHeard i more fl q n ends (s.heard dt f (.route i more fl q n ends))) := by
  rw [exec_front_none_as h hh (c := .route dt) (fun g hg => by rw [frameCommand, hg]; rfl)]
  exact congrArg _ (finish_upd_start _ _)

/-- A first frame of a route with more to come is staged, and a single one commits (R43, R45). -/
theorem routeHeard_first {i : Site} {more : Bool} {fl : RouteFlags} {q : Request} {n : NetId} {ends : List (Node × Pin)} {s : State}
    (h : look s.squ.staging i = none) : routeHeard i more fl q n ends s =
      if more then s.setStaging i (some (stagedWith s.cfl.node none fl q n ends))
      else commit i (stagedWith s.cfl.node none fl q n ends) (s.setStaging i none) := by
  have hbreak : breakUnless i fl q n s = s := by rw [breakUnless, h]
  rw [routeHeard, hbreak, h]

/-- A route for a VALID site and for no local bus is not refused by the SQU (R45). -/
theorem commit_writes {i : Site} {g : Staging} {s : State} (hp : g.pins ≠ []) (hv : look s.squ.valid i = true)
    (hq : g.request ≠ .localBus) : commit i g s = writeRecord i (.route (g.record s.cfl.node)) s := by
  have haccept : commitRefusal true g = none := by simp [commitRefusal, hq]
  rw [commit, if_neg hp, hv, haccept]

/-- Settles O30: the endpoints join one by one, and the frame is staged or committed. -/
theorem routeStagesAndCommits : Obligations.RouteStagesAndCommits := by
  intro dt s u f i more fl q n ends hfront hu hnone hheld
  have hheard : Heard s u := hu ▸ heard_heard s dt f _
  have hstaging : look u.squ.staging i = none := by rw [hheard.squ]; exact hnone
  have hext : Staging.Extends s.cfl.node ends ⟨n, fl, q, 1, [], []⟩ (stagedWith s.cfl.node none fl q n ends) :=
    foldl_add_extends _ _ _
  obtain ⟨net, flags, request, frames, nodesSorted, nodes, pinsSorted, pins⟩ := hext
  have hexec := exec_route (dt := dt) hfront hheld
  rw [← hu, routeHeard_first hstaging, hheard.cfl] at hexec
  generalize hg : stagedWith s.cfl.node none fl q n ends = g at hexec net flags request frames nodesSorted nodes pinsSorted pins
  have hsorted : g.nodes.Pairwise (· < ·) := nodesSorted List.Pairwise.nil
  refine ⟨_, g, hexec, rfl, net, flags, request, frames, hsorted, by simpa using nodes, pinsSorted List.Pairwise.nil,
    by simpa using pins, fun hm => if_pos hm, fun hm hp => ?_, fun hm hp hv hq hroom => ?_⟩
  · rw [if_neg (by rw [hm]; decide), commit, if_pos hp]
  · have hcommit : commit i g (u.setStaging i none) = (u.setStaging i none).setQueue i
        ((s.queueOf i).push (s.siteParams i) (.route (g.record s.cfl.node))) := by
      rw [commit_writes hp (by rw [State.setStaging, hheard.squ]; exact hv) (by rw [request]; exact hq), writeRecord_room]
      · rw [show (u.setStaging i none).queueOf i = s.queueOf i from hheard.queueOf i,
          show (u.setStaging i none).siteParams i = s.siteParams i from hheard.siteParams i, State.setStaging_cfl, hheard.cfl]
      · rw [show (u.setStaging i none).queueOf i = s.queueOf i from hheard.queueOf i,
          show (u.setStaging i none).siteParams i = s.siteParams i from hheard.siteParams i]
        have : (2 + (g.pins.length + 3) / 4) ≤ areaSize (s.siteParams i) - (s.queueOf i).used := hroom
        show (s.queueOf i).used + (2 + (g.pins.length + 3) / 4) ≤ _
        omega
    obtain ⟨p, hpin⟩ := List.exists_mem_of_ne_nil _ hp
    have hme : s.cfl.node ∈ g.nodes := (nodes _).2 (Or.inr ⟨p, by simpa using (pins p).1 hpin⟩)
    obtain ⟨hmem, hleast⟩ := Staging.lowest_least hsorted hme
    have hrole : (g.record s.cfl.node).role = .anchor ↔ g.lowest s.cfl.node = s.cfl.node := by
      simp only [Staging.record]
      split <;> simp_all
    rw [if_neg (by rw [hm]; decide), hcommit]
    refine ⟨g.record s.cfl.node, net, flags, request, rfl, hrole.trans ⟨fun h x hx => h ▸ hleast x hx, fun h => ?_⟩, hmem, hleast,
      fun h => if_pos (hrole.1 h), by rw [State.setQueue_queueOf_same]; rfl, by rw [State.setQueue_queueOf_same]; rfl,
      by rw [State.setQueue_queueOf_same]; rfl, fun k hk => ?_, look_put_same _ _ _, hheard.ne⟩
    · exact le_antisymm (hleast _ hme) (h _ hmem)
    · rw [State.setQueue_queueOf_ne _ _ (Ne.symm hk)]
      exact hheard.queueOf k

/-! ### CANCEL (R49, R77) -/

/-- A purge acts on what the base of a state holds. -/
theorem purge_core_congr {s t : State} (h : t.core = s.core) (i : Site) (n : NetId) : (purge i n t).core = (purge i n s).core :=
  congrArg (fun c => (purge i n c.1, c.2)) h

theorem cancelHeard_core (n : Node) (i : Site) (net : NetId) (w : Work) :
    (cancelHeard n i net w).st.core = (purge i net w.st).core := by
  unfold cancelHeard
  dsimp only
  split
  · exact cancelEntry_core _ _
  · rfl

theorem cancelEntry_awaitAnchor {e : Entry} {w : Work} (h : (w.ent e).state = .awaitAnchor) : cancelEntry e w = freeEntry e w := by
  unfold cancelEntry
  dsimp only
  rw [h]

/-- Settles O27: the queued record is purged, and the waiting participant becomes FREE. -/
theorem cancelPurgesAndFrees : Obligations.CancelPurgesAndFrees := by
  intro dt s u f i n hfront hu
  have hheard := heard_heard s dt f (.cancel i n)
  have hexec := exec_front_as (dt := dt) (c := .cancel dt) hfront (fun g hg => by rw [frameCommand, hg]; rfl)
  have hfollows : Follows u (finish (act f.src (.cancel i n) (resumeHeld (Work.start (s.heard dt f (.cancel i n)))))) := by
    rw [hu]
    exact finish_follows_of ((cancelHeard_core _ _ _ _).trans (purge_core_congr (resumeHeld_core _) i n))
  have hqueues : ∀ k, u.queueOf k = if i = k then
      SiteQueue.settle (s.siteParams i) { s.queueOf i with records := removeOldest n (s.queueOf i).records } else s.queueOf k := by
    intro k
    rw [hu, State.queueOf]
    simp only [purge, State.setQueue, look_put, hheard.queueOf, hheard.siteParams, hheard.squ]
    rfl
  have hne : u.ne = s.ne := by rw [hu]; exact hheard.ne
  have hwork : s.wsu.held = [] → act f.src (.cancel i n) (resumeHeld (Work.start (s.heard dt f (.cancel i n)))) =
      match u.cancels f.src i n with
      | some e => cancelEntry e (Work.start u)
      | none => Work.start u := fun hheld => by
    rw [resumeHeld_none (hheard.held.trans hheld), hu]
    rfl
  refine ⟨_, hexec, hfollows, fun k hk => ?_, ?_, fun hheld hcancels => ?_, fun e hheld hn hcancels hstate => ?_⟩
  · rw [State.queueOf, hfollows.queues]
    exact (hqueues k).trans (if_neg (Ne.symm hk))
  · rw [State.queueOf, hfollows.queues]
    exact (hqueues i).trans (if_pos rfl)
  · rw [hwork hheld, hcancels]
    exact finish_start u
  · have hnu : (Work.start u).st.noWaiter := noWaiter_of_entries hn (by rw [Work.start_st, hne])
    have hentry : ∀ x, u.entry x = s.entry x := fun x => by rw [State.entry, hne]; rfl
    rw [hwork hheld, hcancels]
    simp only
    rw [cancelEntry_awaitAnchor (w := Work.start u) ((congrArg NetEntry.state (hentry e)).trans hstate), finish_freeEntry hnu rfl rfl]
    refine ⟨congrArg NetEntry.state freeEntry_entry, freeEntry_status.trans (by rw [Work.start_st, hne]), freeEntry_unbound,
      fun x hx => ?_⟩
    rw [← hentry x, State.entry, freeEntry_ne]
    exact look_put_ne _ _ (Ne.symm hx)

end Sys2Proof.Machine
end

