-- ==== Sys2Proof/Proofs/Arbiter.lean ====
section
/-! The arbiter (R50, R54–R57): which heads are eligible, the rotation of the sites, the classes and their budgets, and the
statement on ARBITER_DISPATCH. -/

namespace Sys2Proof.Machine

/-! ### Eligible heads (R54) -/

theorem freeIndex_isSome {s : State} : s.freeIndex.isSome = true ↔ ∃ e, (s.entry e).state = .free := by
  have hmem : ∀ e, e ∈ (List.finRange 64).filter (fun e => decide ((s.entry e).state = .free)) ↔ (s.entry e).state = .free := by simp
  unfold State.freeIndex
  generalize (List.finRange 64).filter (fun e => decide ((s.entry e).state = .free)) = free at hmem
  dsimp only
  split
  · rename_i e hfind
    exact ⟨fun _ => ⟨e, (hmem e).1 (List.mem_of_find?_eq_some hfind)⟩, fun _ => rfl⟩
  · rw [List.isSome_head?]
    exact ⟨fun h => (List.exists_mem_of_ne_nil _ h).imp fun e => (hmem e).1,
      fun ⟨e, he⟩ => List.ne_nil_of_mem ((hmem e).2 he)⟩

theorem countEntries_eq_zero {s : State} {i : Site} {p : EntryState → Bool} :
    s.countEntries i p = 0 ↔ ∀ e, (s.entry e).site = i → p (s.entry e).state = false := by
  rw [State.countEntries, List.length_eq_zero_iff, List.filter_eq_nil_iff]
  constructor
  · intro h e hsite
    have := h (s.entry e) (Vector.mem_toList_iff.2 (Vector.getElem_mem e.isLt))
    simpa [hsite] using this
  · intro h x hx
    obtain ⟨j, hj, rfl⟩ := Vector.mem_iff_getElem.1 (Vector.mem_toList_iff.1 hx)
    have hentry : s.ne.entries[j] = s.entry ⟨j, hj⟩ := rfl
    simpa [hentry] using h ⟨j, hj⟩

theorem transitional_eq_false {q : EntryState} :
    q.transitional = false ↔ q = .connected ∨ q = .faulted ∨ q = .releaseBlocked ∨ q = .free := by
  cases q <;> decide

theorem headEligible_iff {s : State} {i : Site} : s.headEligible i = true ↔ ∃ r rest, (s.queueOf i).records = r :: rest ∧
    (∀ q, r.body = .route q → s.rm.ready = true ∧ ∃ e, (s.entry e).state = .free) ∧
    (∀ token, r.body = .fence token → ∀ e, (s.entry e).site = i →
      (s.entry e).state = .connected ∨ (s.entry e).state = .faulted ∨ (s.entry e).state = .releaseBlocked ∨
        (s.entry e).state = .free) := by
  unfold State.headEligible
  cases (s.queueOf i).records with
  | nil => simp
  | cons r rest =>
    obtain ⟨body, removed⟩ := r
    cases body with
    | route q => simp [freeIndex_isSome]
    | unroute n => simp
    | monitor n on => simp
    | fence token => simp [countEntries_eq_zero, transitional_eq_false]

theorem eligible_iff {s : State} {i : Site} : s.eligible i = true ↔
    s.running = true ∧ s.cfl.listen = false ∧ look s.squ.valid i = true ∧ s.headEligible i = true := by
  simp [State.eligible, and_assoc]

/-! ### The rotation (R56) -/

/-- The site at which the rotation begins. -/
def rotationStart (last : Option Site) : Site := match last with
  | none => (0 : Site)
  | some l => l + 1

theorem rotation_eq (last : Option Site) : rotation last = (List.finRange 8).map (fun i => rotationStart last + i) := by
  cases last with
  | none => simp [rotation, rotationStart]
  | some l => rfl

/-- What is found in the rotation meets the test, and no site that meets it comes before. -/
theorem rotation_find {last : Option Site} {p : Site → Bool} {i : Site} (h : (rotation last).find? p = some i) :
    p i = true ∧ ∀ k, p k = true → (i - rotationStart last).val ≤ (k - rotationStart last).val := by
  refine ⟨List.find?_some h, fun k hk => ?_⟩
  rw [rotation_eq, List.find?_map] at h
  obtain ⟨j, hj, rfl⟩ := Option.map_eq_some_iff.1 h
  rw [add_sub_cancel_left]
  exact find?_lowest (List.pairwise_lt_finRange 8) hj _ (List.mem_finRange _) (by simpa using hk)

theorem mem_rotation (last : Option Site) (k : Site) : k ∈ rotation last := by
  rw [rotation_eq]
  exact List.mem_map.2 ⟨k - rotationStart last, List.mem_finRange _, add_sub_cancel _ _⟩

theorem nextSite_some {s : State} {c : Fin 4} {i : Site} (h : s.nextSite c = some i) :
    s.eligible i = true ∧ (s.siteParams i).cls = c ∧ ∀ k, s.eligible k = true → (s.siteParams k).cls = c →
      (i - rotationStart (look s.squ.lastServed c)).val ≤ (k - rotationStart (look s.squ.lastServed c)).val := by
  obtain ⟨hi, hleast⟩ := rotation_find h
  simp only [Bool.and_eq_true, decide_eq_true_eq] at hi hleast
  exact ⟨hi.1, hi.2, fun k hk hc => hleast k ⟨hk, hc⟩⟩

theorem nextSite_none {s : State} {c : Fin 4} (h : s.nextSite c = none) {k : Site} (hk : s.eligible k = true) :
    (s.siteParams k).cls ≠ c := by
  have := List.find?_eq_none.1 h k (mem_rotation _ k)
  simpa [hk] using this

/-! ### The class (R56, R57) -/

/-- A class that is passed over fails the test or has no eligible site. -/
theorem passedOver {s : State} {p : Fin 4 → Bool} {c : Fin 4}
    (h : (if p c then (s.nextSite c).map (fun i => (c, i)) else none) = none) {k : Site} (hk : s.eligible k = true)
    (hc : (s.siteParams k).cls = c) : p c = false := by
  cases hp : p c with
  | false => rfl
  | true =>
    rw [hp, if_pos rfl, Option.map_eq_none_iff] at h
    exact absurd hc (nextSite_none h hk)

theorem nextClass_some {s : State} {p : Fin 4 → Bool} {c : Fin 4} {i : Site} (h : s.nextClass p = some (c, i)) :
    p c = true ∧ s.nextSite c = some i ∧ ∀ k, s.eligible k = true → p (s.siteParams k).cls = true → c ≤ (s.siteParams k).cls := by
  obtain ⟨before, a, after, hsplit, ha, hbefore⟩ := List.findSome?_eq_some_iff.1 h
  cases hp : p a with
  | false => simp [hp] at ha
  | true =>
    rw [hp, if_pos rfl] at ha
    obtain ⟨i', hi, hpair⟩ := Option.map_eq_some_iff.1 ha
    cases hpair
    refine ⟨hp, hi, fun k hk hpk => ?_⟩
    have hsorted : (before ++ c :: after).Pairwise (· < ·) := hsplit ▸ List.pairwise_lt_finRange 4
    have hmem : (s.siteParams k).cls ∈ before ++ c :: after := hsplit ▸ List.mem_finRange _
    rcases List.mem_append.1 hmem with hb | ha
    · rw [passedOver (hbefore _ hb) hk rfl] at hpk
      cases hpk
    · rcases List.mem_cons.1 ha with heq | ha
      · exact le_of_eq heq.symm
      · exact le_of_lt ((List.pairwise_cons.1 (List.pairwise_append.1 hsorted).2.1).1 _ ha)

theorem nextClass_none {s : State} {p : Fin 4 → Bool} (h : s.nextClass p = none) {k : Site} (hk : s.eligible k = true) :
    p (s.siteParams k).cls = false :=
  passedOver (List.findSome?_eq_none_iff.1 h _ (List.mem_finRange _)) hk rfl

/-! ### The selection (R56, R57) -/

/-- The classes that may be served: every one, or in WEIGHTED mode those with budget left. -/
def State.servable (s : State) (c : Fin 4) : Bool := !s.cfl.config.weighted || decide (0 < look s.squ.budgets c)

theorem select_cases {s t : State} {c : Fin 4} {i : Site} (h : select s = some (c, i, t)) :
    t.nextClass t.servable = some (c, i) ∧
    (t = s ∨ s.cfl.config.weighted = true ∧ t = newRound s ∧ s.nextClass s.servable = none) := by
  have hweighted : ∀ u : State, u.cfl.config.weighted = true → u.servable = fun c => decide (0 < look u.squ.budgets c) :=
    fun u hu => by funext c; simp [State.servable, hu]
  unfold select at h
  split at h
  · rename_i hw
    split at h
    · rename_i hnext
      cases h
      rw [hweighted _ hw]
      exact ⟨hnext, Or.inl rfl⟩
    · rename_i hnone
      obtain ⟨p, hp, hpair⟩ := Option.map_eq_some_iff.1 h
      cases hpair
      rw [hweighted _ hw, hweighted (newRound s) hw]
      exact ⟨hp, Or.inr ⟨hw, rfl, hnone⟩⟩
  · rename_i hw
    obtain ⟨p, hp, hpair⟩ := Option.map_eq_some_iff.1 h
    cases hpair
    have hall : s.servable = fun _ => true := by funext c; simp [State.servable, hw]
    rw [hall]
    exact ⟨hp, Or.inl rfl⟩

/-- With weights of at least one, the arbiter selects where some site is eligible. -/
theorem select_none {s : State} (h : select s = none) (hw : ∀ k, 1 ≤ look s.cfl.config.weights k) (i : Site) :
    s.eligible i = false := by
  rw [Bool.eq_false_iff]
  intro hi
  unfold select at h
  split at h
  · split at h
    · cases h
    · have hnone := nextClass_none (Option.map_eq_none_iff.1 h) (k := i) hi
      have := hw (s.siteParams i).cls
      have hpos : ¬ 0 < look s.cfl.config.weights (s.siteParams i).cls := of_decide_eq_false hnone
      omega
  · have := nextClass_none (Option.map_eq_none_iff.1 h) hi
    cases this

/-! ### The dispatch (R55) -/

theorem exec_arbiterDispatch_some {dt : Nat} {s s1 s2 : State} {c : Fin 4} {i : Site} {r : QueueRecord} {rest : List QueueRecord}
    (hs1 : s1 = advance dt s) (hsel : select s1 = some (c, i, s2)) (hq : (s.queueOf i).records = r :: rest) :
    exec (.arbiterDispatch dt) s = .next (finish (actRecord i r.body ⟨popHead i (noteServed c i s2), [], true, false⟩)) := by
  have hhead : (s2.queueOf i).records = r :: rest := by
    rw [select_eq hsel, ← hq, hs1]
    exact congrArg SiteQueue.records (advance_queueOf dt s i)
  show event dt State.arbiterDue arbitrate s = _
  unfold event arbitrate
  dsimp only
  rw [← hs1, if_pos (by simp [State.arbiterDue, hsel]), show (Work.start s1).st = s1 from rfl, hsel]
  dsimp only
  rw [hhead]
  rfl

theorem exec_arbiterDispatch_none {dt : Nat} {s s1 : State} (hs1 : s1 = advance dt s) (hsel : select s1 = none) :
    exec (.arbiterDispatch dt) s = .next s1 := by
  show event dt State.arbiterDue arbitrate s = _
  unfold event
  dsimp only
  rw [← hs1, if_neg (by simp [State.arbiterDue, hsel])]

/-- A FENCE that passes owes READY with the site's counts, which restart (R50). -/
theorem passFence {i : Site} {token : Fin 255} {p : State} (hn : p.noWaiter) :
    finish (actRecord i (.fence token) ⟨p, [], true, false⟩) =
      oweReady i token.val (p.countEntries i (fun q => decide (q ≠ .free))) p :=
  finish_noWaiter (noWaiter_of_entries (t := oweReady i token.val _ p) hn (by rw [oweReady_ne])) rfl rfl

/-- Settles O39: a class and site are found in the order of the classes and of the rotation, and the head record acts. -/
theorem arbiterServesEligibleHead : Obligations.ArbiterServesEligibleHead := by
  refine ⟨fun s i => eligible_iff.trans (by rw [headEligible_iff]), fun dt s s1 hs1 hsel => ⟨exec_arbiterDispatch_none hs1 hsel, ?_⟩, ?_⟩
  · intro hweights
    exact select_none hsel (by rw [hs1, advance_cfl]; exact hweights)
  intro dt s s1 s2 c i hs1 hsel
  have hcfl : s1.cfl = s.cfl := by rw [hs1, advance_cfl]
  have hsqu : s1.squ = s.squ := by rw [hs1, advance_squ]
  have hne : s1.ne = s.ne := by rw [hs1, advance_ne]
  have hs2 := select_eq hsel
  have heligible : s2.eligible = s1.eligible := by rw [hs2]; rfl
  have hparams : ∀ k, s2.siteParams k = s.siteParams k := fun k => by rw [hs2, State.siteParams, hcfl]; rfl
  have hparams1 : ∀ k, s1.siteParams k = s.siteParams k := fun k => by rw [State.siteParams, hcfl]; rfl
  have hserved : s2.squ.lastServed = s.squ.lastServed := by rw [hs2, hsqu]
  have hqueue : ∀ k, s2.queueOf k = s.queueOf k := fun k => by rw [hs2, State.queueOf, hsqu]; rfl
  have hconfig : s2.cfl = s.cfl := by rw [hs2, hcfl]
  obtain ⟨hclass, hround⟩ := select_cases hsel
  obtain ⟨hservable, hnext, hlowest⟩ := nextClass_some hclass
  obtain ⟨hi, hcls, hleast⟩ := nextSite_some hnext
  rw [heligible] at hi
  simp only [heligible, hparams, hserved] at hleast hlowest hcls
  have hlisten : s.cfl.listen = false := by
    obtain ⟨-, h, -⟩ := eligible_iff.1 hi
    rw [← hcfl]
    exact h
  have hbudget : s.cfl.config.weighted = true → ∀ k, s2.servable k = decide (0 < look s2.squ.budgets k) := fun hw k => by
    simp [State.servable, hconfig, hw]
  refine ⟨hi, hcls, hlisten, fun k from_ hfrom hk hc => ?_, fun hw => ⟨?_, fun k hk => ?_⟩, fun hw => ⟨?_, fun k hk hb => ?_, ?_⟩,
    fun r rest hq => ⟨_, exec_arbiterDispatch_some hs1 hsel hq, ?_⟩⟩
  · subst hfrom
    exact hleast k hk hc
  · rcases hround with h | ⟨hw', -⟩
    · exact h
    · rw [hcfl, hw] at hw'
      cases hw'
  · exact hlowest k hk (by simp [State.servable, hconfig, hw])
  · rw [hbudget hw] at hservable
    exact of_decide_eq_true hservable
  · exact hlowest k hk (by rw [hbudget hw]; exact decide_eq_true hb)
  · rcases hround with h | ⟨-, h, hnone⟩
    · exact Or.inl h
    · refine Or.inr ⟨by rw [h, newRound, hcfl], fun k hk => ?_⟩
      have := nextClass_none hnone hk
      rw [State.servable, hcfl, hw, hsqu, hparams1] at this
      simpa using this
  · have hcore := actRecord_core i r.body ⟨popHead i (noteServed c i s2), [], true, false⟩
    have hfollows := finish_follows_of hcore
    have hpopped : (popHead i (noteServed c i s2)).squ.queues =
        put s2.squ.queues i (SiteQueue.settle (s2.siteParams i) ((s2.queueOf i).drop (s2.siteParams i))) := rfl
    refine ⟨hfollows, ?_, fun hw => ?_, fun k hk => ?_, ?_, fun token htoken hn => ?_⟩
    · rw [hfollows.field (fun u => u.squ.lastServed) (fun _ => rfl)]
      exact look_put_same _ _ _
    · rw [hfollows.field (fun u => u.squ.budgets) (fun _ => rfl)]
      rw [hbudget hw] at hservable
      have hpos : 0 < look s2.squ.budgets c := of_decide_eq_true hservable
      have hspent : (popHead i (noteServed c i s2)).squ.budgets = put s2.squ.budgets c (look s2.squ.budgets c - 1) :=
        if_pos (by rw [hconfig]; exact hw)
      rw [hspent, look_put_same]
      omega
    · rw [State.queueOf, hfollows.queues, hpopped, look_put_ne _ _ (Ne.symm hk)]
      exact hqueue k
    · rw [State.queueOf, hfollows.queues, hpopped, look_put_same, hqueue, hparams]
    · have hentries : (popHead i (noteServed c i s2)).ne = s.ne := by rw [hs2]; exact hne
      have hcount : (popHead i (noteServed c i s2)).countEntries i (fun q => decide (q ≠ .free)) =
          s.countEntries i (fun q => decide (q ≠ .free)) := by rw [State.countEntries, hentries]; rfl
      have hcounts : (popHead i (noteServed c i s2)).squ.refusals = s.squ.refusals ∧
          (popHead i (noteServed c i s2)).squ.faults = s.squ.faults := by
        rw [hs2, ← hsqu]
        exact ⟨rfl, rfl⟩
      rw [htoken, passFence (noWaiter_of_entries hn (by rw [hentries])), oweReady_ne, oweReady_squ, hcount, hcounts.1, hcounts.2]
      exact ⟨hentries, look_put_same _ _ _, look_put_same _ _ _, look_put_same _ _ _⟩

end Sys2Proof.Machine
end

