-- ==== Sys2Proof/Proofs/LoadEnd.lean ====
section
/-! The end of the load (R38, R58, R101, R111, R127, R128, R183): the run of a start wave, what the settling of an event makes of
it, and the statement on CONFIGURATION_LOAD_END. -/

namespace Sys2Proof.Machine

/-! ### The parameters taken (R182, R183) -/

/-- The state that has taken a judged configuration, its note and the captures held since the reset. -/
def State.loaded (s : State) (j : Judged) : State := judgeHeld (noteRecord j.note (takeParameters j.config s))

theorem noteRecord_eq (n : Option (Fin 8 × BitVec 16)) (s : State) :
    noteRecord n s = { s with liu := (noteRecord n s).liu, fcu := (noteRecord n s).fcu } := by
  cases n with
  | none => rfl
  | some p =>
    unfold noteRecord pendNote State.renew
    dsimp only
    split
    · split <;> rfl
    · rfl

theorem loaded_eq (s : State) (j : Judged) : s.loaded j =
    { takeParameters j.config s with liu := (s.loaded j).liu, fcu := (s.loaded j).fcu } := by
  unfold State.loaded judgeHeld
  dsimp only
  rw [noteRecord_eq]

theorem loaded_core (s : State) (j : Judged) : (s.loaded j).core = (noteRecord j.note (takeParameters j.config s)).core := by
  have hjudge : ∀ (b : Bool) (l : List Capture) (f : Fcu), l.foldl (fun f c => judgeCapture b c f) f =
      { f with record := (l.foldl (fun f c => judgeCapture b c f) f).record } := fun b l => by
    induction l with
    | nil => exact fun f => rfl
    | cons c l ih =>
      intro f
      rw [List.foldl_cons, ih, judgeCapture_eq]
  unfold State.loaded judgeHeld
  rw [hjudge]
  rfl

theorem queueStart_core (w : Work) : (queueStart w).st.core = w.st.core := by
  unfold queueStart
  dsimp only
  split
  · rfl
  · split <;> rfl

theorem exec_configurationLoadEnd {dt : Nat} {record : MemAnswer} {s : State} (h : (advance dt s).loadDone = true) :
    exec (.configurationLoadEnd dt record) s = .next (finish (queueStart
      (tellParts (unlisted ((advance dt s).loaded (s.cfl.judged.getD (judgeRecord record s.memory))))
        (Work.start ((advance dt s).loaded (s.cfl.judged.getD (judgeRecord record s.memory))))))) := by
  show plainEvent dt (loadEnd record) s = _
  unfold plainEvent loadEnd
  rw [if_pos h, advance_cfl, advance_memory]
  cases s.cfl.judged <;> rfl

/-! ### Parts that count as settled (R128) -/

theorem partSettled_idle {e : Entry} {w : Work} (ho : (w.ent e).state ≠ .disconnectOuter)
    (hf : (w.ent e).state = .faulted → (w.ent e).winding = false)
    (hc : (w.ent e).state = .connected → (w.ent e).monitorMoving = false) : partSettled e w = w := by
  unfold partSettled
  dsimp only
  split
  · rename_i h
    rw [if_neg (by rw [hf h]; decide)]
  · rename_i h
    rw [if_pos (hc h)]
  · rename_i h
    exact absurd h ho
  · rfl

theorem tellParts_idle {es : List Entry} {w : Work} (h : ∀ e ∈ es, partSettled e w = w) : tellParts es w = w := by
  induction es with
  | nil => rfl
  | cons e es ih =>
    show tellParts es (partSettled e w) = w
    rw [h e List.mem_cons_self]
    exact ih fun x hx => h x (List.mem_cons_of_mem _ hx)

theorem tellParts_free {es : List Entry} {w : Work} (h : ∀ e, (w.st.entry e).state = .free) : tellParts es w = w :=
  tellParts_idle fun e _ => partSettled_idle (by rw [show (w.ent e).state = .free from h e]; decide)
    (fun hf => by rw [show (w.ent e).state = .free from h e] at hf; cases hf)
    (fun hc => by rw [show (w.ent e).state = .free from h e] at hc; cases hc)

/-! ### The run of a start wave (R110, R127, R128) -/

/-- What a wave that is not queried comes to: it moves along its list, is never met by a live trunk, and leaves the entries. -/
structure StartRun (l : List (Relay × Bool)) (v : Wave) (s : State) (out : State × Wave × Stop) : Prop where
  owner : out.2.1.owner = v.owner
  list : out.2.1.done ++ out.2.1.todo = v.done ++ l
  unmet : out.2.2 ≠ .live
  entries : out.1.ne = s.ne

theorem pulse_ne (v : Wave) (r : Relay) (c : Bool) (s : State) : (pulse v r c s).ne = s.ne := by
  unfold pulse addWear pendNote
  dsimp only
  split
  · rfl
  · split
    · exact renew_ne _ _
    · rfl

theorem pulseRun_startRun (l : List (Relay × Bool)) (v : Wave) (s : State) (hv : v.queried = false) :
    StartRun l v s (pulseRun l v s) := by
  induction l generalizing v s with
  | nil => exact ⟨rfl, rfl, (fun h => by cases h), rfl⟩
  | cons p rest ih =>
    obtain ⟨r, c⟩ := p
    unfold pulseRun
    split
    · obtain ⟨owner, list, unmet, entries⟩ := ih { v with done := v.done ++ [(r, c)], todo := rest }
        { s with wsu := { s.wsu with recovery := s.wsu.recovery.filter (fun p => decide (p.1 ≠ r)) } } hv
      exact ⟨owner, list.trans (List.append_assoc _ _ _), unmet, entries⟩
    · split
      · exact ⟨rfl, rfl, (fun h => by cases h), rfl⟩
      · rw [if_neg (by simp [State.blocked, hv])]
        obtain ⟨owner, list, unmet, entries⟩ :=
          ih (v.pulsed s.now (later s.now (s.settleTime r c)) (r, c) rest) (pulse v r c s) hv
        exact ⟨owner, list.trans (List.append_assoc _ _ _), unmet, entries.trans (pulse_ne _ _ _ _)⟩

/-- A wave over relays that are not OPEN passes over none: what it pulses is OPENING (R8, R128). -/
theorem pulseRun_unopened (l : List (Relay × Bool)) (v : Wave) (s : State) (hv : v.queried = false) (hl : ∀ p ∈ l, p.2 = false)
    (ho : ∀ p ∈ l, (s.relay p.1).state ≠ .opened) : (pulseRun l v s).1.wsu.recovery = s.wsu.recovery := by
  induction l generalizing v s with
  | nil => rfl
  | cons p rest ih =>
    obtain ⟨r, c⟩ := p
    have hr : (s.relay r).state ≠ .opened := ho _ List.mem_cons_self
    have hc : c = false := hl _ List.mem_cons_self
    unfold pulseRun
    rw [if_neg (by simp [passesOver, hr])]
    split
    · rfl
    · rw [if_neg (by simp [State.blocked, hv]), ih (v.pulsed _ _ _ _) _ hv (fun q hq => hl q (List.mem_cons_of_mem _ hq)), pulse_wsu]
      intro q hq
      rw [pulse_relay]
      split
      · rw [hc]
        exact (fun h => by cases h)
      · exact ho q (List.mem_cons_of_mem _ hq)

/-- The service of a start wave alone in the queue: credit stops it there, or it has made its last pulse (R110, R113). -/
theorem serveHead_start {w : Work} {v v' : Wave} {s' : State} {why : Stop} (hq : w.st.wsu.queue = [v])
    (hr : pulseRun v.todo v w.st = (s', v', why)) (hw : why ≠ .live) :
    serveHead w = tellParts (partsGone w.st.wsu.recovery s'.wsu.recovery) { w with
      st := { s' with wsu := { s'.wsu with queue := [v'], creditStop := some s'.now } }, serve := false } ∨
    serveHead w = tellParts (partsGone w.st.wsu.recovery s'.wsu.recovery) (waveFinished v' { w with
      st := { s' with wsu := { s'.wsu with queue := [], creditStop := none } } }) := by
  unfold serveHead
  simp only [hq, hr]
  cases why with
  | finished => exact Or.inr rfl
  | credit => exact Or.inl rfl
  | live => exact absurd rfl hw

/-! ### The event's own instant -/

theorem finish_serves {w : Work} (hp : w.pass = false) (hs : w.serve = true) (hc : w.st.wsu.credit.isSome = true) :
    finish w = (settleDown (4094 + 1) (serveHead w)).st := by
  show (settleDown (4095 + 1) w).st = _
  rw [settleDown, if_neg (by rw [hp]; decide), if_pos (by rw [hs, hc]; rfl)]

/-- With no wave left to serve or to join, nothing more happens. -/
theorem settleDown_served (n : Nat) {w : Work} (hp : w.pass = false) (hj : w.joining = []) (hq : w.st.wsu.queue = []) :
    (settleDown (n + 2) w).st = w.st := by
  rw [settleDown, if_neg (by rw [hp]; decide)]
  have hserved : serveHead w = { w with serve := false } := by unfold serveHead; rw [hq]
  split
  · rw [hserved, settleDown_rests n (w := ⟨w.st, w.joining, w.pass, false⟩) hp hj rfl]
  · rw [if_neg (by simp [hj])]

theorem settleDown_passed (n : Nat) {w : Work} (hn : w.st.noWaiter) (hj : w.joining = []) (hq : w.st.wsu.queue = []) :
    (settleDown (n + 3) w).st = w.st := by
  cases hp : w.pass with
  | false => exact settleDown_served (n + 1) hp hj hq
  | true =>
    rw [settleDown, if_pos hp, choicePass_noWaiter hn]
    exact settleDown_served n rfl hj hq

/-- A wave enters the settling set. -/
def Work.settles (v : Wave) (w : Work) : Work := w.upd (fun s => { s with wsu := { s.wsu with settling := s.wsu.settling ++ [v] } })

/-- A recovery wave that has made its last pulse settles where relays are left of it (R128). -/
theorem waveFinished_recovery {v : Wave} {w : Work} (ho : v.owner = .recovery) (hr : w.st.wsu.recovery ≠ []) :
    waveFinished v w = w.settles v := by
  unfold waveFinished
  rw [ho]
  exact if_neg hr

/-- A sweep that has made its last pulse settles, or has settled and left the RM ready (R10, R127). -/
theorem settleDown_swept (n : Nat) (es : List Entry) {w : Work} {v : Wave} (ho : v.owner = .sweep)
    (hfree : ∀ e, (w.st.entry e).state = .free) (hn : w.st.noWaiter) (hj : w.joining = []) (hq : w.st.wsu.queue = []) :
    (settleDown (n + 3) (tellParts es (waveFinished v w))).st.rm.ready = true ∨
      v ∈ (settleDown (n + 3) (tellParts es (waveFinished v w))).st.wsu.settling := by
  unfold waveFinished
  rw [ho]
  dsimp only
  split
  · generalize v.done.map Prod.fst = rs
    have hsettled : ∀ e, ((settleRelays rs w).st.entry e).state = .free := fun e => by
      rcases settleRelays_entry rs w e with k | ⟨k, -⟩
      · exact (congrArg NetEntry.state k).trans (hfree e)
      · rw [hfree e] at k
        rcases k with k | k <;> cases k
    have hqueue : (settleRelays rs w).st.wsu.queue = [] := by rw [settleRelays_eq]; exact hq
    have hjoining : (settleRelays rs w).joining = [] := (settleRelays_flags rs w).1.trans hj
    have hnone : (settleRelays rs w).st.noWaiter := settleRelays_noWaiter hn
    rw [tellParts_free (w := ready (settleRelays rs w)) hsettled,
      settleDown_passed n (w := ready (settleRelays rs w)) hnone hjoining hqueue]
    exact Or.inl rfl
  · show (settleDown _ (tellParts es (w.settles v))).st.rm.ready = true ∨
      _ ∈ (settleDown _ (tellParts es (w.settles v))).st.wsu.settling
    rw [tellParts_free (w := w.settles v) hfree, settleDown_passed n (w := w.settles v) hn hj hq]
    exact Or.inr (List.mem_append_right _ List.mem_cons_self)

/-- A sweep alone in the queue of a card without nets stays there, settles, or has settled (R110, R127). -/
theorem finish_sweep {w : Work} {v : Wave} (hq : w.st.wsu.queue = [v]) (ho : v.owner = .sweep) (hv : v.queried = false)
    (hfree : ∀ e, (w.st.entry e).state = .free) (hn : w.st.noWaiter) (hc : w.st.wsu.credit.isSome = true)
    (hp : w.pass = false) (hj : w.joining = []) (hs : w.serve = true) :
    (finish w).rm.ready = true ∨ ∃ u ∈ (finish w).wsu.queue ++ (finish w).wsu.settling, u.owner = .sweep ∧
      u.done ++ u.todo = v.done ++ v.todo := by
  rw [finish_serves hp hs hc]
  have hrun := pulseRun_startRun v.todo v w.st hv
  generalize hout : pulseRun v.todo v w.st = out at hrun
  obtain ⟨s', v', why⟩ := out
  obtain ⟨owner, list, unmet, entries⟩ := hrun
  dsimp only at owner list unmet entries
  have hfree' : ∀ t : State, t.ne = s'.ne → ∀ e, (t.entry e).state = .free := fun t ht e => by
    rw [State.entry, ht, entries]
    exact hfree e
  rcases serveHead_start hq hout unmet with h | h
  · rw [h, tellParts_free (hfree' _ rfl), settleDown_rests _ (w := ⟨_, w.joining, w.pass, false⟩) hp hj rfl]
    exact Or.inr ⟨v', by simp, owner.trans ho, list⟩
  · have hn' : ∀ t : State, t.ne = s'.ne → t.noWaiter := fun t ht => noWaiter_of_entries hn (by rw [ht, entries])
    rw [h]
    rcases settleDown_swept 4092 (partsGone w.st.wsu.recovery s'.wsu.recovery) (owner.trans ho)
      (w := ⟨{ s' with wsu := { s'.wsu with queue := [], creditStop := none } }, w.joining, w.pass, w.serve⟩)
      (hfree' _ rfl) (hn' _ rfl) hj rfl with hready | hsettling
    · exact Or.inl hready
    · exact Or.inr ⟨v', List.mem_append_right _ hsettling, owner.trans ho, list⟩

/-- A recovery wave over relays none of which is OPEN stays in the queue or settles (R110, R128). -/
theorem finish_recovery {w : Work} {v : Wave} (hq : w.st.wsu.queue = [v]) (ho : v.owner = .recovery) (hv : v.queried = false)
    (hrelays : ∀ p ∈ v.todo, p.2 = false ∧ (w.st.relay p.1).state ≠ .opened) (hlist : w.st.wsu.recovery ≠ [])
    (hc : w.st.wsu.credit.isSome = true) (hp : w.pass = false) (hj : w.joining = []) (hs : w.serve = true) :
    ∃ u ∈ (finish w).wsu.queue ++ (finish w).wsu.settling, u.owner = .recovery ∧ u.done ++ u.todo = v.done ++ v.todo := by
  rw [finish_serves hp hs hc]
  have hrun := pulseRun_startRun v.todo v w.st hv
  have hrecovery := pulseRun_unopened v.todo v w.st hv (fun p h => (hrelays p h).1) (fun p h => (hrelays p h).2)
  generalize hout : pulseRun v.todo v w.st = out at hrun hrecovery
  obtain ⟨s', v', why⟩ := out
  obtain ⟨owner, list, unmet, entries⟩ := hrun
  dsimp only at owner list unmet entries hrecovery
  have hserve := serveHead_start hq hout unmet
  rw [hrecovery, partsGone_self] at hserve
  rcases hserve with h | h
  · rw [h, tellParts_idle (fun e he => by cases he), settleDown_rests _ (w := ⟨_, w.joining, w.pass, false⟩) hp hj rfl]
    exact ⟨v', by simp, owner.trans ho, list⟩
  · rw [h]
    rw [tellParts_idle (fun e he => by cases he), waveFinished_recovery (owner.trans ho) (by rw [hrecovery]; exact hlist),
      settleDown_served 4093 (w := Work.settles v' ⟨_, w.joining, w.pass, w.serve⟩) hp hj rfl]
    exact ⟨v', List.mem_append_right _ (List.mem_append_right _ List.mem_cons_self), owner.trans ho, list⟩

/-- Settles O7: the parameters follow the record, and the start wave runs alone in an empty queue. -/
theorem configurationLoadEndGivesParameters : Obligations.ConfigurationLoadEndGivesParameters := by
  intro dt record s hdone j hj
  have hexec := exec_configurationLoadEnd (record := record) hdone
  rw [← hj] at hexec
  have hloaded := loaded_eq (advance dt s) j
  have hcore := loaded_core (advance dt s) j
  generalize (advance dt s).loaded j = u at hexec hloaded hcore
  have hfollows : Follows (noteRecord j.note (takeParameters j.config (advance dt s)))
      (finish (queueStart (tellParts (unlisted u) (Work.start u)))) :=
    finish_follows_of ((queueStart_core _).trans ((tellParts_core _ _).trans hcore))
  have hnoted := noteRecord_eq j.note (takeParameters j.config (advance dt s))
  generalize noteRecord j.note (takeParameters j.config (advance dt s)) = n at hfollows hnoted
  have hne : u.ne = s.ne := by rw [hloaded]; exact advance_ne dt s
  have hrm : u.rm = s.rm := by rw [hloaded]; exact advance_rm dt s
  have hqueue : u.wsu.queue = s.wsu.queue := by rw [hloaded]; exact advance_queue dt s
  have hrecovery : u.wsu.recovery = s.wsu.recovery := by rw [hloaded]; exact advance_recovery dt s
  have hcredit : u.wsu.credit = some j.config.cmax := by rw [hloaded]; rfl
  have hentry : ∀ e, u.entry e = s.entry e := fun e => by rw [State.entry, hne]; rfl
  have hrelay : ∀ r, u.relay r = s.relay r := fun r => by rw [State.relay, hrm]; rfl
  have hcfl : n.cfl = (takeParameters j.config (advance dt s)).cfl := by rw [hnoted]
  have hsqu : n.squ = (takeParameters j.config (advance dt s)).squ := by rw [hnoted]
  refine ⟨_, hexec, hfollows, ?_, ?_, ?_, ?_, ?_, ?_, fun i => ?_, fun c => ?_, ?_, ?_, ?_, ?_, ?_⟩
  · rw [hfollows.cfl, hcfl]
    rfl
  · rw [hfollows.cfl, hcfl]
    rfl
  · rw [hfollows.cfl, hcfl]
    rfl
  · rw [hfollows.cfl, hcfl]
    rfl
  · rw [hfollows.tb, hnoted]
    rfl
  · rw [hfollows.valid, hsqu]
    rfl
  · rw [State.queueOf, hfollows.queues, hsqu]
    simp [takeParameters, look]
  · rw [hfollows.field (fun u => u.squ.lastServed) (fun _ => rfl), hsqu]
    exact look_fill _ _
  · rw [hfollows.field (fun u => u.squ.budgets) (fun _ => rfl), hsqu]
    rfl
  · obtain ⟨hsome, hless⟩ := hfollows.credit
    have hfull : n.wsu.credit = some j.config.cmax := by rw [hnoted]; rfl
    rw [hfull] at hsome hless
    obtain ⟨c, hc⟩ := Option.isSome_iff_exists.1 hsome
    obtain ⟨full, hfull, hle⟩ := hless c hc
    exact ⟨c, hc, by cases hfull; exact hle⟩
  · rw [hfollows.beaconOwed, hnoted]
    show decide ((advance dt s).cfl.kind = _) = _
    rw [advance_cfl]
  · intro hempty hn hready hfree
    have htold : tellParts (unlisted u) (Work.start u) = Work.start u := tellParts_free fun e => by
      rw [Work.start_st, hentry]
      exact hfree e
    have hstart : queueStart (Work.start u) =
        { (Work.start u).upd (fun t => { t with wsu := { t.wsu with queue := [sweepWave u] } }) with serve := true } := by
      unfold queueStart
      dsimp only
      rw [if_pos (by rw [Work.start_st, hrm]; exact hready)]
      simp only [Work.start_st, hqueue, hempty, Work.upd]
      rfl
    have htodo : (sweepWave u).todo =
        (allRelays.filter (fun r => decide ((s.relay r).state ≠ .opened))).map (fun r => (r, false)) := by
      simp only [sweepWave, hrelay]
    rw [htold, hstart, ← htodo, ← List.nil_append (sweepWave u).todo]
    exact finish_sweep (v := sweepWave u) rfl rfl rfl (fun e => by rw [← hfree e, ← hentry e]; rfl)
      (noWaiter_of_entries hn (by rw [← hne]; rfl)) (by show u.wsu.credit.isSome = true; rw [hcredit]; rfl) rfl rfl rfl
  · intro hempty _ hready hlist hunopened hidle
    have htold : tellParts (unlisted u) (Work.start u) = Work.start u := tellParts_idle fun e he => by
      have hno : ∀ p ∈ s.wsu.recovery, p.2 ≠ e := by simpa [unlisted, hrecovery] using he
      obtain ⟨houter, hfaulted, hconnected⟩ := hidle e hno
      rw [← hentry e] at houter hfaulted hconnected
      exact partSettled_idle houter hfaulted hconnected
    have hstart : queueStart (Work.start u) =
        { (Work.start u).upd (fun t => { t with wsu := { t.wsu with queue := [recoveryWave u] } }) with serve := true } := by
      unfold queueStart
      dsimp only
      rw [if_neg (by rw [Work.start_st, hrm, hready]; decide), if_neg (by rw [Work.start_st, hrecovery]; exact hlist)]
      simp only [Work.start_st, hqueue, hempty, Work.upd]
      rfl
    have htodo : (recoveryWave u).todo = s.wsu.recovery.map (fun p => (p.1, false)) := by rw [recoveryWave, hrecovery]
    rw [htold, hstart, ← htodo]
    refine finish_recovery (v := recoveryWave u) rfl rfl rfl (fun p hp => ?_) (by rw [← hrecovery] at hlist; exact hlist)
      (by show u.wsu.credit.isSome = true; rw [hcredit]; rfl) rfl rfl rfl
    obtain ⟨q, hq, rfl⟩ := List.mem_map.1 (htodo ▸ hp)
    exact ⟨rfl, fun h => hunopened q hq (by rw [← hrelay]; exact h)⟩

end Sys2Proof.Machine
end

