-- ==== Sys2Proof/Proofs/DispatchedRecords.lean ====
section
/-! UNROUTE and MONITOR (R46, R55, R70, R71, R76, R81, R82): their frames at the SQU, release-pending of an entry, and their records
as the arbiter dispatches them. -/

namespace Sys2Proof.Machine

/-! ### The frames (R46) -/

theorem findNet_congr {s t : State} (h : t.ne.entries = s.ne.entries) (i : Site) (n : NetId) : t.findNet i n = s.findNet i n := by
  have hentry : ∀ e, t.entry e = s.entry e := fun e => by rw [State.entry, h]; rfl
  simp only [State.findNet, hentry]

theorem anchorOf_congr {s t : State} (h : t.ne.entries = s.ne.entries) (i : Site) (n : NetId) : t.anchorOf i n = s.anchorOf i n := by
  have hentry : ∀ e, t.entry e = s.entry e := fun e => by rw [State.entry, h]; rfl
  simp only [State.anchorOf, findNet_congr h, hentry]

/-- A found entry is of the net, and not FREE. -/
theorem findNet_some {s : State} {i : Site} {n : NetId} {e : Entry} (h : s.findNet i n = some e) :
    (s.entry e).state ≠ .free ∧ (s.entry e).site = i ∧ (s.entry e).net = n := by
  simpa [and_assoc] using List.find?_some h

theorem anchorOf_some {s : State} {i : Site} {n : NetId} {e : Entry} (h : s.anchorOf i n = some e) :
    (s.entry e).state ≠ .free ∧ (s.entry e).site = i ∧ (s.entry e).net = n := by
  obtain ⟨hfound, -⟩ := Option.filter_eq_some_iff.1 h
  exact findNet_some hfound

section
variable {s u : State}

theorem Heard.unrouteQueues (h : Heard s u) (i : Site) (n : NetId) : u.unrouteQueues i n = s.unrouteQueues i n := by
  have hfound : u.findNet i n = s.findNet i n := findNet_congr (by rw [h.ne]) i n
  rw [State.unrouteQueues, hfound, State.queued, h.queueOf]
  rfl

theorem Heard.monitorQueues (h : Heard s u) (i : Site) (n : NetId) : u.monitorQueues i n = s.monitorQueues i n := by
  have hfound : u.anchorOf i n = s.anchorOf i n := anchorOf_congr (by rw [h.ne]) i n
  rw [State.monitorQueues, hfound, State.queued, h.queueOf]
  rfl

/-- A request of one word joins the tail of a VALID site's queue where it finds something and there is room (R39, R40, R46). -/
theorem Heard.joinsQueue (h : Heard s u) {i : Site} {b : QueueBody} (hb : b.words = 1) (found : Bool) :
    (look s.squ.valid i = true → found = true → (s.queueOf i).used + 1 ≤ areaSize (s.siteParams i) →
      (if look u.squ.valid i && found then writeRecord i b u else u) = u.setQueue i { s.queueOf i with
        tail := wrapWord (s.siteParams i) ((s.queueOf i).tail + 1)
        used := (s.queueOf i).used + 1
        records := (s.queueOf i).records ++ [⟨b, false⟩] }) ∧
    (look s.squ.valid i = false ∨ ¬ found = true → (if look u.squ.valid i && found then writeRecord i b u else u) = u) := by
  rw [h.squ]
  refine ⟨fun hv hf hroom => ?_, fun hnot => ?_⟩
  · rw [if_pos (by rw [hv, hf]; rfl), writeRecord_room (by rw [h.queueOf, h.siteParams, hb]; exact hroom), h.queueOf, h.siteParams,
      SiteQueue.push, hb]
  · refine if_neg fun hand => ?_
    rw [Bool.and_eq_true] at hand
    rcases hnot with hv | hf
    · rw [hand.1] at hv
      cases hv
    · exact hf hand.2

end

theorem exec_unroute {dt : Nat} {s : State} {f : Frame} {i : Site} {n : NetId} (h : s.Front f (.unroute i n)) (hh : s.wsu.held = []) :
    exec (.unroute dt) s = .next (unrouteHeard i n (s.heard dt f (.unroute i n))) := by
  rw [exec_front_none_as h hh (c := .unroute dt) (fun g hg => by rw [frameCommand, hg]; rfl)]
  exact congrArg _ (finish_upd_start _ _)

theorem exec_monitor {dt : Nat} {s : State} {f : Frame} {i : Site} {n : NetId} {on : Bool} (h : s.Front f (.monitor i n on))
    (hh : s.wsu.held = []) : exec (.monitor dt) s = .next (monitorHeard i n on (s.heard dt f (.monitor i n on))) := by
  rw [exec_front_none_as h hh (c := .monitor dt) (fun g hg => by rw [frameCommand, hg]; rfl)]
  exact congrArg _ (finish_upd_start _ _)

/-! ### The waves of an entry (R109, R121) -/

section
variable {e : Entry} {w : Work}

theorem discardHeld_none (h : ∀ v ∈ w.st.wsu.held, v.owner ≠ .entry e) : discardHeld e w = w := by
  unfold discardHeld
  dsimp only
  rw [List.find?_eq_none.2 (fun v hv => by simp [h v hv])]

theorem inFlight_of_mem (h : ∃ v ∈ w.st.wsu.queue ++ w.st.wsu.settling, v.owner = .entry e) : w.inFlight e = true := by
  obtain ⟨v, hv, ho⟩ := h
  have hany : ∀ l : List Wave, v ∈ l → l.any (fun v => decide (v.owner = .entry e)) = true := fun l hl =>
    List.any_eq_true.2 ⟨v, hl, decide_eq_true ho⟩
  unfold Work.inFlight
  rcases List.mem_append.1 hv with hq | hs
  · simp only [hany _ hq, Bool.or_true, Bool.true_or]
  · simp only [hany _ hs, Bool.or_true, Bool.true_or]

theorem inFlight_none (hj : w.joining = []) (h : ∀ v ∈ w.st.wsu.queue ++ w.st.wsu.held ++ w.st.wsu.settling, v.owner ≠ .entry e)
    (hr : ∀ p ∈ w.st.wsu.recovery, p.2 ≠ e) : w.inFlight e = false := by
  have hnone : ∀ l : List Wave, (∀ v ∈ l, v ∈ w.st.wsu.queue ++ w.st.wsu.held ++ w.st.wsu.settling) →
      l.any (fun v => decide (v.owner = .entry e)) = false := fun l hl =>
    List.any_eq_false.2 fun v hv => by simp [h v (hl v hv)]
  have hparts : w.st.wsu.recovery.any (fun p => decide (p.2 = e)) = false := List.any_eq_false.2 fun p hp => by simp [hr p hp]
  unfold Work.inFlight
  dsimp only
  rw [hj, hnone w.st.wsu.queue (by simp +contextual), hnone w.st.wsu.held (by simp +contextual),
    hnone w.st.wsu.settling (by simp +contextual), hparts]
  rfl

/-! ### Release-pending (R70) -/

/-- An entry with release-pending set: a CANCEL stands over an UNROUTE or ABORT (R70, R77). -/
def NetEntry.pends (k : ReleasePending) (x : NetEntry) : NetEntry := { x with
  releasePending := if x.releasePending = some .cancel then some .cancel else if x.releasePending = none then some k
    else if k = .cancel then some .cancel else some .plain }

theorem NetEntry.pends_plain (x : NetEntry) : x.pends .plain = { x with
    releasePending := if x.releasePending = some .cancel then some .cancel else some .plain } := by
  unfold NetEntry.pends
  cases x.releasePending with
  | none => rfl
  | some k => cases k <;> rfl

theorem modEnt_of_eq {f g : NetEntry → NetEntry} (h : f = g) : w.modEnt e f = w.modEnt e g := by rw [h]

/-- Release-pending is set, and then acts by the state of a connecting or CONNECTED entry (R70). -/
theorem setReleasePending_acts (k : ReleasePending) {u : Work} (hu : u = w.modEnt e (NetEntry.pends k)) :
    ((w.ent e).state = .connectInner ∨ (w.ent e).state = .connectOuter → setReleasePending e k w =
      if (discardHeld e u).inFlight e then discardHeld e u else takeRelease e (discardHeld e u)) ∧
    ((w.ent e).state = .connected → setReleasePending e k w =
      if (w.ent e).monitor = .closing ∨ (w.ent e).monitor = .opening then u else takeRelease e u) := by
  have hent : u.ent e = (w.ent e).pends k := by rw [hu]; exact State.setEntry_entry_same _ _ _
  have hstate : (u.ent e).state = (w.ent e).state := by rw [hent]; rfl
  have hmonitor : (u.ent e).monitor = (w.ent e).monitor := by rw [hent]; rfl
  rw [← hstate, ← hmonitor]
  unfold setReleasePending
  dsimp only
  rw [modEnt_of_eq (g := NetEntry.pends k), ← hu]
  · refine ⟨fun h => ?_, fun h => ?_⟩
    · rcases h with h | h <;> rw [h]
    · rw [h]
  · funext x
    unfold NetEntry.pends
    cases x.releasePending with
    | none => rfl
    | some j => cases j <;> cases k <;> rfl

/-- A connecting entry whose wave is in flight waits for its end (R70). -/
theorem setReleasePending_inFlight (k : ReleasePending) (hs : (w.ent e).state = .connectInner ∨ (w.ent e).state = .connectOuter)
    (hh : ∀ v ∈ w.st.wsu.held, v.owner ≠ .entry e) (hf : w.inFlight e = true) :
    setReleasePending e k w = w.modEnt e (NetEntry.pends k) := by
  have hdiscard : discardHeld e (w.modEnt e (NetEntry.pends k)) = w.modEnt e (NetEntry.pends k) := discardHeld_none hh
  obtain ⟨hact, -⟩ := setReleasePending_acts (w := w) (e := e) k rfl
  rw [hact hs, hdiscard]
  exact if_pos hf

/-- A CONNECTED entry whose monitor does not move takes it at once (R70). -/
theorem setReleasePending_connected (k : ReleasePending) (hs : (w.ent e).state = .connected)
    (hm : (w.ent e).monitor = .off ∨ (w.ent e).monitor = .on) :
    setReleasePending e k w = takeRelease e (w.modEnt e (NetEntry.pends k)) := by
  have hrest : ¬ ((w.ent e).monitor = .closing ∨ (w.ent e).monitor = .opening) := by
    rcases hm with h | h <;> rw [h] <;> decide
  obtain ⟨-, hact⟩ := setReleasePending_acts (w := w) (e := e) k rfl
  rw [hact hs, if_neg hrest]

/-- A CONNECTED entry that takes release-pending builds its outer disconnect wave (R70, R71). -/
theorem setReleasePending_builds {w : Work} (hn : w.st.noWaiter) (hstate : (w.ent e).state = .connected)
    (hm : (w.ent e).monitor = .off ∨ (w.ent e).monitor = .on) (hi : w.inFlight e = false) (hv : look w.st.snu.verifications e = none)
    {opens : List Relay} (ho : ((w.ent e).pins.map relayS).filter (fun q =>
      decide ((w.st.relay q).owner = some e) && decide ((w.st.relay q).state = .closed)) = opens) (hne : opens ≠ []) :
    (setReleasePending e .plain w).st.ne = { w.st.ne with
      entries := put w.st.ne.entries e ((w.ent e).pends .plain).released } ∧
    (setReleasePending e .plain w).st.squ = w.st.squ ∧ (setReleasePending e .plain w).st.wsu = w.st.wsu ∧
    (setReleasePending e .plain w).joining = w.joining ++ [outerWave e ((w.ent e).pends .plain).released opens] ∧
    (setReleasePending e .plain w).serve = w.serve := by
  have hent : (w.modEnt e (NetEntry.pends .plain)).ent e = (w.ent e).pends .plain := State.setEntry_entry_same _ _ _
  have hreleased : ((w.modEnt e (NetEntry.pends .plain)).release e).st.entry e = ((w.ent e).pends .plain).released := by
    rw [released_entry, hent]
  have hqual : qualifying ((w.modEnt e (NetEntry.pends .plain)).release e).st e .outerDisconnect = opens := by
    rw [qualifying_opening rfl, hreleased, ← ho]
    rfl
  have hverifying : ((w.modEnt e (NetEntry.pends .plain)).release e).st.verifying e = false := by
    show (look w.st.snu.verifications e).isSome = false
    rw [hv]
    rfl
  rw [setReleasePending_connected .plain hstate hm, takeRelease_eq (by rw [hent]; exact (hn e).2),
    proceedOuter_builds (w := (w.modEnt e (NetEntry.pends .plain)).release e) hi hverifying (by rw [hqual]; exact hne)]
  refine ⟨?_, ?_, buildWave_wsu _ _ _, ?_, buildWave_serve _ _ _⟩
  · have hset : ((w.modEnt e (NetEntry.pends .plain)).release e).st.ne = { w.st.ne with
        entries := put (put w.st.ne.entries e ((w.ent e).pends .plain)) e ((w.modEnt e (NetEntry.pends .plain)).ent e).released } := rfl
    rw [buildWave_ne, hset, put_put, hent]
  · rw [buildWave_eq]
    rfl
  · rw [buildWave_joining, hqual, if_neg hne, hreleased]
    rfl

/-- A CONNECTED entry at rest disconnects behind the waves that stand in the queue (R70, R71). -/
theorem finish_setReleasePending {opens : List Relay} (hn : w.st.noWaiter) (hj : w.joining = []) (hs : w.serve = false)
    (hq : w.st.wsu.queue ≠ []) (hstate : (w.ent e).state = .connected) (hm : (w.ent e).monitor = .off ∨ (w.ent e).monitor = .on)
    (hi : w.inFlight e = false) (hv : look w.st.snu.verifications e = none)
    (ho : ((w.ent e).pins.map relayS).filter (fun q =>
      decide ((w.st.relay q).owner = some e) && decide ((w.st.relay q).state = .closed)) = opens) (hne : opens ≠ []) :
    (finish (setReleasePending e .plain w)).entry e = ((w.ent e).pends .plain).released ∧
    (finish (setReleasePending e .plain w)).wsu.queue = w.st.wsu.queue ++ [outerWave e ((w.ent e).pends .plain).released opens] := by
  obtain ⟨hentries, -, hwsu, hjoining, hserve⟩ := setReleasePending_builds hn hstate hm hi hv ho hne
  have hnone : (setReleasePending e .plain w).st.noWaiter :=
    noWaiter_of_put hn (congrArg Ne.entries hentries) (fun k => by cases k) (hn e).2
  rw [finish_waits hnone (hserve.trans hs) (by rw [hwsu]; exact hq), hwsu, hjoining, hj]
  exact ⟨entry_of_put (congrArg Ne.entries hentries), rfl⟩

end

/-! ### The record leaves its queue (R40, R55–R57) -/

/-- The state p in which a record is acted on: it is s but for the time that has passed and the SQU's part. -/
structure Dispatched (s s1 p : State) : Prop extends Popped s s1 p where
  snu : p.snu = s.snu
  held : p.wsu.held = s.wsu.held
  settling : p.wsu.settling = s.wsu.settling
  recovery : p.wsu.recovery = s.wsu.recovery

/-- The event at the moment at which the arbiter hands a record on. -/
def Work.dispatching (p : State) : Work := ⟨p, [], true, false⟩

theorem exec_dispatched {dt : Nat} {s s1 s2 : State} {c : Fin 4} {i : Site} {r : QueueRecord} {rest : List QueueRecord}
    (hs1 : s1 = advance dt s) (hsel : select s1 = some (c, i, s2)) (hq : (s.queueOf i).records = r :: rest) :
    ∃ p, Dispatched s s1 p ∧ exec (.arbiterDispatch dt) s = .next (finish (actRecord i r.body (Work.dispatching p))) := by
  refine ⟨popHead i (noteServed c i s2), ?_, exec_arbiterDispatch_some hs1 hsel hq⟩
  rw [select_eq hsel, hs1]
  exact ⟨⟨advance_ne dt s, advance_rcu dt s, advance_rm dt s, advance_cfl dt s, advance_liu dt s, advance_queue dt s, rfl⟩,
    advance_snu dt s, advance_held dt s, advance_settling dt s, advance_recovery dt s⟩

/-- What is owed for an entry as an answer is all that happens. -/
theorem finish_owe {w : Work} (hn : w.st.noWaiter) (hj : w.joining = []) (hs : w.serve = false) (e : Entry) (r : Report) :
    (finish (w.upd (owe e r))).ne = { w.st.ne with status := put w.st.ne.status e (some r) } := by
  rw [finish_noWaiter (w := w.upd (owe e r)) (noWaiter_of_entries hn (by rw [Work.upd_st, owe_ne])) hj hs, Work.upd_st, owe_ne]

/-! ### What a record finds (R55, R76, R81, R82) -/

section
variable {w : Work} {i : Site} {n : NetId} {e : Entry}

theorem actRecord_unroute_some (h : w.st.findNet i n = some e) : actRecord i (.unroute n) w = unrouteEntry e w := by
  unfold actRecord
  dsimp only
  rw [h]

theorem actRecord_unroute_none (h : w.st.findNet i n = none) : actRecord i (.unroute n) w = w := by
  unfold actRecord
  dsimp only
  rw [h]

theorem dispatchMonitor_some (h : w.st.anchorOf i n = some e) (on : Bool) :
    dispatchMonitor i n on w = if on then monitorOn e w else monitorOff e w := by
  unfold dispatchMonitor
  rw [h]

theorem dispatchMonitor_none (h : w.st.anchorOf i n = none) (on : Bool) : dispatchMonitor i n on w = w.upd (oweSite
    (if on = true then ⟨i, n, .refused, .notConnected, none, none⟩ else ⟨i, n, .monitorOff, .none, none, none⟩)) := by
  unfold dispatchMonitor
  rw [h]
  cases on <;> rfl

theorem monitorOn_local (h : (w.ent e).request = .localBus) : monitorOn e w = w.upd (oweRefused e .badRoute) := if_pos h

theorem monitorOn_unconnected (hq : (w.ent e).request ≠ .localBus)
    (h : (w.ent e).state ≠ .connected ∨ (w.ent e).releasePending.isSome = true) :
    monitorOn e w = w.upd (oweRefused e .notConnected) := (if_neg hq).trans (if_pos h)

/-- Of a CONNECTED trunk net without release-pending, a MONITOR on acts by the monitor (R81). -/
theorem monitorOn_connected (hq : (w.ent e).request ≠ .localBus) (hs : (w.ent e).state = .connected)
    (hp : (w.ent e).releasePending = none) :
    ((w.ent e).monitor = .off → monitorOn e w = { w.modEnt e (fun x => { x with
      monitor := .claiming, deadline := some (laterMs w.st.now w.st.cfl.config.claimWait) }) with pass := true }) ∧
    ((w.ent e).monitor = .on → monitorOn e w = w.upd (oweMonitor e .monitorOn .none)) := by
  have hconnected : ¬ ((w.ent e).state ≠ .connected ∨ (w.ent e).releasePending.isSome = true) := by
    rw [hs, hp]
    decide
  unfold monitorOn
  dsimp only
  rw [if_neg hq, if_neg hconnected]
  exact ⟨fun h => by rw [h], fun h => by rw [h]⟩

theorem monitorOff_off (h : (w.ent e).monitor = .off) : monitorOff e w = w.upd (oweMonitor e .monitorOff .none) := by
  unfold monitorOff
  dsimp only
  rw [h]

theorem monitorOff_connected (h : (w.ent e).monitor = .on) (hs : (w.ent e).state = .connected) :
    monitorOff e w = buildWave e .monitorOpen (w.modEnt e (fun x => { x with monitor := .opening })) := by
  unfold monitorOff
  dsimp only
  rw [h]
  exact if_pos hs

end

/-! ### UNROUTE dispatched (R70, R76) -/

section
variable {s s1 p : State} {e : Entry}

/-- An entry that awaits its anchor leaves with OPENED owed (R76). -/
theorem Dispatched.unroutesAwaiting (h : Dispatched s s1 p) (hn : s.noWaiter) (hs : (s.entry e).state = .awaitAnchor) :
    ((finish (unrouteEntry e (Work.dispatching p))).entry e).state = .free ∧
    (∀ q, look (finish (unrouteEntry e (Work.dispatching p))).ne.binding q ≠ some e) ∧
    look (finish (unrouteEntry e (Work.dispatching p))).ne.status e = some ⟨(s.entry e).site, (s.entry e).net, .opened,
      openedReason (s.entry e).reason, (s.entry e).resource.map NetResource.code, none⟩ := by
  have hentry : p.entry e = s.entry e := h.entry e
  have hact : unrouteEntry e (Work.dispatching p) = freeEntry e ((Work.dispatching p).upd (oweOpened e)) := by
    unfold unrouteEntry
    dsimp only
    rw [show ((Work.dispatching p).ent e).state = .awaitAnchor from (congrArg NetEntry.state hentry).trans hs]
  have hnone : ((Work.dispatching p).upd (oweOpened e)).st.noWaiter :=
    noWaiter_of_entries (h.noWaiter hn) (by rw [Work.upd_st, oweOpened_ne]; rfl)
  rw [hact, finish_freeEntry hnone rfl rfl, freeEntry_status, Work.upd_st, oweOpened_ne,
    show (Work.dispatching p).st.entry e = s.entry e from hentry]
  exact ⟨congrArg NetEntry.state freeEntry_entry, freeEntry_unbound, look_put_same _ _ _⟩

/-- An UNROUTE of an entry on its way out changes nothing (R76). -/
theorem Dispatched.unroutesLeaving (h : Dispatched s s1 p) (hn : s.noWaiter) (hs : (s.entry e).state = .disconnectInner ∨
    (s.entry e).state = .awaitOpened ∨ (s.entry e).state = .releaseBlocked) :
    (finish (unrouteEntry e (Work.dispatching p))).ne = s.ne := by
  have hact : unrouteEntry e (Work.dispatching p) = Work.dispatching p := by
    rw [← h.entry e] at hs
    unfold unrouteEntry
    dsimp only
    rcases hs with k | k | k <;> rw [show ((Work.dispatching p).ent e).state = _ from k]
  rw [hact, finish_noWaiter (w := Work.dispatching p) (h.noWaiter hn) rfl rfl]
  exact h.ne

theorem unrouteEntry_pends {w : Work} (hs : (w.ent e).state = .connectInner ∨ (w.ent e).state = .connectOuter ∨
    (w.ent e).state = .connected) : unrouteEntry e w = setReleasePending e .plain w := by
  unfold unrouteEntry
  dsimp only
  rcases hs with h | h | h <;> rw [h]

/-- A connecting entry whose wave is in flight has release-pending (R70, R76). -/
theorem Dispatched.unroutesConnecting (h : Dispatched s s1 p) (hn : s.noWaiter)
    (hs : (s.entry e).state = .connectInner ∨ (s.entry e).state = .connectOuter) (hheld : ∀ v ∈ s.wsu.held, v.owner ≠ .entry e)
    (hflight : ∃ v ∈ s.wsu.queue ++ s.wsu.settling, v.owner = .entry e) :
    (finish (unrouteEntry e (Work.dispatching p))).entry e = (s.entry e).pends .plain ∧
    (finish (unrouteEntry e (Work.dispatching p))).wsu.queue = s.wsu.queue := by
  have hent : (Work.dispatching p).ent e = s.entry e := h.entry e
  have hact : unrouteEntry e (Work.dispatching p) = (Work.dispatching p).modEnt e (NetEntry.pends .plain) := by
    rw [unrouteEntry_pends (by rw [hent]; tauto), setReleasePending_inFlight .plain (by rw [hent]; exact hs)
      (by rw [← h.held] at hheld; exact hheld) (inFlight_of_mem (by rw [← h.queue, ← h.settling] at hflight; exact hflight))]
  have hnone : ((Work.dispatching p).modEnt e (NetEntry.pends .plain)).st.noWaiter :=
    noWaiter_of_put (h.noWaiter hn) (x := (p.entry e).pends .plain) rfl (h.noWaiter hn e).1 (h.noWaiter hn e).2
  rw [hact, finish_noWaiter hnone rfl rfl]
  exact ⟨(State.setEntry_entry_same _ _ _).trans (congrArg (NetEntry.pends .plain) hent), h.queue⟩

/-- A CONNECTED entry at rest disconnects (R70, R71, R76). -/
theorem Dispatched.unroutesConnected (h : Dispatched s s1 p) (hn : s.noWaiter) (hs : (s.entry e).state = .connected)
    (hm : (s.entry e).monitor = .off ∨ (s.entry e).monitor = .on) (hp : (s.entry e).releasePending = none)
    (hv : look s.snu.verifications e = none) (hw : ∀ v ∈ s.wsu.queue ++ s.wsu.held ++ s.wsu.settling, v.owner ≠ .entry e)
    (hr : ∀ q ∈ s.wsu.recovery, q.2 ≠ e) (hq : s.wsu.queue ≠ []) {opens : List Relay}
    (ho : opens = ((s.entry e).pins.map relayS).filter (fun r =>
      decide ((s.relay r).owner = some e) && decide ((s.relay r).state = .closed))) (hne : opens ≠ []) :
    (finish (unrouteEntry e (Work.dispatching p))).entry e = { s.entry e with state := .disconnectOuter } ∧
    (finish (unrouteEntry e (Work.dispatching p))).wsu.queue = s.wsu.queue ++ [outerWave e (s.entry e) opens] := by
  have hent : (Work.dispatching p).ent e = s.entry e := h.entry e
  have hrelay : ∀ r, p.relay r = s.relay r := fun r => by rw [State.relay, h.rm]; rfl
  have hreleased : ((s.entry e).pends .plain).released = { s.entry e with state := .disconnectOuter } := by
    simp [NetEntry.released, NetEntry.pends, hp]
  have hidle : (Work.dispatching p).inFlight e = false := by
    refine inFlight_none rfl ?_ ?_
    · rw [← h.queue, ← h.held, ← h.settling] at hw
      exact hw
    · rw [← h.recovery] at hr
      exact hr
  rw [← hent] at hs hm ho
  simp only [← hrelay] at ho
  obtain ⟨hentry, hqueue⟩ := finish_setReleasePending (w := Work.dispatching p) (h.noWaiter hn) rfl rfl
    (by rw [← h.queue] at hq; exact hq) hs hm hidle (by rw [← h.snu] at hv; exact hv) ho.symm hne
  rw [hent, hreleased] at hentry hqueue
  rw [unrouteEntry_pends (Or.inr (Or.inr hs)), ← h.queue]
  exact ⟨hentry, hqueue⟩

end

/-! ### MONITOR dispatched (R81, R82, R90) -/

theorem passMonitor_entries (e : Entry) (w : Work) : (passMonitor e w).st.ne = w.st.ne := by
  unfold passMonitor
  dsimp only
  split
  · split
    · rfl
    · split <;> rfl
  · rfl

theorem passMonitor_flags (e : Entry) (w : Work) : (passMonitor e w).pass = w.pass ∧ (passMonitor e w).joining = w.joining ∧
    (passMonitor e w).serve = w.serve := by
  unfold passMonitor
  dsimp only
  split
  · split
    · exact ⟨rfl, rfl, rfl⟩
    · split <;> exact ⟨rfl, rfl, rfl⟩
  · exact ⟨rfl, rfl, rfl⟩

theorem monitorFree_congr {s t : State} {e : Entry} (hrm : t.rm = s.rm) (hmonitor : ∀ i, i ≠ e → t.entry i = s.entry i) :
    t.monitorFree e = s.monitorFree e := by
  unfold State.monitorFree
  rw [relayFree_congr hrm]
  congr 2
  funext i
  by_cases hi : i = e
  · simp [hi]
  · rw [hmonitor i hi]

/-- With one monitor waiting for MON and no entry for a resource, the pass is the choice of MON for it, and ends the event (R86, R90). -/
theorem finish_claiming {q : State} {e : Entry} (hn : q.noOtherWaiter e) (hs : (q.entry e).state ≠ .awaitResource) :
    finish (Work.dispatching q) = (passMonitor e ⟨q, [], false, false⟩).st := by
  have hentries : ∀ w : Work, w.st.ne = q.ne → ∀ x, w.st.entry x = q.entry x := fun w hw x => by rw [State.entry, hw]; rfl
  have hpass : choicePass (Work.dispatching q) = passMonitor e ⟨q, [], false, false⟩ := by
    have hidle := foldl_idle (f := fun (u : Work) (x : Entry) => passEntry x u) (b := ⟨q, [], false, false⟩) (as := List.finRange 64)
      (fun x _ => passEntry_idle (by
        by_cases hx : x = e
        · rw [hx]
          exact hs
        · exact (hn x hx).1))
    have hmonitors := foldl_single (f := fun (u : Work) (x : Entry) => passMonitor x u) (b := ⟨q, [], false, false⟩)
      (List.nodup_finRange 64) (List.mem_finRange e) (fun x hx => passMonitor_idle (hn x hx).2)
      (fun x hx => passMonitor_idle (by rw [hentries _ (passMonitor_entries _ _)]; exact (hn x hx).2))
    unfold choicePass Work.dispatching
    dsimp only
    rw [hidle, hmonitors]
  obtain ⟨hp, hj, hv⟩ := passMonitor_flags e ⟨q, [], false, false⟩
  rw [finish_passes rfl, hpass, settleDown_rests 4094 hp hj hv]

/-- A wave of an entry that has made its last pulse settles (R110). -/
theorem waveFinished_entry {v : Wave} {w : Work} {e : Entry} (ho : v.owner = .entry e) : waveFinished v w = w.settles v := by
  unfold waveFinished
  rw [ho]
  rfl

/-- A wave of an entry that is not queried changes no entry when it is served (R110). -/
theorem serveHead_unmet (n : Nat) {w : Work} {v : Wave} {e : Entry} (hq : w.st.wsu.queue = [v]) (ho : v.owner = .entry e)
    (hv : v.queried = false) (hp : w.pass = false) (hj : w.joining = []) :
    (settleDown (n + 2) (serveHead w)).st.ne = w.st.ne := by
  obtain ⟨k, hk⟩ := pulseRun_runsTo v.todo v w.st ho
  have hrecovery := pulseRun_recovery hk
  have hrun := pulseRun_startRun v.todo v w.st hv
  generalize hout : pulseRun v.todo v w.st = out at hrun hrecovery
  obtain ⟨s', v', why⟩ := out
  obtain ⟨owner, -, unmet, entries⟩ := hrun
  have hserve := serveHead_start hq hout unmet
  rw [hrecovery, partsGone_self] at hserve
  rcases hserve with h | h
  · rw [h, tellParts_idle (fun e he => by cases he), settleDown_rests (n + 1) (w := ⟨_, w.joining, w.pass, false⟩) hp hj rfl]
    exact entries
  · rw [h, tellParts_idle (fun e he => by cases he), waveFinished_entry (owner.trans ho),
      settleDown_served n (w := Work.settles v' ⟨_, w.joining, w.pass, w.serve⟩) hp hj rfl]
    exact entries

/-- A wave of an entry that is not queried joins the queue, and where it was empty is served at once; no entry is changed by that
(R109, R110). -/
theorem finish_unmet {w : Work} {v : Wave} {e : Entry} (hn : w.st.noWaiter) (hj : w.joining = [v]) (hs : w.serve = false)
    (ho : v.owner = .entry e) (hv : v.queried = false) : (finish w).ne = w.st.ne := by
  by_cases hq : w.st.wsu.queue = []
  · have hjoined : ∀ n, (settleDown (n + 4) { w with pass := false }).st.ne = w.st.ne := fun n => by
      have hflush : flush { w with pass := false } =
          ⟨{ w.st with wsu := { w.st.wsu with queue := [v] } }, [], false, true⟩ := by
        simp [flush, hj, hq, hs, sortWaves, insertWave]
      rw [settleDown, if_neg Bool.false_ne_true, if_neg (by simp [hs]), if_pos (by simp [hj]), hflush, settleDown,
        if_neg Bool.false_ne_true]
      split
      · exact serveHead_unmet n rfl ho hv rfl rfl
      · rfl
    show (settleDown (4095 + 1) w).st.ne = _
    cases hp : w.pass with
    | false =>
      have hw : w = { w with pass := false } := by rw [← hp]
      rw [hw]
      exact hjoined 4092
    | true =>
      rw [settleDown, if_pos hp, choicePass_noWaiter hn]
      exact hjoined 4091
  · rw [finish_waits hn hs hq]

/-- The wave that opens a monitor changes no entry by joining the queue (R82, R109). -/
theorem finish_monitorOpen {w : Work} {e : Entry} (hn : w.st.noWaiter) (hj : w.joining = []) (hs : w.serve = false) :
    (finish (buildWave e .monitorOpen w)).ne = w.st.ne := by
  have hnone : (buildWave e .monitorOpen w).st.noWaiter := noWaiter_of_entries hn (by rw [buildWave_ne])
  have hserve : (buildWave e .monitorOpen w).serve = false := (buildWave_serve _ _ _).trans hs
  by_cases hqual : qualifying w.st e .monitorOpen = []
  · rw [finish_noWaiter hnone (by rw [buildWave_joining, if_pos hqual, hj]) hserve, buildWave_ne]
  · rw [finish_unmet hnone (by rw [buildWave_joining, if_neg hqual, hj, List.nil_append]) hserve rfl rfl, buildWave_ne]

section
variable {s s1 p : State} {e : Entry}

theorem Dispatched.answers (h : Dispatched s s1 p) (hn : s.noWaiter) (e : Entry) (r : Report) :
    (∀ x, (finish ((Work.dispatching p).upd (owe e r))).entry x = s.entry x) ∧
    look (finish ((Work.dispatching p).upd (owe e r))).ne.status e = some r := by
  have hne := finish_owe (w := Work.dispatching p) (h.noWaiter hn) rfl rfl e r
  refine ⟨fun x => ?_, ?_⟩
  · rw [State.entry, hne]
    exact h.entry x
  · rw [hne]
    exact look_put_same _ _ _

/-- An act that changes one entry to one that waits for nothing leaves the others. -/
theorem Dispatched.changesOne (h : Dispatched s s1 p) (hn : s.noWaiter) {x : NetEntry} (h1 : x.state ≠ .awaitResource)
    (h2 : x.monitor ≠ .claiming) : (p.setEntry e x).noWaiter := noWaiter_of_put (h.noWaiter hn) rfl h1 h2

theorem Dispatched.rests (h : Dispatched s s1 p) (hn : s.noWaiter) (x : Entry) :
    (finish (Work.dispatching p)).entry x = s.entry x := by
  rw [finish_noWaiter (w := Work.dispatching p) (h.noWaiter hn) rfl rfl]
  exact h.entry x

theorem Dispatched.refusesMonitor (h : Dispatched s s1 p) (hn : s.noWaiter) (r : Reason) :
    (∀ x, (finish ((Work.dispatching p).upd (oweRefused e r))).entry x = s.entry x) ∧
    ((s.entry e).reason ≠ some .aborted → look (finish ((Work.dispatching p).upd (oweRefused e r))).ne.status e =
      some ⟨(s.entry e).site, (s.entry e).net, .refused, r, (s.entry e).resource.map NetResource.code, none⟩) := by
  have hentry : (Work.dispatching p).st.entry e = s.entry e := h.entry e
  by_cases ha : (s.entry e).reason = some .aborted
  · have hidle : (Work.dispatching p).upd (oweRefused e r) = Work.dispatching p :=
      congrArg Work.dispatching (if_pos (by rw [hentry]; exact ha))
    rw [hidle]
    exact ⟨h.rests hn, fun k => absurd ha k⟩
  · have howe : (Work.dispatching p).upd (oweRefused e r) = (Work.dispatching p).upd (owe e
        ⟨(s.entry e).site, (s.entry e).net, .refused, r, (s.entry e).resource.map NetResource.code, none⟩) := by
      refine congrArg Work.dispatching ((if_neg (by rw [hentry]; exact ha)).trans ?_)
      rw [oweEntry, hentry]
    rw [howe]
    exact ⟨(h.answers hn e _).1, fun _ => (h.answers hn e _).2⟩

theorem Dispatched.reportsMonitor (h : Dispatched s s1 p) (hn : s.noWaiter) (o : StatusOutcome) :
    (∀ x, (finish ((Work.dispatching p).upd (oweMonitor e o .none))).entry x = s.entry x) ∧
    look (finish ((Work.dispatching p).upd (oweMonitor e o .none))).ne.status e = some ⟨(s.entry e).site, (s.entry e).net, o, .none,
      (s.entry e).trunk.map (fun k => (NetResource.trunk k).code), none⟩ := by
  have hentry : (Work.dispatching p).st.entry e = s.entry e := h.entry e
  have howe : (Work.dispatching p).upd (oweMonitor e o .none) = (Work.dispatching p).upd (owe e
      ⟨(s.entry e).site, (s.entry e).net, o, .none, (s.entry e).trunk.map (fun k => (NetResource.trunk k).code), none⟩) := by
    refine congrArg Work.dispatching ?_
    rw [oweMonitor, hentry]
  rw [howe]
  exact h.answers hn e _

/-- An entry whose monitor waits for its claim of MON (R81). -/
def NetEntry.claimsMonitor (x : NetEntry) (due : Time) : NetEntry := { x with monitor := .claiming, deadline := some due }

/-- An anchor's monitor waits W for MON, and the pass owes its CLAIM where MON is free (R81, R90). -/
theorem Dispatched.claimsMonitor (h : Dispatched s s1 p) (hn : s.noWaiter) {due : Time} {q : State}
    (hq : q = p.setEntry e ((s.entry e).claimsMonitor due)) :
    (finish (Work.dispatching q)).entry e = (s.entry e).claimsMonitor due ∧
    (∀ x, x ≠ e → (finish (Work.dispatching q)).entry x = s.entry x) ∧
    (look s.rcu.claims e = none → look (finish (Work.dispatching q)).rcu.claims e =
      if s.monitorCandidate e = true then some 16 else none) := by
  have hself : q.entry e = (s.entry e).claimsMonitor due := by rw [hq]; exact State.setEntry_entry_same _ _ _
  have hothers : ∀ x, x ≠ e → q.entry x = s.entry x := fun x hx => by
    rw [hq]
    exact (entry_of_put_ne (s := p) rfl hx).trans (h.entry x)
  have hrcu : q.rcu = s.rcu := by rw [hq]; exact h.rcu
  have hcandidate : q.monitorCandidate e = s.monitorCandidate e := by
    have hunclaimed : q.unclaimed 16 = s.unclaimed 16 := unclaimed_congr (by rw [hrcu]) 16
    have hfree : q.monitorFree e = s.monitorFree e := monitorFree_congr (by rw [hq]; exact h.rm) hothers
    rw [State.monitorCandidate, hunclaimed, hfree]
    rfl
  have hentries : ∀ x, (passMonitor e ⟨q, [], false, false⟩).st.entry x = q.entry x := fun x => by
    rw [State.entry, passMonitor_entries]
    rfl
  rw [finish_claiming (fun x hx => by rw [hothers x hx]; exact hn x) (by rw [hself]; exact (hn e).1)]
  refine ⟨(hentries e).trans hself, fun x hx => (hentries x).trans (hothers x hx), fun hclaims => ?_⟩
  have hwaits : (q.entry e).monitor = .claiming ∧ (q.entry e).deadline.isSome = true := by rw [hself]; exact ⟨rfl, rfl⟩
  unfold passMonitor Work.ent
  dsimp only
  rw [if_pos hwaits, hcandidate, hrcu, hclaims]
  split
  · exact look_put_same _ _ _
  · show look q.rcu.claims e = none
    rw [hrcu]
    exact hclaims

/-- A MONITOR leaves every entry but its own (R81, R82). -/
theorem Dispatched.monitorOthers (h : Dispatched s s1 p) (hn : s.noWaiter) (on : Bool) {x : Entry} (hx : x ≠ e) :
    (finish (if on then monitorOn e (Work.dispatching p) else monitorOff e (Work.dispatching p))).entry x = s.entry x := by
  have hent : (Work.dispatching p).ent e = s.entry e := h.entry e
  have hset : ∀ y : NetEntry, y.state ≠ .awaitResource → y.monitor ≠ .claiming →
      (finish (Work.dispatching (p.setEntry e y))).entry x = s.entry x := fun y h1 h2 => by
    rw [finish_noWaiter (w := Work.dispatching (p.setEntry e y)) (h.changesOne hn h1 h2) rfl rfl]
    exact (entry_of_put_ne (s := p) rfl hx).trans (h.entry x)
  have hentry : p.entry e = s.entry e := h.entry e
  obtain ⟨hstate, hclaiming⟩ := hn e
  cases on with
  | true =>
    rw [if_pos rfl]
    unfold monitorOn
    dsimp only
    rw [hent]
    split
    · exact (h.refusesMonitor hn _).1 x
    · split
      · exact (h.refusesMonitor hn _).1 x
      · cases hm : (s.entry e).monitor with
        | off =>
          obtain ⟨-, hothers, -⟩ := h.claimsMonitor (e := e) hn (due := laterMs p.now p.cfl.config.claimWait) rfl
          rw [← hothers x hx, ← hentry]
          rfl
        | claiming => exact absurd hm hclaiming
        | closing =>
          exact hset { p.entry e with monitorOffPending := false } (by rw [hentry]; exact hstate) (by rw [hentry]; exact hclaiming)
        | on => exact (h.reportsMonitor hn _).1 x
        | opening => exact h.rests hn x
  | false =>
    rw [if_neg (by decide)]
    unfold monitorOff
    dsimp only
    rw [hent]
    cases hm : (s.entry e).monitor with
    | off => exact (h.reportsMonitor hn _).1 x
    | claiming => exact absurd hm hclaiming
    | closing => exact hset { p.entry e with monitorOffPending := true } (by rw [hentry]; exact hstate) (by rw [hentry]; exact hclaiming)
    | on =>
      dsimp only
      split
      · have hopened := finish_monitorOpen (e := e) (w := Work.dispatching (p.setEntry e { p.entry e with monitor := .opening }))
          (h.changesOne hn (by rw [hentry]; exact hstate) (fun k => by cases k)) rfl rfl
        exact (entry_of_put_ne (s := p) (congrArg Ne.entries hopened) hx).trans (h.entry x)
      · exact h.rests hn x
    | opening => exact h.rests hn x

/-- The wave that opens M(t) joins behind the waves that stand in the queue (R82, R109). -/
theorem finish_opensMonitor {q : State} {y : NetEntry} {k : Trunk} (hy : q.entry e = y) (hn : q.noWaiter) (hq : q.wsu.queue ≠ [])
    (ht : y.trunk = some k) (ho : (q.relay (relayM k)).owner = some e) (hc : (q.relay (relayM k)).state = .closed) :
    (finish (buildWave e .monitorOpen (Work.dispatching q))).entry e = y ∧
    (finish (buildWave e .monitorOpen (Work.dispatching q))).wsu.queue = q.wsu.queue ++ [⟨.entry e, .monitorOpen, [],
      [(relayM k, false)], some k, false, false, decide (y.reason = some .aborted), none⟩] := by
  have hphase : phaseRelays y .monitorOpen = [relayM k] := by
    unfold phaseRelays
    dsimp only
    rw [ht]
  have hqual : qualifying (Work.dispatching q).st e .monitorOpen = [relayM k] := by
    show qualifying q e .monitorOpen = _
    rw [qualifying_opening rfl, hy, hphase]
    simp [ho, hc]
  obtain ⟨hne, -, hqueue⟩ := finish_buildWave (e := e) (ph := .monitorOpen) (w := Work.dispatching q) hn rfl rfl hq
    (by rw [hqual]; exact List.cons_ne_nil _ _)
  rw [hqual, show (Work.dispatching q).st.entry e = y from hy, newWave, ht] at hqueue
  refine ⟨?_, hqueue⟩
  rw [State.entry, hne]
  exact hy

/-- A monitor that is ON opens M(t), behind the waves that stand in the queue (R82). -/
theorem Dispatched.opensMonitor (h : Dispatched s s1 p) (hn : s.noWaiter) {k : Trunk} (hs : (s.entry e).state = .connected)
    (hm : (s.entry e).monitor = .on) (ht : (s.entry e).trunk = some k) (ho : (s.relay (relayM k)).owner = some e)
    (hc : (s.relay (relayM k)).state = .closed) (hq : s.wsu.queue ≠ []) :
    (finish (monitorOff e (Work.dispatching p))).entry e = { s.entry e with monitor := .opening } ∧
    (finish (monitorOff e (Work.dispatching p))).wsu.queue = s.wsu.queue ++ [⟨.entry e, .monitorOpen, [], [(relayM k, false)], some k,
      false, false, decide ((s.entry e).reason = some .aborted), none⟩] := by
  have hent : (Work.dispatching p).ent e = s.entry e := h.entry e
  have hself : (p.setEntry e { s.entry e with monitor := .opening }).entry e = { s.entry e with monitor := .opening } :=
    State.setEntry_entry_same _ _ _
  have hrelay : p.relay (relayM k) = s.relay (relayM k) := by rw [State.relay, h.rm]; rfl
  have hact : monitorOff e (Work.dispatching p) =
      buildWave e .monitorOpen (Work.dispatching (p.setEntry e { s.entry e with monitor := .opening })) := by
    rw [monitorOff_connected (by rw [hent]; exact hm) (by rw [hent]; exact hs), ← h.entry e]
    rfl
  rw [hact, ← h.queue]
  exact finish_opensMonitor hself (h.changesOne hn (hn e).1 (fun k => by cases k)) (by rw [← h.queue] at hq; exact hq) ht
    ((congrArg RelayRec.owner hrelay).trans ho) ((congrArg RelayRec.state hrelay).trans hc)

/-- A MONITOR on of an anchor (R81). -/
theorem Dispatched.monitorsOn (h : Dispatched s s1 p) (hn : s.noWaiter) {t : State}
    (ht : t = finish (monitorOn e (Work.dispatching p))) :
    ((s.entry e).reason ≠ some .aborted → (s.entry e).request = .localBus → t.entry e = s.entry e ∧ look t.ne.status e =
      some ⟨(s.entry e).site, (s.entry e).net, .refused, .badRoute, (s.entry e).resource.map NetResource.code, none⟩) ∧
    ((s.entry e).reason ≠ some .aborted → (s.entry e).request ≠ .localBus →
      (s.entry e).state ≠ .connected ∨ (s.entry e).releasePending.isSome = true → t.entry e = s.entry e ∧ look t.ne.status e =
      some ⟨(s.entry e).site, (s.entry e).net, .refused, .notConnected, (s.entry e).resource.map NetResource.code, none⟩) ∧
    ((s.entry e).request ≠ .localBus → (s.entry e).state = .connected → (s.entry e).releasePending = none →
      ((s.entry e).monitor = .off →
        t.entry e = (s.entry e).claimsMonitor (later s1.now (s.cfl.config.claimWait * 1000)) ∧
        (look s.rcu.claims e = none → look t.rcu.claims e = if s.monitorCandidate e = true then some 16 else none)) ∧
      ((s.entry e).monitor = .on → t.entry e = s.entry e ∧ look t.ne.status e = some ⟨(s.entry e).site, (s.entry e).net, .monitorOn,
        .none, (s.entry e).trunk.map (fun k => (NetResource.trunk k).code), none⟩)) := by
  have hent : (Work.dispatching p).ent e = s.entry e := h.entry e
  subst ht
  refine ⟨fun ha hq => ?_, fun ha hq hs => ?_, fun hq hs hp => ?_⟩
  · rw [monitorOn_local (by rw [hent]; exact hq)]
    obtain ⟨hentries, hstatus⟩ := h.refusesMonitor (e := e) hn .badRoute
    exact ⟨hentries e, hstatus ha⟩
  · rw [monitorOn_unconnected (by rw [hent]; exact hq) (by rw [hent]; exact hs)]
    obtain ⟨hentries, hstatus⟩ := h.refusesMonitor (e := e) hn .notConnected
    exact ⟨hentries e, hstatus ha⟩
  · obtain ⟨hoff, hon⟩ := monitorOn_connected (w := Work.dispatching p) (e := e) (by rw [hent]; exact hq) (by rw [hent]; exact hs)
      (by rw [hent]; exact hp)
    rw [hent] at hoff hon
    refine ⟨fun hm => ?_, fun hm => ?_⟩
    · have hclaims : monitorOn e (Work.dispatching p) = Work.dispatching
          (p.setEntry e ((s.entry e).claimsMonitor (later s1.now (s.cfl.config.claimWait * 1000)))) := by
        rw [hoff hm, ← h.now, ← h.cfl, ← h.entry e]
        rfl
      rw [hclaims]
      obtain ⟨hself, -, hclaim⟩ := h.claimsMonitor (e := e) hn rfl
      exact ⟨hself, hclaim⟩
    · rw [hon hm]
      obtain ⟨hentries, hstatus⟩ := h.reportsMonitor (e := e) hn .monitorOn
      exact ⟨hentries e, hstatus⟩

end

/-- Settles O31: the frames write a record of one word, and each record acts by the state of the entry found. -/
theorem unrouteAndMonitorQueue : Obligations.UnrouteAndMonitorQueue := by
  refine ⟨?_, ?_, ?_⟩
  · intro dt s u f m i n hfront hu hnone hheld c b finds hcase
    have hheard : Heard s u := hu ▸ heard_heard s dt f m
    have hbroken : breakStaging i u = u := breakStaging_none (by rw [hheard.squ]; exact hnone)
    rcases hcase with ⟨rfl, rfl, rfl, rfl⟩ | ⟨on, rfl, rfl, rfl, rfl⟩
    · refine ⟨_, exec_unroute hfront hheld, ?_⟩
      rw [← hu, unrouteHeard, hbroken, hheard.unrouteQueues]
      exact hheard.joinsQueue rfl _
    · refine ⟨_, exec_monitor hfront hheld, ?_⟩
      rw [← hu, monitorHeard, hbroken, hheard.monitorQueues]
      exact hheard.joinsQueue rfl _
  · intro dt s s1 s2 c i n b rest hs1 hsel hn hrecords
    obtain ⟨p, hp, hexec⟩ := exec_dispatched hs1 hsel hrecords
    have hfind : (Work.dispatching p).st.findNet i n = s.findNet i n := hp.findNet n
    refine ⟨_, hexec, fun hnone => ?_, fun e a he ha => ?_⟩
    · rw [actRecord_unroute_none (hfind.trans hnone), finish_noWaiter (w := Work.dispatching p) (hp.noWaiter hn) rfl rfl]
      exact hp.ne
    · obtain ⟨-, hsite, hnet⟩ := findNet_some he
      subst ha
      rw [actRecord_unroute_some (hfind.trans he)]
      refine ⟨fun hs => ?_, fun hs => hp.unroutesLeaving hn hs, fun hs hh hf => ?_,
        fun hs hm hr hv hw hl hq opens ho hne => hp.unroutesConnected hn hs hm hr hv hw hl hq ho hne⟩
      · rw [← hsite, ← hnet]
        exact hp.unroutesAwaiting hn hs
      · obtain ⟨hentry, hqueue⟩ := hp.unroutesConnecting hn hs hh hf
        exact ⟨hentry.trans (NetEntry.pends_plain _), hqueue⟩
  · intro dt s s1 s2 c i n on b rest hs1 hsel hn hrecords
    obtain ⟨p, hp, hexec⟩ := exec_dispatched hs1 hsel hrecords
    have hanchor : (Work.dispatching p).st.anchorOf i n = s.anchorOf i n := anchorOf_congr (s := s) (t := p) (by rw [hp.ne]) i n
    have hsite : ∀ r, (finish ((Work.dispatching p).upd (oweSite r))).ne =
        { s.ne with siteStatus := put s.ne.siteStatus r.site (some r) } :=
      fun r => (finish_oweSite (w := Work.dispatching p) (hp.noWaiter hn) rfl rfl r).trans (by
        rw [show (Work.dispatching p).st.ne = s.ne from hp.ne])
    change exec (.arbiterDispatch dt) s = .next (finish (dispatchMonitor i n on (Work.dispatching p))) at hexec
    refine ⟨_, hexec, fun x hx => ?_, fun hnone => ?_, fun e a he ha => ?_⟩
    · cases hfind : s.anchorOf i n with
      | none =>
        rw [dispatchMonitor_none (hanchor.trans hfind), State.entry, hsite]
        rfl
      | some e =>
        rw [dispatchMonitor_some (hanchor.trans hfind)]
        exact hp.monitorOthers hn on (fun h => hx (h ▸ hfind))
    · rw [dispatchMonitor_none (hanchor.trans hnone), hsite]
      refine ⟨rfl, ?_⟩
      cases on <;> exact look_put_same _ _ _
    · obtain ⟨-, hsite, hnet⟩ := anchorOf_some he
      subst ha
      rw [dispatchMonitor_some (hanchor.trans he), ← hsite, ← hnet]
      cases on with
      | true =>
        obtain ⟨hlocal, hunconnected, hconnected⟩ := hp.monitorsOn (e := e) hn rfl
        exact ⟨fun _ => hlocal, fun _ => hunconnected, fun _ hq hs hr => (hconnected hq hs hr).1,
          fun _ hq hs hr => (hconnected hq hs hr).2, (fun h => by cases h), (fun _ h => by cases h)⟩
      | false =>
        have hent : (Work.dispatching p).ent e = s.entry e := hp.entry e
        refine ⟨(fun h => by cases h), (fun h => by cases h), (fun h => by cases h), (fun h => by cases h), fun _ hm => ?_,
          fun k _ hs hm ht ho hc hq => hp.opensMonitor hn hs hm ht ho hc hq⟩
        obtain ⟨hentries, hstatus⟩ := hp.reportsMonitor (e := e) hn .monitorOff
        rw [if_neg Bool.false_ne_true, monitorOff_off (by rw [hent]; exact hm)]
        exact ⟨hentries e, hstatus⟩

end Sys2Proof.Machine
end

