-- ==== Sys2Proof/Proofs/Aborts.lean ====
section
/-! ABORT (R52, R139–R143): the moment of READY 255, what an ABORT does to the one entry of its site before the entry acts, the acts
by its state, and the statement. -/

namespace Sys2Proof.Machine

/-! ### The moment of READY 255 (R52, R143) -/

theorem abortReady_idle {i : Site} {s : State} (h : look s.squ.abortWait i = false) : abortReady i s = s :=
  if_neg fun k => by rw [h] at k; cases k.1

/-- While an entry of the site is neither FREE nor RELEASE_BLOCKED, READY 255 waits. -/
theorem abortReady_waits {i : Site} {s : State} {e : Entry} (hi : (s.entry e).site = i) (hf : (s.entry e).state ≠ .free)
    (hb : (s.entry e).state ≠ .releaseBlocked) : abortReady i s = s := by
  refine if_neg fun ⟨_, hzero⟩ => ?_
  have := countEntries_eq_zero.1 hzero e hi
  simp [hf, hb] at this

/-- With none but FREE and RELEASE_BLOCKED entries, READY 255 is owed with the site's counts, which restart. -/
theorem abortReady_due {i : Site} {s : State} (ha : look s.squ.abortWait i = true)
    (hall : ∀ x, (s.entry x).site = i → (s.entry x).state = .free ∨ (s.entry x).state = .releaseBlocked) :
    (abortReady i s).squ = { s.squ with
      abortWait := put s.squ.abortWait i false
      ready := put s.squ.ready i (some ⟨255, s.countEntries i (fun q => decide (q = .releaseBlocked)),
        look s.squ.refusals i, look s.squ.faults i⟩)
      refusals := put s.squ.refusals i 0
      faults := put s.squ.faults i 0 } := by
  have hzero : s.countEntries i (fun q => decide (q ≠ .free) && decide (q ≠ .releaseBlocked)) = 0 :=
    countEntries_eq_zero.2 fun x hx => by rcases hall x hx with h | h <;> simp [h]
  rw [abortReady, if_pos ⟨ha, hzero⟩, oweReady_squ]

/-- A count over the entries of a site is one where one entry alone meets the test. -/
theorem countEntries_eq_one {s : State} {i : Site} {p : EntryState → Bool} {e : Entry}
    (h : ∀ x, (s.entry x).site = i ∧ p (s.entry x).state = true ↔ x = e) : s.countEntries i p = 1 := by
  have hlist : s.ne.entries.toList = (List.finRange 64).map s.entry := by
    refine List.ext_getElem (by simp) fun n hn _ => ?_
    simp [State.entry, look]
  have htest : ((fun x : NetEntry => decide (x.site = i) && p x.state) ∘ s.entry) = fun x => decide (x = e) := by
    funext x
    rw [Bool.eq_iff_iff]
    simpa using h x
  rw [State.countEntries, hlist, List.filter_map, List.length_map, htest, ← List.countP_eq_length_filter]
  exact List.count_eq_one_of_mem (List.nodup_finRange 64) (List.mem_finRange e)

/-! ### An entry that becomes FREE (R8, R16, R143) -/

/-- The state of an entry that has become FREE, before READY 255 is looked at. -/
def State.freed (s : State) (e : Entry) : State :=
  { endClaim e (s.dropOpenOwners e) with ne := { (endClaim e (s.dropOpenOwners e)).ne with
    entries := put (endClaim e (s.dropOpenOwners e)).ne.entries e NetEntry.free
    binding := each (fun _ b => if b = some e then none else b) (endClaim e (s.dropOpenOwners e)).ne.binding } }

theorem freeEntry_st (e : Entry) (w : Work) : (freeEntry e w).st = abortReady (w.ent e).site (w.st.freed e) := rfl

theorem endClaim_squ (e : Entry) (s : State) : (endClaim e s).squ = s.squ := by
  obtain ⟨-, -, hsqu, -⟩ := withdrawOwn_parts e (unclaim e s)
  rw [endClaim, hsqu]
  rfl

theorem freed_squ (s : State) (e : Entry) : (s.freed e).squ = s.squ :=
  (endClaim_squ e (s.dropOpenOwners e)).trans (State.dropOpenOwners_squ s e)

theorem freed_entries (s : State) (e : Entry) : (s.freed e).ne.entries = put s.ne.entries e NetEntry.free := by
  unfold State.freed
  dsimp only
  rw [(endClaim_parts _ _).1, State.dropOpenOwners_ne]

/-! ### The entry as the ABORT finds it (R139, R141) -/

/-- The entry with the reason ABORTED. -/
def NetEntry.aborted (x : NetEntry) : NetEntry := { x with reason := some .aborted, reasonRelay := none }

/-- The state m in which the entry acts on the ABORT: it is u, which has heard the frame in s, with the site emptied, and the entry,
its STATUS mark and its waves marked. -/
structure Marked (s u m : State) (i : Site) (e : Entry) : Prop where
  ne : m.ne = { s.ne with
    entries := put s.ne.entries e (s.entry e).aborted
    status := put s.ne.status e (abortReport (s.entry e) (look s.ne.status e)) }
  squ : m.squ = (emptySite i u).squ
  rcu : m.rcu = s.rcu
  rm : m.rm = s.rm
  snu : m.snu = s.snu
  cfl : m.cfl = s.cfl
  now : m.now = u.now
  claimOnLine : ∀ x, m.claimOnLine x = s.claimOnLine x
  queue : m.wsu.queue = markWaves e s.wsu.queue
  held : m.wsu.held = markWaves e s.wsu.held
  settling : m.wsu.settling = markWaves e s.wsu.settling
  recovery : m.wsu.recovery = s.wsu.recovery

/-- The reason and the STATUS mark of an entry changed, before a frame on the line is looked at. -/
def State.abortedStatus (s : State) (e : Entry) : State := { s with ne := { s.ne with
  entries := put s.ne.entries e (s.entry e).aborted
  status := put s.ne.status e (abortReport (s.entry e) (look s.ne.status e)) } }

theorem abortStatus_cases (e : Entry) (s : State) :
    abortStatus e s = s.abortedStatus e ∨ abortStatus e s = (s.abortedStatus e).renew (.status e) := by
  unfold abortStatus
  dsimp only
  split
  · exact Or.inr rfl
  · exact Or.inl rfl

theorem Heard.marked {s u : State} (h : Heard s u) (i : Site) (e : Entry) : Marked s u (abortMarks e (emptySite i u)) i e := by
  have hbase : ∀ t : State, t.ne = ((emptySite i u).abortedStatus e).ne → t.squ = (emptySite i u).squ → t.rcu = u.rcu →
      t.rm = u.rm → t.snu = u.snu → t.cfl = u.cfl → t.now = u.now → t.wsu = u.wsu →
      (∀ x, t.claimOnLine x = u.claimOnLine x) → Marked s u (abortWaves e t) i e := by
    intro t hne hsqu hrcu hrm hsnu hcfl hnow hwsu hline
    refine ⟨?_, hsqu, hrcu.trans h.rcu, hrm.trans h.rm, hsnu.trans h.snu, hcfl.trans h.cfl, hnow,
      fun x => (hline x).trans (h.claimOnLine x), ?_, ?_, ?_, ?_⟩
    · refine hne.trans ?_
      unfold State.abortedStatus
      dsimp only
      rw [show (emptySite i u).entry e = s.entry e from h.entry e, emptySite_ne, h.ne]
    · exact congrArg (markWaves e) ((congrArg Wsu.queue hwsu).trans h.queue)
    · exact congrArg (markWaves e) ((congrArg Wsu.held hwsu).trans h.held)
    · exact congrArg (markWaves e) ((congrArg Wsu.settling hwsu).trans h.settling)
    · exact (congrArg Wsu.recovery hwsu).trans h.recovery
  have hnow : ∀ (m : Owed) (t : State), (t.renew m).now = t.now := fun m t =>
    congrArg (fun c => c.1.now) (State.renew_core m t)
  rcases abortStatus_cases e (emptySite i u) with k | k
  · unfold abortMarks
    rw [k]
    exact hbase _ rfl rfl rfl rfl rfl rfl rfl rfl (fun _ => rfl)
  · unfold abortMarks
    rw [k]
    exact hbase _ (renew_ne _ _) (renew_squ _ _) (renew_rcu _ _) (renew_rm _ _) (renew_snu _ _) (renew_cfl _ _) (hnow _ _)
      (renew_wsu _ _) (fun x => renew_claimOnLine _ _ x)

/-- The event at the moment at which the entry acts on the ABORT. -/
theorem abortEntry_acts {e : Entry} {s m : State} (hm : m = abortMarks e s) :
    ((m.entry e).state = .awaitAnchor → abortEntry e (Work.start s) = freeEntry e (Work.start m)) ∧
    ((m.entry e).state = .awaitResource → abortEntry e (Work.start s) = leaveAwaitResource e (Work.start m)) ∧
    ((m.entry e).state = .connectInner ∨ (m.entry e).state = .connectOuter ∨ (m.entry e).state = .connected →
      abortEntry e (Work.start s) = setReleasePending e .plain (Work.start m)) ∧
    ((m.entry e).state = .releaseBlocked → abortEntry e (Work.start s) = Work.start m) := by
  have hstart : { (Work.start s).upd (abortMarks e) with joining := markWaves e (Work.start s).joining } = Work.start m := by
    rw [hm]
    rfl
  unfold abortEntry
  dsimp only
  rw [hstart]
  have hent : (Work.start m).ent e = m.entry e := rfl
  rw [hent]
  refine ⟨fun h => by rw [h], fun h => by rw [h], fun h => ?_, fun h => by rw [h]⟩
  rcases h with h | h | h <;> rw [h]

/-! ### The one entry of the site (R139) -/

/-- The card holds one entry of the site, and no other entry waits for a resource or MON. -/
structure State.sole (s : State) (i : Site) (e : Entry) : Prop where
  site : (s.entry e).site = i
  live : (s.entry e).state ≠ .free
  others : ∀ x, x ≠ e → (s.entry x).state = .free ∨ (s.entry x).site ≠ i
  waits : s.noOtherWaiter e
  monitor : (s.entry e).monitor ≠ .claiming

section
variable {s u m : State} {i : Site} {e : Entry}

theorem Marked.entry (h : Marked s u m i e) : m.entry e = (s.entry e).aborted := entry_of_put (s := s) (congrArg Ne.entries h.ne)

theorem Marked.entry_ne (h : Marked s u m i e) {x : Entry} (hx : x ≠ e) : m.entry x = s.entry x :=
  entry_of_put_ne (s := s) (congrArg Ne.entries h.ne) hx

/-- An ABORT of a site without entries leaves the net table (R139). -/
theorem abortHeard_none (hu : Heard s u) (h : ∀ x, (s.entry x).state = .free ∨ (s.entry x).site ≠ i) :
    abortHeard i (Work.start u) = Work.start (abortReady i (emptySite i u)) := by
  have hidle : abortSite i (Work.start (emptySite i u)) = Work.start (emptySite i u) := foldl_idle fun x _ => if_neg fun k => by
    rw [show (Work.start (emptySite i u)).ent x = s.entry x from hu.entry x] at k
    rcases h x with hf | hi
    · exact k.1 hf
    · exact hi k.2
  exact congrArg (Work.upd (abortReady i)) hidle

/-- An ABORT of a site with one entry is the act of that entry, and then the moment of READY 255 (R139, R143). -/
theorem abortHeard_sole (hu : Heard s u) (h : s.sole i e) {w : Work} (hw : abortEntry e (Work.start (emptySite i u)) = w)
    (ho : ∀ x, x ≠ e → w.st.entry x = s.entry x) : abortHeard i (Work.start u) = w.upd (abortReady i) := by
  have hentry : ∀ x, (Work.start (emptySite i u)).ent x = s.entry x := hu.entry
  have hact : (if ((Work.start (emptySite i u)).ent e).state ≠ .free ∧ ((Work.start (emptySite i u)).ent e).site = i then
      abortEntry e (Work.start (emptySite i u)) else Work.start (emptySite i u)) = w := by
    rw [hentry, if_pos ⟨h.live, h.site⟩, hw]
  have hpasses : ∀ (v : Work) (x : Entry), v.ent x = s.entry x → x ≠ e →
      (if (v.ent x).state ≠ .free ∧ (v.ent x).site = i then abortEntry x v else v) = v := fun v x hv hx => if_neg fun k => by
    rw [hv] at k
    rcases h.others x hx with hf | hi
    · exact k.1 hf
    · exact hi k.2
  have hfold : abortSite i (Work.start (emptySite i u)) = w := by
    refine (foldl_single (f := fun (v : Work) x => if (v.ent x).state ≠ .free ∧ (v.ent x).site = i then abortEntry x v else v)
      (List.nodup_finRange 64) (List.mem_finRange e) (fun x hx => hpasses _ x (hentry x) hx) (fun x hx => ?_)).trans hact
    rw [hact]
    exact hpasses w x (ho x hx) hx
  exact congrArg (Work.upd (abortReady i)) hfold

/-! ### The entry becomes FREE (R139, R140) -/

theorem emptySite_abortWait (i : Site) (u : State) : look (emptySite i u).squ.abortWait i = true := look_put_same _ _ _

/-- The one entry of the site becomes FREE, and READY 255 is owed with no net held (R143). -/
theorem State.sole.frees (h : s.sole i e) (hu : Heard s u) {w : Work} (hsqu : w.st.squ = (emptySite i u).squ)
    (hj : w.joining = []) (hs : w.serve = false) (hsite : (w.ent e).site = i) (ho : ∀ x, x ≠ e → w.st.entry x = s.entry x) :
    finish ((freeEntry e w).upd (abortReady i)) = (freeEntry e w).st ∧
    (∀ x, x ≠ e → (freeEntry e w).st.entry x = s.entry x) ∧
    look (freeEntry e w).st.squ.ready i = some ⟨255, 0, look s.squ.refusals i, look s.squ.faults i⟩ := by
  have hothers : ∀ x, x ≠ e → (freeEntry e w).st.entry x = s.entry x := fun x hx =>
    (entry_of_put_ne (s := w.st) (congrArg Ne.entries (freeEntry_ne e w)) hx).trans (ho x hx)
  have hfreed : ∀ x, x ≠ e → (w.st.freed e).entry x = s.entry x := fun x hx =>
    (entry_of_put_ne (freed_entries w.st e) hx).trans (ho x hx)
  have hself : (w.st.freed e).entry e = NetEntry.free := entry_of_put (freed_entries w.st e)
  have hall : ∀ x, ((w.st.freed e).entry x).site = i → ((w.st.freed e).entry x).state = .free := fun x hx => by
    by_cases hxe : x = e
    · rw [hxe, hself]
      rfl
    · rw [hfreed x hxe] at hx ⊢
      exact (h.others x hxe).resolve_right (fun k => k hx)
  have hwait : look (w.st.freed e).squ.abortWait i = true := by
    rw [freed_squ, hsqu]
    exact emptySite_abortWait i u
  have hcount : (w.st.freed e).countEntries i (fun q => decide (q = .releaseBlocked)) = 0 :=
    countEntries_eq_zero.2 fun x hx => by rw [hall x hx]; rfl
  have hready := abortReady_due hwait (fun x hx => Or.inl (hall x hx))
  rw [hcount, freed_squ, hsqu] at hready
  have hst : (freeEntry e w).st.squ = (abortReady i (w.st.freed e)).squ := by rw [freeEntry_st, hsite]
  rw [hready] at hst
  have hidle : (freeEntry e w).upd (abortReady i) = freeEntry e w := by
    have : abortReady i (freeEntry e w).st = (freeEntry e w).st := abortReady_idle (by rw [hst]; exact look_put_same _ _ _)
    rw [Work.upd, this]
  have hnone : (freeEntry e w).st.noWaiter := fun x => by
    by_cases hxe : x = e
    · rw [hxe, freeEntry_entry]
      exact ⟨(fun k => by cases k), (fun k => by cases k)⟩
    · rw [hothers x hxe]
      exact h.waits x hxe
  refine ⟨by rw [hidle, finish_noWaiter hnone hj hs], hothers, ?_⟩
  rw [hst, ← hu.squ]
  exact look_put_same _ _ _

/-- A claim withdrawn leaves of its entry all but the resource field, and of the SQU and the marks everything (R91). -/
theorem withdrawClaim_leaves (e : Entry) (w : Work) : (∃ q, (withdrawClaim e w).ent e = { w.ent e with resource := q }) ∧
    (∀ x, x ≠ e → (withdrawClaim e w).st.entry x = w.st.entry x) ∧ (withdrawClaim e w).st.squ = w.st.squ ∧
    (withdrawClaim e w).st.ne.cancel = w.st.ne.cancel ∧ (withdrawClaim e w).joining = w.joining ∧
    (withdrawClaim e w).serve = w.serve := by
  obtain ⟨hne, -⟩ := endClaim_parts e w.st
  have hentry : ∀ x, (endClaim e w.st).entry x = w.st.entry x := fun x => by rw [State.entry, hne]; rfl
  rcases withdrawClaim_cases e w with h | h <;> rw [h]
  · exact ⟨⟨(w.ent e).resource, hentry e⟩, fun x _ => hentry x, endClaim_squ _ _, congrArg Ne.cancel hne, rfl, rfl⟩
  · refine ⟨⟨none, ?_⟩, fun x hx => (entry_of_put_ne (s := endClaim e w.st) rfl hx).trans (hentry x), endClaim_squ _ _,
      (show (endClaim e w.st).ne.cancel = w.st.ne.cancel by rw [hne]), rfl, rfl⟩
    refine (State.setEntry_entry_same _ _ _).trans ?_
    rw [show (w.upd (endClaim e)).st.entry e = w.ent e from hentry e]

/-- An anchor with no claim on the line leaves AWAIT_RESOURCE with OPENED owed, and for a trunk net CANCEL (R76, R140). -/
theorem leaveAwaitResource_frees {w : Work} (hline : w.st.claimOnLine e = false) : ∃ v, leaveAwaitResource e w = freeEntry e v ∧
    v.st.squ = w.st.squ ∧ v.joining = w.joining ∧ v.serve = w.serve ∧ (v.ent e).site = (w.ent e).site ∧
    (∀ x, x ≠ e → v.st.entry x = w.st.entry x) ∧
    (∃ q, look v.st.ne.status e = some ⟨(w.ent e).site, (w.ent e).net, .opened, openedReason (w.ent e).reason, q, none⟩) ∧
    look v.st.ne.cancel e =
      if (w.ent e).request = .localBus then look w.st.ne.cancel e else some ((w.ent e).site, (w.ent e).net) := by
  obtain ⟨⟨q, hent⟩, hothers, hsqu, hcancel, hj, hs⟩ := withdrawClaim_leaves e w
  generalize hwithdrawn : withdrawClaim e w = v at hent hothers hsqu hcancel hj hs
  have hopened : ∀ t : State, (oweOpened e t).squ = t.squ := fun t => renew_squ _ _
  have hstatus : ∀ t : State, t.entry e = v.ent e → look (oweOpened e t).ne.status e =
      some ⟨(w.ent e).site, (w.ent e).net, .opened, openedReason (w.ent e).reason, q.map NetResource.code, none⟩ := fun t ht => by
    rw [oweOpened_ne, ht, hent]
    exact look_put_same _ _ _
  have hentries : ∀ t : State, ∀ x, (oweOpened e t).entry x = t.entry x := fun t x => by rw [State.entry, oweOpened_ne]; rfl
  have hcancelled : ∀ x, (oweCancel e v.st).entry x = v.st.entry x := fun x => by rw [State.entry, oweCancel_ne]; rfl
  have hvent : v.st.entry e = v.ent e := rfl
  unfold leaveAwaitResource
  dsimp only
  rw [if_neg (by rw [hline]; decide), hwithdrawn]
  by_cases hq : (w.ent e).request = .localBus
  · refine ⟨v.upd (oweOpened e), by rw [if_neg (by simp [hq])], (hopened _).trans hsqu, hj, hs, ?_,
      fun x hx => (hentries _ x).trans (hothers x hx), ⟨_, hstatus v.st rfl⟩, ?_⟩
    · rw [show (v.upd (oweOpened e)).ent e = v.ent e from hentries _ e, hent]
    · rw [if_pos hq, ← hcancel, Work.upd_st, oweOpened_ne]
  · refine ⟨(v.upd (oweCancel e)).upd (oweOpened e), by rw [if_pos (by simp [hq])],
      (hopened _).trans ((renew_squ _ _).trans hsqu), hj, hs, ?_,
      fun x hx => (hentries _ x).trans ((hcancelled x).trans (hothers x hx)), ⟨_, hstatus _ (hcancelled e)⟩, ?_⟩
    · rw [show ((v.upd (oweCancel e)).upd (oweOpened e)).ent e = v.ent e from (hentries _ e).trans (hcancelled e), hent]
    · rw [if_neg hq, Work.upd_st, oweOpened_ne, Work.upd_st, oweCancel_ne, hvent, hent]
      exact look_put_same _ _ _

/-- An anchor whose CLAIM is on the line leaves AWAIT_RESOURCE for AWAIT_OPENED, CANCEL owed (R76, R92, R140). -/
theorem leaveAwaitResource_waits {w : Work} (hline : w.st.claimOnLine e = true) (ha : (w.ent e).awaited ≠ []) :
    leaveAwaitResource e w = { w with
      st := (oweCancel e (endClaim e w.st)).setEntry e { w.ent e with
        state := .awaitOpened, deadline := some (laterMs w.st.now w.st.cfl.config.releaseWait), reported := false }
      pass := true } := by
  have hentry : (oweCancel e (endClaim e w.st)).entry e = w.ent e := by
    rw [State.entry, oweCancel_ne, (endClaim_parts e w.st).1]
    rfl
  have hcore : (oweCancel e (endClaim e w.st)).core = w.st.core := (oweCancel_core e _).trans (endClaim_core e _)
  have hnow : (oweCancel e (endClaim e w.st)).now = w.st.now := congrArg (fun c => c.1.now) hcore
  have hcfl : (oweCancel e (endClaim e w.st)).cfl = w.st.cfl := congrArg (fun c => c.1.cfl) hcore
  have hent : (w.upd (fun s => oweCancel e (endClaim e s))).ent e = w.ent e := hentry
  unfold leaveAwaitResource
  dsimp only
  rw [if_pos hline, awaitOpened_waits (by rw [hent]; exact ha), hent, Work.upd_st, hnow, hcfl]
  rfl

/-! ### The entry stays (R141–R143) -/

/-- READY 255 waits for an entry that is neither FREE nor RELEASE_BLOCKED. -/
theorem upd_abortReady_waits {w : Work} (hi : (w.ent e).site = i) (hf : (w.ent e).state ≠ .free)
    (hb : (w.ent e).state ≠ .releaseBlocked) : w.upd (abortReady i) = w := by
  rw [Work.upd, abortReady_waits hi hf hb]

/-- The one entry of the site stays in a state in which it waits for nothing. -/
theorem State.sole.stays (h : s.sole i e) {w : Work} {y : NetEntry} (hy : w.ent e = y) (hi : y.site = i) (hf : y.state ≠ .free)
    (hb : y.state ≠ .releaseBlocked) (hr : y.state ≠ .awaitResource) (hm : y.monitor ≠ .claiming) (hj : w.joining = [])
    (hs : w.serve = false) (ho : ∀ x, x ≠ e → w.st.entry x = s.entry x) : finish (w.upd (abortReady i)) = w.st := by
  rw [upd_abortReady_waits (by rw [hy]; exact hi) (by rw [hy]; exact hf) (by rw [hy]; exact hb)]
  refine finish_noWaiter (fun x => ?_) hj hs
  by_cases hx : x = e
  · rw [hx, show w.st.entry e = y from hy]
    exact ⟨hr, hm⟩
  · rw [ho x hx]
    exact h.waits x hx

theorem mem_markWaves {l : List Wave} {q : WaveOwner} : (∃ v ∈ markWaves e l, v.owner = q) ↔ ∃ v ∈ l, v.owner = q := by
  have howner : ∀ v : Wave, (if v.owner = .entry e then { v with abortMark := true } else v).owner = v.owner := fun v => by
    split <;> rfl
  simp [markWaves, howner]

theorem markWaves_none {l : List Wave} (h : ∀ v ∈ l, v.owner ≠ .entry e) : markWaves e l = l := by
  unfold markWaves
  have hsame : ∀ v ∈ l, (if v.owner = .entry e then { v with abortMark := true } else v) = id v := fun v hv => if_neg (h v hv)
  rw [List.map_congr_left hsame, List.map_id]

/-! ### The acts by state (R139–R143) -/

/-- An entry that awaits its anchor is FREE with nothing reported (R139, R143). -/
theorem Marked.frees (h : Marked s u m i e) (hu : Heard s u) (hsole : s.sole i e) {t : State}
    (ht : t = finish ((freeEntry e (Work.start m)).upd (abortReady i))) :
    (t.entry e).state = .free ∧ (∀ p, look t.ne.binding p ≠ some e) ∧
    look t.squ.ready i = some ⟨255, 0, look s.squ.refusals i, look s.squ.faults i⟩ ∧
    t.ne.cancel = s.ne.cancel ∧ t.ne.siteStatus = s.ne.siteStatus ∧
    (∀ x, x ≠ e → t.entry x = s.entry x ∧ look t.ne.status x = look s.ne.status x) ∧
    look t.ne.status e = abortReport (s.entry e) (look s.ne.status e) := by
  obtain ⟨hfinish, hothers, hready⟩ := hsole.frees hu (w := Work.start m) h.squ rfl rfl
    ((congrArg NetEntry.site h.entry).trans hsole.site) (fun x hx => h.entry_ne hx)
  have hne := freeEntry_ne e (Work.start m)
  rw [Work.start_st, h.ne] at hne
  have hstatus : (freeEntry e (Work.start m)).st.ne.status =
      put s.ne.status e (abortReport (s.entry e) (look s.ne.status e)) := by rw [hne]
  rw [ht, hfinish]
  refine ⟨congrArg NetEntry.state freeEntry_entry, freeEntry_unbound, hready, by rw [hne], by rw [hne],
    fun x hx => ⟨hothers x hx, ?_⟩, ?_⟩
  · rw [hstatus]
    exact look_put_ne _ _ (Ne.symm hx)
  · rw [hstatus]
    exact look_put_same _ _ _

/-- An anchor that awaits a resource, with no CLAIM on the line, is FREE with OPENED owed (R140, R143). -/
theorem Marked.leaves (h : Marked s u m i e) (hu : Heard s u) (hsole : s.sole i e) (hline : s.claimOnLine e = false) :
    (∀ x, x ≠ e → (leaveAwaitResource e (Work.start m)).st.entry x = s.entry x) ∧
    ∀ t : State, t = finish ((leaveAwaitResource e (Work.start m)).upd (abortReady i)) →
      (t.entry e).state = .free ∧ (∀ p, look t.ne.binding p ≠ some e) ∧ look t.rcu.claims e = none ∧
      (∃ q, look t.ne.status e = some ⟨i, (s.entry e).net, .opened, .aborted, q, none⟩) ∧
      look t.ne.cancel e = (if (s.entry e).request = .localBus then look s.ne.cancel e else some (i, (s.entry e).net)) ∧
      look t.squ.ready i = some ⟨255, 0, look s.squ.refusals i, look s.squ.faults i⟩ ∧
      ∀ x, x ≠ e → t.entry x = s.entry x := by
  obtain ⟨v, hact, hsqu, hj, hs, hsite, hothers, hstatus, hcancel⟩ :=
    leaveAwaitResource_frees (w := Work.start m) ((h.claimOnLine e).trans hline)
  have hent : (Work.start m).ent e = (s.entry e).aborted := h.entry
  have hothers' : ∀ x, x ≠ e → v.st.entry x = s.entry x := fun x hx => (hothers x hx).trans (h.entry_ne hx)
  rw [hent] at hsite hstatus hcancel
  obtain ⟨hfinish, hrest, hready⟩ := hsole.frees hu (hsqu.trans h.squ) hj hs (hsite.trans hsole.site) hothers'
  rw [hact]
  refine ⟨hrest, fun t ht => ?_⟩
  rw [ht, hfinish]
  refine ⟨congrArg NetEntry.state freeEntry_entry, freeEntry_unbound, ?_, ?_, ?_, hready, hrest⟩
  · rw [freeEntry_rcu]
    exact look_put_same _ _ _
  · rw [freeEntry_status, ← hsole.site]
    exact hstatus
  · rw [freeEntry_ne, ← hsole.site]
    refine hcancel.trans ?_
    rw [Work.start_st, h.ne]
    rfl

/-- An anchor whose CLAIM is on the line waits in AWAIT_OPENED (R92, R140). -/
theorem Marked.waitsOpened (h : Marked s u m i e) (hsole : s.sole i e) (hline : s.claimOnLine e = true)
    (ha : (s.entry e).awaited ≠ []) :
    (∀ x, x ≠ e → (leaveAwaitResource e (Work.start m)).st.entry x = s.entry x) ∧
    ∀ t : State, t = finish ((leaveAwaitResource e (Work.start m)).upd (abortReady i)) →
      t.entry e = { s.entry e with
        state := .awaitOpened, reason := some .aborted, reasonRelay := none, reported := false
        deadline := some (later u.now (s.cfl.config.releaseWait * 1000)) } ∧
      look t.rcu.claims e = none ∧ look t.ne.cancel e = some (i, (s.entry e).net) ∧ look t.squ.abortWait i = true ∧
      ∀ x, x ≠ e → t.entry x = s.entry x := by
  have hent : (Work.start m).ent e = (s.entry e).aborted := h.entry
  have hact := leaveAwaitResource_waits (w := Work.start m) (e := e) ((h.claimOnLine e).trans hline) (by rw [hent]; exact ha)
  rw [hent, Work.start_st, h.now, h.cfl] at hact
  generalize hy : ({ (s.entry e).aborted with
    state := .awaitOpened, deadline := some (laterMs u.now s.cfl.config.releaseWait), reported := false } : NetEntry) = y at hact
  have hne : (oweCancel e (endClaim e m)).ne = { m.ne with cancel := put m.ne.cancel e (some (i, (s.entry e).net)) } := by
    have hentry : (endClaim e m).entry e = (s.entry e).aborted := by
      rw [State.entry, (endClaim_parts e m).1]
      exact h.entry
    rw [oweCancel_ne, hentry, (endClaim_parts e m).1, ← hsole.site]
    rfl
  have hothers : ∀ x, x ≠ e → ((oweCancel e (endClaim e m)).setEntry e y).entry x = s.entry x := fun x hx =>
    (entry_of_put_ne (s := oweCancel e (endClaim e m)) rfl hx).trans (by
      rw [State.entry, hne]
      exact h.entry_ne hx)
  have hself : ((oweCancel e (endClaim e m)).setEntry e y).entry e = y := State.setEntry_entry_same _ _ _
  rw [hact]
  refine ⟨hothers, fun t ht => ?_⟩
  rw [hsole.stays (w := ⟨(oweCancel e (endClaim e m)).setEntry e y, (Work.start m).joining, true, (Work.start m).serve⟩) hself
    (by rw [← hy]; exact hsole.site) (by rw [← hy]; exact fun k => by cases k)
    (by rw [← hy]; exact fun k => by cases k) (by rw [← hy]; exact fun k => by cases k) (by rw [← hy]; exact hsole.monitor) rfl rfl
    hothers] at ht
  rw [ht]
  refine ⟨hself.trans hy.symm, ?_, ?_, ?_, hothers⟩
  · show look (oweCancel e (endClaim e m)).rcu.claims e = none
    rw [oweCancel]
    dsimp only
    rw [renew_rcu]
    show look (endClaim e m).rcu.claims e = none
    rw [(endClaim_parts e m).2.1]
    exact look_put_same _ _ _
  · show look (oweCancel e (endClaim e m)).ne.cancel e = _
    rw [hne]
    exact look_put_same _ _ _
  · show look (oweCancel e (endClaim e m)).squ.abortWait i = true
    rw [show (oweCancel e (endClaim e m)).squ = (endClaim e m).squ from renew_squ _ _, endClaim_squ, h.squ]
    exact emptySite_abortWait i u

/-- A connecting entry whose wave is in flight has release-pending (R141). -/
theorem Marked.pends (h : Marked s u m i e) (hsole : s.sole i e) (hheld : s.wsu.held = [])
    (hs : (s.entry e).state = .connectInner ∨ (s.entry e).state = .connectOuter)
    (hflight : ∃ v ∈ s.wsu.queue ++ s.wsu.settling, v.owner = .entry e) :
    (∀ x, x ≠ e → (setReleasePending e .plain (Work.start m)).st.entry x = s.entry x) ∧
    ∀ t : State, t = finish ((setReleasePending e .plain (Work.start m)).upd (abortReady i)) →
      t.entry e = (s.entry e).aborted.pends .plain ∧ t.wsu.queue = markWaves e s.wsu.queue ∧ look t.squ.abortWait i = true ∧
      ∀ x, x ≠ e → t.entry x = s.entry x := by
  have hent : (Work.start m).ent e = (s.entry e).aborted := h.entry
  have hmarked : ∃ v ∈ (Work.start m).st.wsu.queue ++ (Work.start m).st.wsu.settling, v.owner = .entry e := by
    rw [Work.start_st, h.queue, h.settling, markWaves, markWaves, ← List.map_append]
    exact mem_markWaves.2 hflight
  have hact : setReleasePending e .plain (Work.start m) = (Work.start m).modEnt e (NetEntry.pends .plain) :=
    setReleasePending_inFlight .plain (by rw [hent]; exact hs) (by rw [Work.start_st, h.held, hheld]; exact fun v hv => by cases hv)
      (inFlight_of_mem hmarked)
  have hothers : ∀ x, x ≠ e → ((Work.start m).modEnt e (NetEntry.pends .plain)).st.entry x = s.entry x := fun x hx =>
    (entry_of_put_ne (s := m) rfl hx).trans (h.entry_ne hx)
  have hself : ((Work.start m).modEnt e (NetEntry.pends .plain)).ent e = (s.entry e).aborted.pends .plain :=
    (State.setEntry_entry_same _ _ _).trans (congrArg _ hent)
  have hne : ∀ q : EntryState, q ≠ .connectInner → q ≠ .connectOuter → (s.entry e).state ≠ q := fun q h1 h2 k => by
    rcases hs with hs | hs
    · exact h1 (k.symm.trans hs)
    · exact h2 (k.symm.trans hs)
  rw [hact]
  refine ⟨hothers, fun t ht => ?_⟩
  rw [hsole.stays hself hsole.site (hne .free (by decide) (by decide)) (hne .releaseBlocked (by decide) (by decide))
    (hne .awaitResource (by decide) (by decide)) hsole.monitor rfl rfl hothers] at ht
  rw [ht]
  refine ⟨hself, h.queue, ?_, hothers⟩
  show look m.squ.abortWait i = true
  rw [h.squ]
  exact emptySite_abortWait i u

/-- A CONNECTED entry at rest builds its outer disconnect wave, which carries the abort mark (R141). -/
theorem Marked.disconnects (h : Marked s u m i e) (hsole : s.sole i e) (hheld : s.wsu.held = [])
    (hs : (s.entry e).state = .connected) (hm : (s.entry e).monitor = .off ∨ (s.entry e).monitor = .on)
    (hv : look s.snu.verifications e = none) (hw : ∀ v ∈ s.wsu.queue ++ s.wsu.settling, v.owner ≠ .entry e)
    (hr : ∀ p ∈ s.wsu.recovery, p.2 ≠ e) (hq : s.wsu.queue ≠ []) {opens : List Relay}
    (ho : opens = ((s.entry e).pins.map relayS).filter (fun r =>
      decide ((s.relay r).owner = some e) && decide ((s.relay r).state = .closed))) (hne : opens ≠ []) :
    (∀ x, x ≠ e → (setReleasePending e .plain (Work.start m)).st.entry x = s.entry x) ∧
    ∀ t : State, t = finish ((setReleasePending e .plain (Work.start m)).upd (abortReady i)) →
      t.entry e = { s.entry e with
        state := .disconnectOuter, reason := some .aborted, reasonRelay := none, releasePending := none } ∧
      t.wsu.queue = s.wsu.queue ++ [⟨.entry e, .outerDisconnect, [], opens.map (fun r => (r, false)), (s.entry e).trunk,
        (s.entry e).trunk.isSome && !(s.entry e).hot, false, true, none⟩] ∧
      look t.squ.abortWait i = true ∧ ∀ x, x ≠ e → t.entry x = s.entry x := by
  have hent : (Work.start m).ent e = (s.entry e).aborted := h.entry
  have hrelay : ∀ r, m.relay r = s.relay r := fun r => by rw [State.relay, h.rm]; rfl
  have hqueue : m.wsu.queue = s.wsu.queue := by
    rw [h.queue, markWaves_none fun v hv => hw v (List.mem_append_left _ hv)]
  have hsettling : m.wsu.settling = s.wsu.settling := by
    rw [h.settling, markWaves_none fun v hv => hw v (List.mem_append_right _ hv)]
  have hheld' : m.wsu.held = [] := by rw [h.held, hheld]; rfl
  have hidle : (Work.start m).inFlight e = false := inFlight_none rfl
    (by rw [Work.start_st, hqueue, hsettling, hheld', List.append_nil]; exact hw) (by rw [Work.start_st, h.recovery]; exact hr)
  have hnone : (Work.start m).st.noWaiter := fun x => by
    by_cases hx : x = e
    · rw [hx, Work.start_st, h.entry]
      exact ⟨(fun k => by cases hs.symm.trans k), hsole.monitor⟩
    · rw [Work.start_st, h.entry_ne hx]
      exact hsole.waits x hx
  have hreleased : ((s.entry e).aborted.pends .plain).released = { s.entry e with
      state := .disconnectOuter, reason := some .aborted, reasonRelay := none, releasePending := none } := by
    simp [NetEntry.released, NetEntry.pends, NetEntry.aborted]
  obtain ⟨hentries, hsqu, hwsu, hjoining, hserve⟩ := setReleasePending_builds (w := Work.start m) (e := e) (opens := opens) hnone
    (by rw [hent]; exact hs) (by rw [hent]; exact hm) hidle (by rw [Work.start_st, h.snu]; exact hv)
    (by rw [hent, ho]; simp only [Work.start_st, hrelay]; rfl) hne
  rw [hent, hreleased] at hentries hjoining
  generalize setReleasePending e .plain (Work.start m) = w at hentries hsqu hwsu hjoining hserve
  have hself := entry_of_put (s := m) (t := w.st) (congrArg Ne.entries hentries)
  have hothers : ∀ x, x ≠ e → w.st.entry x = s.entry x := fun x hx =>
    (entry_of_put_ne (s := m) (congrArg Ne.entries hentries) hx).trans (h.entry_ne hx)
  have hrest : w.st.noWaiter := fun x => by
    by_cases hx : x = e
    · rw [hx, hself]
      exact ⟨(fun k => by cases k), hsole.monitor⟩
    · rw [hothers x hx]
      exact hsole.waits x hx
  refine ⟨hothers, fun t ht => ?_⟩
  have hqueue' : w.st.wsu.queue = s.wsu.queue := by rw [hwsu]; exact hqueue
  rw [upd_abortReady_waits (by rw [Work.ent, hself]; exact hsole.site) (by rw [Work.ent, hself]; exact fun k => by cases k)
    (by rw [Work.ent, hself]; exact fun k => by cases k), finish_waits hrest hserve (by rw [hqueue']; exact hq)] at ht
  rw [ht]
  refine ⟨hself, ?_, ?_, hothers⟩
  · show w.st.wsu.queue ++ sortWaves w.joining = _
    rw [hqueue', hjoining]
    rfl
  · show look w.st.squ.abortWait i = true
    rw [hsqu, Work.start_st, h.squ]
    exact emptySite_abortWait i u

/-- A RELEASE_BLOCKED entry stays so and is counted as held (R142, R143). -/
theorem Marked.blocked (h : Marked s u m i e) (hu : Heard s u) (hsole : s.sole i e) (hs : (s.entry e).state = .releaseBlocked)
    {t : State} (ht : t = finish ((Work.start m).upd (abortReady i))) :
    t.entry e = (s.entry e).aborted ∧ look t.squ.ready i = some ⟨255, 1, look s.squ.refusals i, look s.squ.faults i⟩ := by
  have hself : (m.entry e).state = .releaseBlocked := (congrArg NetEntry.state h.entry).trans hs
  have hsite : (m.entry e).site = i := (congrArg NetEntry.site h.entry).trans hsole.site
  have hothers : ∀ x, x ≠ e → (m.entry x).site = i → (m.entry x).state = .free := fun x hx hi => by
    rw [h.entry_ne hx] at hi ⊢
    exact (hsole.others x hx).resolve_right (fun k => k hi)
  have hall : ∀ x, (m.entry x).site = i → (m.entry x).state = .free ∨ (m.entry x).state = .releaseBlocked := fun x hi => by
    by_cases hx : x = e
    · rw [hx]
      exact Or.inr hself
    · exact Or.inl (hothers x hx hi)
  have hcount : m.countEntries i (fun q => decide (q = .releaseBlocked)) = 1 := countEntries_eq_one (e := e) fun x => by
    constructor
    · rintro ⟨hi, hb⟩
      by_contra hx
      rw [hothers x hx hi] at hb
      cases hb
    · rintro rfl
      exact ⟨hsite, by rw [hself]; rfl⟩
  have hready := abortReady_due (s := m) (by rw [h.squ]; exact emptySite_abortWait i u) hall
  have hne : (abortReady i m).ne = m.ne := (abortReady_parts i m).1
  have hnone : (abortReady i m).noWaiter := fun x => by
    rw [show (abortReady i m).entry x = m.entry x by rw [State.entry, hne]; rfl]
    by_cases hx : x = e
    · rw [hx, h.entry]
      exact ⟨(fun k => by cases hs.symm.trans k), hsole.monitor⟩
    · rw [h.entry_ne hx]
      exact hsole.waits x hx
  rw [ht, finish_noWaiter (w := (Work.start m).upd (abortReady i)) hnone rfl rfl, Work.upd_st, Work.start_st]
  refine ⟨?_, ?_⟩
  · rw [State.entry, hne]
    exact h.entry
  · rw [hready, hcount, h.squ, ← hu.squ]
    exact look_put_same _ _ _

end

/-! ### The statement -/

theorem emptySite_core_congr {s t : State} (h : t.core = s.core) (i : Site) : (emptySite i t).core = (emptySite i s).core :=
  congrArg (fun c => ({ emptySite i c.1 with squ := { (emptySite i c.1).squ with abortWait := fill 8 false } }, c.2)) h

theorem abortHeard_core (i : Site) (w : Work) : (abortHeard i w).st.core = (emptySite i w.st).core := by
  unfold abortHeard
  rw [Work.upd_st, abortReady_core, abortSite_core, Work.upd_st]

theorem exec_abort {dt : Nat} {s : State} {f : Frame} {i : Site} (h : s.Front f (.abort i)) : exec (.abort dt) s =
    .next (finish (abortHeard i (resumeHeld (Work.start (s.heard dt f (.abort i)))))) := by
  rw [exec_front_as h (c := .abort dt) (fun g hg => by rw [frameCommand, hg]; rfl)]
  exact congrArg (fun w => Host.Outcome.next (finish w)) rfl

/-- Settles O23: the site is emptied, and its one entry acts on the ABORT by its state. -/
theorem abortEmptiesSite : Obligations.AbortEmptiesSite := by
  intro dt s u f i hfront hu
  have hheard : Heard s u := hu ▸ heard_heard s dt f _
  have hexec := exec_abort (dt := dt) hfront
  rw [← hu] at hexec
  have hfollows : Follows (emptySite i u) (finish (abortHeard i (resumeHeld (Work.start u)))) :=
    finish_follows_of ((abortHeard_core i _).trans (emptySite_core_congr (resumeHeld_core (Work.start u)) i))
  have hnone : s.wsu.held = [] → resumeHeld (Work.start u) = Work.start u := fun h => resumeHeld_none (hheard.held.trans h)
  refine ⟨_, hexec, hfollows, ?_, ?_, fun k hk => ⟨?_, ?_⟩, fun hheld hall => ?_, fun e a ha hheld hn hm hsite hothers => ?_⟩
  · rw [State.queueOf, hfollows.queues]
    exact (look_put_same _ _ _).trans (by rw [hheard.siteParams])
  · rw [hfollows.staging]
    exact look_put_same _ _ _
  · rw [State.queueOf, hfollows.queues]
    exact (look_put_ne _ _ (Ne.symm hk)).trans (by rw [hheard.squ]; rfl)
  · rw [hfollows.staging]
    exact (look_put_ne _ _ (Ne.symm hk)).trans (by rw [hheard.squ])
  · have hfree : ∀ x, ((emptySite i u).entry x).site = i → ((emptySite i u).entry x).state = .free := fun x hx => by
      rw [show (emptySite i u).entry x = s.entry x from hheard.entry x] at hx ⊢
      exact (hall x).resolve_right (fun k => k hx)
    have hcount : (emptySite i u).countEntries i (fun q => decide (q = .releaseBlocked)) = 0 :=
      countEntries_eq_zero.2 fun x hx => by rw [hfree x hx]; rfl
    have hdue := abortReady_due (emptySite_abortWait i u) (fun x hx => Or.inl (hfree x hx))
    rw [hcount] at hdue
    rw [hnone hheld, abortHeard_none hheard hall, finish_start, hdue, (abortReady_parts i _).1, emptySite_ne, ← hheard.squ]
    exact ⟨look_put_same _ _ _, look_put_same _ _ _, look_put_same _ _ _, look_put_same _ _ _, hheard.ne⟩
  · subst ha
    rw [hnone hheld]
    have hmarked := hheard.marked i e
    obtain ⟨hawaitAnchor, hawaitResource, hconnects, hblocked⟩ := abortEntry_acts (e := e) (s := emptySite i u) rfl
    generalize abortMarks e (emptySite i u) = m at hmarked hawaitAnchor hawaitResource hconnects hblocked
    rw [congrArg NetEntry.state hmarked.entry] at hawaitAnchor hawaitResource hconnects hblocked
    have hsole : (s.entry e).state ≠ .free → s.sole i e := fun hlive => ⟨hsite, hlive, hothers, hn, hm⟩
    refine ⟨fun hs => ?_, fun hs hline => ?_, fun hs hline haw => ?_, fun hs hflight => ?_,
      fun hs hmon hv hw hr hq opens ho hne => ?_, fun hs => ?_⟩
    · have hone := hsole (by rw [hs]; decide)
      rw [abortHeard_sole hheard hone (hawaitAnchor hs) (hone.frees hheard (w := Work.start m) hmarked.squ rfl rfl
        ((congrArg NetEntry.site hmarked.entry).trans hsite) (fun x hx => hmarked.entry_ne hx)).2.1]
      subst hsite
      exact hmarked.frees hheard hone rfl
    · have hone := hsole (by rw [hs]; decide)
      obtain ⟨hrest, hends⟩ := hmarked.leaves hheard hone hline
      rw [abortHeard_sole hheard hone (hawaitResource hs) hrest]
      exact hends _ rfl
    · have hone := hsole (by rw [hs]; decide)
      obtain ⟨hrest, hends⟩ := hmarked.waitsOpened hone hline haw
      rw [abortHeard_sole hheard hone (hawaitResource hs) hrest]
      exact hends _ rfl
    · have hone := hsole (by rcases hs with hs | hs <;> rw [hs] <;> decide)
      obtain ⟨hrest, hends⟩ := hmarked.pends hone hheld hs hflight
      rw [abortHeard_sole hheard hone (hconnects (hs.imp_right Or.inl)) hrest]
      obtain ⟨hentry, hqueue, hwait, hsame⟩ := hends _ rfl
      exact ⟨hentry.trans (NetEntry.pends_plain _), hqueue, hwait, hsame⟩
    · have hone := hsole (by rw [hs]; decide)
      obtain ⟨hrest, hends⟩ := hmarked.disconnects hone hheld hs hmon hv hw hr hq ho hne
      rw [abortHeard_sole hheard hone (hconnects (Or.inr (Or.inr hs))) hrest]
      exact hends _ rfl
    · have hone := hsole (by rw [hs]; decide)
      rw [abortHeard_sole hheard hone (hblocked hs) (fun x hx => hmarked.entry_ne hx)]
      exact hmarked.blocked hheard hone hs rfl

end Sys2Proof.Machine
end

