-- ==== Sys2Proof/Proofs/Handshake.lean ====
section
/-! The release handshake (R73, R74): what the closing report leaves of the net table, when the entry is FREE, and the frames that
move it on, CLEAR and STATUS (R97). -/

namespace Sys2Proof.Machine

/-! ### What an entry holds -/

/-- Whose CLAIM is on the line is a matter of the base: a mark renewed or withdrawn is still that frame's (R62, R92). -/
theorem claimOnLine_base (s : State) (e : Entry) : s.claimOnLine e = s.base.claimOnLine e := by
  unfold State.claimOnLine
  cases h : s.liu.own with
  | none => simp [State.base, h]
  | some o => simp [State.base, h]

theorem claimOnLine_of_core {s t : State} (h : t.core = s.core) (e : Entry) : t.claimOnLine e = s.claimOnLine e :=
  (Follows.of_core h).field (fun u => u.claimOnLine e) fun u => claimOnLine_base u e

theorem held_of_holdings {s t : State} (h : t.rcu.holdings = s.rcu.holdings) (e : Entry) : t.held e = s.held e := by
  rw [State.held, h]
  rfl

theorem holding_of_core {s t : State} (h : t.core = s.core) (e : Entry) : t.holding e = s.holding e := by
  rw [State.holding, State.holding, held_of_holdings (Follows.of_core h).holdings, claimOnLine_of_core h]

theorem held_nil {s : State} {e : Entry} (h : ∀ q, look s.rcu.holdings q ≠ some e) : s.held e = [] := by
  unfold State.held indices
  rw [List.filter_eq_nil_iff]
  intro q _
  simp [h q]

/-- An entry that holds nothing and has no CLAIM on the line (R72, R73). -/
theorem holding_false {s : State} {e : Entry} (h : ∀ q, look s.rcu.holdings q ≠ some e) (hline : s.claimOnLine e = false) :
    s.holding e = false := by
  simp [State.holding, held_nil h, hline]

/-! ### The closing report (R63, R73) -/

theorem put_look {α : Type} {n : Nat} (t : Table n α) (i : Fin n) : put t i (look t i) = t := by
  apply table_ext
  intro j
  rw [look_put]
  split
  · subst_vars; rfl
  · rfl

/-- The OPENED of an entry (R63). -/
def NetEntry.openedReport (x : NetEntry) : Report :=
  ⟨x.site, x.net, .opened, openedReason x.reason, x.resource.map NetResource.code, none⟩

/-- The entry with its closing report made, unless a refusal reason stands (R73). -/
def NetEntry.closed (x : NetEntry) : NetEntry := { x with reported := x.reported || !x.refused }

/-- The STATUS mark of an entry after its closing report, from the mark before. -/
def NetEntry.closingMark (x : NetEntry) (m : Option Report) : Option Report :=
  if x.reported = true ∨ x.refused = true then m else some x.openedReport

theorem closingReport_ne (e : Entry) (w : Work) : (closingReport e w).st.ne = { w.st.ne with
    entries := put w.st.ne.entries e (w.ent e).closed
    status := put w.st.ne.status e ((w.ent e).closingMark (look w.st.ne.status e)) } := by
  unfold closingReport
  dsimp only
  by_cases h : (w.ent e).reported = true ∨ (w.ent e).refused = true
  · have hclosed : (w.ent e).closed = look w.st.ne.entries e := by
      unfold NetEntry.closed
      rcases h with h | h
      · rw [h, Bool.true_or, ← h]
        rfl
      · rw [h, Bool.not_true, Bool.or_false]
        rfl
    rw [if_pos (by simpa using h), NetEntry.closingMark, if_pos h, hclosed, put_look, put_look]
  · obtain ⟨hreported, hrefused⟩ := not_or.1 h
    have hentry : (oweOpened e w.st).entry e = w.ent e := by
      rw [State.entry, oweOpened_ne]
      rfl
    rw [if_neg (by simpa using h), NetEntry.closingMark, if_neg h, Work.modEnt_st, Work.upd_st, hentry]
    show ({ (oweOpened e w.st).ne with entries := put (oweOpened e w.st).ne.entries e _ } : Ne) = _
    rw [oweOpened_ne, NetEntry.closed, Bool.eq_false_iff.2 hreported, Bool.eq_false_iff.2 hrefused]
    rfl

/-! ### The handshake (R73, R74) -/

section
variable {e : Entry} {w : Work}

theorem closingReported_core (e : Entry) (w : Work) : (closingReport e (w.upd (oweReleases e))).st.core = w.st.core := by
  rw [closingReport_core, Work.upd_st, oweReleases_core]

/-- While the entry holds a resource, or its CLAIM is on the line, it owes its RELEASEs and its closing report. -/
theorem handshake_keeps (ha : (w.ent e).awaited = []) (hs : (w.ent e).state = .awaitOpened ∨ (w.ent e).state = .releaseBlocked)
    (hh : w.st.holding e = true) : handshake e w = closingReport e (w.upd (oweReleases e)) := by
  have hholds : (closingReport e (w.upd (oweReleases e))).st.holding e = true := by
    rw [holding_of_core (closingReported_core e w), hh]
  unfold handshake
  dsimp only
  rw [if_pos ⟨ha, hs⟩, tryFree]
  refine if_neg ?_
  rintro ⟨-, h⟩
  rw [hholds] at h
  cases h

theorem closingReport_state : ((closingReport e w).ent e).state = (w.ent e).state := by
  rw [Work.ent, closingReport_entry, if_pos rfl]
  rfl

/-- With nothing held it is FREE (R73). -/
theorem handshake_frees (ha : (w.ent e).awaited = []) (hs : (w.ent e).state = .awaitOpened ∨ (w.ent e).state = .releaseBlocked)
    (hh : w.st.holding e = false) :
    handshake e w = freeEntry e (closingReport e (closingReport e (w.upd (oweReleases e)))) := by
  have hholds : (closingReport e (w.upd (oweReleases e))).st.holding e = false := by
    rw [holding_of_core (closingReported_core e w), hh]
  have hstate : ((closingReport e (w.upd (oweReleases e))).ent e).state = (w.ent e).state := closingReport_state
  unfold handshake
  dsimp only
  rw [if_pos ⟨ha, hs⟩, tryFree, if_pos]
  rw [hstate]
  exact ⟨hs, hholds⟩

theorem handshake_idle (h : (w.ent e).awaited ≠ [] ∨ (w.ent e).state ≠ .awaitOpened ∧ (w.ent e).state ≠ .releaseBlocked) :
    handshake e w = w := by
  unfold handshake
  dsimp only
  refine if_neg fun hc => ?_
  rcases h with h | ⟨h1, h2⟩
  · exact h hc.1
  · exact hc.2.elim h1 h2

/-- The entry has no awaited node left (R73, R74, R97). -/
def NetEntry.unawaited (x : NetEntry) : NetEntry := { x with awaited := [] }

/-- The event at which the awaited set of an entry is emptied. -/
def Work.unawait (e : Entry) (w : Work) : Work := w.modEnt e NetEntry.unawaited

theorem unawait_holding : (w.unawait e).st.holding e = w.st.holding e := by
  rw [Work.unawait, Work.modEnt_st, holding_of_core (State.setEntry_core _ _ _)]

theorem unawait_ent : (w.unawait e).ent e = (w.ent e).unawaited := State.setEntry_entry_same _ _ _

/-- The last awaited node leaves an entry that holds something (R73, R74). -/
structure Work.Handshaken (e : Entry) (s : State) (t : State) : Prop where
  entry : t.entry e = { s.entry e with awaited := [], reported := (s.entry e).reported || !(s.entry e).refused }
  others : ∀ x, x ≠ e → t.entry x = s.entry x ∧ look t.ne.status x = look s.ne.status x
  cancel : t.ne.cancel = s.ne.cancel
  status : look t.ne.status e = if (s.entry e).reported = true ∨ (s.entry e).refused = true then look s.ne.status e
    else some ⟨(s.entry e).site, (s.entry e).net, .opened, openedReason (s.entry e).reason,
      (s.entry e).resource.map NetResource.code, none⟩
  releases : ∀ q, look t.rcu.releases q = (look s.rcu.releases q || decide (look s.rcu.holdings q = some e))

theorem finish_handshake_keeps {s : State}
    (hs : (s.entry e).state = .awaitOpened ∨ (s.entry e).state = .releaseBlocked) (hh : s.holding e = true) :
    Work.Handshaken e s (finish (handshake e ((Work.start s).unawait e))) := by
  let w := (Work.start s).unawait e
  have hent : w.ent e = (s.entry e).unawaited := unawait_ent
  have hholding : w.st.holding e = true := unawait_holding.trans hh
  have hkeeps : handshake e w = closingReport e (w.upd (oweReleases e)) :=
    handshake_keeps (by rw [hent]; rfl) (by rw [hent]; exact hs) hholding
  obtain ⟨hjoining, hserve, hpass⟩ := closingReport_flags e (w.upd (oweReleases e))
  have hne : (closingReport e (w.upd (oweReleases e))).st.ne = { s.ne with
      entries := put s.ne.entries e (s.entry e).unawaited.closed
      status := put s.ne.status e ((s.entry e).unawaited.closingMark (look s.ne.status e)) } := by
    have hw : (w.upd (oweReleases e)).st.ne = { s.ne with entries := put s.ne.entries e (s.entry e).unawaited } := rfl
    have hw' : (w.upd (oweReleases e)).ent e = (s.entry e).unawaited := hent
    rw [closingReport_ne, hw', hw, put_put]
  have hentries := congrArg Ne.entries hne
  rw [hkeeps, finish_eq hpass hjoining hserve]
  refine ⟨entry_of_put hentries, fun x hx => ⟨entry_of_put_ne hentries hx, ?_⟩, by rw [hne], ?_, fun q => ?_⟩
  · rw [hne]
    exact look_put_ne _ _ (Ne.symm hx)
  · rw [hne]
    exact look_put_same _ _ _
  · have hrcu : w.st.rcu = s.rcu := rfl
    rw [closingReport_rcu, Work.upd_st, oweReleases_rcu, hrcu]
    dsimp only
    rw [look_each]

theorem finish_handshake_frees {s : State} (hn : s.noWaiter)
    (hs : (s.entry e).state = .awaitOpened ∨ (s.entry e).state = .releaseBlocked) (hh : s.holding e = false) :
    ((finish (handshake e ((Work.start s).unawait e))).entry e).state = .free ∧
      ∀ p, look (finish (handshake e ((Work.start s).unawait e))).ne.binding p ≠ some e := by
  let w := (Work.start s).unawait e
  have hent : w.ent e = (s.entry e).unawaited := unawait_ent
  have hholding : w.st.holding e = false := unawait_holding.trans hh
  have hwaiter : w.st.noWaiter := noWaiter_of_put (s := s) (x := (s.entry e).unawaited) hn rfl (hn e).1 (hn e).2
  have hclosed : ∀ v : Work, v.st.noWaiter → (closingReport e v).st.noWaiter := fun v hv =>
    noWaiter_of_put hv (congrArg Ne.entries (closingReport_ne e v)) (hv e).1 (hv e).2
  rw [handshake_frees (w := w) (by rw [hent]; rfl) (by rw [hent]; exact hs) hholding]
  obtain ⟨hj1, hs1, -⟩ := closingReport_flags e (w.upd (oweReleases e))
  obtain ⟨hj2, hs2, -⟩ := closingReport_flags e (closingReport e (w.upd (oweReleases e)))
  rw [finish_freeEntry (hclosed _ (hclosed _ (by exact hwaiter))) (hj2.trans hj1) (hs2.trans hs1)]
  exact ⟨congrArg NetEntry.state freeEntry_entry, freeEntry_unbound⟩

end

/-! ### CLEAR (R74, R97) -/

theorem clearHeard_idle {r : Resource} {w : Work}
    (h : ∀ e, look w.st.rcu.holdings r = some e → (w.ent e).state ≠ .releaseBlocked) : clearHeard r w = w := by
  unfold clearHeard
  split
  · rename_i e he
    exact if_neg (h e he)
  · rfl

theorem clearHeard_blocked {r : Resource} {w : Work} {e : Entry} (hh : look w.st.rcu.holdings r = some e)
    (hs : (w.ent e).state = .releaseBlocked) : clearHeard r w = handshake e (w.unawait e) := by
  unfold clearHeard
  rw [hh]
  exact if_pos hs

/-- Settles O29: the handshake of the RELEASE_BLOCKED holder, and no act of any other entry. -/
theorem clearReleasesBlockedEntry : Obligations.ClearReleasesBlockedEntry := by
  intro dt s u f r hfront hu
  have hheard : Heard s u := hu ▸ heard_heard s dt f (.clear r)
  have hexec : exec (.clear dt) s = .next (finish (clearHeard r (resumeHeld (Work.start u)))) := by
    rw [exec_front_as hfront (fun g hg => by rw [frameCommand, hg]; rfl), ← hu]
    rfl
  have hfollows : Follows u (finish (clearHeard r (resumeHeld (Work.start u)))) :=
    finish_follows_of ((clearHeard_core r _).trans (resumeHeld_core _))
  have hnone : s.wsu.held = [] → resumeHeld (Work.start u) = Work.start u := fun hh => resumeHeld_none (hheard.held.trans hh)
  refine ⟨_, hexec, hfollows, hfollows.view.trans (congrArg Rcu.view hheard.rcu), fun hh hidle => ?_, fun e hh hr hs => ?_⟩
  · rw [hnone hh, clearHeard_idle (fun e he => ?_), finish_start]
    rw [show (Work.start u).ent e = s.entry e from hheard.entry e]
    exact hidle e (by rw [← hheard.rcu]; exact he)
  · have hholds : look u.rcu.holdings r = some e := by rw [hheard.rcu]; exact hr
    have hstate : (u.entry e).state = .releaseBlocked := by rw [hheard.entry]; exact hs
    rw [hnone hh, clearHeard_blocked (w := Work.start u) hholds hstate]
    obtain ⟨hentry, hothers, hcancel, hstatus, hreleases⟩ := finish_handshake_keeps (.inr hstate) (held_mem hholds)
    simp only [hheard.entry, hheard.ne, hheard.rcu] at hentry hothers hcancel hstatus hreleases
    exact ⟨hentry, hothers, hcancel, hstatus, hreleases⟩

/-! ### STATUS (R73, R74) -/

/-- Settles O38: the awaited set without the sender, and the handshake where it is empty. -/
theorem statusShrinksAwaitedSet : Obligations.StatusShrinksAwaitedSet := by
  intro dt s u f i n o hfront hu hheld
  have hheard : Heard s u := hu ▸ heard_heard s dt f (.status i n o)
  have hexec : exec (.status dt) s = .next (finish (statusHeard f.src i n o (Work.start u))) := by
    rw [exec_front_none_as hfront hheld (fun g hg => by rw [frameCommand, hg]; rfl), ← hu]
    rfl
  have hanchor : u.anchorOf i n = s.anchorOf i n := anchorOf_congr (congrArg Ne.entries hheard.ne) i n
  have hent : ∀ e, (Work.start u).ent e = s.entry e := hheard.entry
  have hidle : (∀ e, s.anchorOf i n = some e → ¬ ((o = .opened ∨ o = .refused) ∧ f.src ∈ (s.entry e).awaited)) →
      statusHeard f.src i n o (Work.start u) = Work.start u := fun h => by
    unfold statusHeard
    rw [Work.start_st, hanchor]
    split
    · rfl
    · rename_i e he
      rw [hent e]
      exact if_neg (h e he)
  refine ⟨_, hexec, finish_follows_of (statusHeard_core _ _ _ _ _), fun h => ?_,
    fun e he ho => ⟨fun hm => ?_, fun left hl hm => ?_⟩⟩
  · rw [hidle fun e he hc => ?_, finish_start]
    rcases h with h | ⟨h1, h2⟩
    · rw [h] at he
      cases he
    · exact hc.1.elim h1 h2
  · rw [hidle fun x hx hc => ?_, finish_start]
    rw [he] at hx
    cases hx
    exact hm hc.2
  · have hact : statusHeard f.src i n o (Work.start u) =
        handshake e ((Work.start u).modEnt e (fun x => { x with awaited := x.awaited.filter (fun m => decide (m ≠ f.src)) })) := by
      unfold statusHeard
      rw [Work.start_st, hanchor, he]
      dsimp only
      rw [hent e]
      exact if_pos ⟨ho, hm⟩
    have hset : (Work.start u).modEnt e (fun x => { x with awaited := x.awaited.filter (fun m => decide (m ≠ f.src)) }) =
        Work.start (u.setEntry e { s.entry e with awaited := left }) := by
      rw [hl, ← hheard.entry]
      rfl
    have hunawait : left = [] → Work.start (u.setEntry e { s.entry e with awaited := left }) = (Work.start u).unawait e := fun h => by
      rw [h, ← hheard.entry]
      rfl
    have hholding : u.holding e = s.holding e := by
      rw [State.holding, State.holding, held_of_holdings (congrArg Rcu.holdings hheard.rcu), hheard.claimOnLine]
    rw [hact, hset]
    refine ⟨fun h => ?_, fun h hs hh => ?_, fun h hs hh hn => ?_⟩
    · rw [handshake_idle, finish_start]
      rw [Work.ent, Work.start_st, State.setEntry_entry_same]
      exact h
    · rw [hunawait h]
      obtain ⟨hentry, -, -, hstatus, hreleases⟩ :=
        finish_handshake_keeps (s := u) (e := e) (by rwa [hheard.entry]) (by rwa [hholding])
      simp only [hheard.entry, hheard.ne, hheard.rcu] at hentry hstatus hreleases
      exact ⟨hentry, hstatus, hreleases⟩
    · rw [hunawait h]
      exact finish_handshake_frees (noWaiter_of_entries hn (by rw [hheard.ne])) (by rwa [hheard.entry]) (by rwa [hholding])

end Sys2Proof.Machine
end

