-- ==== Sys2Proof/Proofs/OwnActs.lean ====
section
/-! The acts of one entry's course, seen from the rest of the part: the other entries, their STATUS marks and their pins stand, no
entry begins to wait, no capture is made, and the waves built are the entry's own (R62, R109, R171). -/

namespace Sys2Proof.Machine

/-! ### What the acts of an entry leave -/

/-- An entry b that entry a has become by its own course: it has not begun to wait, and it uses the trunk it used, or none. -/
structure NetEntry.GoesOn (a b : NetEntry) : Prop where
  state : b.state = a.state ∨ b.state ≠ .awaitResource ∧ b.state ≠ .awaitAnchor
  monitor : b.monitor = a.monitor ∨ b.monitor ≠ .claiming
  trunk : b.trunk = none ∨ b.trunk = a.trunk ∧ b.role = a.role

/-- Another entry meanwhile: it stands, but for a monitor whose relay settles OPEN with the wave that is cut short (R71, R121). -/
def NetEntry.Stands (a b : NetEntry) : Prop :=
  b = a ∨ (a.state = .disconnectInner ∨ a.state = .faulted) ∧ b = { a with monitor := .off }

/-- From w to v entry x alone has acted. -/
structure ActsOf (x : Entry) (w v : Work) : Prop where
  own : (w.ent x).GoesOn (v.ent x)
  others : ∀ i, i ≠ x → (w.ent i).Stands (v.ent i)
  status : ∀ i, i ≠ x → look v.st.ne.status i = look w.st.ne.status i
  binding : ∀ p i, i ≠ x → (look v.st.ne.binding p = some i ↔ look w.st.ne.binding p = some i)
  fcu : v.st.fcu = w.st.fcu
  verifications : ∀ i, look w.st.snu.verifications i = none → look v.st.snu.verifications i = none
  queue : v.st.wsu.queue = w.st.wsu.queue
  recovery : v.st.wsu.recovery = w.st.wsu.recovery
  joining : ∀ u ∈ v.joining, u ∈ w.joining ∨ u.owner = .entry x
  serve : v.serve = w.serve

theorem NetEntry.GoesOn.refl (a : NetEntry) : a.GoesOn a := ⟨.inl rfl, .inl rfl, .inr ⟨rfl, rfl⟩⟩

theorem NetEntry.GoesOn.trans {a b c : NetEntry} (h : a.GoesOn b) (k : b.GoesOn c) : a.GoesOn c where
  state := by
    rcases k.state with q | q
    · rw [q]
      exact h.state
    · exact .inr q
  monitor := by
    rcases k.monitor with q | q
    · rw [q]
      exact h.monitor
    · exact .inr q
  trunk := by
    rcases k.trunk with q | ⟨q, r⟩
    · exact .inl q
    · rw [q, r]
      exact h.trunk

theorem NetEntry.Stands.trans {a b c : NetEntry} (h : a.Stands b) (k : b.Stands c) : a.Stands c := by
  rcases h with rfl | ⟨ha, rfl⟩
  · exact k
  · rcases k with rfl | ⟨-, rfl⟩ <;> exact .inr ⟨ha, rfl⟩

theorem NetEntry.Stands.goesOn {a b : NetEntry} (h : a.Stands b) : a.GoesOn b := by
  rcases h with rfl | ⟨-, rfl⟩
  · exact .refl _
  · exact ⟨.inl rfl, .inr nofun, .inr ⟨rfl, rfl⟩⟩

theorem ActsOf.refl (x : Entry) (w : Work) : ActsOf x w w :=
  ⟨.refl _, fun _ _ => .inl rfl, fun _ _ => rfl, fun _ _ _ => Iff.rfl, rfl, fun _ h => h, rfl, rfl, fun _ h => .inl h, rfl⟩

theorem ActsOf.trans {x : Entry} {w v u : Work} (h : ActsOf x w v) (k : ActsOf x v u) : ActsOf x w u where
  own := h.own.trans k.own
  others := fun i hi => (h.others i hi).trans (k.others i hi)
  status := fun i hi => (k.status i hi).trans (h.status i hi)
  binding := fun p i hi => (k.binding p i hi).trans (h.binding p i hi)
  fcu := k.fcu.trans h.fcu
  verifications := fun i hi => k.verifications i (h.verifications i hi)
  queue := k.queue.trans h.queue
  recovery := k.recovery.trans h.recovery
  joining := fun u hu => (k.joining u hu).elim (h.joining u) .inr
  serve := k.serve.trans h.serve

theorem ActsOf.ite {x : Entry} {w v u : Work} {c : Prop} [Decidable c] (hv : ActsOf x w v) (hu : ActsOf x w u) :
    ActsOf x w (if c then v else u) := by
  split <;> assumption

section
variable {x : Entry} {w v : Work}

theorem ActsOf.goesOn (h : ActsOf x w v) (i : Entry) : (w.ent i).GoesOn (v.ent i) := by
  by_cases hi : i = x
  · rw [hi]
    exact h.own
  · exact (h.others i hi).goesOn

/-- No entry begins to wait for a resource. -/
theorem ActsOf.noWaiter (h : ActsOf x w v) (hn : w.st.noWaiter) : v.st.noWaiter := fun i => by
  obtain ⟨hstate, hmonitor, -⟩ := h.goesOn i
  obtain ⟨h1, h2⟩ := hn i
  exact ⟨hstate.elim (fun k => by rw [show (v.st.entry i).state = _ from k]; exact h1) And.left,
    hmonitor.elim (fun k => by rw [show (v.st.entry i).monitor = _ from k]; exact h2) id⟩

/-- No entry begins to wait for its anchor. -/
theorem ActsOf.noAwaitAnchor (h : ActsOf x w v) (hn : ∀ i, (w.ent i).state ≠ .awaitAnchor) (i : Entry) :
    (v.ent i).state ≠ .awaitAnchor := by
  rcases (h.goesOn i).state with k | k
  · rw [k]
    exact hn i
  · exact k.2

/-- No participant begins to use a trunk (R66). -/
theorem ActsOf.participants (h : ActsOf x w v) {r : Resource}
    (hn : ∀ i k, (w.ent i).role = .participant → (w.ent i).trunk = some k → trunkResource k ≠ r) (i : Entry) (k : Trunk)
    (hr : (v.ent i).role = .participant) (ht : (v.ent i).trunk = some k) : trunkResource k ≠ r := by
  rcases (h.goesOn i).trunk with q | ⟨q, p⟩
  · rw [q] at ht
    cases ht
  · exact hn i k (by rw [← p]; exact hr) (by rw [← q]; exact ht)

end

/-! ### One entry changed, or none -/

/-- An act that leaves the net table alone, and of the rest what is named. -/
theorem ActsOf.of_parts {x : Entry} {w v : Work} (hentries : v.st.ne.entries = w.st.ne.entries)
    (hbinding : v.st.ne.binding = w.st.ne.binding)
    (hstatus : ∀ i, i ≠ x → look v.st.ne.status i = look w.st.ne.status i) (hfcu : v.st.fcu = w.st.fcu)
    (hv : ∀ i, look w.st.snu.verifications i = none → look v.st.snu.verifications i = none)
    (hq : v.st.wsu.queue = w.st.wsu.queue) (hr : v.st.wsu.recovery = w.st.wsu.recovery)
    (hj : v.joining = w.joining) (hs : v.serve = w.serve) : ActsOf x w v := by
  have hentry : ∀ i, v.ent i = w.ent i := fun i => by rw [Work.ent, State.entry, hentries]; rfl
  exact ⟨by rw [hentry]; exact .refl _, fun i _ => .inl (hentry i), hstatus, fun p i _ => by rw [hbinding], hfcu, hv, hq, hr,
    fun u hu => .inl (hj ▸ hu), hs⟩

/-- A state changed where no entry, no mark of an entry and no wave is concerned. -/
theorem ActsOf.of_state {x : Entry} {w v : Work} (hne : v.st.ne = w.st.ne) (hfcu : v.st.fcu = w.st.fcu)
    (hsnu : v.st.snu = w.st.snu) (hwsu : v.st.wsu = w.st.wsu) (hj : v.joining = w.joining) (hs : v.serve = w.serve) :
    ActsOf x w v :=
  .of_parts (by rw [hne]) (by rw [hne]) (fun i _ => by rw [hne]) hfcu (fun i h => by rw [hsnu]; exact h) (by rw [hwsu])
    (by rw [hwsu]) hj hs

theorem ActsOf.upd {x : Entry} {w : Work} {f : State → State} (hne : (f w.st).ne = w.st.ne) (hfcu : (f w.st).fcu = w.st.fcu)
    (hsnu : (f w.st).snu = w.st.snu) (hwsu : (f w.st).wsu = w.st.wsu) : ActsOf x w (w.upd f) :=
  .of_state hne hfcu hsnu hwsu rfl rfl

theorem ActsOf.pass (x : Entry) (w : Work) (p : Bool) : ActsOf x w { w with pass := p } := .of_state rfl rfl rfl rfl rfl rfl

theorem ActsOf.modEnt {x : Entry} {w : Work} {f : NetEntry → NetEntry} (h : (w.ent x).GoesOn (f (w.ent x))) :
    ActsOf x w (w.modEnt x f) where
  own := by
    rw [show (w.modEnt x f).ent x = f (w.ent x) from State.setEntry_entry_same _ _ _]
    exact h
  others := fun i hi => .inl (State.setEntry_entry_ne _ _ (Ne.symm hi))
  status := fun _ _ => rfl
  binding := fun _ _ _ => Iff.rfl
  fcu := rfl
  verifications := fun _ h => h
  queue := rfl
  recovery := rfl
  joining := fun _ h => .inl h
  serve := rfl

/-- A change of fields that say neither that the entry waits nor which trunk it uses. -/
theorem ActsOf.modEnt_same {x : Entry} {w : Work} {f : NetEntry → NetEntry} (hs : ∀ a, (f a).state = a.state)
    (hm : ∀ a, (f a).monitor = a.monitor ∨ (f a).monitor ≠ .claiming) (hr : ∀ a, (f a).resource = none ∨
      (f a).resource = a.resource ∧ (f a).role = a.role) : ActsOf x w (w.modEnt x f) :=
  .modEnt ⟨.inl (hs _), hm _, by
    rcases hr (w.ent x) with h | ⟨h1, h2⟩
    · exact .inl (by rw [NetEntry.trunk, h]; rfl)
    · exact .inr ⟨by rw [NetEntry.trunk, NetEntry.trunk, h1], h2⟩⟩

theorem ActsOf.setState {x : Entry} {q : EntryState} (w : Work) (h1 : q ≠ .awaitResource) (h2 : q ≠ .awaitAnchor) :
    ActsOf x w (w.setState x q) :=
  (ActsOf.modEnt (f := fun a => { a with state := q }) ⟨.inr ⟨h1, h2⟩, .inl rfl, .inr ⟨rfl, rfl⟩⟩).trans (.pass x _ true)

/-! ### Marks, claims and relays -/

section
variable (x : Entry) (w : Work)

theorem owe_snu (r : Report) (s : State) : (owe x r s).snu = s.snu := by
  obtain ⟨-, -, -, -, -, -, -, -, hsnu⟩ := countReport_parts r { s with ne := { s.ne with status := put s.ne.status x (some r) } }
  rw [owe, renew_snu, hsnu]

theorem ActsOf.owe (r : Report) : ActsOf x w (w.upd (Machine.owe x r)) :=
  .of_parts (by rw [Work.upd_st, owe_ne]) (by rw [Work.upd_st, owe_ne])
    (fun i hi => by rw [Work.upd_st, owe_ne]; exact look_put_ne _ _ (Ne.symm hi)) (owe_fcu _ _ _)
    (fun i h => by rw [Work.upd_st, owe_snu]; exact h) (by rw [Work.upd_st, owe_wsu]) (by rw [Work.upd_st, owe_wsu]) rfl rfl

theorem ActsOf.oweEntry (o : StatusOutcome) (r : Reason) : ActsOf x w (w.upd (Machine.oweEntry x o r)) := .owe x w _

theorem ActsOf.oweOpened : ActsOf x w (w.upd (Machine.oweOpened x)) := .owe x w _

theorem ActsOf.oweRefused (r : Reason) : ActsOf x w (w.upd (Machine.oweRefused x r)) := by
  rcases ite_eq_or_eq ((w.st.entry x).reason = some .aborted) w.st (Machine.oweEntry x .refused r w.st) with h | h
  · rw [show w.upd (Machine.oweRefused x r) = w from congrArg (fun s => ({ w with st := s } : Work)) h]
    exact .refl x w
  · rw [show w.upd (Machine.oweRefused x r) = w.upd (Machine.oweEntry x .refused r) from
      congrArg (fun s => ({ w with st := s } : Work)) h]
    exact .oweEntry x w _ _

theorem ActsOf.oweCancel : ActsOf x w (w.upd (Machine.oweCancel x)) :=
  .of_parts (by rw [Work.upd_st, oweCancel_ne]) (by rw [Work.upd_st, oweCancel_ne])
    (fun i _ => by rw [Work.upd_st, oweCancel_ne]) (renew_fcu _ _) (fun i h => by
      rw [show (w.upd (Machine.oweCancel x)).st.snu = w.st.snu from renew_snu _ _]; exact h)
    (congrArg Wsu.queue (renew_wsu _ _)) (congrArg Wsu.recovery (renew_wsu _ _)) rfl rfl

theorem ActsOf.endClaim : ActsOf x w (w.upd (Machine.endClaim x)) := by
  obtain ⟨hne, -, -, hwsu, hfcu, -, -, hsnu, -⟩ := withdrawOwn_parts x (unclaim x w.st)
  exact .upd (hne.trans (unclaim_ne _ _)) (hfcu.trans (unclaim_fcu _ _)) (hsnu.trans (unclaim_snu _ _))
    (hwsu.trans (unclaim_wsu _ _))

theorem ActsOf.oweReleases : ActsOf x w (w.upd (Machine.oweReleases x)) :=
  .upd (oweReleases_ne w.st x) (oweReleases_fcu w.st x) (oweReleases_snu w.st x) (oweReleases_wsu w.st x)

theorem ActsOf.withdrawClaim : ActsOf x w (withdrawClaim x w) := by
  rcases withdrawClaim_cases x w with h | h <;> rw [h]
  · exact .endClaim x w
  · exact ((ActsOf.endClaim x w).trans (.modEnt_same (f := fun a => { a with resource := none }) (fun _ => rfl) (fun _ => .inl rfl)
      fun _ => .inl rfl)).trans (.pass x _ true)

theorem ActsOf.endMonitorClaim : ActsOf x w (endMonitorClaim x w) := by
  unfold Machine.endMonitorClaim
  exact .ite (((ActsOf.endClaim x w).trans (.modEnt_same (f := fun a => { a with monitor := .off, deadline := none })
    (fun _ => rfl) (fun _ => .inr nofun) fun _ => .inr ⟨rfl, rfl⟩)).trans (.pass x _ true)) (.refl x w)

theorem ActsOf.buildWave (ph : Phase) : ActsOf x w (Machine.buildWave x ph w) := by
  have heq := buildWave_eq x ph w
  have hsame : ActsOf x w { Machine.buildWave x ph w with joining := w.joining } :=
    .of_state (buildWave_ne _ _ _) (by rw [heq]) (by rw [heq]) (buildWave_wsu _ _ _) rfl (buildWave_serve _ _ _)
  refine { hsame with joining := fun u hu => ?_ }
  rw [buildWave_joining] at hu
  split at hu
  · exact .inl hu
  · rcases List.mem_append.1 hu with h | h
    · exact .inl h
    · rw [List.mem_singleton.1 h]
      exact .inr rfl

/-! ### FREE and the release handshake -/

theorem freeEntry_fcu : (freeEntry x w).st.fcu = w.st.fcu ∧ (freeEntry x w).st.snu = w.st.snu ∧
    (freeEntry x w).st.wsu = w.st.wsu := by
  obtain ⟨-, -, hwsu, hfcu, -, -, hsnu, -⟩ := abortReady_parts (w.ent x).site (w.st.freed x)
  obtain ⟨-, -, -, kwsu, kfcu⟩ := endClaim_parts x (w.st.dropOpenOwners x)
  obtain ⟨-, -, -, -, -, -, -, ksnu, -⟩ := withdrawOwn_parts x (unclaim x (w.st.dropOpenOwners x))
  rw [freeEntry_st, hfcu, hsnu, hwsu]
  exact ⟨kfcu.trans (State.dropOpenOwners_fcu _ _), (ksnu.trans (unclaim_snu _ _)).trans (State.dropOpenOwners_snu _ _),
    kwsu.trans (State.dropOpenOwners_wsu _ _)⟩

theorem ActsOf.freeEntry : ActsOf x w (freeEntry x w) := by
  have hne := freeEntry_ne x w
  obtain ⟨hfcu, hsnu, hwsu⟩ := freeEntry_fcu x w
  have hentries := congrArg Ne.entries hne
  refine ⟨?_, fun i hi => .inl (entry_of_put_ne (s := w.st) hentries hi), fun i _ => by rw [hne], fun p i hi => ?_, hfcu,
    fun i h => by rw [hsnu]; exact h, by rw [hwsu], by rw [hwsu], fun u hu => .inl hu, rfl⟩
  · rw [show (Machine.freeEntry x w).ent x = NetEntry.free from freeEntry_entry]
    exact ⟨.inr ⟨nofun, nofun⟩, .inr nofun, .inl rfl⟩
  · rw [hne]
    dsimp only
    rw [look_each]
    by_cases h : look w.st.ne.binding p = some x
    · rw [if_pos h, h]
      exact ⟨nofun, fun k => absurd (Option.some.inj k).symm hi⟩
    · rw [if_neg h]

theorem ActsOf.closingReport : ActsOf x w (closingReport x w) := by
  unfold Machine.closingReport
  exact .ite (.refl x w) ((ActsOf.oweOpened x w).trans
    (.modEnt_same (fun _ => rfl) (fun _ => .inl rfl) fun _ => .inr ⟨rfl, rfl⟩))

theorem ActsOf.tryFree : ActsOf x w (tryFree x w) := by
  unfold Machine.tryFree
  exact .ite ((ActsOf.closingReport x w).trans (.freeEntry x _)) (.refl x w)

theorem ActsOf.handshake : ActsOf x w (handshake x w) := by
  unfold Machine.handshake
  exact .ite (((ActsOf.oweReleases x w).trans (.closingReport x _)).trans (.tryFree x _)) (.refl x w)

theorem ActsOf.awaitOpened : ActsOf x w (awaitOpened x w) :=
  have hset := (ActsOf.setState (x := x) (q := .awaitOpened) w nofun nofun).trans (.modEnt_same
    (f := fun a => { a with deadline := some (laterMs w.st.now w.st.cfl.config.releaseWait), reported := false })
    (fun _ => rfl) (fun _ => .inl rfl) fun _ => .inr ⟨rfl, rfl⟩)
  hset.trans (.handshake x _)

theorem ActsOf.endCourse : ActsOf x w (endCourse x w) := by
  unfold Machine.endCourse
  dsimp only
  split
  · have hreport : ActsOf x w (w.upd (if (w.ent x).reason = some .holdTimeout then Machine.oweRefused x .holdTimeout
        else Machine.oweOpened x)) := by
      split
      · exact .oweRefused x w _
      · exact .oweOpened x w
    exact hreport.trans (.freeEntry x _)
  · exact .ite (.awaitOpened x w) ((ActsOf.ite (.refl x w) (.oweOpened x w)).trans (.freeEntry x _))

/-! ### The disconnect -/

theorem ActsOf.endFaulted (k : ReleasePending) : ActsOf x w (endFaulted x k w) := by
  unfold Machine.endFaulted
  dsimp only
  have hset : ActsOf x w (w.modEnt x (fun x =>
      { x with
        releasePending := none
        reason := if x.reason = some .aborted then x.reason else match k with
          | .plain => none
          | .cancel => some .cancelled
        reasonRelay := none })) := .modEnt_same (fun _ => rfl) (fun _ => .inl rfl) fun _ => .inr ⟨rfl, rfl⟩
  exact .ite (hset.trans (.awaitOpened x _)) (hset.trans ((ActsOf.oweOpened x _).trans (.freeEntry x _)))

theorem ActsOf.takeFaulted : ActsOf x w (takeFaulted x w) := by
  unfold Machine.takeFaulted
  dsimp only
  split
  · exact .refl x w
  · exact .ite (.endFaulted x w _) (.refl x w)

theorem ActsOf.faultedOpen : ActsOf x w (faultedOpen x w) := by
  unfold Machine.faultedOpen
  have hset : ActsOf x w (w.modEnt x (fun x => { x with monitor := .off, monitorOffPending := false, winding := false })) :=
    .modEnt_same (fun _ => rfl) (fun _ => .inr nofun) fun _ => .inr ⟨rfl, rfl⟩
  refine ActsOf.trans ?_ (.takeFaulted x _)
  split
  · exact hset
  · exact hset.trans (.owe x _ _)

theorem ActsOf.disconnectInner : ActsOf x w (disconnectInner x w) := by
  unfold Machine.disconnectInner
  exact .ite (.buildWave x w _) (.ite ((ActsOf.buildWave x w _).trans (.faultedOpen x _))
    ((ActsOf.buildWave x w _).trans (.endCourse x _)))

theorem ActsOf.dropOpenOwners : ActsOf x w (w.upd (fun s => s.dropOpenOwners x)) :=
  .upd (State.dropOpenOwners_ne w.st x) (State.dropOpenOwners_fcu w.st x) (State.dropOpenOwners_snu w.st x)
    (State.dropOpenOwners_wsu w.st x)

theorem ActsOf.outerDone : ActsOf x w (outerDone x w) := by
  unfold Machine.outerDone
  dsimp only
  split
  · exact .ite (((ActsOf.setState (q := .faulted) w nofun nofun).trans (.dropOpenOwners x _)).trans (.disconnectInner x _))
      ((ActsOf.setState (q := .disconnectInner) w nofun nofun).trans (.disconnectInner x _))
  · exact .disconnectInner x w
  · exact .refl x w

theorem ActsOf.proceedOuter : ActsOf x w (proceedOuter x w) := by
  unfold Machine.proceedOuter
  exact .ite (.refl x w) (.ite (.buildWave x w _) ((ActsOf.buildWave x w _).trans (.outerDone x _)))

theorem ActsOf.takeRelease : ActsOf x w (takeRelease x w) := by
  have hset : ActsOf x w (w.modEnt x (fun x => { x with
      releasePending := none
      reason := if x.releasePending = some .cancel ∧ x.reason = none then some .cancelled else x.reason })) :=
    .modEnt_same (fun _ => rfl) (fun _ => .inl rfl) fun _ => .inr ⟨rfl, rfl⟩
  exact ((hset.trans (.setState (q := .disconnectOuter) _ nofun nofun)).trans (.endMonitorClaim x _)).trans (.proceedOuter x _)

end

end Sys2Proof.Machine
end

