-- ==== Sys2Proof/Proofs/OthersStand.lean ====
section
/-! An entry that rests stands while others act: the cut of a wave, a discarded verification, a fault, a hold that expires, and the
service of waves that are all of other entries (R78, R110, R121, R133, R153). -/

namespace Sys2Proof.Machine

/-! ### Verifications (R147, R153) -/

theorem startSense_snu (s : State) : (startSense s).snu.verifications = s.snu.verifications ∧
    (startSense s).snu.admission = s.snu.admission ∧ (startSense s).snu.stepping = s.snu.stepping ∧
    (startSense s).snu.ended = s.snu.ended := by
  unfold startSense
  split <;> exact ⟨rfl, rfl, rfl, rfl⟩

/-- A sense started changes the SNU and the patterns of the instant alone (R148). -/
theorem startSense_eq (s : State) : startSense s = { s with
    snu := (startSense s).snu, wsu := { s.wsu with chain := (startSense s).wsu.chain } } := by
  unfold startSense
  split <;> rfl

theorem admitWaiting_eq (s : State) : admitWaiting s = { s with snu := (admitWaiting s).snu } := rfl

/-- What the SNU does of itself leaves an entry without a record without one. -/
theorem admitWaiting_verifications (s : State) (i : Entry) (h : look s.snu.verifications i = none) :
    look (admitWaiting s).snu.verifications i = none := by
  unfold admitWaiting admitJobs
  dsimp only
  rw [look_each, h]
  rfl

/-- What a discard leaves of the blocks but the SNU. -/
structure Discards (s t : State) : Prop where
  ne : t.ne = s.ne
  fcu : t.fcu = s.fcu
  queue : t.wsu.queue = s.wsu.queue
  held : t.wsu.held = s.wsu.held
  settling : t.wsu.settling = s.wsu.settling
  recovery : t.wsu.recovery = s.wsu.recovery
  rm : t.rm = s.rm
  ilu : t.ilu = s.ilu
  verifications : ∀ i, look s.snu.verifications i = none → look t.snu.verifications i = none

theorem Discards.refl (s : State) : Discards s s := ⟨rfl, rfl, rfl, rfl, rfl, rfl, rfl, rfl, fun _ h => h⟩

theorem Discards.trans {s t u : State} (h : Discards s t) (k : Discards t u) : Discards s u :=
  ⟨k.ne.trans h.ne, k.fcu.trans h.fcu, k.queue.trans h.queue, k.held.trans h.held, k.settling.trans h.settling,
    k.recovery.trans h.recovery, k.rm.trans h.rm, k.ilu.trans h.ilu, fun i hi => k.verifications i (h.verifications i hi)⟩

theorem startSense_discards (s : State) : Discards s (startSense s) := by
  have hv := (startSense_snu s).1
  have heq := startSense_eq s
  generalize startSense s = t at hv heq
  rw [heq]
  exact ⟨rfl, rfl, rfl, rfl, rfl, rfl, rfl, rfl, fun i hi => by rw [hv]; exact hi⟩

theorem admitWaiting_discards (s : State) : Discards s (admitWaiting s) :=
  ⟨rfl, rfl, rfl, rfl, rfl, rfl, rfl, rfl, fun i hi => admitWaiting_verifications s i hi⟩

theorem leaveSensing_discards (e : Entry) (s : State) : Discards s (leaveSensing e s) := by
  unfold leaveSensing
  split
  · exact ⟨rfl, rfl, rfl, rfl, rfl, rfl, rfl, rfl, fun _ h => h⟩
  · exact .refl s

theorem dropJobs_discards {e : Entry} {v : Verification} {s : State} (h : look s.snu.verifications e ≠ none) :
    Discards s (dropJobs e v s) := by
  refine ⟨rfl, rfl, rfl, rfl, rfl, rfl, rfl, rfl, fun i hi => ?_⟩
  have hie : e ≠ i := fun k => h (k ▸ hi)
  unfold dropJobs
  dsimp only
  rw [look_put_ne _ _ hie]
  exact hi

theorem discardVerification_discards (e : Entry) (s : State) : Discards s (discardVerification e s) := by
  unfold discardVerification
  split
  · exact .refl s
  · rename_i v hv
    have hleft : look (leaveSensing e s).snu.verifications e ≠ none := by
      unfold leaveSensing
      split
      · rw [hv]
        nofun
      · rw [hv]
        nofun
    split
    · exact .refl s
    · split
      · exact (((leaveSensing_discards e s).trans (dropJobs_discards hleft)).trans (admitWaiting_discards _)).trans
          (startSense_discards _)
      · exact dropJobs_discards (by rw [hv]; nofun)

/-! ### Waves cut short, faults and holds -/

section
variable (x : Entry) (w : Work)

theorem ActsOf.discardVerification : ActsOf x w (w.upd (Machine.discardVerification x)) := by
  obtain ⟨hne, hfcu, hqueue, -, -, hrecovery, -, -, hv⟩ := discardVerification_discards x w.st
  exact .of_parts (by rw [Work.upd_st, hne]) (by rw [Work.upd_st, hne]) (fun i _ => by rw [Work.upd_st, hne]) hfcu hv hqueue
    hrecovery rfl rfl

theorem ActsOf.settleRelays (rs : List Relay) : ActsOf x w (settleRelays rs w) := by
  have heq := settleRelays_eq rs w
  obtain ⟨hj, hs⟩ := settleRelays_flags rs w
  have hstands : ∀ i, (w.ent i).Stands ((Machine.settleRelays rs w).ent i) := fun i => settleRelays_entry rs w i
  exact ⟨(hstands x).goesOn, fun i _ => hstands i, fun i _ => by rw [heq], fun p i _ => by rw [heq], by rw [heq],
    fun i h => by rw [heq]; exact h, by rw [heq], by rw [heq], fun u hu => .inl (hj ▸ hu), hs⟩

/-- The wave has left the held set and its unpulsed relays their owner (R121). -/
theorem ActsOf.cutWave (v : Wave) : ActsOf x w (cutWave x v w) := by
  have hcut : ActsOf x w { w with st := (clearHold x w.st).dropListed (v.todo.map Prod.fst), pass := true } := by
    have heq := State.dropListed_eq (v.todo.map Prod.fst) (clearHold x w.st)
    generalize (clearHold x w.st).dropListed (v.todo.map Prod.fst) = s at heq
    exact .of_state (by rw [heq]; rfl) (by rw [heq]; rfl) (by rw [heq]; rfl) (by rw [heq]; rfl) rfl rfl
  unfold Machine.cutWave
  dsimp only
  split
  · exact hcut
  · exact hcut
  · exact .ite (hcut.trans (.settleRelays x _ _)) (hcut.trans (.of_parts rfl rfl (fun _ _ => rfl) rfl (fun _ h => h) rfl rfl rfl rfl))

theorem ActsOf.discardHeld : ActsOf x w (discardHeld x w) := by
  unfold Machine.discardHeld
  dsimp only
  split
  · exact .refl x w
  · refine ActsOf.trans ?_ (.cutWave x _ _)
    exact .of_parts rfl rfl (fun _ _ => rfl) rfl (fun _ h => h) rfl rfl rfl rfl

theorem ActsOf.setReleasePending (k : ReleasePending) : ActsOf x w (setReleasePending x k w) := by
  unfold Machine.setReleasePending
  dsimp only
  generalize hu : w.modEnt x _ = u
  have hset : ActsOf x w u := hu ▸ .modEnt_same (fun _ => rfl) (fun _ => .inl rfl) fun _ => .inr ⟨rfl, rfl⟩
  refine hset.trans ?_
  split
  · exact .ite (.discardHeld x _) ((ActsOf.discardHeld x _).trans (.takeRelease x _))
  · exact .ite (.discardHeld x _) ((ActsOf.discardHeld x _).trans (.takeRelease x _))
  · exact .ite (.discardVerification x _) ((ActsOf.discardVerification x _).trans (.takeRelease x _))
  · exact .ite (.refl x _) (.takeRelease x _)
  · exact .takeFaulted x _
  · exact .takeFaulted x _
  · exact .refl x _

/-- The event at which REFUSED is owed for an anchor, and CANCEL for a trunk net, before the anchor leaves its state (R75). -/
def Work.refusing (e : Entry) (r : Reason) (w : Work) : Work :=
  let v := (w.modEnt e (fun a => { a with reason := some r })).upd (oweRefused e r)
  if (v.ent e).request ≠ .localBus then v.upd (oweCancel e) else v

theorem abandon_eq (r : Reason) : abandon x r w = if ((w.refusing x r).ent x).state = .awaitResource then
    if (w.refusing x r).st.claimOnLine x then awaitOpened x ((w.refusing x r).upd (endClaim x))
    else freeEntry x (withdrawClaim x (w.refusing x r))
  else setReleasePending x .plain (w.refusing x r) := rfl

theorem ActsOf.refusing (r : Reason) : ActsOf x w (w.refusing x r) := by
  have hset : ActsOf x w (w.modEnt x (fun a => { a with reason := some r })) :=
    .modEnt_same (fun _ => rfl) (fun _ => .inl rfl) fun _ => .inr ⟨rfl, rfl⟩
  have hrefused := hset.trans (.oweRefused x _ r)
  exact .ite (hrefused.trans (.oweCancel x _)) hrefused

theorem ActsOf.abandon (r : Reason) : ActsOf x w (abandon x r w) := by
  rw [abandon_eq]
  exact (ActsOf.refusing x w r).trans (.ite
    (.ite ((ActsOf.endClaim x _).trans (.awaitOpened x _)) ((ActsOf.withdrawClaim x _).trans (.freeEntry x _)))
    (.setReleasePending x _ _))

/-- A fault, past its capture (R78). -/
theorem ActsOf.fault (r : Reason) (q : Option Relay) : ActsOf x w (fault x r q none w) := by
  unfold Machine.fault
  refine .ite ?_ (.refl x w)
  have hset : ActsOf x w ((w.setState x .disconnectOuter).modEnt x (fun a => { a with reason := some r, reasonRelay := q })) :=
    (ActsOf.setState (q := .disconnectOuter) w nofun nofun).trans
      (.modEnt_same (f := fun a => { a with reason := some r, reasonRelay := q }) (fun _ => rfl) (fun _ => .inl rfl)
        fun _ => .inr ⟨rfl, rfl⟩)
  exact (((hset.trans (.endMonitorClaim x _)).trans (.discardHeld x _)).trans (.discardVerification x _)).trans (.proceedOuter x _)

theorem ActsOf.connected : ActsOf x w (connected x w) := by
  unfold Machine.connected
  exact .ite (.setState (q := .connected) w nofun nofun)
    ((ActsOf.setState (q := .connected) w nofun nofun).trans (.oweEntry x _ _ _))

theorem ActsOf.connectOuter : ActsOf x w (connectOuter x w) := by
  unfold Machine.connectOuter
  have hbuilt := (ActsOf.setState (x := x) (q := .connectOuter) w nofun nofun).trans (.buildWave x _ .outerConnect)
  exact .ite hbuilt (hbuilt.trans (.connected x _))

/-- A connect wave that has settled with nothing pulsed (R136). -/
theorem ActsOf.waveSettled {ph : Phase} (hp : ph.connects = true) : ActsOf x w (waveSettled x ph [] w) := by
  have hclear : ActsOf x w (w.upd (clearHold x)) := .upd rfl rfl rfl rfl
  have hinner : ∀ u : Work, ActsOf x u (innerConnected x [] u) := fun u => by
    unfold innerConnected
    rw [if_neg (by simp)]
    exact .connectOuter x u
  have hgoes : ∀ u : Work, ActsOf x u (match (u.ent x).state with
      | .connectInner => if (u.ent x).releasePending.isSome then Machine.takeRelease x u else innerConnected x [] u
      | .connectOuter => if (u.ent x).releasePending.isSome then Machine.takeRelease x u else Machine.connected x u
      | .disconnectOuter => Machine.proceedOuter x u
      | _ => u) := fun u => by
    split
    · exact .ite (.takeRelease x u) (hinner u)
    · exact .ite (.takeRelease x u) (.connected x u)
    · exact .proceedOuter x u
    · exact .refl x u
  cases ph with
  | innerConnect => exact hclear.trans (hgoes _)
  | outerConnect => exact hclear.trans (hgoes _)
  | _ => cases hp

end

/-! ### An entry at rest through the end of an event -/

/-- A wave of an entry other than e. -/
def Wave.ofOther (e : Entry) (v : Wave) : Prop := ∃ x, x ≠ e ∧ v.owner = .entry x

/-- Since the state s an event w has left entry e alone, no entry waits, and what is to join or to be served is of other entries. -/
structure Apart (e : Entry) (s : State) (w : Work) : Prop where
  rests : (s.entry e).state ≠ .disconnectInner ∧ (s.entry e).state ≠ .faulted
  entry : w.ent e = s.entry e
  status : look w.st.ne.status e = look s.ne.status e
  binding : ∀ p, look w.st.ne.binding p = some e ↔ look s.ne.binding p = some e
  noWaiter : w.st.noWaiter
  joining : ∀ v ∈ w.joining, v.ofOther e
  queue : w.serve = true → ∀ v ∈ w.st.wsu.queue, v.ofOther e

section
variable {e x : Entry} {s : State} {w : Work}

theorem Apart.acts {v : Work} (h : Apart e s w) (hx : x ≠ e) (k : ActsOf x w v) : Apart e s v where
  rests := h.rests
  entry := by
    rcases k.others e (Ne.symm hx) with q | ⟨q, -⟩
    · exact q.trans h.entry
    · rw [h.entry] at q
      exact absurd q (not_or.2 h.rests)
  status := (k.status e (Ne.symm hx)).trans h.status
  binding := fun p => (k.binding p e (Ne.symm hx)).trans (h.binding p)
  noWaiter := k.noWaiter h.noWaiter
  joining := fun u hu => (k.joining u hu).elim (h.joining u) fun ho => ⟨x, hx, ho⟩
  queue := fun hs => by
    rw [k.queue]
    exact h.queue (by rw [← k.serve]; exact hs)

/-- What changes neither the net table nor the waves that are to be served leaves the entry apart. -/
theorem Apart.of_parts {v : Work} (h : Apart e s w) (hne : v.st.ne = w.st.ne) (hj : ∀ u ∈ v.joining, u.ofOther e)
    (hq : v.serve = true → ∀ u ∈ v.st.wsu.queue, u.ofOther e) : Apart e s v where
  rests := h.rests
  entry := by
    rw [Work.ent, State.entry, hne]
    exact h.entry
  status := by
    rw [hne]
    exact h.status
  binding := fun p => by
    rw [hne]
    exact h.binding p
  noWaiter := noWaiter_of_entries h.noWaiter (by rw [hne])
  joining := hj
  queue := hq

theorem Apart.ite {u v : Work} {c : Prop} [Decidable c] (hu : Apart e s u) (hv : Apart e s v) : Apart e s (if c then u else v) := by
  split <;> assumption

theorem Apart.capture (h : Apart e s w) (c : Capture) : Apart e s (w.upd (Machine.capture c)) :=
  h.of_parts (by rw [Work.upd_st, capture_eq]) h.joining (fun hs => by rw [Work.upd_st, capture_eq]; exact h.queue hs)

/-- A fault of another entry. -/
theorem Apart.fault (h : Apart e s w) (hx : x ≠ e) (r : Reason) (q : Option Relay) (c : Option Capture) :
    Apart e s (Machine.fault x r q c w) := by
  cases c with
  | none => exact h.acts hx (.fault x w r q)
  | some c =>
    by_cases htakes : (w.ent x).takesFault = true
    · have hcaptured : Machine.fault x r q (some c) w = Machine.fault x r q none (w.upd (Machine.capture c)) := by
        have hent : (w.upd (Machine.capture c)).ent x = w.ent x := by
          rw [Work.ent, Work.upd_st, capture_eq]
          rfl
        unfold Machine.fault
        rw [hent, if_pos htakes, if_pos htakes]
      rw [hcaptured]
      exact (h.capture c).acts hx (.fault x _ r q)
    · unfold Machine.fault
      rw [if_neg htakes]
      exact h

theorem Apart.holdExpired (h : Apart e s w) (hx : x ≠ e) : Apart e s (Machine.holdExpired x w) := by
  unfold Machine.holdExpired
  split
  · exact h
  · rename_i hold _
    split
    · unfold connectHoldExpired
      split
      · exact h.acts hx (.abandon x w _)
      · exact h.acts hx ((ActsOf.modEnt_same (f := fun a => { a with reason := some .holdTimeout }) (fun _ => rfl)
          (fun _ => .inl rfl) fun _ => .inr ⟨rfl, rfl⟩).trans (.setReleasePending x _ _))
    · unfold disconnectHoldExpired
      dsimp only
      split
      · exact h
      · rename_i v hv
        have howner : v.owner = .entry x := of_decide_eq_true (List.find?_some (p := fun v : Wave => decide (v.owner = .entry x)) hv)
        have hleft := h.acts (v := { w with st := { clearHold x w.st with wsu := { (clearHold x w.st).wsu with
          held := (clearHold x w.st).wsu.held.filter fun u => !decide (u.owner = .entry x) } } }) hx
          (.of_parts rfl rfl (fun _ _ => rfl) rfl (fun _ h => h) rfl rfl rfl rfl)
        have hcaptured := hleft.capture ⟨.hotBreak, some ((w.st.entry x).site, (w.st.entry x).net),
          some (NetResource.trunk hold.trunk).code, none, none⟩
        have hjoined := hcaptured.of_parts (v := { w with
          st := captureEntry .hotBreak (w.st.entry x) (some (NetResource.trunk hold.trunk).code) none { clearHold x w.st with
            wsu := { (clearHold x w.st).wsu with held := (clearHold x w.st).wsu.held.filter fun u => !decide (u.owner = .entry x) } }
          joining := w.joining ++ [{ v with forcedHot := true }] }) rfl (fun u hu => by
            rcases List.mem_append.1 hu with hu | hu
            · exact h.joining u hu
            · rw [List.mem_singleton.1 hu]
              exact ⟨x, hx, howner⟩) hcaptured.queue
        refine hjoined.acts hx (.modEnt ⟨.inl ?_, .inl ?_, .inr ⟨?_, ?_⟩⟩) <;> split <;> rfl

/-- The head wave of another entry meets a live trunk (R118, R136). -/
theorem Apart.waveMetLive (h : Apart e s w) (hx : x ≠ e) (v : Wave) (t : Trunk) : Apart e s (Machine.waveMetLive x v t w) := by
  unfold Machine.waveMetLive
  split
  · rename_i hdiscards
    have hp : v.phase.connects = true := by
      unfold discardsAtQuery at hdiscards
      exact (Bool.and_eq_true_iff.1 hdiscards).1
    dsimp only
    split
    · exact h.acts hx (.cutWave x w v)
    · exact h.acts hx ((ActsOf.cutWave x w v).trans (.waveSettled x _ hp))
  · have hset : ∀ hold : Hold, Apart e s { w with st := { w.st with
        ilu := { w.st.ilu with holds := put w.st.ilu.holds x (some hold) }
        wsu := { w.st.wsu with held := w.st.wsu.held ++ [v] } } } := fun _ => h.of_parts rfl h.joining h.queue
    exact Apart.ite ((hset _).holdExpired hx) (hset _)

theorem Apart.choicePass (h : Apart e s w) : Apart e s (Machine.choicePass w) := by
  rw [choicePass_noWaiter h.noWaiter]
  exact h.of_parts rfl h.joining h.queue

theorem mem_insertWave {u v : Wave} {l : List Wave} : u ∈ insertWave v l ↔ u = v ∨ u ∈ l := by
  induction l with
  | nil => simp [insertWave]
  | cons a l ih =>
    unfold insertWave
    split
    · simp
    · simp [ih, or_left_comm]

theorem mem_sortWaves {u : Wave} {l : List Wave} : u ∈ sortWaves l ↔ u ∈ l := by
  have hfold : ∀ acc : List Wave, u ∈ l.foldl (fun acc v => insertWave v acc) acc ↔ u ∈ acc ∨ u ∈ l := by
    induction l with
    | nil => simp
    | cons a l ih =>
      intro acc
      rw [List.foldl_cons, ih, mem_insertWave, List.mem_cons]
      tauto
  exact (hfold []).trans (by simp)

theorem Apart.flush (h : Apart e s w) : Apart e s (Machine.flush w) := by
  unfold Machine.flush
  split
  · exact h
  · refine h.of_parts rfl (fun u hu => by cases hu) fun hs u hu => ?_
    dsimp only at hs hu
    rcases List.mem_append.1 hu with hu | hu
    · rcases Bool.or_eq_true_iff.1 hs with hs | hs
      · exact h.queue hs u hu
      · rw [List.isEmpty_iff.1 hs] at hu
        cases hu
    · exact h.joining u (mem_sortWaves.1 hu)

theorem pulses_ne (v : Wave) (l : List (Relay × Bool)) (s : State) : (pulses v l s).ne = s.ne := by
  unfold pulses
  induction l generalizing s with
  | nil => rfl
  | cons p l ih => rw [List.foldl_cons, ih, pulse_ne]

/-- A wave that has pulsed all its relays settles, and nothing is reported of it meanwhile (R109). -/
theorem serveHead_settles {v v' : Wave} {rest : List Wave} {s' : State} {x : Entry} (hq : w.st.wsu.queue = v :: rest)
    (ho : v.owner = .entry x) (hr : pulseRun v.todo v w.st = (s', v', .finished)) : Machine.serveHead w = { w with
      st := { s' with wsu := { s'.wsu with queue := rest, creditStop := none, settling := s'.wsu.settling ++ [v'] } } } := by
  obtain ⟨k, hk⟩ := pulseRun_runsTo v.todo v w.st ho
  have hrec := pulseRun_recovery hk
  have howner := hk.owner
  rw [hr] at hrec howner
  dsimp only at hrec
  unfold Machine.serveHead
  simp only [hq, hr, hrec, partsGone_self]
  unfold waveFinished
  rw [howner.trans ho]
  rfl

theorem Apart.serveHead (h : Apart e s w) (hs : w.serve = true) : Apart e s (Machine.serveHead w) := by
  cases hq : w.st.wsu.queue with
  | nil =>
    have hserved : Machine.serveHead w = { w with serve := false } := by
      unfold Machine.serveHead
      rw [hq]
    rw [hserved]
    exact h.of_parts rfl h.joining nofun
  | cons v rest =>
    have hrest : ∀ u ∈ rest, u.ofOther e := fun u hu => h.queue hs u (by rw [hq]; exact List.mem_cons_of_mem _ hu)
    obtain ⟨x, hx, ho⟩ := h.queue hs v (by rw [hq]; exact List.mem_cons_self)
    obtain ⟨k, hk⟩ := pulseRun_runsTo v.todo v w.st ho
    have hne := (congrArg State.ne hk.state).trans (pulses_ne _ _ _)
    have howner := hk.owner
    rcases hr : pulseRun v.todo v w.st with ⟨s', v', why⟩
    rw [hr] at hne howner
    cases why with
    | credit =>
      rw [serveHead_credit hq ho hr]
      exact h.of_parts hne h.joining nofun
    | finished =>
      rw [serveHead_settles hq ho hr]
      refine h.of_parts hne h.joining fun _ u hu => hrest u hu
    | live =>
      obtain ⟨t, -, hlive⟩ := serveHead_live hq ho hr
      rw [hlive]
      exact Apart.waveMetLive (h.of_parts (v := { w with st := { w.st with
        wsu := { w.st.wsu with queue := rest, creditStop := none } } }) rfl h.joining fun _ => hrest) hx v t

theorem Apart.settleDown (n : Nat) (h : Apart e s w) : Apart e s (Machine.settleDown n w) := by
  induction n generalizing w with
  | zero => exact h
  | succ n ih =>
    unfold Machine.settleDown
    split
    · exact ih h.choicePass
    · split
      · rename_i hserve
        exact ih (h.serveHead (Bool.and_eq_true_iff.1 hserve).1)
      · split
        · exact ih h.flush
        · exact h

/-- The entry stands at the end of the event. -/
theorem Apart.finish (h : Apart e s w) : (Machine.finish w).entry e = s.entry e ∧
    look (Machine.finish w).ne.status e = look s.ne.status e ∧
    ∀ p, look (Machine.finish w).ne.binding p = some e ↔ look s.ne.binding p = some e :=
  ⟨(h.settleDown rounds).entry, (h.settleDown rounds).status, (h.settleDown rounds).binding⟩

end

end Sys2Proof.Machine
end

