-- ==== Sys2Proof/Proofs/Deadlines.lean ====
section
/-! The deadlines of a net entry (R65, R66, R74, R81, R83): what each does to its entry, its STATUS and its claim. -/

namespace Sys2Proof.Machine

/-! ### A deadline reached -/

/-- An event whose condition holds is what it does and all that follows. -/
theorem event_due {dt : Nat} {due : State → Bool} {s s1 : State} (hs1 : s1 = advance dt s) (h : due s1 = true) (f : Work → Work) :
    event dt due f s = .next (finish (f (Work.start s1))) := by
  unfold event
  dsimp only
  rw [← hs1, if_pos h]

/-- What the passing of time leaves of a state for the entries. -/
structure Passed (s s1 : State) : Prop where
  ne : s1.ne = s.ne
  rcu : s1.rcu = s.rcu
  rm : s1.rm = s.rm
  snu : s1.snu = s.snu
  ilu : s1.ilu = s.ilu
  cfl : s1.cfl = s.cfl
  liu : s1.liu = s.liu
  queue : s1.wsu.queue = s.wsu.queue
  held : s1.wsu.held = s.wsu.held
  settling : s1.wsu.settling = s.wsu.settling
  recovery : s1.wsu.recovery = s.wsu.recovery
  record : s1.fcu.record = s.fcu.record

theorem advance_passed (dt : Nat) (s : State) : Passed s (advance dt s) where
  ne := advance_ne dt s
  rcu := advance_rcu dt s
  rm := advance_rm dt s
  snu := advance_snu dt s
  ilu := advance_ilu dt s
  cfl := advance_cfl dt s
  liu := advance_liu dt s
  queue := advance_queue dt s
  held := advance_held dt s
  settling := advance_settling dt s
  recovery := advance_recovery dt s
  record := advance_record dt s

section
variable {s s1 : State}

theorem Passed.entry (h : Passed s s1) (e : Entry) : s1.entry e = s.entry e := by rw [State.entry, h.ne]; rfl
theorem Passed.relay (h : Passed s s1) (r : Relay) : s1.relay r = s.relay r := by rw [State.relay, h.rm]; rfl
theorem Passed.running (h : Passed s s1) : s1.running = s.running := by rw [State.running, h.cfl]; rfl
theorem Passed.noWaiter (h : Passed s s1) (hn : s.noWaiter) : s1.noWaiter := noWaiter_of_entries hn (by rw [h.ne])
theorem Passed.noOtherWaiter (h : Passed s s1) {e : Entry} (hn : s.noOtherWaiter e) : s1.noOtherWaiter e := fun x hx => by
  rw [h.entry]
  exact hn x hx
theorem Passed.claimOnLine (h : Passed s s1) (e : Entry) : s1.claimOnLine e = s.claimOnLine e := by
  rw [State.claimOnLine, h.liu]
  rfl

theorem Passed.deadlineDue (h : Passed s s1) {q : EntryState} {e : Entry} {d : Time} (hrun : s.running = true)
    (hs : (s.entry e).state = q) (hd : (s.entry e).deadline = some d) (hr : reached s1.now d = true) :
    s1.deadlineDue q e = true := by
  simp [State.deadlineDue, h.running, h.entry, hrun, hs, hd, hr]

end

theorem oweEntry_ne (e : Entry) (o : StatusOutcome) (r : Reason) (s : State) : (oweEntry e o r s).ne = { s.ne with
    status := put s.ne.status e
      (some ⟨(s.entry e).site, (s.entry e).net, o, r, (s.entry e).resource.map NetResource.code, none⟩) } :=
  owe_ne _ _ _

theorem entries_of_binding_free {e : Entry} {w : Work} {p : Pin} {x : Entry} (hx : x ≠ e) (h : look w.st.ne.binding p = some x) :
    look (freeEntry e w).st.ne.binding p = some x := by
  rw [freeEntry_ne]
  dsimp only
  rw [look_each, h, if_neg (fun k => hx (Option.some.inj k))]

/-! ### AWAIT_ANCHOR (R66) -/

/-- Settles O47: REFUSED ANCHOR_SILENT, and FREE. -/
theorem anchorDeadlineRefusesParticipant : Obligations.AnchorDeadlineRefusesParticipant := by
  intro dt s s1 e d hs1 hrun hstate hdeadline hreached hn
  have hpassed : Passed s s1 := hs1 ▸ advance_passed dt s
  let w := (Work.start s1).upd (oweEntry e .refused .anchorSilent)
  have hexec : exec (.awaitAnchorDeadline dt e) s = .next (finish (freeEntry e w)) :=
    event_due (due := fun s => s.deadlineDue .awaitAnchor e) hs1 (hpassed.deadlineDue hrun hstate hdeadline hreached)
      (anchorWaitOver e)
  have hne : w.st.ne = { s.ne with status := put s.ne.status e (some ⟨(s.entry e).site, (s.entry e).net, .refused, .anchorSilent,
      (s.entry e).resource.map NetResource.code, none⟩) } := by
    rw [Work.upd_st, oweEntry_ne, Work.start_st, hpassed.entry, hpassed.ne]
  have hfree : finish (freeEntry e w) = (freeEntry e w).st :=
    finish_freeEntry (noWaiter_of_entries hn (by rw [hne])) rfl rfl
  have hentries : (freeEntry e w).st.ne.entries = put s.ne.entries e NetEntry.free := by rw [freeEntry_ne, hne]
  refine ⟨_, hexec, finish_follows_of ((freeEntry_core e w).trans (oweEntry_core _ _ _ _)), ?_⟩
  rw [hfree]
  refine ⟨?_, congrArg NetEntry.state freeEntry_entry, freeEntry_unbound, fun p x hx hp => entries_of_binding_free hx ?_,
    fun x hx => ⟨entry_of_put_ne hentries hx, ?_⟩⟩
  · rw [freeEntry_status, hne]
    exact look_put_same _ _ _
  · rw [hne]
    exact hp
  · rw [freeEntry_status, hne]
    exact look_put_ne _ _ (Ne.symm hx)

/-! ### The claim of a monitor (R81) -/

theorem endMonitorClaim_claiming {e : Entry} {w : Work} (h : (w.ent e).monitor = .claiming) : endMonitorClaim e w =
    { (w.upd (endClaim e)).modEnt e (fun x => { x with monitor := .off, deadline := none }) with pass := true } := if_pos h

/-- Settles O49: OFF and REFUSED MON_BUSY, or the wait for the outcome of the frame on the line. -/
theorem monitorWaitExpiryRefuses : Obligations.MonitorWaitExpiryRefuses := by
  intro dt s s1 e d hs1 hrun hstate hmonitor hdeadline hreached
  have hpassed : Passed s s1 := hs1 ▸ advance_passed dt s
  have hdue : s1.monitorWaitDue e = true := by
    rw [State.monitorWaitDue, hpassed.deadlineDue hrun hstate hdeadline hreached, hpassed.entry, hmonitor]
    rfl
  have hexec : exec (.monitorClaimWaitExpiry dt e) s = .next (finish (monitorWaitOver e (Work.start s1))) :=
    event_due (due := fun s => s.monitorWaitDue e) hs1 hdue (monitorWaitOver e)
  have hcore : (monitorWaitOver e (Work.start s1)).st.core = s1.core := by
    unfold monitorWaitOver
    apply ite_core <;> simp
  refine ⟨_, hexec, finish_follows_of hcore, fun hline => ?_, fun hline hother hreason => ?_⟩
  · have hwait : monitorWaitOver e (Work.start s1) = Work.start (s1.setEntry e { s.entry e with deadline := none }) := by
      rw [monitorWaitOver, if_pos (by rw [Work.start_st, hpassed.claimOnLine, hline]), ← hpassed.entry]
      rfl
    rw [hwait, finish_start]
  · have hclaiming : ((Work.start s1).ent e).monitor = .claiming := by rw [Work.ent, Work.start_st, hpassed.entry, hmonitor]
    let v := endMonitorClaim e (Work.start s1)
    have hv : v = { ((Work.start s1).upd (endClaim e)).modEnt e (fun x => { x with monitor := .off, deadline := none }) with
        pass := true } := endMonitorClaim_claiming hclaiming
    obtain ⟨hendNe, hendRcu, -⟩ := endClaim_parts e s1
    have hended : (endClaim e s1).entry e = s.entry e := by rw [State.entry, hendNe, hpassed.ne]; rfl
    have hne : v.st.ne = { s.ne with entries := put s.ne.entries e { s.entry e with monitor := .off, deadline := none } } := by
      rw [hv]
      show ({ (endClaim e s1).ne with entries := put (endClaim e s1).ne.entries e _ } : Ne) = _
      rw [Work.upd_st, Work.start_st, hended, hendNe, hpassed.ne]
    have hrcu : look v.st.rcu.claims e = none := by
      rw [hv]
      show look (endClaim e s1).rcu.claims e = none
      rw [hendRcu]
      exact look_put_same _ _ _
    have hentry : v.st.entry e = { s.entry e with monitor := .off, deadline := none } :=
      entry_of_put (s := s) (congrArg Ne.entries hne)
    have hover : monitorWaitOver e (Work.start s1) = v.upd (oweEntry e .refused .monBusy) := by
      rw [monitorWaitOver, if_neg (by rw [Work.start_st, hpassed.claimOnLine, hline]; decide)]
      show v.upd (oweRefused e .monBusy) = _
      rw [Work.upd, oweRefused, if_neg (by rw [hentry]; exact hreason)]
      rfl
    have hentries : (oweEntry e .refused .monBusy v.st).ne.entries =
        put s.ne.entries e { s.entry e with monitor := .off, deadline := none } := by
      rw [oweEntry_ne, hne]
    have hwaiter : (oweEntry e .refused .monBusy v.st).noWaiter :=
      noWaiter_of_put_other hother hentries (by rw [hstate]; decide) (fun h => by cases h)
    have hflags : v.joining = [] ∧ v.serve = false := by
      rw [hv]
      exact ⟨rfl, rfl⟩
    rw [hover, finish_noWaiter (w := v.upd (oweEntry e .refused .monBusy)) hwaiter hflags.1 hflags.2]
    refine ⟨entry_of_put hentries, ?_, fun x hx => entry_of_put_ne hentries hx, ?_⟩
    · rw [Work.upd_st, oweEntry, owe_rcu]
      exact hrcu
    · rw [Work.upd_st, oweEntry_ne, hentry]
      exact look_put_same _ _ _

/-! ### AWAIT_OPENED (R74) -/

/-- The entry whose release wait has run out (R74). -/
def NetEntry.blocked (x : NetEntry) : NetEntry := { x with state := .releaseBlocked, deadline := none }

section
variable {e : Entry} {w : Work}

/-- The event of a release wait that is over, before it is captured and READY 255 is looked at (R74). -/
def Work.blocked (e : Entry) (w : Work) : Work :=
  (closingReport e ((w.setState e .releaseBlocked).modEnt e (fun x => { x with deadline := none }))).modEnt e
    (fun x => { x with reported := true })

theorem blocked_ne : (w.blocked e).st.ne = { w.st.ne with
    entries := put w.st.ne.entries e { (w.ent e).blocked with reported := true }
    status := put w.st.ne.status e ((w.ent e).closingMark (look w.st.ne.status e)) } := by
  have hset : (w.setState e .releaseBlocked).modEnt e (fun x => { x with deadline := none }) =
      { w with st := w.st.setEntry e (w.ent e).blocked, pass := true } := by
    simp only [Work.setState, Work.modEnt, State.setEntry_entry_same, setEntry_setEntry]
    rfl
  have hent : ({ w with st := w.st.setEntry e (w.ent e).blocked, pass := true } : Work).ent e = (w.ent e).blocked :=
    State.setEntry_entry_same _ _ _
  have hclosed := closingReport_ne e { w with st := w.st.setEntry e (w.ent e).blocked, pass := true }
  rw [hent] at hclosed
  have hentry : (closingReport e { w with st := w.st.setEntry e (w.ent e).blocked, pass := true }).st.entry e =
      (w.ent e).blocked.closed := entry_of_put (s := w.st.setEntry e (w.ent e).blocked) (congrArg Ne.entries hclosed)
  unfold Work.blocked
  rw [hset, Work.modEnt_st, hentry]
  show ({ (closingReport e _).st.ne with entries := put (closingReport e _).st.ne.entries e _ } : Ne) = _
  rw [hclosed]
  dsimp only
  rw [put_put]
  show ({ w.st.ne with entries := put (put w.st.ne.entries e _) e _, status := _ } : Ne) = _
  rw [put_put]
  rfl

end

theorem blocked_acts (e : Entry) (w : Work) : ActsOf e w (w.blocked e) :=
  (((ActsOf.setState (q := .releaseBlocked) w nofun nofun).trans (.modEnt_same (f := fun x => { x with deadline := none })
    (fun _ => rfl) (fun _ => .inl rfl) fun _ => .inr ⟨rfl, rfl⟩)).trans (.closingReport e _)).trans
    (.modEnt_same (f := fun x => { x with reported := true }) (fun _ => rfl) (fun _ => .inl rfl) fun _ => .inr ⟨rfl, rfl⟩)

theorem releaseWaitOver_eq (e : Entry) (w : Work) : releaseWaitOver e w =
    ((if ((w.blocked e).ent e).awaited = [] then w.blocked e
      else (w.blocked e).upd (captureEntry .releaseBlocked ((w.blocked e).ent e)
        (((w.blocked e).ent e).resource.map NetResource.code) none)).upd (abortReady ((w.blocked e).ent e).site)) := rfl

/-- A capture changes the FCU alone. -/
theorem captureEntry_ne (c : Cause) (x : NetEntry) (res : Option ResCode) (relay : Option Relay) (s : State) :
    (captureEntry c x res relay s).ne = s.ne := by
  rw [captureEntry, capture_eq]

/-- Settles O48: RELEASE_BLOCKED, the closing report, and the capture where nodes are awaited. -/
theorem openedDeadlineBlocksRelease : Obligations.OpenedDeadlineBlocksRelease := by
  intro dt s s1 e d hs1 hrun hstate hdeadline hreached hn
  have hpassed : Passed s s1 := hs1 ▸ advance_passed dt s
  have hexec : exec (.awaitOpenedDeadline dt e) s = .next (finish (releaseWaitOver e (Work.start s1))) :=
    event_due (due := fun s => s.deadlineDue .awaitOpened e) hs1 (hpassed.deadlineDue hrun hstate hdeadline hreached)
      (releaseWaitOver e)
  let v := (Work.start s1).blocked e
  have hcore : v.st.core = s1.core := by simp [v, Work.blocked]
  have hent : (Work.start s1).ent e = s.entry e := hpassed.entry e
  have hne : v.st.ne = { s.ne with
      entries := put s.ne.entries e { (s.entry e).blocked with reported := true }
      status := put s.ne.status e ((s.entry e).closingMark (look s.ne.status e)) } := by
    rw [blocked_ne, hent, Work.start_st, hpassed.ne]
  have hentry : v.ent e = { (s.entry e).blocked with reported := true } := entry_of_put (s := s) (congrArg Ne.entries hne)
  have hfcu : v.st.fcu = s1.fcu := (blocked_acts e (Work.start s1)).fcu
  obtain ⟨hjoining, hserve⟩ : v.joining = [] ∧ v.serve = false := by
    obtain ⟨h1, h2, -⟩ := closingReport_flags e
      (((Work.start s1).setState e .releaseBlocked).modEnt e (fun x => { x with deadline := none }))
    exact ⟨h1, h2⟩
  have hrunning : v.st.running = true := by
    rw [show v.st.running = s1.running from (Follows.of_core hcore).field (fun s => s.running) fun _ => rfl, hpassed.running, hrun]
  have hawaited : (v.ent e).awaited = (s.entry e).awaited := by rw [hentry]; rfl
  let u := if (v.ent e).awaited = [] then v else
    v.upd (captureEntry .releaseBlocked (v.ent e) ((v.ent e).resource.map NetResource.code) none)
  have hu : u.st.ne = v.st.ne ∧ u.joining = [] ∧ u.serve = false ∧ u.st.rcu = v.st.rcu := by
    unfold u
    split
    · exact ⟨rfl, hjoining, hserve, rfl⟩
    · exact ⟨captureEntry_ne _ _ _ _ _, hjoining, hserve, captureEntry_rcu _ _ _ _ _⟩
  have hucore : u.st.core = s1.core := by
    unfold u
    split
    · exact hcore
    · exact (captureEntry_core _ _ _ _ _).trans hcore
  obtain ⟨huNe, huJoining, huServe, huRcu⟩ := hu
  obtain ⟨habortNe, habortRcu, -, habortFcu, -⟩ := abortReady_parts (v.ent e).site u.st
  have hover : releaseWaitOver e (Work.start s1) = u.upd (abortReady (v.ent e).site) := releaseWaitOver_eq e _
  have hfinal : (u.upd (abortReady (v.ent e).site)).st.ne = v.st.ne := habortNe.trans huNe
  have hentries := congrArg Ne.entries (hfinal.trans hne)
  have hwaiter : (u.upd (abortReady (v.ent e).site)).st.noWaiter :=
    noWaiter_of_put hn hentries (by nofun) (hn e).2
  refine ⟨_, hexec, finish_follows_of ?_, ?_⟩
  · rw [hover]
    exact (abortReady_core _ _).trans hucore
  rw [hover, finish_noWaiter hwaiter huJoining huServe]
  have hstatus : look (u.upd (abortReady (v.ent e).site)).st.ne.status e =
      (s.entry e).closingMark (look s.ne.status e) := by
    rw [hfinal, hne]
    exact look_put_same _ _ _
  refine ⟨?_, entry_of_put hentries, fun x hx => entry_of_put_ne hentries hx, fun h1 h2 => ?_, fun h => ?_, fun h => ?_,
    fun h hr => ?_⟩
  · rw [Work.upd_st, habortRcu, huRcu, (Follows.of_core hcore).holdings, hpassed.rcu]
  · rw [hstatus, NetEntry.closingMark, if_neg (by simp [h1, h2])]
    rfl
  · rw [hstatus, NetEntry.closingMark, if_pos h]
  · rw [Work.upd_st, habortFcu, show u = v from if_pos (hawaited.trans h), hfcu, hpassed.record]
  · have hcaptures : u = v.upd (captureEntry .releaseBlocked (v.ent e) ((v.ent e).resource.map NetResource.code) none) :=
      if_neg (by rw [hawaited]; exact h)
    rw [Work.upd_st, habortFcu, hcaptures, Work.upd_st, captureEntry, capture_severe hrunning rfl, hfcu, hpassed.record, hr, hentry]
    rfl

/-! ### AWAIT_RESOURCE (R65, R75) -/

section
variable {e : Entry} {r : Reason} {w : Work}

theorem refusing_ne (hr : r ≠ .aborted) : (w.refusing e r).st.ne = { w.st.ne with
    entries := put w.st.ne.entries e { w.ent e with reason := some r }
    status := put w.st.ne.status e
      (some ⟨(w.ent e).site, (w.ent e).net, .refused, r, (w.ent e).resource.map NetResource.code, none⟩)
    cancel := if (w.ent e).request = .localBus then w.st.ne.cancel
      else put w.st.ne.cancel e (some ((w.ent e).site, (w.ent e).net)) } := by
  have hne := oweRefused_ne (w := w) (e := e) hr
  have hentry := oweRefused_entry (w := w) (e := e) hr
  unfold Work.refusing
  dsimp only
  rw [show ((w.modEnt e (fun a => { a with reason := some r })).upd (oweRefused e r)).ent e = { w.ent e with reason := some r }
    from hentry]
  by_cases hl : (w.ent e).request = .localBus
  · rw [if_neg (by simpa using hl), if_pos hl]
    exact hne
  · rw [if_pos (by simpa using hl), if_neg hl, Work.upd_st, oweCancel_ne, Work.upd_st, hentry, hne]

theorem refusing_core : (w.refusing e r).st.core = w.st.core := by
  unfold Work.refusing
  apply ite_core <;> simp

theorem refusing_ent (hr : r ≠ .aborted) : (w.refusing e r).ent e = { w.ent e with reason := some r } :=
  entry_of_put (s := w.st) (congrArg Ne.entries (refusing_ne hr))

theorem refusing_flags : (w.refusing e r).joining = w.joining ∧ (w.refusing e r).serve = w.serve := by
  unfold Work.refusing
  dsimp only
  split <;> exact ⟨rfl, rfl⟩

/-- The end of a refused anchor's claim while its CLAIM is on the line, with no other card to await: it owes what it holds, and
makes no closing report, for its REFUSED is that (R73, R75). -/
theorem awaitOpened_refused {v : Work} (ha : (v.ent e).awaited = []) (hr : (v.ent e).refused = true)
    (hh : v.st.holding e = true) : awaitOpened e v = { v with
      st := oweReleases e (v.st.setEntry e { v.ent e with
        state := .awaitOpened, deadline := some (laterMs v.st.now v.st.cfl.config.releaseWait), reported := false })
      pass := true } := by
  have hset : ((v.setState e .awaitOpened).modEnt e (fun x => { x with
      deadline := some (laterMs v.st.now v.st.cfl.config.releaseWait), reported := false })) =
      { v with st := v.st.setEntry e { v.ent e with
        state := .awaitOpened, deadline := some (laterMs v.st.now v.st.cfl.config.releaseWait), reported := false }, pass := true } := by
    simp only [Work.setState, Work.modEnt, State.setEntry_entry_same, setEntry_setEntry]
    rfl
  unfold awaitOpened
  dsimp only
  rw [hset]
  generalize hu : ({ v with st := _, pass := true } : Work) = u
  have hent : u.ent e = { v.ent e with
      state := .awaitOpened, deadline := some (laterMs v.st.now v.st.cfl.config.releaseWait), reported := false } := by
    rw [← hu]
    exact State.setEntry_entry_same _ _ _
  have hholding : u.st.holding e = true := by
    rw [← hu, holding_of_core (State.setEntry_core _ _ _), hh]
  have hrefused : ((u.upd (oweReleases e)).ent e).refused = true := by
    rw [show (u.upd (oweReleases e)).ent e = u.ent e from rfl, hent]
    exact hr
  rw [handshake_keeps (by rw [hent]; exact ha) (.inl (by rw [hent])) hholding, closingReport,
    if_pos (by rw [hrefused, Bool.or_true]), ← hu]
  rfl

/-- The end of a refused anchor's claim: withdrawn, with its marks as they were owed, and the other entries as they stood. -/
structure Unclaimed (e : Entry) (w : Work) (t : State) : Prop where
  claim : look t.rcu.claims e = none
  status : t.ne.status = w.st.ne.status
  cancel : t.ne.cancel = w.st.ne.cancel
  others : ∀ x, x ≠ e → t.entry x = w.ent x

/-- With no CLAIM on the line the refused anchor is FREE (R65). -/
theorem finish_withdrawClaim (hn : w.st.noOtherWaiter e) (hj : w.joining = []) (hs : w.serve = false) {t : State}
    (ht : t = finish (freeEntry e (withdrawClaim e w))) :
    Unclaimed e w t ∧ (t.entry e).state = .free ∧ ∀ p, look t.ne.binding p ≠ some e := by
  obtain ⟨-, hothers, -, hcancel, hjoining, hserve⟩ := withdrawClaim_leaves e w
  have hstatus : (withdrawClaim e w).st.ne.status = w.st.ne.status := by
    have hended : (endClaim e w.st).ne.status = w.st.ne.status := congrArg Ne.status (endClaim_parts e w.st).1
    rcases withdrawClaim_cases e w with h | h
    · rw [h]
      exact hended
    · rw [h]
      exact hended
  have hfreed : ∀ x, x ≠ e → (freeEntry e (withdrawClaim e w)).st.entry x = w.ent x := fun x hx =>
    (entry_of_put_ne (s := (withdrawClaim e w).st) (congrArg Ne.entries (freeEntry_ne e _)) hx).trans (hothers x hx)
  have hwaiter : (freeEntry e (withdrawClaim e w)).st.noWaiter := fun x => by
    by_cases hx : x = e
    · rw [hx, freeEntry_entry]
      exact ⟨nofun, nofun⟩
    · rw [hfreed x hx]
      exact hn x hx
  rw [finish_noWaiter hwaiter (hjoining.trans hj) (hserve.trans hs)] at ht
  subst ht
  refine ⟨⟨?_, freeEntry_status.trans hstatus, ?_, hfreed⟩, congrArg NetEntry.state freeEntry_entry, freeEntry_unbound⟩
  · rw [freeEntry_rcu]
    exact look_put_same _ _ _
  · rw [freeEntry_ne]
    exact hcancel

/-- With its CLAIM on the line the refused anchor waits in AWAIT_OPENED (R75). -/
theorem finish_claimOnLine (hn : w.st.noOtherWaiter e) (hj : w.joining = []) (hs : w.serve = false)
    (hm : (w.ent e).monitor ≠ .claiming) (hr : (w.ent e).refused = true) (hl : w.st.claimOnLine e = true) {t : State}
    (ht : t = finish (awaitOpened e (w.upd (endClaim e)))) : Unclaimed e w t ∧ (t.entry e).state = .awaitOpened ∧
      (t.entry e).deadline = some (laterMs w.st.now w.st.cfl.config.releaseWait) := by
  let u := w.upd (endClaim e)
  have hcore : u.st.core = w.st.core := endClaim_core e w.st
  obtain ⟨hne, hrcu, hcfl, -, -⟩ := endClaim_parts e w.st
  have huent : u.ent e = w.ent e := by
    rw [Work.ent, State.entry, Work.upd_st, hne]
    rfl
  have hnow : u.st.now = w.st.now := (Follows.of_core hcore).field (fun s => s.now) fun _ => rfl
  have hholding : u.st.holding e = true := by
    rw [State.holding, claimOnLine_of_core hcore, hl, Bool.or_true]
  have hawaits : ∃ a : NetEntry, (awaitOpened e u).st.ne = { u.st.ne with entries := put u.st.ne.entries e a } ∧
      a.state = .awaitOpened ∧ a.deadline = some (laterMs u.st.now u.st.cfl.config.releaseWait) ∧
      a.monitor = (w.ent e).monitor ∧
      (awaitOpened e u).st.rcu.claims = u.st.rcu.claims ∧ (awaitOpened e u).joining = u.joining ∧
      (awaitOpened e u).serve = u.serve := by
    by_cases ha : (u.ent e).awaited = []
    · rw [awaitOpened_refused ha (by rw [huent]; exact hr) hholding]
      refine ⟨_, oweReleases_ne _ _, rfl, rfl, by rw [← huent], ?_, rfl, rfl⟩
      dsimp only
      rw [oweReleases_rcu]
      rfl
    · rw [awaitOpened_waits ha]
      exact ⟨_, rfl, rfl, rfl, by rw [← huent], rfl, rfl, rfl⟩
  obtain ⟨a, hane, hastate, hadeadline, hamonitor, haclaims, hajoining, haserve⟩ := hawaits
  rw [show u.st.ne = w.st.ne from hne] at hane
  have hentries := congrArg Ne.entries hane
  have hwaiter : (awaitOpened e u).st.noWaiter :=
    noWaiter_of_put_other hn hentries (by rw [hastate]; nofun) (by rw [hamonitor]; exact hm)
  rw [finish_noWaiter hwaiter (hajoining.trans hj) (haserve.trans hs)] at ht
  subst ht
  refine ⟨⟨?_, by rw [hane], by rw [hane], fun x hx => entry_of_put_ne hentries hx⟩, ?_, ?_⟩
  · rw [haclaims, show u.st.rcu = _ from hrcu]
    exact look_put_same _ _ _
  · rw [entry_of_put hentries]
    exact hastate
  · rw [entry_of_put hentries, hadeadline, hnow, show u.st.cfl = w.st.cfl from hcfl]

end

/-- Settles O46: FREE where no CLAIM is on the line, and else AWAIT_OPENED. -/
theorem resourceDeadlineRefusesAnchor : Obligations.ResourceDeadlineRefusesAnchor := by
  intro dt s s1 e d hs1 hrun hstate hdeadline hreached hother hmonitor
  have hpassed : Passed s s1 := hs1 ▸ advance_passed dt s
  have hent : (Work.start s1).ent e = s.entry e := hpassed.entry e
  let r : Reason := if (s.entry e).request = .localBus then .noBus else .noTrunk
  have hr : r ≠ .aborted ∧ r.isRefusal = true := by
    unfold r
    split <;> exact ⟨nofun, rfl⟩
  have hexec : exec (.awaitResourceDeadline dt e) s = .next (finish (abandon e r (Work.start s1))) := by
    have hevent := event_due (due := fun s => s.deadlineDue .awaitResource e) hs1
      (hpassed.deadlineDue hrun hstate hdeadline hreached) (resourceWaitOver e)
    rw [resourceWaitOver, hent] at hevent
    exact hevent
  -- The refusal is owed; the claim ends by whether its CLAIM is on the line.
  let v := (Work.start s1).refusing e r
  have hne : v.st.ne = _ := refusing_ne hr.1
  rw [hent, Work.start_st, hpassed.ne] at hne
  have hvent : v.ent e = { s.entry e with reason := some r } := by
    rw [← hent]
    exact refusing_ent hr.1
  have hvcore : v.st.core = s1.core := refusing_core
  have hvline : v.st.claimOnLine e = s.claimOnLine e := (claimOnLine_of_core hvcore e).trans (hpassed.claimOnLine e)
  have hentries : v.st.ne.entries = put s.ne.entries e { s.entry e with reason := some r } := by rw [hne]
  have hvother : ∀ x, x ≠ e → v.ent x = s.entry x := fun x hx => entry_of_put_ne hentries hx
  have hvnone : v.st.noOtherWaiter e := fun x hx => by
    rw [show v.st.entry x = _ from hvother x hx]
    exact hother x hx
  obtain ⟨hvjoining, hvserve⟩ : v.joining = [] ∧ v.serve = false := refusing_flags
  have habandon : abandon e r (Work.start s1) = if s.claimOnLine e then awaitOpened e (v.upd (endClaim e))
      else freeEntry e (withdrawClaim e v) := by
    rw [abandon_eq, if_pos (by rw [refusing_ent hr.1, hent]; exact hstate), ← hvline]
  have hended : ∀ t, Unclaimed e v t → look t.rcu.claims e = none ∧
      look t.ne.status e = some ⟨(s.entry e).site, (s.entry e).net, .refused, r, (s.entry e).resource.map NetResource.code, none⟩ ∧
      look t.ne.cancel e =
        (if (s.entry e).request = .localBus then look s.ne.cancel e else some ((s.entry e).site, (s.entry e).net)) ∧
      ∀ x, x ≠ e → t.entry x = s.entry x := fun t h => by
    refine ⟨h.claim, ?_, ?_, fun x hx => (h.others x hx).trans (hvother x hx)⟩
    · rw [h.status, hne]
      exact look_put_same _ _ _
    · rw [h.cancel, hne]
      dsimp only
      split
      · rfl
      · exact look_put_same _ _ _
  refine ⟨_, hexec, finish_follows_of (abandon_core _ _ _), ?_⟩
  rw [habandon]
  cases hline : s.claimOnLine e with
  | false =>
    obtain ⟨hunclaimed, hfree⟩ := finish_withdrawClaim hvnone hvjoining hvserve rfl
    obtain ⟨h1, h2, h3, h4⟩ := hended _ hunclaimed
    rw [if_neg nofun]
    exact ⟨h1, h2, h3, h4, fun _ => hfree, nofun⟩
  | true =>
    obtain ⟨hunclaimed, hawaits, hdead⟩ := finish_claimOnLine hvnone hvjoining hvserve (by rw [hvent]; exact hmonitor)
      (by rw [hvent]; exact hr.2) (hvline.trans hline) rfl
    obtain ⟨h1, h2, h3, h4⟩ := hended _ hunclaimed
    rw [if_pos rfl]
    refine ⟨h1, h2, h3, h4, nofun, fun _ _ => ⟨hawaits, hdead.trans ?_⟩⟩
    rw [(Follows.of_core hvcore).field (fun s => s.now) fun _ => rfl, (Follows.of_core hvcore).cfl, hpassed.cfl]
    rfl

end Sys2Proof.Machine
end

