-- ==== Sys2Proof/Proofs/RestingFaults.lean ====
section
/-! A fault that reaches an entry at rest (R78): the outer disconnect wave at the tail of the queue, the reason, the capture; and the
view entry of a trunk reported to the participants that use it (R80, R106). -/

namespace Sys2Proof.Machine

/-! ### What the course of an entry rests on -/

/-- Two states that agree in the entries, the relays, the SNU and the waves. -/
structure Undisturbed (s u : State) : Prop where
  ne : u.ne = s.ne
  rm : u.rm = s.rm
  snu : u.snu = s.snu
  queue : u.wsu.queue = s.wsu.queue
  held : u.wsu.held = s.wsu.held
  settling : u.wsu.settling = s.wsu.settling
  recovery : u.wsu.recovery = s.wsu.recovery

theorem Heard.undisturbed {s u : State} (h : Heard s u) : Undisturbed s u :=
  ⟨h.ne, h.rm, h.snu, h.queue, h.held, h.settling, h.recovery⟩

theorem Passed.undisturbed {s u : State} (h : Passed s u) : Undisturbed s u :=
  ⟨h.ne, h.rm, h.snu, h.queue, h.held, h.settling, h.recovery⟩

theorem Undisturbed.trans {s u v : State} (h : Undisturbed s u) (k : Undisturbed u v) : Undisturbed s v :=
  ⟨k.ne.trans h.ne, k.rm.trans h.rm, k.snu.trans h.snu, k.queue.trans h.queue, k.held.trans h.held, k.settling.trans h.settling,
    k.recovery.trans h.recovery⟩

/-- What has changed the RCU and the FCU alone. -/
theorem undisturbed_of {s u : State} (h : u = { s with rcu := u.rcu, fcu := u.fcu }) : Undisturbed s u := by
  rw [h]
  exact ⟨rfl, rfl, rfl, rfl, rfl, rfl, rfl⟩

section
variable {s u : State}

theorem Undisturbed.entry (h : Undisturbed s u) (e : Entry) : u.entry e = s.entry e := by rw [State.entry, h.ne]; rfl

theorem Undisturbed.noWaiter (h : Undisturbed s u) (hn : s.noWaiter) : u.noWaiter := noWaiter_of_entries hn (by rw [h.ne])

theorem Undisturbed.atRest (h : Undisturbed s u) {e : Entry} (hr : s.atRest e) : u.atRest e := by
  obtain ⟨hstate, hmonitor, hpending, hreason, hverification, hwaves, hrecovery⟩ := hr
  rw [← h.entry] at hstate hmonitor hpending hreason
  rw [← h.snu] at hverification
  rw [← h.queue, ← h.held, ← h.settling] at hwaves
  rw [← h.recovery] at hrecovery
  exact ⟨hstate, hmonitor, hpending, hreason, hverification, hwaves, hrecovery⟩

theorem Undisturbed.closedSeries (h : Undisturbed s u) (e : Entry) : u.closedSeries e = s.closedSeries e := by
  have hrelay : ∀ q, u.relay q = s.relay q := fun q => by rw [State.relay, h.rm]; rfl
  simp only [State.closedSeries, h.entry, hrelay]

end

/-! ### The fault -/

/-- A capture is made before the rest of its fault (R171). -/
theorem fault_captured {e : Entry} {w : Work} (h : (w.ent e).takesFault = true) (r : Reason) (q : Option Relay) (c : Capture) :
    fault e r q (some c) w = fault e r q none (w.upd (capture c)) := by
  have hent : (w.upd (capture c)).ent e = w.ent e := by
    rw [Work.ent, Work.upd_st, capture_eq]
    rfl
  unfold fault
  rw [hent, if_pos h, if_pos h]

theorem capture_undisturbed (c : Capture) (s : State) : Undisturbed s (capture c s) := by
  have h := capture_eq c s
  generalize capture c s = u at h
  rw [h]
  exact ⟨rfl, rfl, rfl, rfl, rfl, rfl, rfl⟩

/-- The capture of the state where one is made. -/
theorem capture_captures {s u : State} (hr : u.running = true) (hc : u.cfl.config = s.cfl.config) (hf : u.fcu.record = s.fcu.record)
    (c : Capture) : s.captures (capture c u) c u.fcu.millis := by
  unfold State.captures capture judgeCapture qualifies
  rw [if_pos hr, hc]
  cases hs : s.cfl.config.severe <;> cases hq : c.cause.severe <;> cases hrec : s.fcu.record <;> simp [hf, hrec]

/-- An entry that has taken a fault (R78). -/
def NetEntry.faulting (x : NetEntry) (why : Reason) : NetEntry :=
  { x with state := .disconnectOuter, reason := some why, reasonRelay := none }

/-- From w to v entry e, at rest, has taken a fault without a capture. -/
structure Faulted (e : Entry) (why : Reason) (w v : Work) : Prop where
  ne : v.st.ne = { w.st.ne with entries := put w.st.ne.entries e ((w.ent e).faulting why) }
  rcu : v.st.rcu = w.st.rcu
  fcu : v.st.fcu = w.st.fcu
  wsu : v.st.wsu = w.st.wsu
  serve : v.serve = w.serve
  joining : v.joining = [outerWave e ((w.ent e).faulting why) (w.st.closedSeries e)]

section
variable {e : Entry} {why : Reason} {w v : Work}

theorem State.atRest.takesFault {s : State} (h : s.atRest e) : (s.entry e).takesFault = true := by
  unfold NetEntry.takesFault
  simp [h.state, h.pending, h.reason]

theorem fault_atRest (hrest : w.st.atRest e) (hj : w.joining = []) (hopens : w.st.closedSeries e ≠ []) :
    Faulted e why w (fault e why none none w) := by
  let u : Work := { w with st := w.st.setEntry e ((w.ent e).faulting why), pass := true }
  have hset : (w.setState e .disconnectOuter).modEnt e (fun x => { x with reason := some why, reasonRelay := none }) = u := by
    simp only [Work.setState, Work.modEnt, State.setEntry_entry_same, setEntry_setEntry]
    rfl
  have hent : u.ent e = (w.ent e).faulting why := State.setEntry_entry_same _ _ _
  have hmonitor : endMonitorClaim e u = u := by
    refine if_neg ?_
    rw [hent]
    intro k
    rcases hrest.monitor with h | h <;> exact absurd (h.symm.trans k) nofun
  have hheld : discardHeld e u = u := discardHeld_none fun v hv => hrest.waves v (by simp [show v ∈ w.st.wsu.held from hv])
  have hverification : u.upd (discardVerification e) = u := by
    have hnone : look u.st.snu.verifications e = none := hrest.verification
    rw [Work.upd, discardVerification, hnone]
  have hqualifying : qualifying u.st e .outerDisconnect = w.st.closedSeries e := by
    rw [qualifying_opening rfl]
    have hentry : u.st.entry e = (w.ent e).faulting why := hent
    rw [hentry]
    rfl
  have hfault : fault e why none none w = buildWave e .outerDisconnect u := by
    unfold fault
    rw [if_pos (show (w.ent e).takesFault = true from hrest.takesFault)]
    dsimp only
    rw [hset, hmonitor, hheld, hverification, proceedOuter_builds]
    · exact inFlight_none hj hrest.waves hrest.recovery
    · unfold State.verifying
      rw [show look u.st.snu.verifications e = none from hrest.verification]
      rfl
    · rw [hqualifying]
      exact hopens
  rw [hfault]
  refine ⟨buildWave_ne _ _ _, buildWave_rcu _ _ _, by rw [buildWave_eq]; rfl, buildWave_wsu _ _ _, buildWave_serve _ _ _, ?_⟩
  rw [buildWave_joining, hqualifying, if_neg hopens, show u.joining = [] from hj, show u.st.entry e = (w.ent e).faulting why from hent]
  rfl

theorem Faulted.entry (h : Faulted e why w v) : v.ent e = (w.ent e).faulting why := entry_of_put (s := w.st) (congrArg Ne.entries h.ne)

theorem Faulted.others (h : Faulted e why w v) {x : Entry} (hx : x ≠ e) : v.ent x = w.ent x :=
  entry_of_put_ne (s := w.st) (congrArg Ne.entries h.ne) hx

/-- The end of the event of a fault. -/
theorem Faulted.finish (h : Faulted e why w v) (hrest : w.st.atRest e) (hn : w.st.noWaiter) (hs : w.serve = false)
    (hq : w.st.wsu.queue ≠ []) : finish v = { v.st with
      wsu := { w.st.wsu with queue := w.st.wsu.queue ++ [outerWave e ((w.ent e).faulting why) (w.st.closedSeries e)] } } := by
  have hwaiter : v.st.noWaiter := noWaiter_of_put hn (congrArg Ne.entries h.ne) nofun fun k => by
    rcases hrest.monitor with q | q <;> exact absurd (q.symm.trans k) nofun
  rw [finish_waits hwaiter (h.serve.trans hs) (by rw [h.wsu]; exact hq), h.joining, h.wsu]
  rfl

/-- The fault as a statement sees it. -/
theorem Faulted.faults (h : Faulted e why w v) {s : State} (hu : Undisturbed s w.st) (hrest : w.st.atRest e) (hn : w.st.noWaiter)
    (hs : w.serve = false) (hq : w.st.wsu.queue ≠ []) : s.faults (Machine.finish v) e why ∧
      (∀ x, x ≠ e → (Machine.finish v).entry x = s.entry x) ∧ (Machine.finish v).fcu = w.st.fcu := by
  have hentry : v.st.entry e = (s.entry e).faulting why := by
    rw [← hu.entry]
    exact h.entry
  rw [h.finish hrest hn hs hq]
  refine ⟨⟨hentry, ?_⟩, fun x hx => ?_, h.fcu⟩
  · show w.st.wsu.queue ++ [outerWave e ((w.ent e).faulting why) (w.st.closedSeries e)] =
      s.wsu.queue ++ [outerWave e (v.st.entry e) (s.closedSeries e)]
    rw [hentry, hu.queue, hu.closedSeries, show w.ent e = s.entry e from hu.entry e]
  · rw [← hu.entry]
    exact h.others hx

/-- A captured fault as a statement sees it. -/
theorem Faulted.captured {c : Capture} (h : Faulted e why (w.upd (capture c)) v) {s : State} (hu : Undisturbed s w.st)
    (hrun : w.st.running = true) (hc : w.st.cfl.config = s.cfl.config) (hf : w.st.fcu.record = s.fcu.record) (hrest : s.atRest e)
    (hn : s.noWaiter) (hs : w.serve = false) (hq : s.wsu.queue ≠ []) : s.faults (Machine.finish v) e why ∧
      (∀ x, x ≠ e → (Machine.finish v).entry x = s.entry x) ∧ s.captures (Machine.finish v) c w.st.fcu.millis := by
  have hcaptured : Undisturbed s (w.upd (capture c)).st := hu.trans (capture_undisturbed c w.st)
  obtain ⟨hfaults, hothers, hfcu⟩ := h.faults hcaptured (hcaptured.atRest hrest) (hcaptured.noWaiter hn) hs
    (by rw [hcaptured.queue]; exact hq)
  refine ⟨hfaults, hothers, ?_⟩
  rw [State.captures, hfcu]
  exact capture_captures hrun hc hf c

end

/-! ### The participants of a trunk are told (R80, R106) -/

/-- The view entry of resource r is reported to entry e. -/
def watchEntry (r : Resource) (e : Entry) (w : Work) : Work :=
  let x := w.ent e
  let uses := match x.trunk with
    | some t => decide (trunkResource t = r)
    | none => false
  if x.role = .participant ∧ x.state ≠ .free ∧ uses = true ∧ lostAnchor x (look w.st.rcu.view r) = true then
    fault e .anchorLost none (some ⟨.anchorLost, some (x.site, x.net), x.resource.map NetResource.code, none, none⟩) w
  else w

theorem watch_eq (r : Resource) (w : Work) : watch r w = (List.finRange 64).foldl (fun w e => watchEntry r e w) w := rfl

section
variable {e : Entry} {k : Trunk} {r : Resource} {w : Work}

theorem trunkResource_inj {j k : Trunk} (h : trunkResource j = trunkResource k) : j = k :=
  Fin.ext (congrArg (fun q : Resource => q.val) h)

theorem lostAnchor_iff {s : State} : lostAnchor (s.entry e) (look s.rcu.view (trunkResource k)) = true ↔ s.anchorGone e k := by
  unfold lostAnchor State.anchorGone State.viewOf
  simp

/-- No report reaches an entry that does not use the resource, or that finds its anchor there. -/
theorem watchEntry_idle (h : (w.ent e).role = .participant → (w.ent e).state ≠ .free → ∀ k, (w.ent e).trunk = some k →
    trunkResource k = r → ¬ w.st.anchorGone e k) : watchEntry r e w = w := by
  refine if_neg ?_
  rintro ⟨hrole, hfree, huses, hlost⟩
  split at huses
  · rename_i k hk
    obtain rfl := of_decide_eq_true huses
    exact h hrole hfree k hk rfl (lostAnchor_iff.1 hlost)
  · cases huses

theorem NetEntry.resource_of_trunk {x : NetEntry} (h : x.trunk = some k) : x.resource = some (.trunk k) := by
  unfold NetEntry.trunk at h
  cases hr : x.resource with
  | none => rw [hr] at h; cases h
  | some q =>
    rw [hr] at h
    cases q with
    | trunk t => cases h; rfl
    | bus l => cases h

theorem watchEntry_faults (hrole : (w.ent e).role = .participant) (hfree : (w.ent e).state ≠ .free) (ht : (w.ent e).trunk = some k)
    (hlost : w.st.anchorGone e k) : watchEntry (trunkResource k) e w = fault e .anchorLost none
      (some ⟨.anchorLost, some ((w.ent e).site, (w.ent e).net), some (NetResource.trunk k).code, none, none⟩) w := by
  unfold watchEntry
  dsimp only
  rw [ht, NetEntry.resource_of_trunk ht]
  exact if_pos ⟨hrole, hfree, decide_eq_true rfl, lostAnchor_iff.2 hlost⟩

theorem watch_idle (h : ∀ e k, (w.ent e).role = .participant → (w.ent e).state ≠ .free → (w.ent e).trunk = some k →
    trunkResource k = r → ¬ w.st.anchorGone e k) : watch r w = w := by
  rw [watch_eq]
  exact foldl_same _ _ _ fun e => watchEntry_idle fun h1 h2 k h3 h4 => h e k h1 h2 h3 h4

/-- One participant at rest uses the trunk and does not find its anchor there. -/
theorem watch_faults (hrest : w.st.atRest e) (hj : w.joining = []) (hopens : w.st.closedSeries e ≠ [])
    (hrole : (w.ent e).role = .participant) (ht : (w.ent e).trunk = some k) (hlost : w.st.anchorGone e k)
    (hothers : ∀ x, x ≠ e → (w.ent x).role = .participant → (w.ent x).state ≠ .free → (w.ent x).trunk ≠ some k) :
    Faulted e .anchorLost (w.upd (capture ⟨.anchorLost, some ((w.ent e).site, (w.ent e).net), some (NetResource.trunk k).code, none,
      none⟩)) (watch (trunkResource k) w) := by
  let c : Capture := ⟨.anchorLost, some ((w.ent e).site, (w.ent e).net), some (NetResource.trunk k).code, none, none⟩
  have hcaptured : Undisturbed w.st (w.upd (capture c)).st := capture_undisturbed c w.st
  have hfault : Faulted e .anchorLost (w.upd (capture c)) (fault e .anchorLost none (some c) w) := by
    rw [fault_captured hrest.takesFault]
    exact fault_atRest (hcaptured.atRest hrest) hj (by rw [hcaptured.closedSeries]; exact hopens)
  have hact : watchEntry (trunkResource k) e w = fault e .anchorLost none (some c) w :=
    watchEntry_faults hrole (fun h => absurd (hrest.state.symm.trans h) nofun) ht hlost
  have hwatch : watch (trunkResource k) w = fault e .anchorLost none (some c) w := by
    rw [watch_eq, ← hact]
    refine foldl_single (List.nodup_finRange 64) (List.mem_finRange e) (fun x hx => ?_) fun x hx => ?_
    · exact watchEntry_idle fun h1 h2 j h3 h4 => absurd (trunkResource_inj h4 ▸ h3) (hothers x hx h1 h2)
    · rw [hact]
      refine watchEntry_idle fun h1 h2 j h3 h4 => ?_
      rw [hfault.others hx, show (w.upd (capture c)).ent x = w.ent x from hcaptured.entry x] at h1 h2 h3
      exact absurd (trunkResource_inj h4 ▸ h3) (hothers x hx h1 h2)
  rw [hwatch]
  exact hfault

end

end Sys2Proof.Machine
end

