-- ==== Sys2Proof/Proofs/HoldersLost.lean ====
section
/-! A view entry that no longer shows a participant's anchor: the RELEASE of its holder (R80, R95), and the end of the listen period
after a warm keep (R183). -/

namespace Sys2Proof.Machine

/-! ### Claims withdrawn, and the RCU's part of a RELEASE -/

theorem withdrawFor_idle {r : Resource} {w : Work} (h : ∀ x, look w.st.rcu.claims x ≠ some r) : withdrawFor r w = w :=
  foldl_same _ _ _ fun x => if_neg (h x)

theorem actNamed_changed {r : Resource} {w : Work} (h : ∀ x, look w.st.rcu.claims x ≠ some r) :
    actNamed r ⟨none, true⟩ w = watch r { w with pass := true } := by
  have hidle := withdrawFor_idle h
  unfold actNamed
  dsimp only
  rw [if_pos rfl, if_pos rfl, hidle]

theorem actNamed_dropped {r : Resource} {w : Work} {e : Entry} {q : Reason} (h : ∀ x, look w.st.rcu.claims x ≠ some r) :
    actNamed r ⟨some (e, q), true⟩ w = watch r (holdingDropped e r q { w with pass := true }) := by
  have hidle := withdrawFor_idle h
  unfold actNamed
  dsimp only
  rw [if_pos rfl, if_pos rfl, hidle]

theorem releaseHeard_holder {n : Node} {r : Resource} {w : Work} (h : (w.st.viewOf r).holder = some n) :
    releaseHeard n r w = actNamed r ⟨none, true⟩ { w with st := w.st.setView r (w.st.viewOf r).clear } := by
  unfold releaseHeard clearView
  rw [if_pos h]

theorem releaseHeard_other {n : Node} {r : Resource} {w : Work} (h : (w.st.viewOf r).holder ≠ some n) : releaseHeard n r w = w := by
  unfold releaseHeard clearView
  rw [if_neg h]
  rfl

/-- A view entry set is a matter of the base. -/
theorem setView_core {s t : State} (h : s.core = t.core) (r : Resource) (v : ViewEntry) : (s.setView r v).core = (t.setView r v).core :=
  congrArg (fun c : State × Option Nat × Table 640 Nat => (c.1.setView r v, c.2)) h

theorem setView_undisturbed (s : State) (r : Resource) (v : ViewEntry) : Undisturbed s (s.setView r v) :=
  undisturbed_of rfl

/-! ### RELEASE (R80, R95) -/

/-- Settles O26: the view entry of the sender's resource, and ANCHOR_LOST of the participant there. -/
theorem releaseClearsHolder : Obligations.ReleaseClearsHolder := by
  intro dt s f r i n hfront
  let u := s.heard dt f (.release r i n)
  have hheard : Heard s u := heard_heard s dt f (.release r i n)
  let w := resumeHeld (Work.start u)
  have hcore : w.st.core = u.core := resumeHeld_core _
  have hexec : exec (.release dt) s = .next (finish (releaseHeard f.src r w)) := by
    rw [exec_front_as hfront (fun g hg => by rw [frameCommand, hg]; rfl)]
    rfl
  have hview : w.st.viewOf r = s.viewOf r := by
    rw [(Follows.of_core hcore).viewOf, State.viewOf, hheard.rcu]
    rfl
  refine ⟨_, hexec, ?_, fun hholder => ?_, fun hholder => ?_⟩
  · by_cases hholder : (s.viewOf r).holder = some f.src
    · rw [releaseHeard_holder (by rw [hview]; exact hholder), hview]
      have hfollows := finish_follows_of ((actNamed_core r ⟨none, true⟩ { w with st := w.st.setView r (s.viewOf r).clear }).trans
        (setView_core hcore r _))
      exact hfollows.holdings.trans (congrArg Rcu.holdings hheard.rcu : u.rcu.holdings = s.rcu.holdings)
    · rw [releaseHeard_other (by rw [hview]; exact hholder)]
      exact (finish_follows_of hcore).holdings.trans (congrArg Rcu.holdings hheard.rcu)
  · rw [releaseHeard_holder (by rw [hview]; exact hholder), hview]
    have hfollows := finish_follows_of ((actNamed_core r ⟨none, true⟩ { w with st := w.st.setView r (s.viewOf r).clear }).trans
      (setView_core hcore r _))
    refine ⟨hfollows, ?_, fun q hq => ?_, fun e k hk hh hq hn hclaims hrole ht hrest hopens hothers => ?_⟩
    · rw [hfollows.viewOf, State.setView_viewOf_same]
      rfl
    · rw [hfollows.viewOf, State.setView_viewOf_ne _ _ (Ne.symm hq), State.viewOf, hheard.rcu]
      rfl
    · subst hk
      have hw : w = Work.start u := resumeHeld_none (hheard.held.trans hh)
      let v : Work := { Work.start u with st := u.setView (trunkResource k) (s.viewOf (trunkResource k)).clear, pass := true }
      have hdisturbed : Undisturbed s v.st := hheard.undisturbed.trans (setView_undisturbed _ _ _)
      have hact : actNamed (trunkResource k) ⟨none, true⟩
          { w with st := w.st.setView (trunkResource k) (s.viewOf (trunkResource k)).clear } = watch (trunkResource k) v := by
        rw [hw, actNamed_changed fun x => ?_]
        · rfl
        · show look u.rcu.claims x ≠ _
          rw [hheard.rcu]
          exact hclaims x
      have hvent : ∀ x, v.ent x = s.entry x := hdisturbed.entry
      have hgone : v.st.anchorGone e k := .inl (by rw [State.setView_viewOf_same]; nofun)
      have hfault := watch_faults (hdisturbed.atRest hrest) rfl (by rw [hdisturbed.closedSeries]; exact hopens)
        (by rw [hvent]; exact hrole) (by rw [hvent]; exact ht) hgone
        fun x hx hr _ => by
          rw [hvent] at hr ⊢
          exact hothers x hx hr
      rw [hact]
      rw [hvent] at hfault
      exact hfault.captured hdisturbed (by rw [← hfront.running]; exact congrArg (fun c : Cfl => decide (c.phase = .running)) hheard.cfl)
        (congrArg Cfl.config hheard.cfl) (advance_record dt s) hrest hn rfl hq
  · rw [releaseHeard_other (by rw [hview]; exact hholder)]
    have hfollows := finish_follows_of hcore
    refine ⟨hfollows, hfollows.view.trans (congrArg Rcu.view hheard.rcu), fun hh => ?_⟩
    rw [show w = Work.start u from resumeHeld_none (hheard.held.trans hh), finish_start]

/-! ### The end of the listen period (R119, R183) -/

theorem resumeHeld_ne (w : Work) : (resumeHeld w).st.ne = w.st.ne := by
  have hkeeps : ∀ (vs : List Wave) (s : State), (vs.foldl (fun s v => keepHold v s) s).ne = s.ne := fun vs => by
    induction vs with
    | nil => exact fun _ => rfl
    | cons v vs ih =>
      intro s
      rw [List.foldl_cons, ih]
      unfold keepHold
      split <;> rfl
  exact hkeeps _ _

theorem watchAll_idle {w : Work} (h : ∀ e k, (w.ent e).role = .participant → (w.ent e).state ≠ .free → (w.ent e).trunk = some k →
    ¬ w.st.anchorGone e k) : watchAll w = w :=
  foldl_same _ _ _ fun _ => watch_idle fun e k h1 h2 h3 _ => h e k h1 h2 h3

/-- One participant at rest does not find its anchor, and there is no other participant. -/
theorem watchAll_faults {e : Entry} {k : Trunk} {w : Work} (hrest : w.st.atRest e) (hj : w.joining = [])
    (hopens : w.st.closedSeries e ≠ []) (hrole : (w.ent e).role = .participant) (ht : (w.ent e).trunk = some k)
    (hlost : w.st.anchorGone e k) (hothers : ∀ x, x ≠ e → (w.ent x).role = .participant → (w.ent x).state = .free) :
    Faulted e .anchorLost (w.upd (capture ⟨.anchorLost, some ((w.ent e).site, (w.ent e).net), some (NetResource.trunk k).code, none,
      none⟩)) (watchAll w) := by
  have hfault := watch_faults hrest hj hopens hrole ht hlost fun x hx hr hf => absurd (hothers x hx hr) hf
  have hcaptured := capture_undisturbed ⟨.anchorLost, some ((w.ent e).site, (w.ent e).net), some (NetResource.trunk k).code, none,
      none⟩ w.st
  have hother : ∀ t : Trunk, t ≠ k → ∀ j : Trunk, trunkResource j = trunkResource t → j ≠ k := fun t htk j hj hjk =>
    htk ((trunkResource_inj hj).symm.trans hjk)
  have hwatch : watchAll w = watch (trunkResource k) w := by
    refine foldl_single (List.nodup_finRange 16) (List.mem_finRange k) (fun t htk => ?_) fun t htk => ?_
    · refine watch_idle fun x j hr hf hx hj => ?_
      by_cases hxe : x = e
      · subst hxe
        exact absurd (Option.some.inj (hx.symm.trans ht)) (hother t htk j hj)
      · exact absurd (hothers x hxe hr) hf
    · refine watch_idle fun x j hr hf hx hj => ?_
      by_cases hxe : x = e
      · subst hxe
        rw [hfault.entry] at hx
        have hsame := congrArg NetEntry.trunk (hcaptured.entry x)
        have htrunk : (w.ent x).trunk = some j := hsame.symm.trans hx
        exact absurd (Option.some.inj (htrunk.symm.trans ht)) (hother t htk j hj)
      · rw [hfault.others hxe] at hr hf
        rw [show (w.upd (capture _)).ent x = w.ent x from hcaptured.entry x] at hr hf
        exact absurd (hothers x hxe hr) hf
  rw [hwatch]
  exact hfault

theorem listenEnd_due {s u : State} (h : s.listenDue = true)
    (hu : u = { s with cfl := { s.cfl with listen := false, firstBeacon := false } }) : listenEnd s = finish
      (if u.cfl.kind = .warmKeep then watchAll (resumeHeld (Work.start u)) else resumeHeld (Work.start u)) := by
  subst hu
  exact if_pos h

/-- Settles O10: the held waves that resume join, and after a warm keep every view entry is reported. -/
theorem listenPeriodEndOpensDispatch : Obligations.ListenPeriodEndOpensDispatch := by
  intro dt s u hdue hu
  have hpassed := advance_passed dt s
  have hcfl : u.cfl = { s.cfl with listen := false, firstBeacon := false } := by rw [hu]
  have hset : { advance dt s with cfl := { (advance dt s).cfl with listen := false, firstBeacon := false } } = u := by
    rw [hu, hpassed.cfl]
  have hdisturbed : Undisturbed s u := by
    rw [hu]
    exact hpassed.undisturbed.trans ⟨rfl, rfl, rfl, rfl, rfl, rfl, rfl⟩
  have hview : u.rcu = s.rcu := by
    rw [hu]
    exact hpassed.rcu
  have hrun : u.running = true := by
    unfold State.listenDue at hdue
    simp only [Bool.and_eq_true] at hdue
    have hphase := hdue.1.1
    rw [State.running, hpassed.cfl] at hphase
    rw [State.running, hcfl]
    exact hphase
  let w := resumeHeld (Work.start u)
  let v := if s.cfl.kind = .warmKeep then watchAll w else w
  have hexec : exec (.listenPeriodEnd dt) s = .next (finish v) := by
    have hend := listenEnd_due hdue hset.symm
    rw [show u.cfl.kind = s.cfl.kind by rw [hcfl]] at hend
    exact congrArg Host.Outcome.next hend
  have hcore : v.st.core = u.core := by
    unfold v
    split
    · exact (foldl_core _ (fun w t => watch_core _ w) _ _).trans (resumeHeld_core _)
    · exact resumeHeld_core _
  have hfollows := finish_follows_of hcore
  have hwent : ∀ x, w.ent x = s.entry x := fun x => by
    rw [Work.ent, State.entry, resumeHeld_ne]
    exact hdisturbed.entry x
  have hgone : ∀ x k, w.st.anchorGone x k ↔ s.anchorGone x k := fun x k => by
    unfold State.anchorGone
    rw [show w.st.entry x = s.entry x from hwent x, (Follows.of_core (resumeHeld_core (Work.start u))).viewOf,
      show (Work.start u).st.viewOf (trunkResource k) = s.viewOf (trunkResource k) from congrArg (fun c : Rcu => look c.view _) hview]
  refine ⟨_, hexec, hfollows, ?_, fun hshown => ?_, fun e k hkind hh hn hq hrest hopens hrole ht hlost hothers => ?_⟩
  · rw [hfollows.cfl, hcfl]
  · have hv : v = w := by
      unfold v
      split
      · rename_i hkind
        refine watchAll_idle fun e k h1 h2 h3 => ?_
        rw [hwent] at h1 h2 h3
        rw [hgone]
        exact hshown.resolve_left (not_not.2 hkind) e k h1 h2 h3
      · rfl
    rw [hv]
    refine ⟨fun hh => ?_, fun hq => ?_⟩
    · rw [show w = Work.start u from resumeHeld_none (hdisturbed.held.trans hh), finish_start]
    · have hqueue : w.st.wsu.queue = s.wsu.queue := by
        rw [resumeHeld_wsu]
        exact hdisturbed.queue
      rw [finish_joins rfl rfl (by rw [hqueue]; exact hq), resumeHeld_wsu, ← hdisturbed.held, ← hdisturbed.queue]
      exact ⟨rfl, rfl, (resumeHeld_ne _).trans hdisturbed.ne⟩
  · have hw : w = Work.start u := resumeHeld_none (hdisturbed.held.trans hh)
    have hv : v = watchAll w := if_pos hkind
    rw [hv]
    have hrests : w.st.atRest e := by
      rw [hw]
      exact hdisturbed.atRest hrest
    have hopened : w.st.closedSeries e = s.closedSeries e := by
      rw [hw]
      exact hdisturbed.closedSeries e
    have hfault := watchAll_faults hrests (by rw [hw]; rfl) (by rw [hopened]; exact hopens) (by rw [hwent]; exact hrole)
      (by rw [hwent]; exact ht) ((hgone e k).2 hlost) fun x hx hr => by
        rw [hwent] at hr ⊢
        exact hothers x hx hr
    rw [hwent] at hfault
    rw [hw] at hfault ⊢
    exact hfault.captured hdisturbed hrun (by rw [Work.start_st, hcfl]) (by rw [Work.start_st, hu]; exact hpassed.record) hrest hn rfl hq

end Sys2Proof.Machine
end

