-- ==== Sys2Proof/Proofs/OwnHoldingClaimed.lean ====
section
/-! A CLAIM of a resource that the card holds (R79, R98–R100): what the RCU makes of the holding, and what its entry does. -/

namespace Sys2Proof.Machine

/-! ### The RCU's part -/

/-- The CLAIM_CLASH of an own holding, captured (R99, R100). -/
def State.clashed (e : Entry) (r : Resource) (s : State) : State :=
  captureEntry .claimClash (s.entry e) (some (resourceCode r)) none s

section
variable {n : Node} {r : Resource} {net : Option (Site × NetId)} {s : State} {e : Entry}

/-- An unconfirmed holding is lost (R98). -/
theorem named_loses (hh : look s.rcu.holdings r = some e) (hu : look s.rcu.unconfirmed r = true) : named n r net s =
    ((dropHolding r s).setView r ((s.viewOf r).install n net), ⟨some (e, .resetLostTrunk), true⟩) := by
  simp [named, hh, hu]

/-- A confirmed one is yielded to a lower node number (R99). -/
theorem named_yielded (hh : look s.rcu.holdings r = some e) (hu : look s.rcu.unconfirmed r = false) (hn : n < s.cfl.node) :
    named n r net s = (((dropHolding r s).setView r ((s.viewOf r).install n net)).clashed e r, ⟨some (e, .claimClash), true⟩) := by
  simp only [named, hh, hu, Bool.false_eq_true, if_false, hn, if_true]
  rfl

/-- And kept against a higher one (R100). -/
theorem named_kept (hh : look s.rcu.holdings r = some e) (hu : look s.rcu.unconfirmed r = false) (hn : ¬ n < s.cfl.node) :
    named n r net s = (oweBeacon (s.clashed e r), ⟨none, false⟩) := by
  simp only [named, hh, hu, Bool.false_eq_true, if_false, hn]
  rfl

theorem clashed_rcu (e : Entry) (r : Resource) (s : State) : (s.clashed e r).rcu = s.rcu := captureEntry_rcu _ _ _ _ _

theorem clashed_undisturbed (e : Entry) (r : Resource) (s : State) : Undisturbed s (s.clashed e r) := capture_undisturbed _ s

theorem dropped_undisturbed (r : Resource) (v : ViewEntry) (s : State) : Undisturbed s ((dropHolding r s).setView r v) :=
  undisturbed_of rfl

/-- The CLAIM_CLASH as a statement sees it. -/
theorem clashed_captures {s u : State} (hr : u.running = true) (hc : u.cfl.config = s.cfl.config)
    (hf : u.fcu.record = s.fcu.record) (hne : u.ne = s.ne) (e : Entry) (r : Resource) : s.captures (u.clashed e r)
      ⟨.claimClash, some ((s.entry e).site, (s.entry e).net), some (resourceCode r), none, none⟩ u.fcu.millis := by
  rw [← show u.entry e = s.entry e by rw [State.entry, hne]; rfl]
  exact capture_captures hr hc hf _

end

/-! ### The NE's part -/

theorem claimHeard_core (n : Node) (r : Resource) (i : Site) (m : NetId) (w : Work) :
    (claimHeard n r i m w).st.core = (named n r (some (i, m)) w.st).1.core := by
  unfold claimHeard
  dsimp only
  split
  · exact (foldl_core _ (fun _ _ => participantClaim_core _ _ _) _ _).trans (actNamed_core _ _ _)
  · exact actNamed_core _ _ _

/-- No participant waits for the claim (R66). -/
theorem claimHeard_noParticipant {n : Node} {r : Resource} {i : Site} {m : NetId} {w v : Work}
    (hv : actNamed r (named n r (some (i, m)) w.st).2 { w with st := (named n r (some (i, m)) w.st).1 } = v)
    (hn : ∀ x, (v.ent x).state ≠ .awaitAnchor) : claimHeard n r i m w = v := by
  have hnone : v.st.awaitingClaim n i m = [] := by
    unfold State.awaitingClaim indices
    rw [List.filter_eq_nil_iff]
    intro x _
    simp [show (look v.st.ne.entries x).state ≠ _ from hn x]
  unfold claimHeard
  dsimp only
  rw [hv, hnone]
  split <;> rfl

section
variable {e : Entry} {r : Resource} {q : Reason} {w : Work}

theorem dropYielded_acts (e : Entry) (r : Resource) (w : Work) : ActsOf e w (dropYielded e r w) := by
  unfold dropYielded
  exact .ite ((ActsOf.modEnt_same (f := fun x => { x with resource := none }) (fun _ => rfl) (fun _ => .inl rfl)
    fun _ => .inl rfl).trans (.pass e _ true)) (.refl e w)

/-- The entry of a dropped holding that is in its release handshake (R79). -/
theorem holdingDropped_released (h : (w.ent e).state = .awaitOpened ∨ (w.ent e).state = .releaseBlocked) :
    holdingDropped e r q w = dropYielded e r (tryFree e w) := by
  unfold holdingDropped
  dsimp only
  rcases h with h | h <;> rw [h]

/-- Any other entry of a dropped holding is faulted (R79). -/
theorem holdingDropped_faults (h1 : (w.ent e).state ≠ .awaitOpened) (h2 : (w.ent e).state ≠ .releaseBlocked) :
    holdingDropped e r q w = fault e q none (if q = .resetLostTrunk then
      some ⟨.resetLostTrunk, some ((w.ent e).site, (w.ent e).net), some (resourceCode r), none, none⟩ else none) w := by
  unfold holdingDropped
  dsimp only
  split
  · exact absurd ‹_› h1
  · exact absurd ‹_› h2
  · rfl

theorem fault_untaken {o : Option Relay} {c : Option Capture} (h : (w.ent e).takesFault = false) : fault e q o c w = w :=
  if_neg (by rw [h]; nofun)

theorem holdingDropped_untaken (h1 : (w.ent e).state ≠ .awaitOpened) (h2 : (w.ent e).state ≠ .releaseBlocked)
    (h : (w.ent e).takesFault = false) : holdingDropped e r q w = w := by
  rw [holdingDropped_faults h1 h2, fault_untaken h]

/-- Nothing but the entry of a dropped holding acts, once its fault is captured. -/
theorem holdingDropped_acts (e : Entry) (r : Resource) (q : Reason) (w : Work) :
    ∃ c : State → State, Undisturbed w.st (c w.st) ∧ ActsOf e (w.upd c) (holdingDropped e r q w) := by
  by_cases h : (w.ent e).state = .awaitOpened ∨ (w.ent e).state = .releaseBlocked
  · rw [holdingDropped_released h]
    exact ⟨id, undisturbed_of rfl, (ActsOf.tryFree e w).trans (dropYielded_acts e r _)⟩
  · obtain ⟨h1, h2⟩ := not_or.1 h
    rw [holdingDropped_faults h1 h2]
    by_cases hq : q = .resetLostTrunk
    · rw [if_pos hq]
      cases ht : (w.ent e).takesFault with
      | true =>
        rw [fault_captured ht]
        exact ⟨_, capture_undisturbed _ _, .fault e _ _ _⟩
      | false =>
        rw [fault_untaken ht]
        exact ⟨id, undisturbed_of rfl, .refl e w⟩
    · rw [if_neg hq]
      exact ⟨id, undisturbed_of rfl, .fault e w _ _⟩

theorem holdingDropped_fcu (h : q ≠ .resetLostTrunk ∨ (w.ent e).takesFault = false) : (holdingDropped e r q w).st.fcu = w.st.fcu := by
  by_cases hs : (w.ent e).state = .awaitOpened ∨ (w.ent e).state = .releaseBlocked
  · rw [holdingDropped_released hs]
    exact ((ActsOf.tryFree e w).trans (dropYielded_acts e r _)).fcu
  · obtain ⟨h1, h2⟩ := not_or.1 hs
    rcases h with hq | ht
    · rw [holdingDropped_faults h1 h2, if_neg hq]
      exact (ActsOf.fault e w _ _).fcu
    · rw [holdingDropped_untaken h1 h2 ht]

/-- An entry in its release handshake that holds nothing more is FREE (R73, R79). -/
theorem holdingDropped_frees (hs : (w.ent e).state = .awaitOpened ∨ (w.ent e).state = .releaseBlocked)
    (hh : w.st.holding e = false) : holdingDropped e r q w = freeEntry e (closingReport e w) := by
  have hfree : ((freeEntry e (closingReport e w)).ent e).state = .free := congrArg NetEntry.state freeEntry_entry
  rw [holdingDropped_released hs, tryFree, if_pos ⟨hs, hh⟩, dropYielded]
  refine if_neg fun k => ?_
  rw [hfree] at k
  rcases k.1 with k | k <;> cases k

end

/-- The end of an event that has dropped a holding of entry e for a reason, from s, with the RCU's part done in u. -/
structure Dropped (e : Entry) (r : Resource) (q : Reason) (s u t : State) : Prop where
  waits : (s.entry e).state = .faulted ∨ (s.entry e).state = .disconnectOuter ∨ (s.entry e).state = .disconnectInner →
    t.entry e = s.entry e
  frees : (s.entry e).state = .awaitOpened ∨ (s.entry e).state = .releaseBlocked → u.holding e = false →
    (t.entry e).state = .free ∧ ∀ p, look t.ne.binding p ≠ some e
  record : q ≠ .resetLostTrunk ∨ (s.entry e).takesFault = false → t.fcu = u.fcu
  faults : s.atRest e → s.closedSeries e ≠ [] → s.faults t e q
  captures : s.atRest e → s.closedSeries e ≠ [] → q = .resetLostTrunk → s.captures t
    ⟨.resetLostTrunk, some ((s.entry e).site, (s.entry e).net), some (resourceCode r), none, none⟩ u.fcu.millis

section
variable {e : Entry} {r : Resource} {q : Reason} {s u : State}

theorem dropped_of (hu : Undisturbed s u) (hrun : u.running = true) (hc : u.cfl.config = s.cfl.config)
    (hf : q = .resetLostTrunk → u.fcu.record = s.fcu.record) (hn : s.noWaiter) (hq : s.wsu.queue ≠ []) {h : Work}
    (hact : h = holdingDropped e r q { Work.start u with pass := true }) : Dropped e r q s u (finish h) := by
  let v : Work := { Work.start u with pass := true }
  have hvent : v.ent e = s.entry e := hu.entry e
  obtain ⟨c, hcu, hacts⟩ := holdingDropped_acts e r q v
  rw [← hact] at hacts
  have hends := finish_waits (hacts.noWaiter (hcu.noWaiter (hu.noWaiter hn))) hacts.serve
    (by rw [hacts.queue, Work.upd_st, hcu.queue, show v.st.wsu.queue = s.wsu.queue from hu.queue]; exact hq)
  have hfaulted : s.atRest e → s.closedSeries e ≠ [] → ∃ w, w.serve = false ∧ Undisturbed u w.st ∧ Faulted e q w h ∧
      (q = .resetLostTrunk → w = v.upd (capture
        ⟨.resetLostTrunk, some ((s.entry e).site, (s.entry e).net), some (resourceCode r), none, none⟩)) := fun hrest hopens => by
    have hrests : v.st.atRest e := hu.atRest hrest
    have hopened : v.st.closedSeries e ≠ [] := by
      rw [show v.st.closedSeries e = _ from hu.closedSeries e]
      exact hopens
    have hstate : (v.ent e).state = .connected := hrests.state
    rw [hact, holdingDropped_faults (w := v) (by rw [hstate]; nofun) (by rw [hstate]; nofun), hvent]
    split
    · rw [fault_captured hrests.takesFault]
      have hcaptured := capture_undisturbed
        ⟨.resetLostTrunk, some ((s.entry e).site, (s.entry e).net), some (resourceCode r), none, none⟩ u
      exact ⟨_, rfl, hcaptured, fault_atRest (hcaptured.atRest hrests) rfl (by
        rw [show (v.upd (capture _)).st.closedSeries e = v.st.closedSeries e from hcaptured.closedSeries e]
        exact hopened), fun _ => rfl⟩
    · rename_i hne
      exact ⟨v, rfl, undisturbed_of rfl, fault_atRest hrests rfl hopened, fun k => absurd k hne⟩
  refine ⟨fun hs => ?_, fun hs hh => ?_, fun hk => ?_, fun hrest hopens => ?_, fun hrest hopens hreason => ?_⟩
  · rw [hends]
    show h.ent e = _
    rw [hact, holdingDropped_untaken (w := v), hvent]
    · rw [hvent]
      intro k
      rw [k] at hs
      rcases hs with hs | hs | hs <;> cases hs
    · rw [hvent]
      intro k
      rw [k] at hs
      rcases hs with hs | hs | hs <;> cases hs
    · rw [hvent, NetEntry.takesFault]
      rcases hs with hs | hs | hs <;> rw [hs] <;> rfl
  · rw [hends]
    have hfrees : h = freeEntry e (closingReport e v) := hact.trans (holdingDropped_frees (by rw [hvent]; exact hs) hh)
    rw [hfrees]
    exact ⟨congrArg NetEntry.state freeEntry_entry, freeEntry_unbound⟩
  · rw [hends, hact]
    exact holdingDropped_fcu (w := v) (by rw [hvent]; exact hk)
  · obtain ⟨w, hserve, hw, hfault, -⟩ := hfaulted hrest hopens
    have hsw := hu.trans hw
    exact (hfault.faults hsw (hsw.atRest hrest) (hsw.noWaiter hn) hserve (by rw [hsw.queue]; exact hq)).1
  · obtain ⟨w, -, -, hfault, hw⟩ := hfaulted hrest hopens
    rw [hw hreason] at hfault
    exact (hfault.captured hu hrun hc (hf hreason) hrest hn rfl hq).2.2

end

/-- No other entry has anything to do with the resource: the watch and the waiting participants find nothing. -/
theorem claimHeard_drops {n : Node} {r : Resource} {i : Site} {m : NetId} {u : State} {e : Entry} {q : Reason} {s : State}
    (hnamed : named n r (some (i, m)) u = (s, ⟨some (e, q), true⟩)) (hclaims : ∀ x, look s.rcu.claims x ≠ some r)
    (hawait : ∀ x, (s.entry x).state ≠ .awaitAnchor)
    (hparts : ∀ x k, (s.entry x).role = .participant → (s.entry x).trunk = some k → trunkResource k ≠ r) :
    claimHeard n r i m (Work.start u) = holdingDropped e r q { Work.start s with pass := true } := by
  obtain ⟨c, hc, hacts⟩ := holdingDropped_acts e r q { Work.start s with pass := true }
  have hentry : ∀ x, (({ Work.start s with pass := true } : Work).upd c).ent x = s.entry x := hc.entry
  refine claimHeard_noParticipant ?_ (hacts.noAwaitAnchor fun x => by rw [hentry]; exact hawait x)
  rw [Work.start_st, hnamed, actNamed_dropped (w := { Work.start u with st := s }) hclaims]
  exact watch_idle fun x k hr _ ht hk => absurd hk (hacts.participants (fun y j hy hj => by
    rw [hentry] at hy hj
    exact hparts y j hy hj) x k hr ht)

/-! ### The CLAIM of an own holding -/

/-- The resource of a dropped holding, with the claimant installed (R98, R99). -/
def State.claimedFrom (s : State) (r : Resource) (n : Node) (i : Site) (m : NetId) : State :=
  (dropHolding r s).setView r ((s.viewOf r).install n (some (i, m)))

theorem claimedFrom_standing (s : State) (r : Resource) (n : Node) (i : Site) (m : NetId) (q : Resource) :
    (s.claimedFrom r n i m).standing q = if q = r then ⟨(s.viewOf r).install n (some (i, m)), none, false⟩ else s.standing q := by
  split
  · rename_i hq
    rw [hq]
    exact drop_install_standing s r _
  · rename_i hq
    exact drop_install_standing_ne s _ (Ne.symm hq)

section
variable {n : Node} {r : Resource} {i : Site} {m : NetId} {s u : State} {e : Entry}

/-- A CLAIM of an own holding that is lost or yielded, as the RCU has it (R98, R99). -/
theorem named_claim_drops (hh : look s.rcu.holdings r = some e) (h : look s.rcu.unconfirmed r = true ∨ n < s.cfl.node)
    (q : Resource) : (named n r (some (i, m)) s).1.standing q =
      if q = r then ⟨(s.viewOf r).install n (some (i, m)), none, false⟩ else s.standing q := by
  rw [← claimedFrom_standing]
  cases hc : look s.rcu.unconfirmed r with
  | true =>
    rw [named_loses hh hc]
    rfl
  | false =>
    rw [named_yielded hh hc (h.resolve_left (by rw [hc]; nofun))]
    exact standing_of_rcu (clashed_rcu e r _) q

/-- One that is kept (R100). -/
theorem named_claim_keeps (hh : look s.rcu.holdings r = some e) (hu : look s.rcu.unconfirmed r = false) (hn : ¬ n < s.cfl.node) :
    (named n r (some (i, m)) s).1.rcu = { s.rcu with beaconOwed := true } := by
  rw [named_kept hh hu hn]
  show { (s.clashed e r).rcu with beaconOwed := true } = _
  rw [clashed_rcu]

/-- Nobody but the holder of a resource has anything to do with it, and the waves built join behind others. -/
structure State.Undisputed (s : State) (r : Resource) : Prop where
  waiter : s.noWaiter
  queue : s.wsu.queue ≠ []
  anchors : ∀ x, (s.entry x).state ≠ .awaitAnchor
  claims : ∀ x, look s.rcu.claims x ≠ some r
  participants : ∀ x k, (s.entry x).role = .participant → (s.entry x).trunk = some k → trunkResource k ≠ r

/-- The act of a dropped holding's entry is all that the CLAIM leads to. -/
theorem finish_claimHeard_drops {q : Reason} (h : s.Undisputed r) (hu : Undisturbed s u) (hrun : u.running = true)
    (hc : u.cfl.config = s.cfl.config) (hf : q = .resetLostTrunk → u.fcu.record = s.fcu.record)
    (hclaims : u.rcu.claims = s.rcu.claims) {v : State} (hnamed : named n r (some (i, m)) v = (u, ⟨some (e, q), true⟩)) {t : State}
    (ht : t = finish (claimHeard n r i m (Work.start v))) : Dropped e r q s u t := by
  rw [ht]
  refine dropped_of hu hrun hc hf h.waiter h.queue (claimHeard_drops hnamed (fun x => ?_) (fun x => ?_) fun x k hr hk => ?_)
  · rw [hclaims]
    exact h.claims x
  · rw [hu.entry]
    exact h.anchors x
  · rw [hu.entry] at hr hk
    exact h.participants x k hr hk

/-- A holding that is kept is all that the CLAIM leads to. -/
theorem finish_claimHeard_keeps (hawait : ∀ x, (u.entry x).state ≠ .awaitAnchor) (hh : look u.rcu.holdings r = some e)
    (hu : look u.rcu.unconfirmed r = false) (hn : ¬ n < u.cfl.node) :
    finish (claimHeard n r i m (Work.start u)) = oweBeacon (u.clashed e r) := by
  have hact : claimHeard n r i m (Work.start u) = Work.start (oweBeacon (u.clashed e r)) := by
    refine claimHeard_noParticipant ?_ fun x => ?_
    · rw [Work.start_st, named_kept hh hu hn]
      rfl
    · rw [show (Work.start (oweBeacon (u.clashed e r))).ent x = u.entry x from (clashed_undisturbed e r u).entry x]
      exact hawait x
  rw [hact, finish_start]

end

/-- Settles O25: the holding as the RCU has it, and its entry's act. -/
theorem claimOfOwnHoldingYieldsToLowerNode : Obligations.ClaimOfOwnHoldingYieldsToLowerNode := by
  intro dt s u f r i n e hfront hu hh
  have hheard : Heard s u := hu ▸ heard_heard s dt f (.claim r i n)
  have hexec : exec (.claim dt) s = .next (finish (claimHeard f.src r i n (resumeHeld (Work.start u)))) := by
    rw [exec_front_as hfront (fun g hg => by rw [frameCommand, hg]; rfl), ← hu]
    rfl
  have hfollows := finish_follows_of (claimHeard_core f.src r i n (resumeHeld (Work.start u)))
  generalize hw : resumeHeld (Work.start u) = w at hexec hfollows
  have hresumed : Follows u w.st := .of_core (hw ▸ resumeHeld_core _)
  have hstanding : ∀ q, w.st.standing q = s.standing q := fun q =>
    (hresumed.rcu_standing q).trans (standing_of_rcu hheard.rcu q)
  have hwnode : w.st.cfl.node = s.cfl.node := congrArg Cfl.node (hresumed.cfl.trans hheard.cfl)
  have hwh : look w.st.rcu.holdings r = some e := (congrArg Standing.held (hstanding r)).trans hh
  have hwu : look w.st.rcu.unconfirmed r = look s.rcu.unconfirmed r := congrArg Standing.unconfirmed (hstanding r)
  have hhigher : ¬ f.src < s.cfl.node → s.cfl.node < f.src := fun h =>
    lt_of_le_of_ne (not_lt.1 h) fun k => hfront.other k.symm
  have hdrops : look s.rcu.unconfirmed r = true ∨ f.src < s.cfl.node → ∀ q, (named f.src r (some (i, n)) w.st).1.standing q =
      if q = r then ⟨(s.viewOf r).install f.src (some (i, n)), none, false⟩ else s.standing q := fun h q => by
    rw [named_claim_drops hwh (by rw [hwu, hwnode]; exact h), hstanding, show w.st.viewOf r = s.viewOf r from
      congrArg Standing.view (hstanding r)]
  have hkeeps : look s.rcu.unconfirmed r = false → s.cfl.node < f.src →
      (named f.src r (some (i, n)) w.st).1.rcu = { w.st.rcu with beaconOwed := true } := fun hc hn =>
    named_claim_keeps hwh (hwu.trans hc) (by rw [hwnode]; exact not_lt.2 hn.le)
  refine ⟨_, hexec, fun h => ?_, fun hc hn => ?_, fun q hq => ?_, ?_⟩
  · have hr := (hfollows.rcu_standing r).trans ((hdrops h r).trans (if_pos rfl))
    exact ⟨congrArg Standing.held hr, congrArg Standing.unconfirmed hr, congrArg Standing.view hr⟩
  · refine ⟨?_, ?_, ?_⟩
    · rw [hfollows.holdings, hkeeps hc hn, ← hheard.rcu]
      exact hresumed.holdings
    · rw [hfollows.view, hkeeps hc hn, ← hheard.rcu]
      exact hresumed.view
    · rw [hfollows.beaconOwed, hkeeps hc hn]
  · have hs : (named f.src r (some (i, n)) w.st).1.standing q = s.standing q := by
      by_cases h : look s.rcu.unconfirmed r = true ∨ f.src < s.cfl.node
      · rw [hdrops h, if_neg hq]
      · obtain ⟨hc, hn⟩ := not_or.1 h
        have hrcu := hkeeps (Bool.eq_false_iff.2 hc) (hhigher hn)
        exact (standing_of_rcu (s := { w.st with rcu := { w.st.rcu with beaconOwed := true } }) hrcu q).trans (hstanding q)
    have ht := (hfollows.rcu_standing q).trans hs
    exact ⟨congrArg Standing.held ht, congrArg Standing.view ht⟩
  · intro a clash lost ha hclash hlost hheld hqueue hwaiter hawait hclaims hparts
    subst ha hclash hlost
    obtain rfl : w = Work.start u := hw.symm.trans (resumeHeld_none (hheard.held.trans hheld))
    have hundisputed : s.Undisputed r := ⟨hwaiter, hqueue, hawait, hclaims, hparts⟩
    have hrun : u.running = true := by
      rw [State.running, hheard.cfl]
      exact hfront.running
    have hconfig : u.cfl.config = s.cfl.config := congrArg Cfl.config hheard.cfl
    have hrecord : u.fcu.record = s.fcu.record := hu ▸ advance_record dt s
    obtain ⟨t, ht⟩ : ∃ t, t = finish (claimHeard f.src r i n (Work.start u)) := ⟨_, rfl⟩
    rw [← ht]
    -- The holding lost, yielded or kept.
    let v := u.claimedFrom r f.src i n
    have hv : Undisturbed s v := hheard.undisturbed.trans (dropped_undisturbed _ _ _)
    have hvrun : v.running = true := hrun
    have hvconfig : v.cfl.config = s.cfl.config := hconfig
    have hvclaims : v.rcu.claims = s.rcu.claims :=
      (congrArg Rcu.claims hheard.rcu : u.rcu.claims = s.rcu.claims)
    have hlost : look s.rcu.unconfirmed r = true → Dropped e r .resetLostTrunk s v t := fun hc =>
      finish_claimHeard_drops hundisputed hv hrun hconfig (fun _ => hrecord) hvclaims (named_loses hwh (hwu.trans hc)) ht
    have hyielded : look s.rcu.unconfirmed r = false → f.src < s.cfl.node → Dropped e r .claimClash s (v.clashed e r) t :=
      fun hc hn => by
        refine finish_claimHeard_drops (q := .claimClash) hundisputed (hv.trans (clashed_undisturbed e r v)) ?_ ?_ nofun ?_
          (named_yielded hwh (hwu.trans hc) (by rw [hheard.cfl]; exact hn)) ht
        · rw [State.running, State.clashed, captureEntry_cfl]
          exact hrun
        · rw [State.clashed, captureEntry_cfl]
          exact hconfig
        · rw [clashed_rcu]
          exact hvclaims
    have hkept : look s.rcu.unconfirmed r = false → s.cfl.node < f.src → t = oweBeacon (u.clashed e r) := fun hc hn =>
      ht.trans (finish_claimHeard_keeps (fun x => by rw [hheard.entry]; exact hawait x) hwh (hwu.trans hc)
        (by rw [hheard.cfl]; exact not_lt.2 hn.le))
    have hstays : (oweBeacon (u.clashed e r)).entry e = s.entry e :=
      (hheard.undisturbed.trans (clashed_undisturbed e r u)).entry e
    have hvheld : (∀ q, q ≠ r → look s.rcu.holdings q ≠ some e) → ∀ q, look v.rcu.holdings q ≠ some e := fun h q => by
      have hheldOf := congrArg Standing.held (claimedFrom_standing u r f.src i n q)
      rw [show look v.rcu.holdings q = _ from hheldOf]
      split
      · nofun
      · rw [standing_of_rcu hheard.rcu]
        exact h q ‹_›
    have hline : ∀ x : State, x.liu = u.liu → s.claimOnLine e = false → x.claimOnLine e = false := fun x hx hl => by
      rw [State.claimOnLine, hx]
      exact (hheard.claimOnLine e).trans hl
    refine ⟨fun hc => ?_, fun hc hn => ?_, fun hc hn => (hyielded hc hn).faults, fun hc hrest hopens =>
      ⟨(hlost hc).faults hrest hopens, (hlost hc).captures hrest hopens rfl⟩, fun hc h1 h2 h3 h4 => ?_, fun hs => ?_,
      fun hdrop hs hnone hl => ?_⟩
    · by_cases hn : f.src < s.cfl.node
      · rw [State.captures, (hyielded hc hn).record (.inl nofun)]
        exact clashed_captures hvrun hvconfig hrecord hheard.ne e r
      · rw [hkept hc (hhigher hn)]
        exact clashed_captures hrun hconfig hrecord hheard.ne e r
    · rw [hkept hc hn]
      exact hstays
    · rw [(hlost hc).record (.inr ?_)]
      · exact hrecord
      · unfold NetEntry.takesFault
        simp [h1, h2, h3, h4]
    · cases hc : look s.rcu.unconfirmed r with
      | true => exact (hlost hc).waits hs
      | false =>
        by_cases hn : f.src < s.cfl.node
        · exact (hyielded hc hn).waits hs
        · rw [hkept hc (hhigher hn)]
          exact hstays
    · cases hc : look s.rcu.unconfirmed r with
      | true => exact (hlost hc).frees hs (holding_false (hvheld hnone) (hline v rfl hl))
      | false =>
        refine (hyielded hc (hdrop.resolve_left (by rw [hc]; nofun))).frees hs (holding_false ?_ (hline _ ?_ hl))
        · rw [clashed_rcu]
          exact hvheld hnone
        · rw [State.clashed, captureEntry, capture_eq]
          rfl

end Sys2Proof.Machine
end

