-- ==== Sys2Proof/Proofs/OwnFramesSent.lean ====
section
/-! The card's CLAIM, RELEASE and BEACON sent without objection (R67, R73, R92, R93, R100, R101). -/

namespace Sys2Proof.Machine

/-! ### A trunk's inner connect (R67) -/

/-- An anchor that has its trunk and connects (R67). -/
def NetEntry.connectingTrunk (x : NetEntry) (k : Trunk) : NetEntry :=
  { x with state := .connectInner, resource := some (.trunk k), deadline := none }

/-- The relays of a closing wave are the entry's own (R13). -/
theorem ownRelays_relay (e : Entry) (rs : List Relay) (s : State) (q : Relay) :
    (ownRelays e rs s).relay q = if q ∈ rs then { s.relay q with owner := some e } else s.relay q := by
  unfold ownRelays
  induction rs generalizing s with
  | nil => simp
  | cons r rs ih =>
    rw [List.foldl_cons, ih]
    by_cases hq : q = r
    · subst hq
      by_cases hm : q ∈ rs <;> simp [hm, State.relay, State.setRelay]
    · have hset : (s.setRelay r { s.relay r with owner := some e }).relay q = s.relay q :=
        look_put_ne _ _ (Ne.symm hq)
      rw [hset]
      by_cases hm : q ∈ rs <;> simp [hm, hq]

section
variable {e : Entry} {w : Work} {k : Trunk}

/-- The event once the anchor of trunk k connects, before its wave is built. -/
def Work.connecting (e : Entry) (k : Trunk) (w : Work) : Work :=
  { w with st := w.st.setEntry e ((w.ent e).connectingTrunk k), pass := true }

theorem connectInner_trunk (h : qualifying (w.connecting e k).st e .innerConnect ≠ []) :
    connectInner e (w.modEnt e (fun x => { x with resource := some (.trunk k) })) =
      buildWave e .innerConnect (w.connecting e k) := by
  have hset : (((w.modEnt e (fun x => { x with resource := some (.trunk k) })).setState e .connectInner).modEnt e
      (fun x => { x with deadline := none })) = w.connecting e k := by
    simp only [Work.connecting, Work.setState, Work.modEnt, State.setEntry_entry_same, setEntry_setEntry]
    rfl
  unfold connectInner
  dsimp only
  rw [hset, if_pos (buildWave_inFlight h)]

/-- The anchor of a trunk whose crosspoints are all OPEN connects with its inner wave behind those that wait (R67, R109). -/
theorem finish_connectsTrunk {closes : List Relay} (hn : w.st.noOtherWaiter e) (hj : w.joining = []) (hs : w.serve = false)
    (hq : w.st.wsu.queue ≠ []) (hm : (w.ent e).monitor ≠ .claiming)
    (hc : closes = (w.ent e).pins.map (fun p => relayX p k) ++ [relayA k]) (hopen : ∀ q ∈ closes, (w.st.relay q).state = .opened)
    {t : State} (ht : t = finish (connectInner e (w.modEnt e (fun x => { x with resource := some (.trunk k) })))) :
    t.entry e = (w.ent e).connectingTrunk k ∧ (∀ x, x ≠ e → t.entry x = w.ent x) ∧
      (∀ q ∈ closes, (t.relay q).owner = some e) ∧
      t.wsu.queue = w.st.wsu.queue ++ [newWave e ((w.ent e).connectingTrunk k) .innerConnect closes] := by
  let v := w.connecting e k
  have hent : v.st.entry e = (w.ent e).connectingTrunk k := State.setEntry_entry_same _ _ _
  have hqual : qualifying v.st e .innerConnect = closes := by
    rw [qualifying_closing rfl, hent]
    have hrelays : phaseRelays ((w.ent e).connectingTrunk k) .innerConnect = closes := hc.symm
    rw [hrelays]
    exact List.filter_eq_self.2 fun q hq => decide_eq_true (hopen q hq)
  have hne : closes ≠ [] := by
    rw [hc]
    simp
  have hwaiter : (buildWave e .innerConnect v).st.noWaiter := by
    refine noWaiter_of_put_other (x := (w.ent e).connectingTrunk k) hn ?_ nofun hm
    rw [buildWave_ne]
    rfl
  have hends := finish_waits hwaiter (by rw [buildWave_serve]; exact hs) (by rw [buildWave_wsu]; exact hq)
  rw [connectInner_trunk (by rw [hqual]; exact hne), hends] at ht
  have hbuiltNe : (buildWave e .innerConnect v).st.ne.entries = put w.st.ne.entries e ((w.ent e).connectingTrunk k) := by
    rw [buildWave_ne]
    rfl
  have howned : (buildWave e .innerConnect v).st = ownRelays e closes v.st := by
    unfold buildWave
    rw [hqual]
    dsimp only
    rw [if_neg hne]
    rfl
  refine ⟨?_, fun x hx => ?_, fun q hq => ?_, ?_⟩
  · rw [ht]
    exact entry_of_put (s := w.st) hbuiltNe
  · rw [ht]
    exact entry_of_put_ne (s := w.st) hbuiltNe hx
  · have hrelay : t.relay q = (ownRelays e closes v.st).relay q := by
      rw [ht, ← howned]
      rfl
    rw [hrelay, ownRelays_relay, if_pos hq]
  · rw [ht]
    dsimp only
    rw [buildWave_wsu, buildWave_joining, hqual, if_neg hne, show v.joining = [] from hj, hent]
    rfl

/-! ### The CLAIM (R92) -/

theorem inRange_trunkResource (k : Trunk) : inRange 16 (trunkResource k).val = some k := by
  unfold inRange
  exact dif_pos k.isLt

theorem clearSent_resource {o : OwnFrame} (h : (∃ e r, o.owed = .claim e r) ∨ (∃ e r, o.owed = .release e r) ∨ o.owed = .beacon)
    (s : State) : clearSent o s = s := by
  unfold clearSent
  rcases h with ⟨e, r, h⟩ | ⟨e, r, h⟩ | h <;> rw [h] <;> exact ite_self _

theorem claimSent_core (e : Entry) (r : Resource) (b : Bool) (w : Work) :
    (claimSent e r b w).st.core = (addHolding e r ((w.ent e).site, (w.ent e).net) w.st).core := by
  unfold claimSent
  dsimp only
  split
  · exact trunkClaimed_core _ _ _
  · exact (handshake_core _ _).trans (monitorClaimed_core _ _ _)

/-- The holding of a CLAIM sent (R92). -/
theorem addHolding_standing (e : Entry) (r : Resource) (net : Site × NetId) (s : State) (q : Resource) :
    (addHolding e r net s).standing q = if q = r then
      ⟨{ s.viewOf r with holder := some s.cfl.node, net := some net, claimed := true, misses := 0, refreshed := false }, some e, false⟩
      else s.standing q := by
  unfold addHolding State.standing State.setView State.viewOf
  dsimp only
  rw [look_put, look_put, look_put]
  by_cases h : q = r
  · subst h
    simp
  · simp [h, Ne.symm h]

/-! ### The RELEASE (R93) -/

/-- The state in which a RELEASE of an own holding has left the holding and its view entry. -/
def State.released (r : Resource) (s : State) : State := (dropHolding r s).setView r ((dropHolding r s).viewOf r).clear

theorem released_standing (s : State) (r q : Resource) : (s.released r).standing q =
    if q = r then ⟨(s.viewOf r).clear, none, false⟩ else s.standing q := by
  split
  · rename_i h
    rw [h]
    exact drop_install_standing s r _
  · rename_i h
    exact drop_install_standing_ne s _ (Ne.symm h)

theorem releaseSent_held {r : Resource} (h : look w.st.rcu.holdings r = some e) : releaseSent e r w =
    tryFree e (watch r { w with st := w.st.released r, pass := true }) := by
  unfold releaseSent
  dsimp only
  rw [if_pos (decide_eq_true h), decide_eq_true h, Bool.true_or, if_pos rfl, if_pos rfl]
  rfl

theorem tryFree_frees (hs : (w.ent e).state = .awaitOpened ∨ (w.ent e).state = .releaseBlocked) (hh : w.st.holding e = false) :
    tryFree e w = freeEntry e (closingReport e w) := if_pos ⟨hs, hh⟩

theorem tryFree_keeps (hh : w.st.holding e = true) : tryFree e w = w := if_neg fun k => by
  rw [hh] at k
  exact absurd k.2 nofun

/-- A view entry reported to the participants leaves an entry apart that takes no fault. -/
theorem Apart.watch {s : State} (h : Apart e s w) (hf : (s.entry e).takesFault = false) (r : Resource) :
    Apart e s (Machine.watch r w) := by
  have hstep : ∀ (v : Work) (x : Entry), Apart e s v → Apart e s (watchEntry r x v) := fun v x hv => by
    refine Apart.ite ?_ hv
    by_cases hx : x = e
    · subst hx
      rw [fault_untaken (by rw [hv.entry]; exact hf)]
      exact hv
    · exact hv.fault hx _ _ _
  rw [watch_eq]
  exact List.foldlRecOn (motive := Apart e s) _ _ h fun v hv x _ => hstep v x hv

/-- The event of a RELEASE sent, before the participants of its trunk are told. -/
def Work.releasing (r : Resource) (u : State) : Work := { Work.start u with st := u.released r, pass := true }

/-- What the RELEASE of a holding leaves where its entry is in its handshake, once the participants have been told. -/
structure Leaves (e : Entry) (r : Resource) (u : State) (v : Work) : Prop where
  apart : Apart e u v
  state : (v.ent e).state = .awaitOpened ∨ (v.ent e).state = .releaseBlocked
  holdings : ∀ q, look v.st.rcu.holdings q = if q = r then none else look u.rcu.holdings q
  line : v.st.claimOnLine e = false

theorem watch_leaves {r : Resource} {u : State} (hn : u.noWaiter) (hown : u.liu.own = none)
    (hs : (u.entry e).state = .awaitOpened ∨ (u.entry e).state = .releaseBlocked) :
    Leaves e r u (watch r (Work.releasing r u)) := by
  have hcore := watch_core r (Work.releasing r u)
  have hapart : Apart e u (Work.releasing r u) := by
    refine ⟨?_, rfl, rfl, fun _ => Iff.rfl, hn, nofun, nofun⟩
    rcases hs with hs | hs <;> rw [hs] <;> exact ⟨nofun, nofun⟩
  have hwatched := hapart.watch (by
    rw [NetEntry.takesFault]
    rcases hs with hs | hs <;> rw [hs] <;> rfl) r
  refine ⟨hwatched, by rw [hwatched.entry]; exact hs, fun q => ?_, ?_⟩
  · rw [(Follows.of_core hcore).holdings]
    refine (congrArg Standing.held (released_standing u r q)).trans ?_
    split <;> rfl
  · have hnone := (Follows.of_core hcore).own_none hown
    rw [State.claimOnLine, hnone]

/-- The entry holds something else: it stands. -/
theorem Leaves.keeps {r q : Resource} {u : State} {v : Work} (h : Leaves e r u v) (hq : q ≠ r)
    (hh : look u.rcu.holdings q = some e) : (finish (tryFree e v)).entry e = u.entry e := by
  rw [tryFree_keeps (held_mem (r := q) (by rw [h.holdings, if_neg hq]; exact hh))]
  exact h.apart.finish.1

/-- The entry holds nothing else: it is FREE, with its closing report (R73). -/
theorem Leaves.frees {r : Resource} {u : State} {v : Work} (h : Leaves e r u v)
    (hnone : ∀ q, q ≠ r → look u.rcu.holdings q ≠ some e) {t : State} (ht : t = finish (tryFree e v)) :
    (t.entry e).state = .free ∧ (∀ p, look t.ne.binding p ≠ some e) ∧
      look t.ne.status e = (u.entry e).closingMark (look u.ne.status e) := by
  obtain ⟨hapart, hstate, hholdings, hline⟩ := h
  have hholding : v.st.holding e = false := holding_false (fun q => by
    rw [hholdings]
    split
    · nofun
    · exact hnone q ‹_›) hline
  obtain ⟨x, hx⟩ : ∃ x, x = freeEntry e (closingReport e v) := ⟨_, rfl⟩
  have hacts : ActsOf e v x := hx ▸ (ActsOf.closingReport e _).trans (.freeEntry e _)
  have hxent : x.st.entry e = NetEntry.free := hx ▸ freeEntry_entry
  have hxjoining : x.joining = v.joining := hx ▸ (freeEntry_flags e _).1.trans (closingReport_flags e _).1
  have hxapart : Apart e x.st x := by
    refine ⟨by rw [hxent]; exact ⟨nofun, nofun⟩, rfl, rfl, fun _ => Iff.rfl, hacts.noWaiter hapart.noWaiter,
      fun y hy => hapart.joining y (hxjoining ▸ hy), fun hserve y hy => ?_⟩
    rw [hacts.serve] at hserve
    rw [hacts.queue] at hy
    exact hapart.queue hserve y hy
  obtain ⟨htentry, htstatus, htbinding⟩ := hxapart.finish
  rw [tryFree_frees hstate hholding, ← hx] at ht
  rw [ht]
  refine ⟨by rw [htentry, hxent]; rfl, fun p hp => ?_, htstatus.trans ?_⟩
  · have hbound := (htbinding p).1 hp
    rw [hx] at hbound
    exact freeEntry_unbound p hbound
  · rw [hx, freeEntry_status, closingReport_ne]
    dsimp only
    rw [look_put_same, hapart.entry, hapart.status]

end

/-! ### The frames sent -/

section
variable {o : OwnFrame} {e : Entry} {r : Resource} {u : State}

theorem sent_claim (h : o.owed = .claim e r) : sent o (Work.start u) = claimSent e r o.withdrawn (Work.start u) := by
  unfold sent
  rw [Work.upd, clearSent_resource (.inl ⟨e, r, h⟩), h]

/-- A CLAIM of the trunk that its anchor waits for connects it (R67, R92). -/
theorem sent_claim_connects {k : Trunk} (h : o.owed = .claim e (trunkResource k)) (hs : (u.entry e).state = .awaitResource) :
    sent o (Work.start u) = connectInner e
      (({ (Work.start u).upd (addHolding e (trunkResource k) ((u.entry e).site, (u.entry e).net)) with pass := true } : Work).modEnt e
        (fun x => { x with resource := some (.trunk k) })) := by
  have hent : (({ (Work.start u).upd (addHolding e (trunkResource k) ((u.entry e).site, (u.entry e).net)) with
      pass := true } : Work).ent e).state = .awaitResource := hs
  rw [sent_claim h]
  unfold claimSent
  dsimp only
  rw [inRange_trunkResource]
  unfold trunkClaimed
  dsimp only
  rw [show (Work.start u).ent e = u.entry e from rfl, hent]

theorem sent_release (h : o.owed = .release e r) (hh : look u.rcu.holdings r = some e) : sent o (Work.start u) =
    tryFree e (watch r (Work.releasing r u)) := by
  unfold sent
  rw [Work.upd, clearSent_resource (.inr (.inl ⟨e, r, h⟩)), h]
  exact releaseSent_held hh

theorem sent_beacon (h : o.owed = .beacon) : sent o (Work.start u) = Work.start (beaconSent u) := by
  unfold sent
  rw [Work.upd, clearSent_resource (.inr (.inr h)), h]
  rfl

end

/-- Settles O19: the holding added or gone, and the entry that connects or is FREE. -/
theorem ownClaimReleaseBeaconSent : Obligations.OwnClaimReleaseBeaconSent := by
  intro dt s u o hrun hown hu
  have hpassed := advance_passed dt s
  have hexec : exec (.objectionSlotRead dt false) s = .next (finish (sent o (Work.start u))) := by
    rw [exec_ownOutcome (driven := false) hrun hown rfl, hu]
    rfl
  have hne : u.ne = s.ne := by rw [hu]; exact hpassed.ne
  have hrcu : u.rcu = s.rcu := by rw [hu]; exact hpassed.rcu
  have hcfl : u.cfl = s.cfl := by rw [hu]; exact hpassed.cfl
  have hqueue : u.wsu.queue = s.wsu.queue := by rw [hu]; exact hpassed.queue
  have hrelay : ∀ q, u.relay q = s.relay q := fun q => by rw [hu]; exact hpassed.relay q
  have hentry : ∀ x, u.entry x = s.entry x := fun x => by rw [State.entry, hne]; rfl
  refine ⟨_, hexec, fun e r ho => ?_, fun e a k closes ha ho hstate hm hn hq hc hopen => ?_, fun e r a ha ho hh hn hs => ?_,
    fun e r ho hh => ?_, fun ho => ?_⟩
  · have hfollows := finish_follows_of (claimSent_core e r o.withdrawn (Work.start u))
    have hstands := fun q => (hfollows.rcu_standing q).trans (addHolding_standing e r _ u q)
    have hr := (hstands r).trans (if_pos rfl)
    rw [← hentry, ← hcfl, ← hrcu, sent_claim ho]
    refine ⟨fun q => ?_, congrArg Standing.unconfirmed hr, (congrArg Standing.view hr).trans ?_, fun q hq => ?_⟩
    · refine (congrArg Standing.held (hstands q)).trans ?_
      split <;> rfl
    · rw [show s.viewOf r = u.viewOf r by rw [State.viewOf, ← hrcu]; rfl]
      rfl
    · refine (congrArg Standing.view ((hstands q).trans (if_neg hq))).trans ?_
      exact congrArg (fun c : Rcu => look c.view q) hrcu
  · subst ha
    rw [← hentry] at hm hstate hc ⊢
    obtain ⟨hown, hothers, howned, hwaits⟩ := finish_connectsTrunk
      (w := { (Work.start u).upd (addHolding e (trunkResource k) ((u.entry e).site, (u.entry e).net)) with pass := true })
      (k := k) (closes := closes) (show u.noOtherWaiter e from fun x hx => by
        rw [hentry]
        exact hn x hx) rfl rfl (by rw [← hqueue] at hq; exact hq) hm hc
      (fun q hq => (congrArg RelayRec.state (hrelay q)).trans (hopen q hq)) rfl
    rw [sent_claim_connects ho hstate]
    refine ⟨hown, fun x hx => (hothers x hx).trans (hentry x), howned, hwaits.trans ?_⟩
    rw [← hqueue]
    rfl
  · subst ha
    have hleaves := watch_leaves (r := r) (u := u) (noWaiter_of_entries hn (congrArg Ne.entries hne)) (by rw [hu])
      (by rw [hentry]; exact hs)
    rw [sent_release ho (by rw [hrcu]; exact hh), ← hentry, ← hne, ← hrcu]
    exact ⟨fun hnone => hleaves.frees hnone rfl, fun ⟨q, hq, hqe⟩ => hleaves.keeps hq hqe⟩
  · have hfollows := finish_follows_of (s := u.released r)
      ((tryFree_core e (watch r (Work.releasing r u))).trans (watch_core r _))
    have hstands := fun q => (hfollows.rcu_standing q).trans (released_standing u r q)
    have hr := congrArg Standing.view ((hstands r).trans (if_pos rfl))
    have hview : ∀ q, u.viewOf q = s.viewOf q := fun q => congrArg (fun c : Rcu => look c.view q) hrcu
    rw [sent_release ho (by rw [hrcu]; exact hh), ← hrcu]
    refine ⟨fun q => ?_, congrArg ViewEntry.holder hr, (congrArg ViewEntry.cooling hr).trans ?_, fun q hq => ?_⟩
    · refine (congrArg Standing.held (hstands q)).trans ?_
      split <;> rfl
    · rw [← hview]
      rfl
    · exact (congrArg Standing.view ((hstands q).trans (if_neg hq))).trans (hview q)
  · rw [sent_beacon ho, finish_start]
    rfl

end Sys2Proof.Machine
end

