-- ==== Sys2Proof/Proofs/HoldRefused.lean ====
section
/-! A connect hold that runs out with nothing pulsed (R121, R134): the wave is discarded, the disconnect finds nothing to open, and
the entry ends its course with its refusal (R71, R72, R75). -/

namespace Sys2Proof.Machine

/-! ### An entry with no relay CLOSED -/

/-- The entry owns no CLOSED relay: its disconnect opens nothing (R14). -/
def State.noneClosed (s : State) (e : Entry) : Prop := ∀ r, (s.relay r).owner = some e → (s.relay r).state ≠ .closed

section
variable {e : Entry} {w : Work}

theorem qualifying_noneClosed {s : State} {ph : Phase} (hp : ph.closes = false) (h : s.noneClosed e) : qualifying s e ph = [] := by
  rw [qualifying_opening hp, List.filter_eq_nil_iff]
  intro r _
  by_cases ho : (s.relay r).owner = some e
  · simp [h r ho]
  · simp [ho]

theorem State.noneClosed.dropListed {s : State} (h : s.noneClosed e) (rs : List Relay) : (s.dropListed rs).noneClosed e := by
  intro r ho
  rw [State.dropListed_relay] at ho ⊢
  split at ho
  · cases ho
  · rw [if_neg ‹_›]
    exact h r ho

theorem State.noneClosed.buildWave {ph : Phase} (hp : ph.closes = false) (h : w.st.noneClosed e) :
    (Machine.buildWave e ph w).st.noneClosed e := by
  have hst : (Machine.buildWave e ph w).st = w.st.dropListed (unpulsedOwned w.st e ph) := by
    unfold Machine.buildWave
    dsimp only
    rw [hp]
    split <;> rfl
  rw [hst]
  exact h.dropListed _

/-- The disconnect of an entry with no relay CLOSED, before the end of its course (R71). -/
def Work.disconnected (e : Entry) (w : Work) : Work :=
  Machine.buildWave e .innerDisconnect ((Machine.buildWave e .outerDisconnect w).setState e .disconnectInner)

/-- Both disconnect phases pass at once where the entry has no relay CLOSED (R14, R71). -/
theorem proceedOuter_ends (hi : w.inFlight e = false) (hv : w.st.verifying e = false) (hc : w.st.noneClosed e)
    (hs : (w.ent e).state = .disconnectOuter) (hf : (w.ent e).headingToFaulted = false) :
    proceedOuter e w = endCourse e (w.disconnected e) := by
  let b := buildWave e .outerDisconnect w
  have hbent : b.ent e = w.ent e := by
    rw [Work.ent, State.entry, buildWave_ne]
    rfl
  have hbidle : b.inFlight e = false := (buildWave_idle (qualifying_noneClosed rfl hc)).trans hi
  have hinner : qualifying (b.setState e .disconnectInner).st e .innerDisconnect = [] :=
    qualifying_noneClosed rfl (hc.buildWave (ph := .outerDisconnect) rfl)
  have hidle : (w.disconnected e).inFlight e = false := (buildWave_idle hinner).trans hbidle
  have hstate : ((w.disconnected e).ent e).state = .disconnectInner := by
    rw [Work.ent, State.entry, Work.disconnected, buildWave_ne]
    exact congrArg NetEntry.state (State.setEntry_entry_same b.st e { b.ent e with state := .disconnectInner })
  rw [proceedOuter_passes hi hv (qualifying_noneClosed rfl hc), outerDone]
  rw [show (buildWave e .outerDisconnect w).ent e = w.ent e from hbent, hs]
  dsimp only
  rw [hf]
  show disconnectInner e (b.setState e .disconnectInner) = _
  unfold disconnectInner
  dsimp only
  rw [show buildWave e .innerDisconnect (b.setState e .disconnectInner) = w.disconnected e from rfl, hidle, hstate]
  rfl

theorem disconnected_ne : (w.disconnected e).st.ne = { w.st.ne with
    entries := put w.st.ne.entries e { w.ent e with state := .disconnectInner } } := by
  have hent : (buildWave e .outerDisconnect w).st.entry e = w.ent e := by
    rw [State.entry, buildWave_ne]
    rfl
  rw [Work.disconnected, buildWave_ne]
  show ({ (buildWave e .outerDisconnect w).st.ne with
    entries := put (buildWave e .outerDisconnect w).st.ne.entries e { (buildWave e .outerDisconnect w).st.entry e with
      state := .disconnectInner } } : Ne) = _
  rw [hent, buildWave_ne]

theorem disconnected_core : (w.disconnected e).st.core = w.st.core := by
  rw [Work.disconnected, buildWave_core, Work.setState_core, buildWave_core]

theorem disconnected_waves : (w.disconnected e).st.waves = w.st.waves := by
  rw [Work.disconnected, buildWave_waves]
  exact buildWave_waves _ _ _

theorem disconnected_flags (hc : w.st.noneClosed e) : (w.disconnected e).joining = w.joining ∧ (w.disconnected e).serve = w.serve := by
  have hinner : qualifying ((buildWave e .outerDisconnect w).setState e .disconnectInner).st e .innerDisconnect = [] :=
    qualifying_noneClosed rfl (hc.buildWave (ph := .outerDisconnect) rfl)
  refine ⟨?_, ?_⟩
  · rw [Work.disconnected, buildWave_joining, if_pos hinner]
    show (buildWave e .outerDisconnect w).joining = _
    rw [buildWave_joining, if_pos (qualifying_noneClosed rfl hc)]
  · rw [Work.disconnected, buildWave_serve]
    exact buildWave_serve _ _ _

/-! ### The end of a refused entry (R72, R75) -/

/-- A refused anchor ends its course with no further report. -/
theorem endCourse_refused (hrole : (w.ent e).role = .anchor) (hr : (w.ent e).refused = true) :
    (endCourse e w).st.ne.status = w.st.ne.status ∧ (endCourse e w).joining = w.joining ∧ (endCourse e w).serve = w.serve := by
  by_cases h : (w.ent e).request = .localBus ∨ w.st.holding e = false
  · rw [endCourse_anchor_free hrole h, if_pos hr]
    exact ⟨freeEntry_status, freeEntry_flags e w⟩
  · obtain ⟨hrequest, hholding⟩ := not_or.1 h
    rw [endCourse_anchor_awaits hrole hrequest (Bool.not_eq_false _ ▸ hholding)]
    by_cases ha : (w.ent e).awaited = []
    · rw [awaitOpened_refused ha hr (Bool.not_eq_false _ ▸ hholding)]
      refine ⟨?_, rfl, rfl⟩
      dsimp only
      rw [oweReleases_ne]
      rfl
    · rw [awaitOpened_waits ha]
      exact ⟨rfl, rfl, rfl⟩

end

/-! ### The held wave discarded (R121) -/

/-- A connecting entry of whose net nothing has been pulsed and whose connect wave is held. -/
structure Unconnected (e : Entry) (s : State) : Prop where
  noWaiter : s.noWaiter
  unpulsed : s.unpulsed e
  verification : look s.snu.verifications e = none
  state : (s.entry e).state = .connectInner ∨ (s.entry e).state = .connectOuter
  pending : (s.entry e).releasePending = none
  held : ∃ v ∈ s.wsu.held, v.owner = .entry e
  connects : ∀ v ∈ s.wsu.held, v.owner = .entry e → v.phase.connects = true ∧ v.done = []

/-- The reason of such an entry may change, and what concerns neither relays nor waves. -/
theorem Unconnected.of_parts {e : Entry} {s u : State} (h : Unconnected e s) (hrm : u.rm = s.rm) (hsnu : u.snu = s.snu)
    (hwsu : u.wsu = s.wsu) (hn : u.noWaiter) {q : Option Reason} (he : u.entry e = { s.entry e with reason := q }) :
    Unconnected e u := by
  obtain ⟨-, ⟨hwaves, hrecovery, hopened⟩, hverification, hstate, hpending, hheld, hconnects⟩ := h
  rw [← hwsu] at hwaves hrecovery hheld hconnects
  rw [← hsnu] at hverification
  have hrelay : ∀ r, u.relay r = s.relay r := fun r => by rw [State.relay, hrm]; rfl
  exact ⟨hn, ⟨hwaves, hrecovery, fun r => by rw [hrelay]; exact hopened r⟩, hverification, by rw [he]; exact hstate,
    by rw [he]; exact hpending, hheld, hconnects⟩

section
variable {e : Entry} {w : Work}

theorem discardHeld_unpulsed (hheld : ∃ v ∈ w.st.wsu.held, v.owner = .entry e)
    (hc : ∀ v ∈ w.st.wsu.held, v.owner = .entry e → v.phase.connects = true ∧ v.done = []) : ∃ rs,
      discardHeld e w = { w with
        st := ({ clearHold e w.st with wsu := { w.st.wsu with
          held := w.st.wsu.held.filter fun v => !(decide (v.owner = .entry e) && v.phase.connects) } } : State).dropListed rs
        pass := true } := by
  obtain ⟨v, hv, hvo⟩ := hheld
  have hsome : (w.st.wsu.held.find? fun v => decide (v.owner = .entry e) && v.phase.connects).isSome = true := by
    rw [List.find?_isSome]
    exact ⟨v, hv, by simp [hvo, (hc v hv hvo).1]⟩
  obtain ⟨a, ha⟩ := Option.isSome_iff_exists.1 hsome
  have hmem := List.mem_of_find?_eq_some ha
  have howner : a.owner = .entry e := by
    have := List.find?_some ha
    simp only [Bool.and_eq_true, decide_eq_true_eq] at this
    exact this.1
  refine ⟨a.todo.map Prod.fst, ?_⟩
  unfold discardHeld
  dsimp only
  rw [ha]
  dsimp only
  unfold cutWave
  rw [(hc a hmem howner).2]
  rfl

/-- Release-pending of such an entry is taken at once, and its disconnect opens nothing. -/
theorem setReleasePending_unconnected (h : Unconnected e w.st) (hreason : (w.ent e).reason = some .holdTimeout)
    (hj : w.joining = []) :
    ∃ v : Work, setReleasePending e .plain w = endCourse e v ∧ v.st.ne = { w.st.ne with
        entries := put w.st.ne.entries e { w.ent e with state := .disconnectInner } } ∧ v.st.core = w.st.core ∧
      v.joining = [] ∧ v.serve = w.serve ∧ (∀ x ∈ v.st.wsu.held, x.owner ≠ .entry e) ∧ look v.st.ilu.holds e = none := by
  obtain ⟨hn, ⟨hwaves, hrecovery, hopened⟩, hverification, hstate, hpending, hheld, hconnects⟩ := h
  let p := w.modEnt e (NetEntry.pends .plain)
  have hpent : p.ent e = (w.ent e).pends .plain := State.setEntry_entry_same _ _ _
  obtain ⟨rs, hdiscard⟩ := discardHeld_unpulsed (w := p) hheld hconnects
  generalize hd : discardHeld e p = d at hdiscard
  have heq := State.dropListed_eq rs ({ clearHold e p.st with wsu := { p.st.wsu with
    held := p.st.wsu.held.filter fun v => !(decide (v.owner = .entry e) && v.phase.connects) } } : State)
  have hdst := congrArg Work.st hdiscard
  dsimp only at hdst
  have hdne : d.st.ne = p.st.ne := by rw [hdst, heq]; rfl
  have hdent : d.ent e = (w.ent e).pends .plain := by
    rw [← hpent, Work.ent, State.entry, hdne]
    rfl
  have hdwsu : d.st.wsu = { w.st.wsu with
      held := w.st.wsu.held.filter fun v => !(decide (v.owner = .entry e) && v.phase.connects) } := by
    rw [hdst, heq]
    rfl
  have hdilu : look d.st.ilu.holds e = none := by
    rw [hdst, heq]
    exact look_put_same _ _ _
  have hdheld : ∀ x ∈ d.st.wsu.held, x.owner ≠ .entry e := fun x hx ho => by
    rw [hdwsu] at hx
    obtain ⟨hmem, hkept⟩ := List.mem_filter.1 hx
    simp [ho, (hconnects x hmem ho).1] at hkept
  have hclosed : d.st.noneClosed e := by
    rw [hdst]
    refine State.noneClosed.dropListed (fun r ho hc => ?_) rs
    have := hopened r ho
    rw [show (w.st.relay r).state = .closed from hc] at this
    cases this
  have hidle : d.inFlight e = false := by
    refine inFlight_none (by rw [hdiscard]; exact hj) (fun v hv => ?_) fun q hq => hrecovery q (by rw [hdwsu] at hq; exact hq)
    rw [List.mem_append, List.mem_append] at hv
    rcases hv with (hv | hv) | hv
    · exact hwaves v (List.mem_append_left _ (by rw [hdwsu] at hv; exact hv))
    · exact hdheld v hv
    · exact hwaves v (List.mem_append_right _ (by rw [hdwsu] at hv; exact hv))
  have hreleased : ((w.ent e).pends .plain).released = { w.ent e with state := .disconnectOuter } := by
    rw [NetEntry.pends_plain, NetEntry.released]
    simp [show (w.ent e).releasePending = none from hpending]
  have hrent : (d.release e).ent e = { w.ent e with state := .disconnectOuter } := by
    rw [← hreleased, ← hdent]
    exact State.setEntry_entry_same _ _ _
  have hends := proceedOuter_ends (w := d.release e) hidle
    (by
      show (look d.st.snu.verifications e).isSome = false
      rw [hdst, heq]
      show (look w.st.snu.verifications e).isSome = false
      rw [hverification]
      rfl) hclosed (by rw [hrent]) (by
      rw [hrent]
      unfold NetEntry.headingToFaulted
      rw [hreason]
      rfl)
  obtain ⟨hact, -⟩ := setReleasePending_acts (w := w) (e := e) .plain rfl
  have hrelease : setReleasePending e .plain w = endCourse e ((d.release e).disconnected e) := by
    rw [hact hstate, show discardHeld e (w.modEnt e (NetEntry.pends .plain)) = d from hd, if_neg (by rw [hidle]; nofun),
      takeRelease_eq (by rw [hdent]; exact (hn e).2), hends]
  obtain ⟨hjoining, hserve⟩ := disconnected_flags (w := d.release e) hclosed
  have hwaves := disconnected_waves (w := d.release e) (e := e)
  rw [State.waves, State.waves, Prod.mk.injEq] at hwaves
  refine ⟨_, hrelease, ?_, ?_, ?_, ?_, ?_, ?_⟩
  · rw [disconnected_ne, hrent]
    show ({ d.st.ne with entries := put (put d.st.ne.entries e _) e _ } : Ne) = _
    rw [put_put, hdne]
    show ({ w.st.ne with entries := put (put w.st.ne.entries e _) e _ } : Ne) = _
    rw [put_put]
  · rw [disconnected_core]
    show (d.st.setEntry e _).core = _
    rw [State.setEntry_core, ← hd, discardHeld_core]
    exact State.setEntry_core _ _ _
  · rw [hjoining]
    show d.joining = []
    rw [hdiscard]
    exact hj
  · rw [hserve]
    show d.serve = _
    rw [hdiscard]
    rfl
  · rw [hwaves.1]
    exact hdheld
  · rw [hwaves.2]
    exact hdilu

end

/-! ### CONNECT_HOLD_EXPIRY (R134) -/

theorem owe_rm (e : Entry) (r : Report) (s : State) : (owe e r s).rm = s.rm := by
  have hparts := countReport_parts r { s with ne := { s.ne with status := put s.ne.status e (some r) } }
  rw [owe, renew_rm]
  simp [hparts]

/-- A refusal owed leaves the relays, the SNU and the waves alone. -/
theorem refusing_undisturbed (e : Entry) (r : Reason) (w : Work) : (w.refusing e r).st.rm = w.st.rm ∧
    (w.refusing e r).st.snu = w.st.snu ∧ (w.refusing e r).st.wsu = w.st.wsu := by
  let v := w.modEnt e (fun a => { a with reason := some r })
  have hrefused : (oweRefused e r v.st).rm = w.st.rm ∧ (oweRefused e r v.st).snu = w.st.snu ∧ (oweRefused e r v.st).wsu = w.st.wsu := by
    unfold oweRefused oweEntry
    split
    · exact ⟨rfl, rfl, rfl⟩
    · exact ⟨owe_rm _ _ _, owe_snu _ _ _, owe_wsu _ _ _⟩
  obtain ⟨hrm, hsnu, hwsu⟩ := hrefused
  unfold Work.refusing
  dsimp only
  split
  · exact ⟨(renew_rm _ _).trans hrm, (renew_snu _ _).trans hsnu, (renew_wsu _ _).trans hwsu⟩
  · exact ⟨hrm, hsnu, hwsu⟩

/-- The end of a course that builds no wave is the end of the event. -/
theorem finish_endCourse {e : Entry} {v : Work} (hn : v.st.noWaiter) (hj : (endCourse e v).joining = []) (hs : v.serve = false) :
    finish (endCourse e v) = (endCourse e v).st ∧ (endCourse e v).st.wsu = v.st.wsu ∧ (endCourse e v).st.ilu = v.st.ilu := by
  have hacts := ActsOf.endCourse e v
  have hwaves := endCourse_waves e v
  rw [State.waves, State.waves, Prod.mk.injEq] at hwaves
  exact ⟨finish_noWaiter (hacts.noWaiter hn) hj (hacts.serve.trans hs), hwaves⟩

/-- The hold of entry e is over and its net refused, from w to t (R134). -/
structure HoldRefused (e : Entry) (w : Work) (t : State) : Prop where
  held : ∀ v ∈ t.wsu.held, v.owner ≠ .entry e
  hold : look t.ilu.holds e = none
  status : look t.ne.status e = some ⟨(w.ent e).site, (w.ent e).net, .refused, .holdTimeout,
    (w.ent e).resource.map NetResource.code, none⟩

section
variable {e : Entry} {w : Work} {t : State}

/-- A participant refused for its hold is FREE (R72, R134). -/
theorem finish_connectHoldExpired_participant (h : Unconnected e w.st) (hj : w.joining = []) (hs : w.serve = false)
    (hrole : (w.ent e).role = .participant) (ht : t = finish (connectHoldExpired e w)) : HoldRefused e w t ∧
      (t.entry e).state = .free ∧ (∀ p, look t.ne.binding p ≠ some e) ∧ look t.ne.cancel e = look w.st.ne.cancel e := by
  let u := w.modEnt e (fun x => { x with reason := some .holdTimeout })
  have hue : u.ent e = { w.ent e with reason := some .holdTimeout } := State.setEntry_entry_same _ _ _
  have hnone : u.st.noWaiter := noWaiter_of_put h.noWaiter rfl (h.noWaiter e).1 (h.noWaiter e).2
  obtain ⟨v, hv, hvne, -, hvj, hvs, hvheld, hvhold⟩ :=
    setReleasePending_unconnected (h.of_parts (u := u.st) rfl rfl rfl hnone hue) (by rw [hue]) hj
  have hact : connectHoldExpired e w = endCourse e v := by
    rw [← hv]
    unfold connectHoldExpired
    rw [hrole]
  have hvent : v.ent e = { w.ent e with reason := some .holdTimeout, state := .disconnectInner } :=
    (entry_of_put (s := u.st) (congrArg Ne.entries hvne)).trans (by rw [hue])
  have hcourse : endCourse e v = freeEntry e (v.upd (oweEntry e .refused .holdTimeout)) := by
    have hrefused : v.upd (oweRefused e .holdTimeout) = v.upd (oweEntry e .refused .holdTimeout) := by
      unfold Work.upd oweRefused
      rw [if_neg (by rw [show v.st.entry e = _ from hvent]; nofun)]
    unfold endCourse
    dsimp only
    rw [hvent, hrole]
    exact congrArg (freeEntry e) hrefused
  have hvnone : v.st.noWaiter := noWaiter_of_put hnone (congrArg Ne.entries hvne) nofun (hnone e).2
  obtain ⟨hfinish, hwsu, hilu⟩ := finish_endCourse hvnone (by rw [hcourse]; exact hvj) (hvs.trans hs)
  rw [hact, hfinish] at ht
  subst ht
  refine ⟨⟨by rw [hwsu]; exact hvheld, by rw [hilu]; exact hvhold, ?_⟩, ?_⟩
  · rw [hcourse, freeEntry_status, Work.upd_st, oweEntry_ne]
    dsimp only
    rw [look_put_same, show v.st.entry e = _ from hvent]
  · rw [hcourse]
    refine ⟨congrArg NetEntry.state freeEntry_entry, freeEntry_unbound, ?_⟩
    rw [freeEntry_ne, Work.upd_st, oweEntry_ne, hvne]
    rfl

/-- An anchor refused for its hold ends its course by what it holds and whom it awaits (R72, R75, R134). -/
theorem finish_connectHoldExpired_anchor (h : Unconnected e w.st) (hj : w.joining = []) (hs : w.serve = false)
    (hrole : (w.ent e).role = .anchor) (ht : t = finish (connectHoldExpired e w)) : HoldRefused e w t ∧
      ((w.ent e).request ≠ .localBus → w.st.holding e = true → (w.ent e).awaited ≠ [] → (t.entry e).state = .awaitOpened ∧
        (t.entry e).deadline = some (laterMs w.st.now w.st.cfl.config.releaseWait) ∧ (t.entry e).reason = some .holdTimeout ∧
        look t.ne.cancel e = some ((w.ent e).site, (w.ent e).net)) := by
  let u := w.refusing e .holdTimeout
  have hune : u.st.ne = _ := refusing_ne (w := w) (e := e) (r := .holdTimeout) nofun
  have hue : u.ent e = { w.ent e with reason := some .holdTimeout } := refusing_ent nofun
  have hnone : u.st.noWaiter := (ActsOf.refusing e w .holdTimeout).noWaiter h.noWaiter
  obtain ⟨hrm, hsnu, hwsu⟩ := refusing_undisturbed e .holdTimeout w
  obtain ⟨hujoining, huserve⟩ := refusing_flags (e := e) (r := .holdTimeout) (w := w)
  obtain ⟨v, hv, hvne, hvcore, hvj, hvs, hvheld, hvhold⟩ :=
    setReleasePending_unconnected (h.of_parts (u := u.st) hrm hsnu hwsu hnone hue) (by rw [hue]) (hujoining.trans hj)
  have hact : connectHoldExpired e w = endCourse e v := by
    rw [← hv]
    unfold connectHoldExpired
    rw [hrole]
    dsimp only
    rw [abandon_eq, if_neg]
    rw [show (w.refusing e .holdTimeout).ent e = _ from hue]
    exact (h.noWaiter e).1
  have hvent : v.ent e = { w.ent e with reason := some .holdTimeout, state := .disconnectInner } :=
    (entry_of_put (s := u.st) (congrArg Ne.entries hvne)).trans (by rw [hue])
  obtain ⟨hstatus, hjoining, -⟩ := endCourse_refused (by rw [hvent]; exact hrole) (by rw [hvent]; rfl)
  have hvnone : v.st.noWaiter := noWaiter_of_put hnone (congrArg Ne.entries hvne) nofun (hnone e).2
  obtain ⟨hfinish, hwsu, hilu⟩ := finish_endCourse hvnone (hjoining.trans hvj) ((hvs.trans huserve).trans hs)
  rw [hact, hfinish] at ht
  subst ht
  refine ⟨⟨by rw [hwsu]; exact hvheld, by rw [hilu]; exact hvhold, ?_⟩, fun hrequest hholding hawaited => ?_⟩
  · rw [hstatus, hvne, hune]
    exact look_put_same _ _ _
  · have hcore : v.st.core = w.st.core := hvcore.trans refusing_core
    have hnow : v.st.now = w.st.now := (Follows.of_core hcore).field (fun s => s.now) fun _ => rfl
    rw [endCourse_anchor_awaits (by rw [hvent]; exact hrole) (by rw [hvent]; exact hrequest)
      ((holding_of_core hcore e).trans hholding), awaitOpened_waits (by rw [hvent]; exact hawaited)]
    dsimp only
    rw [State.setEntry_entry_same, hvent, hnow, (Follows.of_core hcore).cfl]
    refine ⟨rfl, rfl, rfl, ?_⟩
    show look v.st.ne.cancel e = _
    rw [hvne, hune]
    dsimp only
    rw [if_neg hrequest]
    exact look_put_same _ _ _

end

/-- Settles O44: the wave discarded, REFUSED, and the end of the entry by its role. -/
theorem connectHoldExpiryRefuses : Obligations.ConnectHoldExpiryRefuses := by
  intro dt s s1 e h hs1 hrun hhold hheld hconnect hgrace hreached hn hqueue hunpulsed hverification hstate hpending hwave hconnects
  have hpassed : Passed s s1 := hs1 ▸ advance_passed dt s
  have hent : (Work.start s1).ent e = s.entry e := hpassed.entry e
  have hhold1 : look s1.ilu.holds e = some h := by rw [hpassed.ilu]; exact hhold
  have hexec : exec (.connectHoldExpiry dt e) s = .next (finish (connectHoldExpired e (Work.start s1))) := by
    have hexpired : holdExpired e (Work.start s1) = connectHoldExpired e (Work.start s1) := by
      unfold holdExpired
      rw [Work.start_st, hhold1]
      exact if_pos ⟨hconnect, hgrace⟩
    rw [← hexpired]
    refine event_due (due := fun s => s.holdDue e && s.connectHold e) hs1 ?_ (holdExpired e)
    unfold State.holdDue State.connectHold
    rw [hhold1, hpassed.running]
    simp [hrun, hheld, hconnect, hgrace, hreached]
  have hunconnected : Unconnected e s1 := by
    obtain ⟨hwaves, hrecovery, hopened⟩ := hunpulsed
    rw [← hpassed.queue, ← hpassed.settling] at hwaves
    rw [← hpassed.recovery] at hrecovery
    rw [← hpassed.entry] at hstate hpending
    rw [← hpassed.held] at hwave hconnects
    exact ⟨hpassed.noWaiter hn, ⟨hwaves, hrecovery, fun r => by rw [hpassed.relay]; exact hopened r⟩,
      by rw [hpassed.snu]; exact hverification, hstate, hpending, hwave, hconnects⟩
  obtain ⟨t, ht⟩ : ∃ t, t = finish (connectHoldExpired e (Work.start s1)) := ⟨_, rfl⟩
  rw [← ht] at hexec
  refine ⟨t, hexec, ht ▸ finish_follows_of (connectHoldExpired_core e _), ?_⟩
  rw [← hent]
  cases hrole : ((Work.start s1).ent e).role with
  | participant =>
    obtain ⟨⟨hheldOut, hholdOut, hstatus⟩, hfree, hbinding, hcancel⟩ :=
      finish_connectHoldExpired_participant hunconnected rfl rfl hrole ht
    exact ⟨hheldOut, hholdOut, hstatus, fun _ => ⟨hfree, hbinding, by rw [← hpassed.ne]; exact hcancel⟩, nofun⟩
  | anchor =>
    obtain ⟨⟨hheldOut, hholdOut, hstatus⟩, hawaits⟩ := finish_connectHoldExpired_anchor hunconnected rfl rfl hrole ht
    refine ⟨hheldOut, hholdOut, hstatus, nofun, fun _ hrequest hheld hawaited => ?_⟩
    have hholding : s1.holding e = true := by
      rw [State.holding, held_of_holdings (congrArg Rcu.holdings hpassed.rcu)]
      cases hh : s.held e with
      | nil => exact absurd hh hheld
      | cons => rfl
    rw [← hpassed.cfl]
    exact hawaits hrequest hholding hawaited

end Sys2Proof.Machine
end

