-- ==== Sys2Proof/Proofs/SenseEnds.lean ====
section
/-! The ends of senses and of steps (R148–R153): what each leaves of its job, of the queue, of the marks and of the entry's
verification. -/

namespace Sys2Proof.Machine

/-! ### Marks (R150) -/

/-- The relay with the mark that a job sets as it ends. -/
def JobEnd.mark (how : JobEnd) (x : RelayRec) : RelayRec :=
  match how with
  | .slow => { x with slow := true }
  | .suspect => { x with suspect := true }
  | _ => x

section
variable (r : Relay) (s : State)

theorem markRelay_relay (f : RelayRec → RelayRec) (x : Relay) :
    (markRelay r f s).relay x = if x = r then f (s.relay r) else s.relay x := by
  unfold markRelay
  split
  · rename_i h
    split
    · rename_i hx
      rw [hx, h]
    · rfl
  · show (s.setRelay r (f (s.relay r))).relay x = _
    unfold State.relay State.setRelay
    rw [look_put]
    simp only [eq_comm]

/-- A mark is a matter of the RM and of the dirty blocks. -/
theorem markRelay_eq (f : RelayRec → RelayRec) : markRelay r f s = { s with
    rm := (markRelay r f s).rm, wru := { s.wru with dirty := (markRelay r f s).wru.dirty } } := by
  unfold markRelay
  split <;> rfl

theorem jobMark_eq (how : JobEnd) : jobMark r how s = { s with
    rm := (jobMark r how s).rm, wru := { s.wru with dirty := (jobMark r how s).wru.dirty } } := by
  cases how with
  | slow => exact markRelay_eq r s fun x => { x with slow := true }
  | suspect => exact markRelay_eq r s fun x => { x with suspect := true }
  | _ => rfl

theorem jobMark_relay (how : JobEnd) (x : Relay) :
    (jobMark r how s).relay x = if x = r then how.mark (s.relay r) else s.relay x := by
  cases how with
  | slow => exact markRelay_relay r s _ x
  | suspect => exact markRelay_relay r s _ x
  | _ =>
    show s.relay x = if x = r then s.relay r else s.relay x
    split
    · rename_i h
      rw [h]
    · rfl

end

/-! ### Admission (R147) -/

/-- A batch admitted is one that waited. -/
theorem admitFrom_entry (l : List (Entry × List Relay)) :
    ∀ (n : Nat) (k : Job), k ∈ (admitFrom n l).1 → ∃ b ∈ l, b.1 = k.entry := by
  induction l with
  | nil => intro n k hk; cases hk
  | cons b rest ih =>
    obtain ⟨e, rs⟩ := b
    intro n k hk
    unfold admitFrom at hk
    split at hk
    · rcases List.mem_append.1 hk with h | h
      · obtain ⟨r, -, rfl⟩ := List.mem_map.1 h
        exact ⟨_, List.mem_cons_self, rfl⟩
      · obtain ⟨c, hc, hce⟩ := ih _ k h
        exact ⟨c, List.mem_cons_of_mem _ hc, hce⟩
    · cases hk

theorem admitFrom_left (l : List (Entry × List Relay)) : ∀ (n : Nat), ∀ b ∈ (admitFrom n l).2, b ∈ l := by
  induction l with
  | nil => intro n b hb; cases hb
  | cons c rest ih =>
    obtain ⟨e, rs⟩ := c
    intro n b hb
    unfold admitFrom at hb
    split at hb
    · exact List.mem_cons_of_mem _ (ih _ b hb)
    · exact hb

/-- What an admission leaves, where no batch of entry e waits. -/
structure Admits (e : Entry) (s t : State) : Prop where
  verification : look t.snu.verifications e = look s.snu.verifications e
  queue : ∃ js, t.snu.queue = s.snu.queue ++ js ∧ ∀ k ∈ js, k.entry ≠ e
  sensing : t.snu.sensing = s.snu.sensing
  senseEnd : t.snu.senseEnd = s.snu.senseEnd
  stepping : t.snu.stepping = s.snu.stepping
  ended : t.snu.ended = s.snu.ended
  admission : ∀ b ∈ t.snu.admission, b.1 ≠ e

theorem admitWaiting_admits {e : Entry} {s : State} (h : ∀ b ∈ s.snu.admission, b.1 ≠ e) : Admits e s (admitWaiting s) := by
  have hjobs : ∀ k ∈ (admitFrom s.snu.jobs s.snu.admission).1, k.entry ≠ e := fun k hk => by
    obtain ⟨b, hb, hbe⟩ := admitFrom_entry _ _ k hk
    rw [← hbe]
    exact h b hb
  have hcount : (admitFrom s.snu.jobs s.snu.admission).1.countP (fun j => decide (j.entry = e)) = 0 :=
    List.countP_eq_zero.2 fun k hk => by simpa using hjobs k hk
  refine ⟨?_, ⟨_, rfl, hjobs⟩, rfl, rfl, rfl, rfl, fun b hb => h b (admitFrom_left _ _ b hb)⟩
  unfold admitWaiting admitJobs
  dsimp only
  rw [look_each, hcount]
  cases look s.snu.verifications e <;> rfl

/-! ### The start of a sense (R148) -/

theorem startSense_head {s : State} {k : Job} {rest : List Job} (hs : s.snu.sensing = none) (hq : s.snu.queue = k :: rest) :
    (startSense s).snu = { s.snu with queue := rest, sensing := some k, senseEnd := some (later s.now 20) } := by
  unfold startSense
  rw [hs, hq]

theorem startSense_empty {s : State} (hq : s.snu.queue = []) : startSense s = s := by
  unfold startSense
  rw [hq]
  cases s.snu.sensing <;> rfl

theorem startSense_busy {s : State} {j : Job} (hs : s.snu.sensing = some j) : startSense s = s := by
  unfold startSense
  rw [hs]

/-! ### The end of a sense (R149) -/

/-- The state with no job in SENSING. -/
def State.unsensing (s : State) : State := { s with snu := { s.snu with sensing := none, senseEnd := none } }

/-- A job that has ended, before the next head is started. -/
def State.jobEnded (s : State) (how : JobEnd) (j : Job) : State :=
  admitWaiting (endJob j.entry j.relay how (jobMark j.relay how s.unsensing))

/-- A job that waits for its re-sense, before the next head is started. -/
def State.jobSteps (s : State) (j : Job) : State := { s with snu := { s.snu with
  sensing := none, senseEnd := none
  stepping := s.snu.stepping ++ [{ j with senses := j.senses + 1, stepEnd := some (later s.now s.senseStep) }] } }

section
variable {s : State} {high : Bool} {j : Job} {v : Verification}

/-- The sense of a job ends it, or starts its step. -/
theorem finishSense_eq (hv : look s.snu.verifications j.entry = some v) : finishSense high j s =
    startSense (if jobEnd high (j.senses + 1) v.discard = .stepping then s.jobSteps j
      else s.jobEnded (jobEnd high (j.senses + 1) v.discard) j) := by
  unfold finishSense State.jobEnded
  simp only [hv]
  generalize jobEnd high (j.senses + 1) v.discard = how
  cases how <;> rfl

theorem jobEnd_slow {n : Nat} (h : 1 ≤ n) (d : Bool) : jobEnd true (n + 1) d = .slow := by
  unfold jobEnd
  rw [if_pos rfl, if_neg (by omega)]

theorem jobEnd_suspect {n : Nat} (h : 3 ≤ n) (d : Bool) : jobEnd false (n + 1) d = .suspect := by
  unfold jobEnd
  rw [if_neg nofun, if_pos (by omega)]

theorem jobEnd_fails {n : Nat} (h : n < 3) (d : Bool) : jobEnd false (n + 1) d = if d then .dropped else .stepping := by
  unfold jobEnd
  rw [if_neg nofun, if_neg (by omega)]

/-- A job that passes, or fails its fourth sense, ends (R149). -/
theorem jobEnd_ends {n : Nat} (h : high = true ∨ 3 ≤ n) (d : Bool) : jobEnd high (n + 1) d ≠ .stepping := by
  cases high with
  | true =>
    cases n with
    | zero => nofun
    | succ n =>
      rw [jobEnd_slow (by omega)]
      nofun
  | false =>
    rw [jobEnd_suspect (h.resolve_left nofun)]
    nofun

/-- The mark of a sample by its level and the senses made before it (R150). -/
theorem jobEnd_mark (high : Bool) (n : Nat) (d : Bool) (x : RelayRec) : (jobEnd high (n + 1) d).mark x =
    if high = true ∧ 1 ≤ n then { x with slow := true }
    else if high = false ∧ 3 ≤ n then { x with suspect := true } else x := by
  cases high with
  | true =>
    cases n with
    | zero => rfl
    | succ n => rw [jobEnd_slow (by omega), if_pos ⟨rfl, by omega⟩]; rfl
  | false =>
    rw [if_neg (fun h => absurd h.1 nofun)]
    by_cases h : 3 ≤ n
    · rw [jobEnd_suspect h, if_pos ⟨rfl, h⟩]
      rfl
    · rw [if_neg fun k : false = false ∧ 3 ≤ n => h k.2, jobEnd_fails (by omega)]
      cases d <;> rfl

/-- The record with one job ended. -/
def Verification.less (v : Verification) (r : Relay) (how : JobEnd) : Verification := { v with
  remaining := v.remaining - 1
  suspects := if how = .suspect then insertRelay r v.suspects else v.suspects }

/-- What the end of a job's sense leaves, before the next head is started. -/
structure JobDone (s t : State) (how : JobEnd) (j : Job) (v : Verification) : Prop where
  ne : t.ne = s.ne
  now : t.now = s.now
  counts : t.wru.counts = s.wru.counts
  relay : ∀ x, t.relay x = if x = j.relay then how.mark (s.relay j.relay) else s.relay x
  verification : look t.snu.verifications j.entry = some (if how = .stepping then v else v.less j.relay how)
  admission : ∀ b ∈ t.snu.admission, b.1 ≠ j.entry
  queue : ∃ js, t.snu.queue = s.snu.queue ++ js
  sensing : t.snu.sensing = none
  wsu : t.wsu = s.wsu

theorem jobEnded_done (hv : look s.snu.verifications j.entry = some v) (hb : ∀ b ∈ s.snu.admission, b.1 ≠ j.entry)
    {how : JobEnd} (hhow : how ≠ .stepping) : JobDone s (s.jobEnded how j) how j v := by
  have hmark := jobMark_eq j.relay s.unsensing how
  have hrelay := jobMark_relay j.relay s.unsensing how
  generalize hu : jobMark j.relay how s.unsensing = u at hmark hrelay
  have hended : endJob j.entry j.relay how u = { u with snu := { u.snu with
      verifications := put u.snu.verifications j.entry (some (v.less j.relay how)) } } := by
    have hlook : look u.snu.verifications j.entry = some v := by
      rw [hmark]
      exact hv
    unfold endJob
    rw [hlook]
    rfl
  generalize hw : endJob j.entry j.relay how u = w at hended
  have hadmits : Admits j.entry w (admitWaiting w) := admitWaiting_admits (by rw [hended, hmark]; exact hb)
  have ht : s.jobEnded how j = admitWaiting w := by
    rw [State.jobEnded, hu, hw]
  obtain ⟨js, hjs, -⟩ := hadmits.queue
  have heq := admitWaiting_eq w
  rw [ht]
  refine ⟨?_, ?_, ?_, fun x => ?_, ?_, hadmits.admission, ⟨js, ?_⟩, ?_, ?_⟩
  · rw [heq, hended, hmark]
    rfl
  · rw [heq, hended, hmark]
    rfl
  · rw [heq, hended, hmark]
    rfl
  · have hstays : (admitWaiting w).relay x = u.relay x := by
      rw [heq, hended]
      rfl
    rw [hstays]
    exact hrelay x
  · rw [hadmits.verification, hended, if_neg hhow]
    exact look_put_same _ _ _
  · rw [hjs, hended, hmark]
    rfl
  · rw [hadmits.sensing, hended, hmark]
    rfl
  · rw [heq, hended, hmark]
    rfl

theorem jobSteps_done (hv : look s.snu.verifications j.entry = some v) (hb : ∀ b ∈ s.snu.admission, b.1 ≠ j.entry) :
    JobDone s (s.jobSteps j) .stepping j v := by
  refine ⟨rfl, rfl, rfl, fun x => ?_, hv, hb, ⟨[], (List.append_nil _).symm⟩, rfl, rfl⟩
  show s.relay x = if x = j.relay then s.relay j.relay else s.relay x
  split
  · rename_i h
    rw [h]
  · rfl

/-- The sense of a job has ended, and the next head is started. -/
theorem finishSense_done (hv : look s.snu.verifications j.entry = some v) (hb : ∀ b ∈ s.snu.admission, b.1 ≠ j.entry) :
    ∃ t, finishSense high j s = startSense t ∧ JobDone s t (jobEnd high (j.senses + 1) v.discard) j v ∧
      (jobEnd high (j.senses + 1) v.discard = .stepping → t = s.jobSteps j) := by
  refine ⟨_, finishSense_eq hv, ?_, fun h => if_pos h⟩
  generalize jobEnd high (j.senses + 1) v.discard = how
  by_cases h : how = .stepping
  · rw [if_pos h, h]
    exact jobSteps_done hv hb
  · rw [if_neg h]
    exact jobEnded_done hv hb h

/-- The record of a job's entry, once its sense has ended. -/
theorem JobDone.verified {t : State} {how : JobEnd} (h : JobDone s t how j v) : (startSense t).verified j.entry =
    decide ((if how = .stepping then v else v.less j.relay how).remaining = 0) := by
  obtain ⟨hverifications, hadmission, -⟩ := startSense_snu t
  have hnone : t.snu.admission.any (fun b => decide (b.1 = j.entry)) = false :=
    List.any_eq_false.2 fun b hb => by simpa using h.admission b hb
  unfold State.verified
  rw [hverifications, hadmission, h.verification, hnone]
  simp

theorem startSense_relay (t : State) (x : Relay) : (startSense t).relay x = t.relay x := by
  rw [State.relay, startSense_eq]
  rfl

/-- SENSE_END of a job in SENSING is its end, and the report of its entry's verification where that has ended. -/
theorem senseOver_sensing (he : s.snu.ended = none) (hs : s.snu.sensing = some j) : senseOver high (Work.start s) =
    if (finishSense high j s).verified j.entry then verificationEnded j.entry (Work.start (finishSense high j s))
    else Work.start (finishSense high j s) := by
  unfold senseOver
  rw [Work.start_st, he, hs]
  rfl

/-- SENSE_END whose sample comes after a discard sets its mark alone (R153). -/
theorem senseOver_ended (he : s.snu.ended = some j) : senseOver high (Work.start s) = Work.start (sampleEnded high j s) := by
  unfold senseOver
  rw [Work.start_st, he]
  rfl

/-- A sense that is not the last of its entry's verification is the end of the event (R148–R150). -/
theorem finish_senseOver_continues (he : s.snu.ended = none) (hs : s.snu.sensing = some j)
    (hv : look s.snu.verifications j.entry = some v) (hb : ∀ b ∈ s.snu.admission, b.1 ≠ j.entry) (hrem : 2 ≤ v.remaining) :
    ∃ t, finish (senseOver high (Work.start s)) = startSense t ∧ JobDone s t (jobEnd high (j.senses + 1) v.discard) j v ∧
      (jobEnd high (j.senses + 1) v.discard = .stepping → t = s.jobSteps j) := by
  obtain ⟨t, ht, hdone, hstep⟩ := finishSense_done (high := high) hv hb
  refine ⟨t, ?_, hdone, hstep⟩
  have hremaining : (if jobEnd high (j.senses + 1) v.discard = .stepping then v
      else v.less j.relay (jobEnd high (j.senses + 1) v.discard)).remaining ≠ 0 := by
    split
    · omega
    · show v.remaining - 1 ≠ 0
      omega
  rw [senseOver_sensing he hs, ht, hdone.verified, if_neg (by simpa using hremaining), finish_start]

end

/-! ### CONTACT_FAIL (R78, R152) -/

section
variable {e : Entry} {w : Work}

theorem faultedOpen_entry (hp : (w.ent e).releasePending = none) : (faultedOpen e w).ent e =
    { w.ent e with monitor := .off, monitorOffPending := false, winding := false } := by
  have hset : (w.modEnt e (fun x => { x with monitor := .off, monitorOffPending := false, winding := false })).ent e =
      { w.ent e with monitor := .off, monitorOffPending := false, winding := false } := State.setEntry_entry_same _ _ _
  unfold faultedOpen
  dsimp only
  generalize hu : w.modEnt e _ = u at hset
  have howed : ∀ r : Report, (u.upd (owe e r)).ent e = u.ent e := fun r => by
    rw [Work.ent, State.entry, Work.upd_st, owe_ne]
    rfl
  split
  · rw [takeFaulted_none (by rw [hset]; exact hp), hset]
  · rw [takeFaulted_none (by rw [howed, hset]; exact hp), howed, hset]

/-- From w to v an entry goes on heading to FAULTED, or has come there, with its reason. -/
structure HeadsToFaulted (a b : NetEntry) : Prop where
  reason : b.reason = a.reason
  relay : b.reasonRelay = a.reasonRelay
  state : b.state = .disconnectOuter ∨ b.state = .faulted

theorem buildWave_ent (ph : Phase) (x : Entry) : (buildWave e ph w).ent x = w.ent x := by
  rw [Work.ent, State.entry, buildWave_ne]
  rfl

theorem disconnectInner_faulted (hs : (w.ent e).state = .faulted) (hp : (w.ent e).releasePending = none) :
    HeadsToFaulted (w.ent e) ((disconnectInner e w).ent e) := by
  unfold disconnectInner
  dsimp only
  split
  · rw [buildWave_ent]
    exact ⟨rfl, rfl, .inr hs⟩
  · rw [buildWave_ent, if_pos hs, faultedOpen_entry (by rw [buildWave_ent]; exact hp), buildWave_ent]
    exact ⟨rfl, rfl, .inr hs⟩

theorem proceedOuter_heads (hs : (w.ent e).state = .disconnectOuter) (hf : (w.ent e).headingToFaulted = true)
    (hp : (w.ent e).releasePending = none) : HeadsToFaulted (w.ent e) ((proceedOuter e w).ent e) := by
  unfold proceedOuter
  split
  · exact ⟨rfl, rfl, .inl hs⟩
  · dsimp only
    split
    · rw [buildWave_ent]
      exact ⟨rfl, rfl, .inl hs⟩
    · let u := ((buildWave e .outerDisconnect w).setState e .faulted).upd (fun s => s.dropOpenOwners e)
      have hu : u.ent e = { w.ent e with state := .faulted } := by
        rw [Work.ent, State.entry, Work.upd_st, State.dropOpenOwners_ne, ← buildWave_ent (e := e) (w := w) .outerDisconnect e]
        exact State.setEntry_entry_same _ _ _
      have hdone : outerDone e (buildWave e .outerDisconnect w) = disconnectInner e u := by
        unfold outerDone
        rw [buildWave_ent]
        dsimp only
        rw [hs]
        exact if_pos hf
      obtain ⟨hreason, hrelay, hstate⟩ := disconnectInner_faulted (w := u) (by rw [hu]) (by rw [hu]; exact hp)
      rw [hu] at hreason hrelay
      rw [hdone]
      exact ⟨hreason, hrelay, hstate⟩

/-- The cut of a wave leaves an entry that is in neither inner disconnect nor FAULTED. -/
theorem discardHeld_ent (hs : (w.ent e).state = .disconnectOuter) : (discardHeld e w).ent e = w.ent e := by
  have hkept : ∀ u : Work, u.st.ne = w.st.ne → ∀ rs, (settleRelays rs u).ent e = w.ent e := fun u hu rs => by
    have hent : u.ent e = w.ent e := by
      rw [Work.ent, State.entry, hu]
      rfl
    rcases settleRelays_entry rs u e with h | ⟨h, -⟩
    · exact h.trans hent
    · rw [show (u.st.entry e).state = .disconnectOuter by rw [← hs, ← hent]; rfl] at h
      rcases h with h | h <;> cases h
  unfold discardHeld
  dsimp only
  split
  · rfl
  · rename_i v _
    let u : Work := { w with
      st := ({ clearHold e w.st with wsu := { w.st.wsu with
        held := w.st.wsu.held.filter fun u => !(decide (u.owner = .entry e) && u.phase.connects) } } : State).dropListed
          (v.todo.map Prod.fst)
      pass := true }
    have hu : u.st.ne = w.st.ne := by
      unfold u
      dsimp only
      rw [State.dropListed_eq]
      rfl
    unfold cutWave
    dsimp only
    split
    · exact hkept u hu []
    · exact hkept u hu []
    · split
      · exact hkept u hu _
      · exact hkept u hu []

/-- A fault that is taken by an entry that is not in its release (R78). -/
theorem fault_heads {why : Reason} (ht : (w.ent e).takesFault = true) (hm : (w.ent e).monitor ≠ .claiming)
    (hp : (w.ent e).releasePending = none) (hf : why.isFault = true) (q : Option Relay) :
    HeadsToFaulted { w.ent e with reason := some why, reasonRelay := q } ((fault e why q none w).ent e) := by
  let u := (w.setState e .disconnectOuter).modEnt e (fun x => { x with reason := some why, reasonRelay := q })
  have hu : u.ent e = { w.ent e with state := .disconnectOuter, reason := some why, reasonRelay := q } := by
    refine (State.setEntry_entry_same _ _ _).trans ?_
    rw [show (w.setState e .disconnectOuter).st.entry e = { w.ent e with state := .disconnectOuter } from
      State.setEntry_entry_same _ _ _]
  have hmonitor : endMonitorClaim e u = u := if_neg (by rw [hu]; exact hm)
  have hent : ((discardHeld e u).upd (discardVerification e)).ent e =
      { w.ent e with state := .disconnectOuter, reason := some why, reasonRelay := q } := by
    rw [Work.ent, State.entry, Work.upd_st, (discardVerification_discards e _).ne, ← hu]
    exact discardHeld_ent (by rw [hu])
  have hfault : fault e why q none w = proceedOuter e ((discardHeld e u).upd (discardVerification e)) := by
    unfold fault
    rw [if_pos ht]
    dsimp only
    rw [hmonitor]
  obtain ⟨hreason, hrelay, hstate⟩ := proceedOuter_heads (by rw [hent]) (by
    rw [hent]
    exact hf) (by rw [hent]; exact hp)
  rw [hent] at hreason hrelay
  rw [hfault]
  exact ⟨hreason, hrelay, hstate⟩

/-- A verification that has ended with a SUSPECT crosspoint (R152). -/
theorem verificationEnded_suspect {r : Relay} {rest : List Relay} (hr : w.st.suspects e = r :: rest)
    (hs : (w.ent e).state = .verifying) (hp : (w.ent e).releasePending = none) : verificationEnded e w =
      fault e .contactFail (some r) (some ⟨.contactFail, some ((w.ent e).site, (w.ent e).net),
        (w.ent e).resource.map NetResource.code, some r, none⟩) (w.upd (dropVerification e)) := by
  have hent : (w.upd (dropVerification e)).ent e = w.ent e := rfl
  unfold verificationEnded
  dsimp only
  rw [hent, hs, hr]
  dsimp only
  rw [hp]
  rfl

theorem insertRelay_cons (r : Relay) (l : List Relay) : ∃ a rest, insertRelay r l = a :: rest := by
  cases l with
  | nil => exact ⟨_, _, rfl⟩
  | cons a l =>
    unfold insertRelay
    split
    · exact ⟨_, _, rfl⟩
    · split <;> exact ⟨_, _, rfl⟩

end

/-- The last job of an entry's verification fails its fourth sense: the entry's fault CONTACT_FAIL (R78, R152). -/
theorem finish_senseOver_suspect {s : State} {j : Job} {v : Verification} (he : s.snu.ended = none) (hs : s.snu.sensing = some j)
    (hv : look s.snu.verifications j.entry = some v) (hb : ∀ b ∈ s.snu.admission, b.1 ≠ j.entry) (hrem : v.remaining = 1)
    (h3 : 3 ≤ j.senses) (hn : s.noWaiter) (hq : s.wsu.queue ≠ []) (hstate : (s.entry j.entry).state = .verifying)
    (hp : (s.entry j.entry).releasePending = none) (hr : (s.entry j.entry).reason ≠ some .aborted) {t : State}
    (ht : t = finish (senseOver false (Work.start s))) : look t.snu.verifications j.entry = none ∧
      (t.entry j.entry).reason = some .contactFail ∧ (t.entry j.entry).reasonRelay = (insertRelay j.relay v.suspects).head? ∧
      ((t.entry j.entry).state = .disconnectOuter ∨ (t.entry j.entry).state = .faulted) := by
  obtain ⟨u, hu, hdone, -⟩ := finishSense_done (high := false) hv hb
  rw [jobEnd_suspect h3] at hdone
  obtain ⟨r, rest, hrelays⟩ := insertRelay_cons j.relay v.suspects
  let w := Work.start (startSense u)
  have heq := startSense_eq u
  have hne : w.st.ne = s.ne := by
    rw [Work.start_st, heq]
    exact hdone.ne
  have hwent : w.ent j.entry = s.entry j.entry := by
    rw [Work.ent, State.entry, hne]
    rfl
  have hover : senseOver false (Work.start s) = verificationEnded j.entry w := by
    rw [senseOver_sensing he hs, hu, hdone.verified, if_pos]
    refine decide_eq_true ?_
    show v.remaining - 1 = 0
    omega
  have hsuspects : w.st.suspects j.entry = r :: rest := by
    unfold State.suspects
    rw [Work.start_st, (startSense_snu u).1, hdone.verification, ← hrelays]
    rfl
  let c : Capture := ⟨.contactFail, some ((w.ent j.entry).site, (w.ent j.entry).net),
    (w.ent j.entry).resource.map NetResource.code, some r, none⟩
  let x := (w.upd (dropVerification j.entry)).upd (capture c)
  have hcaptured : Undisturbed (w.upd (dropVerification j.entry)).st x.st := capture_undisturbed c _
  have hxent : x.ent j.entry = s.entry j.entry := (hcaptured.entry j.entry).trans hwent
  have htakes : (s.entry j.entry).takesFault = true := by
    unfold NetEntry.takesFault
    simp [hstate, hp, hr]
  have hfault : verificationEnded j.entry w = fault j.entry .contactFail (some r) none x := by
    rw [verificationEnded_suspect hsuspects (by rw [hwent]; exact hstate) (by rw [hwent]; exact hp), fault_captured]
    exact (congrArg NetEntry.takesFault hwent).trans htakes
  have hacts := ActsOf.fault j.entry x .contactFail (some r)
  have hxnone : x.st.noWaiter := hcaptured.noWaiter (noWaiter_of_entries hn (congrArg Ne.entries hne))
  have hxqueue : x.st.wsu.queue = s.wsu.queue := by
    rw [hcaptured.queue]
    show (startSense u).wsu.queue = _
    rw [heq]
    exact (congrArg Wsu.queue hdone.wsu : u.wsu.queue = s.wsu.queue)
  rw [hover, hfault, finish_waits (hacts.noWaiter hxnone) hacts.serve (by rw [hacts.queue, hxqueue]; exact hq)] at ht
  obtain ⟨hreason, hrelay, hstates⟩ := fault_heads (w := x) (why := .contactFail) (by rw [hxent]; exact htakes)
    (by rw [hxent]; exact (hn j.entry).2) (by rw [hxent]; exact hp) rfl (some r)
  have hentry : t.entry j.entry = (fault j.entry .contactFail (some r) none x).ent j.entry := by rw [ht]; rfl
  rw [hentry]
  refine ⟨?_, hreason, hrelay.trans (by rw [hrelays]; rfl), hstates⟩
  rw [ht]
  refine hacts.verifications j.entry ?_
  rw [hcaptured.snu]
  exact look_put_same _ _ _

/-! ### A discard (R153) -/

/-- The state in which a discard has taken the entry's jobs away leaves it without one. -/
theorem dropJobs_entries (e : Entry) (v : Verification) (s : State) : (∀ k ∈ (dropJobs e v s).snu.queue, k.entry ≠ e) ∧
    ∀ b ∈ (dropJobs e v s).snu.admission, b.1 ≠ e :=
  ⟨fun _ hk => of_decide_eq_true (List.mem_filter.1 hk).2, fun _ hb => of_decide_eq_true (List.mem_filter.1 hb).2⟩

section
variable {s : State} {j : Job} {d : Time} {v : Verification}

/-- A discard of the entry whose sense ends at this instant ends its verification (R153). -/
theorem discardVerification_last (hs : s.snu.sensing = some j) (he : s.snu.senseEnd = some d)
    (hv : look s.snu.verifications j.entry = some v) (hd : v.discard = false) (hr : reached s.now d = true) :
    look (discardVerification j.entry s).snu.verifications j.entry = none ∧ (discardVerification j.entry s).snu.ended = some j ∧
      (discardVerification j.entry s).snu.sensing ≠ some j := by
  have hlast : s.lastSense j.entry = true := by
    unfold State.lastSense State.sensingOf State.senseReached
    rw [hs, he]
    simp [hr]
  let u := dropJobs j.entry v (leaveSensing j.entry s)
  have hleft : leaveSensing j.entry s = { s with snu := { s.snu with sensing := none, senseEnd := none, ended := s.snu.sensing } } :=
    if_pos hlast
  have hu : u.snu.sensing = none ∧ u.snu.ended = some j ∧ look u.snu.verifications j.entry = none := by
    unfold u
    rw [hleft]
    exact ⟨rfl, hs, look_put_same _ _ _⟩
  obtain ⟨husensing, huended, huverification⟩ := hu
  obtain ⟨hqueue, hadmission⟩ := dropJobs_entries j.entry v (leaveSensing j.entry s)
  obtain ⟨hverification, ⟨js, hjs, hothers⟩, hsensing, -, -, hended, -⟩ := admitWaiting_admits (s := u) hadmission
  have hdiscard : discardVerification j.entry s = startSense (admitWaiting u) := by
    unfold discardVerification
    rw [hv]
    dsimp only
    rw [hd, if_neg nofun, if_pos (by rw [hlast, Bool.or_true])]
  have hapart : ∀ k ∈ (admitWaiting u).snu.queue, k.entry ≠ j.entry := fun k hk => by
    rw [hjs] at hk
    exact (List.mem_append.1 hk).elim (hqueue k) (hothers k)
  obtain ⟨hv', -, -, he'⟩ := startSense_snu (admitWaiting u)
  rw [hdiscard, hv', he', hverification, hended]
  refine ⟨huverification, huended, ?_⟩
  cases hq : (admitWaiting u).snu.queue with
  | nil =>
    rw [startSense_empty hq, hsensing, husensing]
    nofun
  | cons k rest =>
    rw [startSense_head (hsensing.trans husensing) hq]
    exact fun h => hapart k (by rw [hq]; exact List.mem_cons_self) (congrArg Job.entry (Option.some.inj h))

/-- A discard of an entry whose job is being sensed leaves that job to end with its sense (R153). -/
theorem discardVerification_senses (hs : s.snu.sensing = some j) (he : s.snu.senseEnd = some d)
    (hv : look s.snu.verifications j.entry = some v) (hd : v.discard = false) (hr : reached s.now d = false) :
    look (discardVerification j.entry s).snu.verifications j.entry = some { v with remaining := 1, discard := true } ∧
      (discardVerification j.entry s).snu.sensing = some j ∧ (discardVerification j.entry s).snu.senseEnd = some d := by
  have hlast : s.lastSense j.entry = false := by
    unfold State.lastSense State.sensingOf State.senseReached
    rw [hs, he]
    simp [hr]
  have hleft : leaveSensing j.entry s = s := if_neg (by rw [hlast]; nofun)
  let u := dropJobs j.entry v s
  have hu : look u.snu.verifications j.entry = some { v with remaining := 1, discard := true } := by
    refine (look_put_same _ _ _).trans (if_pos ?_)
    unfold State.sensingOf
    rw [hs]
    exact decide_eq_true rfl
  have husensing : u.snu.sensing = some j := hs
  obtain ⟨-, hadmission⟩ := dropJobs_entries j.entry v s
  obtain ⟨hverification, -, hsensing, hsenseEnd, -, -, -⟩ := admitWaiting_admits (s := u) hadmission
  unfold discardVerification
  rw [hv]
  dsimp only
  rw [hd, if_neg nofun, hleft]
  split
  · rw [startSense_busy (hsensing.trans husensing), hverification, hsensing, hsenseEnd]
    exact ⟨hu, husensing, he⟩
  · exact ⟨hu, husensing, he⟩

end

/-! ### Step ends (R149, R151) -/

theorem insertJob_perm (j : Job) (l : List Job) : (insertJob j l).Perm (j :: l) := by
  induction l with
  | nil => exact .refl _
  | cons a l ih =>
    unfold insertJob
    split
    · exact .refl _
    · exact (ih.cons a).trans (.swap j a l)

theorem insertJob_sorted {j : Job} {l : List Job} (h : l.Pairwise fun a b => a.relay ≤ b.relay) :
    (insertJob j l).Pairwise fun a b => a.relay ≤ b.relay := by
  induction l with
  | nil => exact List.pairwise_singleton _ _
  | cons a l ih =>
    obtain ⟨hle, hl⟩ := List.pairwise_cons.1 h
    unfold insertJob
    split
    · rename_i hj
      refine List.pairwise_cons.2 ⟨fun b hb => ?_, h⟩
      rcases List.mem_cons.1 hb with rfl | hb
      · exact hj
      · exact hj.trans (hle b hb)
    · rename_i hj
      refine List.pairwise_cons.2 ⟨fun b hb => ?_, ih hl⟩
      rcases List.mem_cons.1 ((insertJob_perm j l).subset hb) with rfl | hb
      · exact le_of_not_ge hj
      · exact hle b hb

theorem foldr_insertJob_perm (l : List Job) : (l.foldr insertJob []).Perm l := by
  induction l with
  | nil => exact .refl _
  | cons a l ih => exact (insertJob_perm a _).trans (ih.cons a)

theorem foldr_insertJob_sorted (l : List Job) : (l.foldr insertJob []).Pairwise fun a b => a.relay ≤ b.relay := by
  induction l with
  | nil => exact .nil
  | cons a l ih => exact insertJob_sorted ih

/-- A job's step end is reached. -/
def Job.due (now : Time) (j : Job) : Bool := match j.stepEnd with | some t => reached now t | none => false

/-- The jobs that rejoin the queue at a step end. -/
def State.back (s : State) : List Job :=
  ((s.snu.stepping.filter (Job.due s.now)).foldr insertJob []).map fun j => { j with stepEnd := none }

theorem finishSteps_eq (s : State) : finishSteps s = startSense { s with snu := { s.snu with
    queue := s.snu.queue ++ s.back, stepping := s.snu.stepping.filter fun j => !Job.due s.now j } } := rfl

/-! ### The statement -/

/-- Settles O51: the end of a sense, its discard, and the step end. -/
theorem senseEndMarksCrosspoint : Obligations.SenseEndMarksCrosspoint := by
  intro dt s s1 hs1 hrun
  have hpassed : Passed s s1 := hs1 ▸ advance_passed dt s
  have hsnu := hpassed.snu
  have hexec : ∀ high, s1.senseDue = true → exec (.senseEnd dt high) s = .next (finish (senseOver high (Work.start s1))) :=
    fun high hdue => event_due (due := State.senseDue) hs1 hdue (senseOver high)
  have hdue : ∀ j d, s.snu.sensing = some j → s.snu.senseEnd = some d → reached s1.now d = true → s1.senseDue = true :=
    fun j d hj hd hr => by
      rw [State.senseDue, State.senseReached, hpassed.running, hsnu, hj, hd]
      simp [hrun, hr]
  refine ⟨fun high j d v hj hd hr he hv hrem hb => ?_, fun j d v hj hd hr he hv hrem hb h3 hn hq hstate hp hreason => ?_,
    fun high j he => ?_, fun j d v t hj hd hv hdiscard ht => ?_, fun hstep => ?_⟩
  · obtain ⟨t, ht, hdone, hsteps⟩ := finish_senseOver_continues (s := s1) (high := high) (by rw [hsnu]; exact he)
      (by rw [hsnu]; exact hj) (by rw [hsnu]; exact hv) (by rw [hsnu]; exact hb) hrem
    have hrelay : ∀ x, (startSense t).relay x =
        if x = j.relay then (jobEnd high (j.senses + 1) v.discard).mark (s.relay j.relay) else s.relay x := fun x => by
      rw [startSense_relay, hdone.relay, hpassed.relay, hpassed.relay]
    have hown := (hrelay j.relay).trans (if_pos rfl)
    obtain ⟨hverifications, -, hstepping, -⟩ := startSense_snu t
    refine ⟨_, (hexec high (hdue j d hj hd hr)).trans (congrArg Host.Outcome.next ht), ?_, ?_, fun x hx => (hrelay x).trans (if_neg hx),
      fun hh h0 => ?_, fun hh h1 => ?_, fun hh h3 => ?_, fun h => ?_, fun hh h3 hd => ?_, fun k rest hq => ?_⟩
    · rw [startSense_eq]
      exact hdone.ne.trans hpassed.ne
    · rw [startSense_eq]
      exact hdone.counts.trans (by rw [hs1, advance_wru])
    · rw [hown, hh, h0]
      rfl
    · rw [hown, hh, jobEnd_slow h1]
      rfl
    · rw [hown, hh, jobEnd_suspect h3]
      rfl
    · refine ⟨_, by rw [hverifications, hdone.verification], ?_⟩
      rw [if_neg (jobEnd_ends h _)]
      rfl
    · have hstepped : jobEnd high (j.senses + 1) v.discard = .stepping := by
        rw [hh, jobEnd_fails h3, hd]
        rfl
      refine ⟨by rw [hown, hstepped]; rfl, ?_⟩
      rw [hstepping, hsteps hstepped, State.jobSteps, State.senseStep, hpassed.cfl, hsnu]
    · obtain ⟨js, hjs⟩ := hdone.queue
      rw [hsnu, hq, List.cons_append] at hjs
      rw [startSense_head hdone.sensing hjs, hdone.now]
      exact ⟨rfl, rfl⟩
  · rw [← hpassed.entry] at hstate hp hreason
    exact ⟨_, hexec false (hdue j d hj hd hr), finish_senseOver_suspect (s := s1) (by rw [hsnu]; exact he) (by rw [hsnu]; exact hj)
      (by rw [hsnu]; exact hv) (by rw [hsnu]; exact hb) hrem h3 (hpassed.noWaiter hn) (by rw [hpassed.queue]; exact hq) hstate hp
      hreason rfl⟩
  · have hdue : s1.senseDue = true := by
      rw [State.senseDue, hpassed.running, hsnu, he]
      simp [hrun]
    have hover := senseOver_ended (s := s1) (high := high) (j := j) (by rw [hsnu]; exact he)
    have hmark := jobMark_eq j.relay { s1 with snu := { s1.snu with ended := none } } (jobEnd high (j.senses + 1) true)
    have hrelay := jobMark_relay j.relay { s1 with snu := { s1.snu with ended := none } } (jobEnd high (j.senses + 1) true)
    have hfinish : finish (senseOver high (Work.start s1)) = sampleEnded high j s1 := by rw [hover, finish_start]
    refine ⟨_, (hexec high hdue).trans (congrArg Host.Outcome.next hfinish), ?_, ?_, fun x hx => ?_, ?_⟩
    · rw [sampleEnded, hmark]
      exact hpassed.ne
    · rw [sampleEnded, hmark]
      dsimp only
      rw [hsnu]
    · rw [sampleEnded, hrelay, if_neg hx]
      exact hpassed.relay x
    · rw [sampleEnded, hrelay, if_pos rfl]
      show (jobEnd high (j.senses + 1) true).mark (s1.relay j.relay) = _
      rw [hpassed.relay, jobEnd_mark]
  · subst ht
    exact ⟨discardVerification_last hj hd hv hdiscard, discardVerification_senses hj hd hv hdiscard⟩
  · have hexec : exec (.stepEnd dt) s = .next (finishSteps s1) := by
      have hevent := event_due (due := fun s => s.running && s.stepDue) hs1 (by rw [hpassed.running, hrun, hstep]; rfl)
        (Work.upd finishSteps)
      rw [show (Work.start s1).upd finishSteps = Work.start (finishSteps s1) from rfl, finish_start] at hevent
      exact hevent
    have hback : s1.back = ((s.snu.stepping.filter (Job.due s1.now)).foldr insertJob []).map fun j => { j with stepEnd := none } := by
      rw [State.back, hsnu]
    have heq := finishSteps_eq s1
    generalize hu : ({ s1 with snu := _ } : State) = u at heq
    have husnu : u.snu = { s.snu with
        queue := s.snu.queue ++ s1.back, stepping := s.snu.stepping.filter fun j => !Job.due s1.now j } := by
      rw [← hu, hsnu]
    have hunow : u.now = s1.now := by rw [← hu]; rfl
    obtain ⟨-, -, hstepping, -⟩ := startSense_snu u
    refine ⟨_, s1.back, hexec, ?_, ?_, ?_, ?_, ?_, fun k hk => ?_, fun hnone k rest hq => ?_⟩
    · rw [heq, startSense_eq, ← hu]
      exact hpassed.ne
    · rw [heq, startSense_eq, ← hu]
      exact hpassed.rm
    · rw [heq, hstepping, husnu]
      rfl
    · rw [hback]
      exact (foldr_insertJob_perm _).map _
    · rw [hback]
      exact List.pairwise_map.2 (foldr_insertJob_sorted _)
    · rw [heq, startSense_busy (by rw [husnu]; exact hk), husnu]
      exact ⟨rfl, hk, rfl⟩
    · rw [heq, startSense_head (by rw [husnu]; exact hnone) (by rw [husnu]; exact hq), hunow]
      exact ⟨rfl, rfl, rfl⟩

end Sys2Proof.Machine
end

/-! A CLAIM of a resource that the card does not hold (R66, R67, R94): the holder it installs in the view, and the one participant
that waits for it; and the end of a cooling mark (R105). -/

namespace Sys2Proof.Machine

/-! ### The holder installed (R94) -/

/-- The state in whose view node n has claimed resource r for a net (R94). -/
def State.claimedBy (s : State) (r : Resource) (n : Node) (i : Site) (m : NetId) : State :=
  s.setView r ((s.viewOf r).install n (some (i, m)))

theorem claimedBy_undisturbed (s : State) (r : Resource) (n : Node) (i : Site) (m : NetId) : Undisturbed s (s.claimedBy r n i m) :=
  setView_undisturbed _ _ _

section
variable {n : Node} {r : Resource} {i : Site} {m : NetId}

/-- Where the card does not hold the resource the claimant is its holder, and no holding is dropped (R94). -/
theorem named_installs {s : State} (hh : look s.rcu.holdings r = none) :
    ∃ changed, named n r (some (i, m)) s = (s.claimedBy r n i m, ⟨none, changed⟩) := by
  unfold named
  dsimp only
  rw [hh]
  exact ⟨_, rfl⟩

/-- A naming that drops no holding sets no more than a choice pass in motion, where no entry has a claim owed for the resource and
none uses it. -/
theorem actNamed_unused {w : Work} {changed : Bool} (hclaims : ∀ x, look w.st.rcu.claims x ≠ some r)
    (hunused : ∀ x k, (w.ent x).trunk = some k → trunkResource k ≠ r) :
    actNamed r ⟨none, changed⟩ w = { w with pass := changed || w.pass } := by
  cases changed with
  | false => rfl
  | true =>
    rw [actNamed_changed hclaims]
    exact watch_idle fun x k _ _ hk hr => absurd hr (hunused x k hk)

/-! ### The participant that waits for the claim (R66) -/

theorem mem_awaitingClaim {s : State} {x : Entry} : x ∈ s.awaitingClaim n i m ↔
    (s.entry x).state = .awaitAnchor ∧ (s.entry x).anchor = n ∧ (s.entry x).site = i ∧ (s.entry x).net = m := by
  rw [State.awaitingClaim, mem_indices, State.entry]
  simp only [Bool.and_eq_true, decide_eq_true_eq, and_assoc]

theorem awaitingClaim_single {s : State} {e : Entry} (h : ∀ x, x ∈ s.awaitingClaim n i m ↔ x = e) : s.awaitingClaim n i m = [e] := by
  have hnodup : (s.awaitingClaim n i m).Nodup := List.Nodup.filter _ (List.nodup_finRange 64)
  refine List.perm_singleton.1 ((List.perm_ext_iff_of_nodup hnodup (List.nodup_singleton e)).2 fun x => ?_)
  rw [h, List.mem_singleton]

/-- The CLAIM of a trunk that one participant waits for, and that no entry has to do with, is that participant's act. -/
theorem claimHeard_participant {u : State} {e : Entry} {k : Trunk} (hh : look u.rcu.holdings (trunkResource k) = none)
    (hclaims : ∀ x, look u.rcu.claims x ≠ some (trunkResource k)) (hunused : ∀ x, (u.entry x).resource ≠ some (.trunk k))
    (hawaits : ∀ x, x ∈ u.awaitingClaim n i m ↔ x = e) : ∃ changed, claimHeard n (trunkResource k) i m (Work.start u) =
      participantClaim e k { Work.start (u.claimedBy (trunkResource k) n i m) with pass := changed } := by
  obtain ⟨changed, hnamed⟩ := named_installs (n := n) (i := i) (m := m) hh
  have hact := actNamed_unused (r := trunkResource k) (w := Work.start (u.claimedBy (trunkResource k) n i m)) (changed := changed)
    hclaims fun x j hj hr => hunused x (NetEntry.resource_of_trunk (trunkResource_inj hr ▸ hj))
  have hone : (u.claimedBy (trunkResource k) n i m).awaitingClaim n i m = [e] := awaitingClaim_single hawaits
  refine ⟨changed || false, ?_⟩
  unfold claimHeard
  dsimp only
  rw [Work.start_st, hnamed, show ({ Work.start u with st := u.claimedBy (trunkResource k) n i m } : Work) =
    Work.start (u.claimedBy (trunkResource k) n i m) from rfl, hact, inRange_trunkResource]
  dsimp only
  rw [Work.start_st, hone]
  rfl

end

/-! ### What the participant does (R13, R66, R67) -/

/-- The participant is refused its anchor's trunk, with a reason and a relay (R66). -/
def Work.refusedTrunk (e : Entry) (k : Trunk) (reason : Reason) (relay : Option Relay) (w : Work) : Work :=
  freeEntry e (w.upd (owe e
    ⟨(w.ent e).site, (w.ent e).net, .refused, reason, some (NetResource.trunk k).code, relay⟩))

section
variable {e : Entry} {k : Trunk} {w : Work}

theorem participantClaim_suspect {q : Relay} (h : w.st.suspectX (w.ent e).pins k = some q) :
    participantClaim e k w = w.refusedTrunk e k .relaySuspect (some q) := by
  unfold participantClaim
  dsimp only
  rw [h]
  rfl

theorem participantClaim_busy (h : w.st.suspectX (w.ent e).pins k = none) (hf : w.st.segmentFree e k = false) :
    participantClaim e k w = w.refusedTrunk e k .segmentBusy none := by
  unfold participantClaim
  dsimp only
  rw [h, hf]
  rfl

theorem participantClaim_connects (h : w.st.suspectX (w.ent e).pins k = none) (hf : w.st.segmentFree e k = true) :
    participantClaim e k w = connectInner e (w.modEnt e (fun x => { x with resource := some (.trunk k) })) := by
  unfold participantClaim
  dsimp only
  rw [h, hf]
  rfl

/-- The refused participant owes its STATUS, is FREE and leaves its pins (R16, R66). -/
theorem finish_refusedTrunk {reason : Reason} {relay : Option Relay} (hn : w.st.noWaiter) (hj : w.joining = [])
    (hs : w.serve = false) {t : State} (ht : t = finish (w.refusedTrunk e k reason relay)) :
    look t.ne.status e =
      some ⟨(w.ent e).site, (w.ent e).net, .refused, reason, some (NetResource.trunk k).code, relay⟩ ∧
    (t.entry e).state = .free ∧ ∀ p, look t.ne.binding p ≠ some e := by
  let v := w.upd (owe e
    ⟨(w.ent e).site, (w.ent e).net, .refused, reason, some (NetResource.trunk k).code, relay⟩)
  have hends : t = (freeEntry e v).st :=
    ht.trans (finish_freeEntry (noWaiter_of_entries hn (by rw [Work.upd_st, owe_ne])) hj hs)
  rw [hends]
  refine ⟨?_, congrArg NetEntry.state freeEntry_entry, freeEntry_unbound⟩
  rw [freeEntry_status, Work.upd_st, owe_ne]
  exact look_put_same _ _ _

end

/-! ### The statements -/

/-- Settles O24: the holder in the view, and the participant that is refused or connects. -/
theorem claimInstallsHolder : Obligations.ClaimInstallsHolder := by
  intro dt s u f r i n hfront hu hh
  have hheard : Heard s u := hu ▸ heard_heard s dt f (.claim r i n)
  have hexec : exec (.claim dt) s = .next (finish (claimHeard f.src r i n (resumeHeld (Work.start u)))) := by
    rw [exec_front_as hfront (fun g hg => by rw [frameCommand, hg]; rfl), ← hu]
    rfl
  have hview : ∀ q, u.viewOf q = s.viewOf q := fun q => congrArg (fun c : Rcu => look c.view q) hheard.rcu
  have huh : look u.rcu.holdings r = none := by
    rw [hheard.rcu]
    exact hh
  have hfollows : Follows (u.claimedBy r f.src i n) (finish (claimHeard f.src r i n (resumeHeld (Work.start u)))) := by
    have hresumed : (resumeHeld (Work.start u)).st.core = u.core := resumeHeld_core _
    obtain ⟨changed, hnamed⟩ := named_installs (n := f.src) (i := i) (m := n) (r := r) (s := (resumeHeld (Work.start u)).st) (by
      rw [(Follows.of_core hresumed).holdings]
      exact huh)
    refine finish_follows_of ((claimHeard_core _ _ _ _ _).trans ?_)
    rw [hnamed, State.claimedBy, (Follows.of_core hresumed).viewOf]
    exact setView_core hresumed r _
  refine ⟨_, hexec, ?_, ?_, fun q hq => ?_, ?_, ?_⟩
  · rw [← hview]
    exact hfollows
  · rw [hfollows.viewOf, State.claimedBy, State.setView_viewOf_same, hview]
    rfl
  · rw [hfollows.viewOf, State.claimedBy, State.setView_viewOf_ne _ _ (Ne.symm hq), hview]
  · exact hfollows.holdings.trans (congrArg Rcu.holdings hheard.rcu : u.rcu.holdings = s.rcu.holdings)
  · rintro e a k rfl rfl hheld hwaiter hstate hanchor rfl rfl hothers hclaims hunused
    have hawaits : ∀ x, x ∈ u.awaitingClaim f.src (s.entry e).site (s.entry e).net ↔ x = e := fun x => by
      rw [mem_awaitingClaim, hheard.entry]
      constructor
      · rintro ⟨h1, h2, h3, h4⟩
        by_contra hx
        rcases hothers x hx with h | h | h | h
        · exact h h1
        · exact h h2
        · exact h h3
        · exact h h4
      · rintro rfl
        exact ⟨hstate, hanchor, rfl, rfl⟩
    obtain ⟨changed, hclaim⟩ := claimHeard_participant (u := u) huh (by rw [hheard.rcu]; exact hclaims)
      (fun x => by rw [hheard.entry]; exact hunused x) hawaits
    rw [show resumeHeld (Work.start u) = Work.start u from resumeHeld_none (hheard.held.trans hheld), hclaim]
    let v : Work :=
      { Work.start (u.claimedBy (trunkResource k) f.src (s.entry e).site (s.entry e).net) with pass := changed }
    have hv : Undisturbed s v.st := hheard.undisturbed.trans (claimedBy_undisturbed _ _ _ _ _)
    have hent : v.ent e = s.entry e := hv.entry e
    have hsuspect : v.st.suspectX (v.ent e).pins k = s.suspectX (s.entry e).pins k := by
      rw [hent]
      exact suspectX_congr hv.rm _ k
    have hfree : v.st.segmentFree e k = s.segmentFree e k := segmentFree_congr hv.rm (fun x _ => hv.entry x) k
    refine ⟨fun q hq => ?_, fun hnone hbusy => ?_, fun hnone hsegment hqueue closes hcloses hopen => ?_⟩
    · have hends := finish_refusedTrunk (hv.noWaiter hwaiter) rfl rfl
        (congrArg finish (participantClaim_suspect (hsuspect.trans hq)))
      rw [hent] at hends
      exact hends
    · have hends := finish_refusedTrunk (hv.noWaiter hwaiter) rfl rfl
        (congrArg finish (participantClaim_busy (hsuspect.trans hnone) (hfree.trans hbusy)))
      rw [hent] at hends
      exact hends
    · have hwaits := hv.noWaiter hwaiter
      have hrelay : ∀ q, v.st.relay q = s.relay q := fun q => by
        rw [State.relay, hv.rm]
        rfl
      obtain ⟨hentry, -, howned, hjoins⟩ := finish_connectsTrunk (closes := closes) (fun x _ => hwaits x) rfl rfl
        (by rw [hv.queue]; exact hqueue) (hwaits e).2 (by rw [hent]; exact hcloses) (fun q hq => by rw [hrelay]; exact hopen q hq)
        (congrArg finish (participantClaim_connects (hsuspect.trans hnone) (hfree.trans hsegment)))
      rw [hent] at hentry hjoins
      rw [hv.queue] at hjoins
      exact ⟨hentry, hjoins, howned⟩

/-- Settles O50: the mark gone, and a choice pass that finds nothing where no entry waits. -/
theorem coolingEndRemovesMark : Obligations.CoolingEndRemovesMark := by
  intro dt s s1 u r d hs1 hrun hcooling hreached hu
  have hpassed : Passed s s1 := hs1 ▸ advance_passed dt s
  have hview : ∀ q, s1.viewOf q = s.viewOf q := fun q => congrArg (fun c : Rcu => look c.view q) hpassed.rcu
  have hdue : (s1.running && s1.coolingDue r) = true := by
    simp [State.coolingDue, hpassed.running, hrun, hview, hcooling, hreached]
  have hexec : exec (.coolingEnd dt r) s = .next (finish { Work.start u with pass := true }) := by
    rw [hu, ← hview]
    exact event_due (due := fun s => s.running && s.coolingDue r) hs1 hdue (coolingEnd r)
  have hfollows : Follows u (finish { Work.start u with pass := true }) := finish_follows { Work.start u with pass := true }
  refine ⟨_, hexec, hfollows, ?_, fun q hq => ?_, fun hwaiter => ?_⟩
  · rw [hfollows.viewOf, hu, State.setView_viewOf_same]
  · rw [hfollows.viewOf, hu, State.setView_viewOf_ne _ _ (Ne.symm hq), hview]
  · have hnone : u.noWaiter := noWaiter_of_entries (hpassed.noWaiter hwaiter) (by rw [hu]; rfl)
    exact finish_noWaiter (w := { Work.start u with pass := true }) hnone rfl rfl

end Sys2Proof.Machine

/-! What credit and time do to waves: the refill at a credit boundary and the head that stops again (R111–R113), and the held
disconnect wave that is forced hot at its deadline (R120, R135). -/

namespace Sys2Proof.Machine

/-! ### A head short of credit (R113) -/

section
variable {s : State} {w : Work} {v : Wave} {e : Entry} {r : Relay} {closing : Bool} {more rest : List (Relay × Bool)}

/-- Credit below the cost of the next relay makes no pulse. -/
theorem pulseRun_short (ho : v.owner = .entry e) (hcost : s.wsu.credit.getD 0 < (s.classParams r).cost) :
    pulseRun ((r, closing) :: more) v s = (s, { v with todo := (r, closing) :: more }, .credit) := by
  rw [pulseRun, passesOver_entry ho, if_neg Bool.false_ne_true, if_pos hcost]

/-- A head that cannot pay for its next relay stops as it stands. -/
theorem serveHead_short {waves : List Wave} (hq : w.st.wsu.queue = v :: waves) (ho : v.owner = .entry e)
    (htodo : v.todo = (r, closing) :: more) (hcost : w.st.wsu.credit.getD 0 < (w.st.classParams r).cost) :
    serveHead w = { w with
      st := { w.st with wsu := { w.st.wsu with creditStop := some w.st.now } }, serve := false } := by
  have hrun : pulseRun v.todo v w.st = (w.st, v, .credit) := by
    rw [htodo, pulseRun_short ho hcost, ← htodo]
  rw [serveHead_credit hq ho hrun, ← hq]

/-- A service that credit stops at once is the whole of its event. -/
theorem finish_short {waves : List Wave} (hp : w.pass = false) (hj : w.joining = []) (hs : w.serve = true)
    (hc : w.st.wsu.credit.isSome = true) (hq : w.st.wsu.queue = v :: waves) (ho : v.owner = .entry e)
    (htodo : v.todo = (r, closing) :: more) (hcost : w.st.wsu.credit.getD 0 < (w.st.classParams r).cost) :
    finish w = { w.st with wsu := { w.st.wsu with creditStop := some w.st.now } } := by
  rw [finish_serves hp hs hc, serveHead_short hq ho htodo hcost]
  exact congrArg Work.st (settleDown_rests 4094 (w := ⟨_, w.joining, w.pass, false⟩) hp hj rfl)

end

/-! ### CREDIT_BOUNDARY (R111–R113) -/

/-- The head stopped for credit at an earlier instant (R113). -/
def State.stoppedEarlier (s : State) : Bool :=
  match s.wsu.creditStop with
  | some d => decide (d ≠ s.now)
  | none => false

/-- The state with its meter refilled and its boundary taken (R112). -/
def State.refilled (s : State) : State :=
  { s with wsu := { s.wsu with credit := s.wsu.credit.map (Machine.refilled s.cfl.config), creditTaken := true } }

/-- The boundary refills the meter, and has a head served that stopped before. -/
theorem creditBoundary_start (s : State) :
    creditBoundary (Work.start s) = { Work.start s.refilled with serve := s.stoppedEarlier } := rfl

/-- Settles O42: the refill, and the service that stops at once where the meter still falls short. -/
theorem creditBoundaryRefills : Obligations.CreditBoundaryRefills := by
  intro dt s s1 u c hs1 hrun hinstant htaken hcredit hu
  have hpassed : Passed s s1 := hs1 ▸ advance_passed dt s
  have hcredit1 : s1.wsu.credit = some c := by rw [hs1, advance_credit, hcredit]
  have hstop1 : s1.wsu.creditStop = s.wsu.creditStop := by rw [hs1, advance_creditStop]
  have hrefilled : u = s1.refilled := by
    rw [hu, State.refilled, hcredit1, hpassed.cfl]
    rfl
  have hdue : (s1.running && s1.boundaryDue) = true := by
    simp [State.boundaryDue, hpassed.running, hrun, hinstant, htaken, hcredit1]
  have hexec : exec (.creditBoundary dt) s = .next (finish { Work.start u with serve := s1.stoppedEarlier }) := by
    rw [hrefilled, ← creditBoundary_start]
    exact event_due (due := fun s => s.running && s.boundaryDue) hs1 hdue creditBoundary
  refine ⟨_, hexec, finish_follows { Work.start u with serve := s1.stoppedEarlier }, fun hnone => ?_,
    fun d v rest r closing more e hstop hearlier hqueue howner htodo hshort => ?_⟩
  · have hserve : s1.stoppedEarlier = false := by rw [State.stoppedEarlier, hstop1, hnone]
    exact finish_eq rfl rfl hserve
  · have hserve : s1.stoppedEarlier = true := by
      rw [State.stoppedEarlier, hstop1, hstop]
      exact decide_eq_true hearlier
    have hnow : u.now = s1.now := by rw [hu]; rfl
    have hqueue1 : u.wsu.queue = v :: rest := by
      rw [hu]
      exact hpassed.queue.trans hqueue
    have hcost : u.wsu.credit.getD 0 < (u.classParams r).cost := by
      rw [State.classParams, show u.cfl = s.cfl by rw [hu]; exact hpassed.cfl, hu]
      exact hshort
    rw [← hnow]
    exact finish_short (w := { Work.start u with serve := s1.stoppedEarlier }) rfl rfl hserve (by rw [hu]; rfl) hqueue1 howner
      htodo hcost

/-! ### DISCONNECT_HOLD_EXPIRY (R120, R135) -/

/-- The entry once its held wave is forced hot: HOT_BREAK is its reason where none but CANCELLED stood (R135). -/
def NetEntry.hotBroken (x : NetEntry) : NetEntry :=
  { x with reason := if x.reason = none ∨ x.reason = some .cancelled then some .hotBreak else x.reason }

/-- The capture of HOT_BREAK for an entry on its trunk (R135, R171). -/
def NetEntry.hotBreak (x : NetEntry) (k : Trunk) : Capture :=
  ⟨.hotBreak, some (x.site, x.net), some (NetResource.trunk k).code, none, none⟩

/-- The state without an entry's held wave and hold record. -/
def State.unheld (s : State) (e : Entry) : State :=
  { clearHold e s with wsu := { s.wsu with held := s.wsu.held.filter (fun x => !decide (x.owner = .entry e)) } }

/-- The state in which the hold of an entry on trunk k is over: HOT_BREAK is captured, and taken as its reason. -/
def State.holdBroken (s : State) (e : Entry) (k : Trunk) : State :=
  (capture ((s.entry e).hotBreak k) (s.unheld e)).setEntry e (s.entry e).hotBroken

/-- The held wave of an entry is to rejoin the queue forced hot. -/
theorem disconnectHoldExpired_held {w : Work} {e : Entry} {v : Wave} (k : Trunk)
    (hv : w.st.wsu.held.find? (fun x => decide (x.owner = .entry e)) = some v) :
    disconnectHoldExpired e k w =
      { w with st := w.st.holdBroken e k, joining := w.joining ++ [{ v with forcedHot := true }] } := by
  have hreason : (fun x : NetEntry =>
      if x.reason = none ∨ x.reason = some .cancelled then { x with reason := some .hotBreak } else x) = NetEntry.hotBroken := by
    funext x
    unfold NetEntry.hotBroken
    split <;> rfl
  have hentry : ∀ s : State, (capture ((w.st.entry e).hotBreak k) s).entry e = s.entry e := fun s => by
    rw [capture_eq]
    rfl
  unfold disconnectHoldExpired State.holdBroken
  dsimp only
  rw [hv]
  dsimp only
  rw [modEnt_of_eq hreason]
  exact congrArg (fun x : NetEntry => ({ w with
    st := State.setEntry _ e x.hotBroken, joining := w.joining ++ [{ v with forcedHot := true }] } : Work)) (hentry _)

/-- Behind other waves it waits at the tail, and nothing else happens at this event (R109, R120). -/
theorem finish_disconnectHoldExpired {s : State} {e : Entry} {v : Wave} (k : Trunk) (hrun : s.running = true)
    (hq : s.wsu.queue ≠ []) (hv : s.wsu.held.find? (fun x => decide (x.owner = .entry e)) = some v) :
    finish (disconnectHoldExpired e k (Work.start s)) = { s with
      ne := { s.ne with entries := put s.ne.entries e (s.entry e).hotBroken }
      ilu := { s.ilu with holds := put s.ilu.holds e none }
      wsu := { s.wsu with
        queue := s.wsu.queue ++ [{ v with forcedHot := true }]
        held := s.wsu.held.filter (fun x => !decide (x.owner = .entry e)) }
      fcu := (capture ((s.entry e).hotBreak k) s).fcu } := by
  have hrun' : (s.unheld e).running = true := hrun
  rw [disconnectHoldExpired_held (w := Work.start s) k hv, Work.start_st, State.holdBroken, capture_severe hrun' rfl,
    capture_severe hrun rfl]
  exact finish_joins rfl rfl hq

/-- Settles O45: the wave forced hot behind those that stand in the queue, and HOT_BREAK captured and noted as reason. -/
theorem disconnectHoldExpiryForcesHot : Obligations.DisconnectHoldExpiryForcesHot := by
  intro dt s s1 e h v hs1 hrun hhold hheld hkind hreached hqueue hwave
  have hpassed : Passed s s1 := hs1 ▸ advance_passed dt s
  have hrun1 : s1.running = true := hpassed.running.trans hrun
  have hhold1 : look s1.ilu.holds e = some h := by rw [hpassed.ilu, hhold]
  have hexpired : holdExpired e (Work.start s1) = disconnectHoldExpired e h.trunk (Work.start s1) := by
    unfold holdExpired
    rw [Work.start_st, hhold1]
    exact if_neg hkind
  have hconnect : s1.connectHold e = false := by
    rw [State.connectHold, hhold1]
    simpa using hkind
  have hdue : (s1.holdDue e && !s1.connectHold e) = true := by
    simp [State.holdDue, hhold1, hrun1, hheld, hreached, hconnect]
  have hexec : exec (.disconnectHoldExpiry dt e) s = .next (finish (disconnectHoldExpired e h.trunk (Work.start s1))) := by
    rw [← hexpired]
    exact event_due (due := fun s => s.holdDue e && !s.connectHold e) hs1 hdue (holdExpired e)
  have hentries : put s1.ne.entries e (s1.entry e).hotBroken = put s.ne.entries e (s.entry e).hotBroken := by
    rw [hpassed.entry, hpassed.ne]
  refine ⟨_, hexec, finish_follows_of (disconnectHoldExpired_core e h.trunk _), ?_⟩
  rw [finish_disconnectHoldExpired h.trunk hrun1 (hpassed.queue ▸ hqueue) (by rw [hpassed.held]; exact hwave)]
  refine ⟨congrArg (· ++ _) hpassed.queue, congrArg (List.filter _) hpassed.held, look_put_same _ _ _,
    fun x hx => entry_of_put_ne hentries hx, entry_of_put hentries, fun hrecord => ?_⟩
  dsimp only
  rw [capture_severe hrun1 rfl, hpassed.record, hrecord, hpassed.entry]
  rfl

end Sys2Proof.Machine

/-! The wear counts and the configuration memory through every command (R156, R158, R160, R163–R168, R180). `State.ledger` is what
their invariants speak of: the blocks but the WRU and the CFL leave it alone, pulses raise counts, and the saves write blocks. -/

namespace Sys2Proof.Machine

/-! ### The ledger -/

/-- The cells of the configuration memory, the wear counts, and the parameters in force and judged. -/
def State.ledger (s : State) : List Host.Cell × Table 640 Nat × Configuration × Option Judged :=
  (s.memory.cells, s.wru.counts, s.cfl.config, s.cfl.judged)

/-- From s to t the memory's form and the counts' range are kept, and unless they may be lowered no count falls. -/
structure Wears (lowered : Prop) (s t : State) : Prop where
  form : Memory.wf s.memory.cells = true → Memory.wf t.memory.cells = true
  ranged : s.wearOk → t.wearOk
  rises : ¬ lowered → s.wearOk → ∀ r, look s.wru.counts r ≤ look t.wru.counts r

section
variable {p : Prop} {s t u : State}

theorem Wears.trans (h : Wears p s t) (k : Wears p t u) : Wears p s u :=
  ⟨fun f => k.form (h.form f), fun o => k.ranged (h.ranged o),
    fun hp o r => (h.rises hp o r).trans (k.rises hp (h.ranged o) r)⟩

/-- What leaves the ledger alone keeps it all. -/
theorem Wears.of_ledger (h : t.ledger = s.ledger) : Wears p s t := by
  simp only [State.ledger, Prod.mk.injEq] at h
  obtain ⟨hcells, hcounts, hconfig, hjudged⟩ := h
  exact ⟨fun f => by rw [hcells]; exact f,
    fun o => ⟨fun r => by rw [hcounts]; exact o.counts r, by rw [hconfig]; exact o.thresholds, by rw [hjudged]; exact o.judged⟩,
    fun _ _ r => by rw [hcounts]⟩

/-- What an event leads to raises counts at most. -/
theorem Wears.of_follows (h : Follows s t) : Wears p s t :=
  ⟨fun f => by rw [h.memory]; exact f,
    fun o => ⟨(h.counts o.counts).2, by rw [h.cfl]; exact o.thresholds, by rw [h.cfl]; exact o.judged⟩,
    fun _ o => (h.counts o.counts).1⟩

theorem Wears.refl (s : State) : Wears p s s := .of_ledger rfl

/-- A command that may lower counts has to keep the form and the ranges alone. -/
theorem Wears.lowering (hp : p) (hf : Memory.wf s.memory.cells = true → Memory.wf t.memory.cells = true)
    (ho : s.wearOk → t.wearOk) : Wears p s t := ⟨hf, ho, fun hn => absurd hp hn⟩

theorem Wears.finish {w : Work} (h : Wears p s w.st) : Wears p s (finish w) := h.trans (.of_follows (finish_follows w))

theorem ledger_of_core (h : t.core = s.core) : t.ledger = s.ledger := by
  have k : Follows s t := .of_core h
  have hcounts : t.wru.counts = s.wru.counts := congrArg (fun c => c.2.2) h
  rw [State.ledger, k.memory, k.cfl, hcounts, State.ledger]

theorem counts_of_ledger (h : t.ledger = s.ledger) : t.wru.counts = s.wru.counts := congrArg (fun l => l.2.1) h

theorem ite_ledger {c : Prop} [Decidable c] {a b s : State} (ha : a.ledger = s.ledger) (hb : b.ledger = s.ledger) :
    (if c then a else b).ledger = s.ledger := by
  split
  · exact ha
  · exact hb

end

theorem resumed_ledger (s : State) : (resumeHeld (Work.start s)).st.ledger = s.ledger := ledger_of_core (resumeHeld_core _)

theorem advance_ledger (dt : Nat) (s : State) : (advance dt s).ledger = s.ledger := by
  rw [State.ledger, advance_memory, advance_wru, advance_cfl, State.ledger]

/-! ### Flags and the view -/

/-- A mark renewed is a matter of the frame on the line (R62, R179). -/
theorem renew_eq (m : Owed) (s : State) : s.renew m = { s with liu := (s.renew m).liu } := by
  unfold State.renew
  split
  · split <;> rfl
  · rfl

theorem renew_ledger (m : Owed) (s : State) : (s.renew m).ledger = s.ledger := ledger_of_core (State.renew_core m s)

theorem pendNote_ledger (c : Fin 8) (d : BitVec 16) (s : State) : (pendNote c d s).ledger = s.ledger := renew_ledger _ _

theorem capture_ledger (c : Capture) (s : State) : (capture c s).ledger = s.ledger := ledger_of_core (capture_core c s)

theorem named_ledger (n : Node) (r : Resource) (net : Option (Site × NetId)) (s : State) :
    (named n r net s).1.ledger = s.ledger := by
  unfold named
  dsimp only
  split
  · split
    · rfl
    · split
      · exact capture_ledger _ _
      · exact capture_ledger _ s
  · split
    · rfl
    · (repeat' split) <;> rfl

theorem clearView_ledger (n : Node) (r : Resource) (s : State) : (clearView n r s).1.ledger = s.ledger := by
  unfold clearView
  split <;> rfl

theorem beaconView_ledger (n : Node) (mask : BitVec 24) (rs : List Resource) (s : State) :
    (beaconView n mask rs s).1.ledger = s.ledger := by
  induction rs generalizing s with
  | nil => rfl
  | cons r rs ih =>
    simp only [beaconView, ih]
    unfold beaconResource
    split
    · exact named_ledger _ _ _ _
    · exact clearView_ledger _ _ _

theorem claimHeard_ledger (n : Node) (r : Resource) (i : Site) (m : NetId) (w : Work) :
    (claimHeard n r i m w).st.ledger = w.st.ledger := by
  have acted : (actNamed r (named n r (some (i, m)) w.st).2 { w with st := (named n r (some (i, m)) w.st).1 }).st.ledger =
      w.st.ledger := (ledger_of_core (actNamed_core _ _ _)).trans (named_ledger _ _ _ _)
  unfold claimHeard
  dsimp only
  split
  · exact (ledger_of_core (foldl_core _ (fun w e => participantClaim_core e _ w) _ _)).trans acted
  · exact acted

theorem openOnFailure_ledger (s : State) : (openOnFailure s).ledger = s.ledger := by
  refine ite_ledger ?_ rfl
  rw [dropAll_eq, openHeld_eq]
  exact (pendNote_ledger _ _ _).trans (capture_ledger _ _)

/-! ### Queues, requests and maintenance -/

theorem writeRecord_ledger (i : Site) (b : QueueBody) (s : State) : (writeRecord i b s).ledger = s.ledger := ite_ledger rfl rfl

theorem refuseSite_ledger (i : Site) (n : NetId) (r : Reason) (s : State) : (refuseSite i n r s).ledger = s.ledger :=
  ledger_of_core (oweSite_core _ _)

theorem breakStaging_ledger (i : Site) (s : State) : (breakStaging i s).ledger = s.ledger := by
  unfold breakStaging
  split
  · rfl
  · exact ite_ledger rfl (refuseSite_ledger _ _ _ _)

theorem commit_ledger (i : Site) (g : Staging) (s : State) : (commit i g s).ledger = s.ledger := by
  refine ite_ledger rfl ?_
  split
  · exact refuseSite_ledger _ _ _ _
  · exact writeRecord_ledger _ _ _

theorem routeHeard_ledger (i : Site) (more : Bool) (fl : RouteFlags) (q : Request) (n : NetId) (ends : List (Node × Pin))
    (s : State) : (routeHeard i more fl q n ends s).ledger = s.ledger := by
  have broken : (breakUnless i fl q n s).ledger = s.ledger := by
    unfold breakUnless
    split
    · exact ite_ledger rfl (breakStaging_ledger _ _)
    · rfl
  exact ite_ledger broken ((commit_ledger _ _ _).trans broken)

/-- A request that breaks a staging and may then do one thing more. -/
theorem broken_ledger {c : Prop} [Decidable c] {i : Site} {s t u : State} (ht : t.ledger = (breakStaging i s).ledger)
    (hu : u.ledger = (breakStaging i s).ledger) : (if c then t else u).ledger = s.ledger :=
  ite_ledger (ht.trans (breakStaging_ledger i s)) (hu.trans (breakStaging_ledger i s))

theorem saveAdvance_ledger (walk written : Nat) (s : State) : (saveAdvance walk written s).ledger = s.ledger := by
  unfold saveAdvance
  split
  · rfl
  · exact renew_ledger _ _

theorem saveWear_ledger (s : State) : (saveWear s).ledger = s.ledger := ite_ledger rfl (ite_ledger rfl (saveAdvance_ledger _ _ _))

/-- Saves, answers and cleared marks touch no count and write nothing at once (R162, R169, R170). -/
theorem maintHeard_ledger (op : MaintOp) (w : Work) : (maintHeard op w).st.ledger = w.st.ledger := by
  unfold maintHeard
  split
  · rfl
  · cases op with
    | saveWear => exact saveWear_ledger _
    | readWear i =>
      show (readWear i w.st).ledger = _
      unfold readWear
      split <;> rfl
    | clearMarks first last =>
      show (clearMarks first last w.st).ledger = _
      unfold clearMarks
      exact ite_ledger (by simp only [State.ledger, clearSpan]) rfl
    | readFault => rfl
    | clearFault => rfl

/-! ### Heard frames (R26, R32) -/

theorem abortHeard_ledger (i : Site) (w : Work) : (abortHeard i w).st.ledger = w.st.ledger := by
  have emptied : (w.upd (emptySite i)).st.ledger = w.st.ledger := rfl
  simp only [abortHeard, Work.upd_st]
  exact (ledger_of_core ((abortReady_core i _).trans (abortSite_core i _))).trans emptied

theorem cancelHeard_ledger (n : Node) (i : Site) (net : NetId) (w : Work) : (cancelHeard n i net w).st.ledger = w.st.ledger := by
  unfold cancelHeard
  dsimp only
  split
  · exact (ledger_of_core (cancelEntry_core _ (w.upd (purge i net)))).trans rfl
  · rfl

/-- The blocks named for a frame's kind leave the ledger alone (R32). -/
theorem act_ledger (n : Node) (m : Msg) (w : Work) : (act n m w).st.ledger = w.st.ledger := by
  cases m with
  | source t on => rfl
  | abort i => exact abortHeard_ledger _ _
  | claim r i net => exact claimHeard_ledger _ _ _ _ _
  | release r i net => exact (ledger_of_core (actNamed_core _ _ _)).trans (clearView_ledger _ _ _)
  | cancel i net => exact cancelHeard_ledger _ _ _ _
  | beacon k mask live => exact (ledger_of_core (beaconHeard_core n mask w)).trans (beaconView_ledger _ _ _ _)
  | clear r => exact ledger_of_core (clearHeard_core _ _)
  | route i more fl q net ends => exact routeHeard_ledger _ _ _ _ _ _ _
  | unroute i net => exact broken_ledger (writeRecord_ledger _ _ _) rfl
  | monitor i net on => exact broken_ledger (writeRecord_ledger _ _ _) rfl
  | fence i token => exact broken_ledger (writeRecord_ledger _ _ _) (ledger_of_core (oweReady_core _ _ _ _))
  | maint target op =>
    show (if target = w.st.cfl.node then maintHeard op w else w).st.ledger = _
    split
    · exact maintHeard_ledger _ _
    · rfl
  | status i net o => exact ledger_of_core (statusHeard_core _ _ _ _ _)
  | ready => rfl
  | note => rfl
  | maintDone => rfl

theorem latch_ledger (k : Kind) (s : State) : (latch k s).ledger = s.ledger :=
  (pendNote_ledger _ _ _).trans (capture_ledger _ _)

theorem dispatchFront_wears {p : Prop} (fits : State → Frame → Bool) (s : State) : Wears p s (dispatchFront fits s) := by
  have taken : ∀ n m (u : State), u.ledger = s.ledger → Wears p s (takeMsg n m u) := fun n m u hu =>
    Wears.finish (.of_ledger ((act_ledger n m _).trans ((resumed_ledger _).trans hu)))
  unfold dispatchFront
  split
  · exact .refl s
  · split
    · unfold takeFrame
      split
      · exact .of_ledger rfl
      · split
        · exact .of_ledger (latch_ledger _ _)
        · exact taken _ _ _ rfl
    · exact .refl s

end Sys2Proof.Machine

/-! Every step keeps the memory's form and the counts' range, and no command but a power-on load and its reset lowers a count
(R156, R158): the link, the resets and the load, the times that pass and the block writes. -/

namespace Sys2Proof.Machine

variable {p : Prop}

/-! ### The link (R20–R30) and the beacon-period boundary (R101) -/

theorem startFrame_ledger (s : State) : (startFrame s).ledger = s.ledger := by
  unfold startFrame
  split <;> rfl

theorem idlePoint_ledger (s : State) : (idlePoint s).ledger = s.ledger :=
  ite_ledger (ite_ledger (startFrame_ledger _) rfl) rfl

theorem deferredStart_ledger (s : State) : (deferredStart s).ledger = s.ledger := ite_ledger (startFrame_ledger _) rfl

/-- A frame of the part leaves the line, and what follows. -/
theorem finish_offLine_wears {s t : State} (m : Owed) (h : t.ledger = s.ledger) : Wears p s (finish (offLine m (Work.start t))) :=
  Wears.finish (.of_ledger ((ledger_of_core (offLine_core m (Work.start t))).trans h))

theorem lostContention_wears (s : State) : Wears p s (lostContention s) := by
  unfold lostContention
  split
  · split
    · exact finish_offLine_wears _ rfl
    · exact .refl s
  · exact .refl s

theorem readbackFault_wears (s : State) : Wears p s (readbackFault s) := by
  unfold readbackFault
  split
  · split
    · exact finish_offLine_wears _ (latch_ledger _ _)
    · exact .refl s
  · exact .refl s

theorem countClean_ledger (damaged : Bool) (s : State) : (countClean damaged s).ledger = s.ledger :=
  ite_ledger rfl (ite_ledger rfl (ite_ledger rfl (pendNote_ledger _ _ _)))

theorem checkFieldEnd_ledger (h : Sampled) (s : State) : (checkFieldEnd h s).ledger = s.ledger :=
  ite_ledger (ite_ledger rfl (countClean_ledger (sampledDamaged h) s)) rfl

theorem releaseSent_ledger (e : Entry) (r : Resource) (w : Work) : (releaseSent e r w).st.ledger = w.st.ledger := by
  have dropped : (if decide (look w.st.rcu.holdings r = some e) then w.upd (dropHolding r) else w).st.ledger = w.st.ledger := by
    split <;> rfl
  have freed : ∀ u : Work, u.st.ledger = w.st.ledger →
      (if decide (look w.st.rcu.holdings r = some e) then tryFree e u else u).st.ledger = w.st.ledger := by
    intro u hu
    split
    · exact (ledger_of_core (tryFree_core e u)).trans hu
    · exact hu
  unfold releaseSent
  dsimp only
  apply freed
  split
  · exact (ledger_of_core (watch_core _ _)).trans dropped
  · exact dropped

theorem claimSent_ledger (e : Entry) (r : Resource) (b : Bool) (w : Work) : (claimSent e r b w).st.ledger = w.st.ledger := by
  unfold claimSent
  dsimp only
  split
  · exact (ledger_of_core (trunkClaimed_core _ _ _)).trans rfl
  · exact (ledger_of_core ((handshake_core _ _).trans (monitorClaimed_core _ _ _))).trans rfl

/-- A frame sent clears its mark and is told to its block (R25). -/
theorem sent_ledger (o : OwnFrame) (w : Work) : (sent o w).st.ledger = w.st.ledger := by
  have cleared : (w.upd (clearSent o)).st.ledger = w.st.ledger := by
    show (clearSent o w.st).ledger = _
    unfold clearSent
    split
    · rfl
    · split <;> rfl
  unfold sent
  dsimp only
  split
  · exact (claimSent_ledger _ _ _ _).trans cleared
  · exact (releaseSent_ledger _ _ _).trans cleared
  · exact cleared
  · exact (ledger_of_core (takeFaulted_core _ _)).trans cleared
  · exact cleared

theorem countObjection_ledger (s : State) : (countObjection s).ledger = s.ledger := by
  rw [(countObjection_eq s).1]
  rfl

theorem ownOutcome_wears (o : OwnFrame) (driven : Bool) (s : State) : Wears p s (ownOutcome o driven s) := by
  unfold ownOutcome
  dsimp only
  split
  · exact .finish (.of_ledger ((ledger_of_core (objected_core _ _)).trans (countObjection_ledger _)))
  · exact .finish (.of_ledger (sent_ledger _ _))

theorem slotRead_wears (driven : Bool) (s : State) : Wears p s (slotRead driven s) := by
  unfold slotRead
  split
  · split
    · exact ownOutcome_wears _ _ _
    · exact .of_ledger rfl
    · exact .refl s
  · exact .refl s

theorem beaconBoundary_wears (s : State) : Wears p s (beaconBoundary s) := by
  by_cases hd : s.beaconDue = true
  · obtain ⟨u, hu, hcore⟩ := rcuBoundary_core (resumeHeld (Work.start (beginBoundary s)))
    have begun : Wears p s (beginBoundary s) := .of_ledger (by simp only [State.ledger, beginBoundary, ageRoster, State.updLiu])
    have counted : ∀ b : State, Wears p b (countPeriod b) := fun _ => .of_ledger rfl
    have opened : Wears p u (rcuBoundary (resumeHeld (Work.start (beginBoundary s)))).st :=
      .of_ledger ((ledger_of_core hcore).trans (openOnFailure_ledger u))
    rw [beaconBoundary_due hd]
    exact .finish ((begun.trans (.of_ledger (resumed_ledger _))).trans ((counted _).trans ((Wears.of_follows hu).trans opened)))
  · rw [beaconBoundary, if_neg hd]
    exact .refl s

/-! ### Resets (R166, R180) -/

/-- A save cut short tears its block, and no cell is rewritten (R166). -/
theorem cutSave_ledger (s : State) : (cutSave s).ledger = s.ledger := by
  unfold cutSave
  split
  · rfl
  · rw [saveFail, renew_eq]
    rfl

theorem resetAsserted_wears (s : State) : Wears p s (resetAsserted s) := by
  have framed : ∀ t : State, Wears p t (cutFrame t) := fun t => by
    unfold cutFrame
    split
    · exact ownOutcome_wears _ _ _
    · exact .refl t
  have entered : Wears p s (enterReset s) := .of_ledger rfl
  unfold resetAsserted
  split
  · exact .refl s
  · exact (entered.trans (framed _)).trans (.of_ledger (cutSave_ledger _))

theorem thresholdsOk_of_ranged {c : Configuration} (h : configRanged c) : thresholdsOk c := by
  intro k
  obtain ⟨-, -, -, -, -, -, -, -, -, -, -, -, -, -, classes⟩ := h
  obtain ⟨-, -, -, -, -, -, -, -, -, hlife, hmax⟩ := classes k
  exact hlife.trans hmax

/-- A power-on reset sets the counts to 0 and leaves the memory to what the assertion made of it (R180). -/
theorem powerOn_wears (hp : p) (straps : Node) (s : State) : Wears p s (powerOn straps s) :=
  .lowering hp (resetAsserted_wears (p := p) s).form fun _ =>
    ⟨fun r => by simp [powerOn, State.reset, Wru.reset], thresholdsOk_of_ranged defaulted_ranged, fun _ hj => by cases hj⟩

/-- A pin reset keeps counts, parameters and memory, and judges its record afresh (R156, R180). -/
theorem pinReset_wears {s t : State} (hm : t.memory = s.memory) (hw : t.wru = s.wru.pinReset)
    (hc : t.cfl.config = s.cfl.config) (hj : t.cfl.judged = none) : Wears p s t :=
  ⟨fun f => by rw [hm]; exact f,
    fun o => ⟨fun r => by rw [hw]; exact o.counts r, by rw [hc]; exact o.thresholds, fun j h => by rw [hj] at h; cases h⟩,
    fun _ _ r => by rw [hw]; exact le_refl _⟩

theorem coldPin_wears (straps : Node) (s : State) : Wears p s (coldPin straps s) :=
  (resetAsserted_wears s).trans (pinReset_wears rfl rfl rfl rfl)

theorem warmKeep_wears (straps : Node) (s : State) : Wears p s (warmKeep straps s) := by
  refine (resetAsserted_wears s).trans ?_
  rw [warmKeep, captureInFlight_eq]
  generalize resetAsserted s = r
  have dropped := State.dropListed_eq (unpulsedRelays r) r
  generalize r.dropListed (unpulsedRelays r) = u at dropped
  have hmemory : u.memory = r.memory := by rw [dropped]
  have hwru : u.wru = r.wru := by rw [dropped]
  have hpinned : u.wru.pinReset = r.wru.pinReset := by rw [hwru]
  have hconfig : u.cfl.config = r.cfl.config := by rw [dropped]
  exact pinReset_wears hmemory hpinned hconfig rfl

/-- A reset lowers a count only as a power-on reset, or as a pin reset taken as one (R158, R180). -/
theorem reset_wears (k : ResetKind) (straps : Node) (s : State) (hp : k = .powerOn ∨ s.cfl.powerOnLoad = true → p) :
    Wears p s (reset k straps s) := by
  by_cases hload : s.cfl.powerOnLoad = true
  · rw [reset_during_load hload]
    exact powerOn_wears (hp (.inr hload)) _ _
  · simp only [Bool.not_eq_true] at hload
    cases k with
    | powerOn => exact powerOn_wears (hp (.inl rfl)) _ _
    | coldPin => rw [reset_coldPin hload]; exact coldPin_wears _ _
    | warmKeep => rw [reset_warmKeep hload]; exact warmKeep_wears _ _

/-! ### The load (R167, R168, R183) -/

/-- Three bytes are a number of 24 bits (R189). -/
theorem tripleAt_le (bytes : List Byte) (i : Nat) : tripleAt bytes i ≤ wearMax := by
  have h0 : byteAt bytes i < 256 := (bytes.getD i 0#8).isLt
  have h1 : byteAt bytes (i + 1) < 256 := (bytes.getD (i + 1) 0#8).isLt
  have h2 : byteAt bytes (i + 1 + 1) < 256 := (bytes.getD (i + 1 + 1) 0#8).isLt
  unfold tripleAt wordAt wearMax
  omega

/-- The state that takes a block: the record is judged, and at block 0 the store is taken to be there (R167, R168). -/
def State.toTake (s : State) (record : MemAnswer) (b : Block) : State :=
  if b.val = 0 then { ensureJudged record s with wru := { (ensureJudged record s).wru with storeAbsent := false } }
  else ensureJudged record s

/-- The state with the load at its next block. -/
def State.atBlock (s : State) (n : Nat) : State := { s with cfl := { s.cfl with nextBlock := n } }

section
variable {record block : MemAnswer} {s : State} {b : Block}

theorem wearBlockRead_idle (h : ¬ (s.cfl.phase = .loading ∧ s.cfl.powerOnLoad = true ∧ s.cfl.nextBlock < 40)) :
    wearBlockRead record block s = s := by
  unfold wearBlockRead inRange
  split
  · rename_i hl
    rw [dif_neg (fun hn => h ⟨hl.1, hl.2, hn⟩)]
  · rfl

/-- A silent memory at block 0 is an absent store (R168). -/
theorem wearBlockRead_absent (hp : s.cfl.phase = .loading) (hl : s.cfl.powerOnLoad = true) (hn : s.cfl.nextBlock = b.val)
    (hb : b.val = 0 ∧ block = .noAddress) : wearBlockRead record block s =
      (pendNote noteStoreAbsent 0#16 (takeAbsent (ensureJudged record s).judgedConfig (ensureJudged record s))).atBlock 40 := by
  unfold wearBlockRead inRange
  rw [if_pos ⟨hp, hl⟩, dif_pos (hn ▸ b.isLt)]
  simp only [hn]
  rw [if_pos hb]
  rfl

/-- Any other answer takes the block (R167). -/
theorem wearBlockRead_takes (hp : s.cfl.phase = .loading) (hl : s.cfl.powerOnLoad = true) (hn : s.cfl.nextBlock = b.val)
    (hb : ¬ (b.val = 0 ∧ block = .noAddress)) :
    wearBlockRead record block s = (takeNext b block (s.toTake record b)).atBlock (b.val + 1) := by
  unfold wearBlockRead inRange
  rw [if_pos ⟨hp, hl⟩, dif_pos (hn ▸ b.isLt)]
  simp only [hn]
  rw [if_neg hb]
  rfl

theorem atBlock_wearOk {n : Nat} (h : s.wearOk) : (s.atBlock n).wearOk := ⟨h.counts, h.thresholds, h.judged⟩

theorem pendNote_wearOk {c : Fin 8} {d : BitVec 16} (h : s.wearOk) : (pendNote c d s).wearOk :=
  (Wears.of_ledger (p := True) (pendNote_ledger c d s)).ranged h

/-- The thresholds that a load could set a count to are counts (R167). -/
theorem judgedConfig_thresholds (h : s.wearOk) : thresholdsOk s.judgedConfig := by
  unfold State.judgedConfig
  cases hj : s.cfl.judged with
  | none => exact h.thresholds
  | some j => exact h.judged j hj

theorem takeBlock_wearOk {count : Relay → Nat} {slow suspect : Relay → Bool} (hc : ∀ r, count r ≤ wearMax) (h : s.wearOk) :
    (takeBlock b count slow suspect s).wearOk := by
  refine ⟨fun r => ?_, h.thresholds, h.judged⟩
  simp only [takeBlock, look_each]
  split
  · exact hc r
  · exact h.counts r

theorem takeAbsent_wearOk {c : Configuration} (hc : thresholdsOk c) (h : s.wearOk) : (takeAbsent c s).wearOk :=
  ⟨fun r => by simpa only [takeAbsent, look_each] using hc (classOf r), h.thresholds, h.judged⟩

theorem takeNext_wearOk (h : s.wearOk) : (takeNext b block s).wearOk := by
  unfold takeNext
  dsimp only
  split
  · exact takeBlock_wearOk (fun r => tripleAt_le _ _) h
  · exact pendNote_wearOk (takeBlock_wearOk (fun r => judgedConfig_thresholds h (classOf r)) h)

theorem ensureJudged_wearOk (h : s.wearOk) : (ensureJudged record s).wearOk := by
  unfold ensureJudged
  split
  · exact h
  · refine ⟨h.counts, h.thresholds, fun j hj => ?_⟩
    cases hj
    exact thresholdsOk_of_ranged (judgeRecord_ranged record s.memory)

theorem toTake_wearOk (h : s.wearOk) : (s.toTake record b).wearOk := by
  have judged : (ensureJudged record s).wearOk := ensureJudged_wearOk h
  unfold State.toTake
  split
  · exact ⟨judged.counts, judged.thresholds, judged.judged⟩
  · exact judged

theorem pendNote_memory (c : Fin 8) (d : BitVec 16) (s : State) : (pendNote c d s).memory = s.memory := by
  rw [pendNote, renew_eq]

theorem takeAbsent_memory (c : Configuration) (s : State) : (takeAbsent c s).memory = s.memory := with_wru_rm_memory s _ _

theorem ensureJudged_memory (record : MemAnswer) (s : State) : (ensureJudged record s).memory = s.memory := by
  unfold ensureJudged
  split <;> rfl

theorem toTake_memory (s : State) (record : MemAnswer) (b : Block) : (s.toTake record b).memory = s.memory := by
  unfold State.toTake
  split
  · exact ensureJudged_memory record s
  · exact ensureJudged_memory record s

theorem takeNext_memory (b : Block) (block : MemAnswer) (s : State) : (takeNext b block s).memory = s.memory := by
  unfold takeNext
  dsimp only
  split
  · exact takeBlock_memory _ _ _ _ _
  · rw [pendNote_memory]
    exact takeBlock_memory _ _ _ _ _

/-- The load reads the memory and writes nothing to it; what it takes is in range. -/
theorem wearBlockRead_keeps_store (record block : MemAnswer) (s : State) :
    (wearBlockRead record block s).memory = s.memory ∧ (s.wearOk → (wearBlockRead record block s).wearOk) := by
  by_cases h : s.cfl.phase = .loading ∧ s.cfl.powerOnLoad = true ∧ s.cfl.nextBlock < 40
  · obtain ⟨hp, hl, hn⟩ := h
    by_cases hb : (⟨s.cfl.nextBlock, hn⟩ : Block).val = 0 ∧ block = .noAddress
    · rw [wearBlockRead_absent hp hl rfl hb]
      refine ⟨(pendNote_memory _ _ _).trans ((takeAbsent_memory _ _).trans (ensureJudged_memory record s)), fun o => ?_⟩
      have judged : (ensureJudged record s).wearOk := ensureJudged_wearOk o
      exact atBlock_wearOk (pendNote_wearOk (takeAbsent_wearOk (judgedConfig_thresholds judged) judged))
    · rw [wearBlockRead_takes hp hl rfl hb]
      exact ⟨(takeNext_memory _ _ _).trans (toTake_memory _ _ _), fun o => atBlock_wearOk (takeNext_wearOk (toTake_wearOk o))⟩
  · rw [wearBlockRead_idle h]
    exact ⟨rfl, id⟩

end

theorem wearBlockRead_wears (hp : p) (record block : MemAnswer) (s : State) : Wears p s (wearBlockRead record block s) :=
  .lowering hp (fun f => by rw [(wearBlockRead_keeps_store record block s).1]; exact f) (wearBlockRead_keeps_store record block s).2

/-- The parameters taken leave counts and cells alone, and their thresholds are in range (R5, R183). -/
theorem loaded_wears {j : Judged} {s : State} (hj : s.wearOk → thresholdsOk j.config) : Wears p s (s.loaded j) := by
  have taken : Wears p s (takeParameters j.config s) :=
    ⟨id, fun o => ⟨o.counts, hj o, fun _ h => by cases h⟩, fun _ _ _ => le_refl _⟩
  exact taken.trans (.of_ledger (by rw [loaded_eq]; rfl))

theorem loadEnd_wears (record : MemAnswer) (s : State) : Wears p s (loadEnd record s) := by
  have started : ∀ j, (s.wearOk → thresholdsOk j.config) →
      Wears p s (finish (queueStart (tellParts (unlisted (s.loaded j)) (Work.start (s.loaded j))))) := fun j hj =>
    .finish ((loaded_wears hj).trans (.of_ledger (ledger_of_core ((queueStart_core _).trans (tellParts_core _ _)))))
  unfold loadEnd
  split
  · refine started _ ?_
    split
    · exact fun o => o.judged _ (by assumption)
    · exact fun _ => thresholdsOk_of_ranged (judgeRecord_ranged _ _)
  · exact .refl s

theorem listenEnd_wears (s : State) : Wears p s (listenEnd s) := by
  have watched : ∀ w : Work, (watchAll w).st.ledger = w.st.ledger := fun w =>
    ledger_of_core (foldl_core _ (fun w t => watch_core _ w) _ _)
  unfold listenEnd
  split
  · refine .finish (.of_ledger ?_)
    split
    · exact (watched _).trans (resumed_ledger _)
    · exact resumed_ledger _
  · exact .refl s

/-! ### The arbiter and the block writes (R55, R163, R165) -/

theorem arbitrate_ledger (w : Work) : (arbitrate w).st.ledger = w.st.ledger := by
  unfold arbitrate
  split
  · rfl
  · rename_i h
    split
    · rfl
    · rw [select_eq h]
      exact (ledger_of_core (actRecord_core _ _ _)).trans rfl

/-- A block stored rewrites cells in canonical form, and the walk goes on (R163). -/
theorem writeEnd_wears (s : State) : Wears p s (writeEnd s) := by
  have stored : ∀ v : Save, Wears p s { s with memory := storeBlock v.block v.bytes s.memory } := fun v =>
    ⟨storeBlock_wf v.block v.bytes, fun o => ⟨o.counts, o.thresholds, o.judged⟩, fun _ _ _ => le_refl _⟩
  unfold writeEnd
  split
  · split
    · exact (stored _).trans (.of_ledger (saveAdvance_ledger _ _ _))
    · exact .refl s
  · exact .refl s

/-- Whatever a failed write leaves of its block is in canonical form (R165). -/
theorem writeFailure_wears (s : State) : Wears p s (writeFailure s) := by
  have failed : ∀ v : Save, Wears p s { saveFail v s with
      memory := residueMemory (Config.failedWrite s.free) v s.memory, free := s.free + 1 } := fun v => by
    rw [saveFail, renew_eq]
    exact ⟨residueMemory_wf _ v, fun o => ⟨o.counts, o.thresholds, o.judged⟩, fun _ _ _ => le_refl _⟩
  unfold writeFailure
  split
  · split
    · exact failed _
    · exact .refl s
  · exact .refl s

/-! ### The step -/

theorem plainEvent_wears {dt : Nat} {f : State → State} {s t : State} (hf : Wears p (advance dt s) (f (advance dt s)))
    (h : plainEvent dt f s = .next t) : Wears p s t := by
  cases h
  exact (Wears.of_ledger (advance_ledger dt s)).trans hf

theorem event_wears {dt : Nat} {due : State → Bool} {f : Work → Work} {s t : State} (hf : ∀ w, (f w).st.ledger = w.st.ledger)
    (h : event dt due f s = .next t) : Wears p s t := by
  cases h
  refine (Wears.of_ledger (advance_ledger dt s)).trans ?_
  split
  · exact .finish (.of_ledger (hf _))
  · exact .refl _

theorem event_core_wears {dt : Nat} {due : State → Bool} {f : Work → Work} {s t : State}
    (hf : ∀ w, (f w).st.core = w.st.core) (h : event dt due f s = .next t) : Wears p s t :=
  event_wears (fun w => ledger_of_core (hf w)) h

/-- Every command keeps the memory's form and the counts' range, and lowers a count only where it may. -/
theorem exec_wears {c : Instr} {s t : State} (h : exec c s = .next t) : Wears (lowersWear s c) s t := by
  cases c with
  | powerOnReset dt straps => exact plainEvent_wears (f := reset .powerOn straps) (reset_wears _ _ _ fun _ => trivial) h
  | coldPinReset dt straps =>
    exact plainEvent_wears (f := reset .coldPin straps) (reset_wears _ _ _ fun hk => by simpa [lowersWear] using hk) h
  | warmKeep dt straps =>
    exact plainEvent_wears (f := reset .warmKeep straps) (reset_wears _ _ _ fun hk => by simpa [lowersWear] using hk) h
  | configurationLoadEnd dt record => exact plainEvent_wears (loadEnd_wears record _) h
  | wearBlockRead dt record block => exact plainEvent_wears (wearBlockRead_wears trivial record block _) h
  | listenPeriodEnd dt => exact plainEvent_wears (listenEnd_wears _) h
  | idlePoint dt => exact plainEvent_wears (.of_ledger (idlePoint_ledger _)) h
  | deferredFrameStart dt => exact plainEvent_wears (.of_ledger (deferredStart_ledger _)) h
  | lostContention dt => exact plainEvent_wears (lostContention_wears _) h
  | readbackFault dt => exact plainEvent_wears (readbackFault_wears _) h
  | checkFieldEnd dt heard => exact plainEvent_wears (.of_ledger (checkFieldEnd_ledger heard _)) h
  | objectionSlotRead dt driven => exact plainEvent_wears (slotRead_wears driven _) h
  | source | abort | claim | release | cancel | beacon | clear | route | unroute | monitor | fence | saveWear | readWear
  | clearMarks | readFault | clearFault | status | ready | note | maintDone | maintForAnotherTargetNode =>
    exact plainEvent_wears (dispatchFront_wears _ _) h
  | arbiterDispatch dt => exact event_wears arbitrate_ledger (show execArbiterDispatch dt s = .next t from h)
  | beaconPeriodBoundary dt => exact plainEvent_wears (beaconBoundary_wears _) h
  | creditBoundary dt => exact event_wears (f := creditBoundary) (fun _ => rfl) (show execCreditBoundary dt s = .next t from h)
  | settleEnd dt r => exact event_core_wears (settle_core r) (show execSettleEnd dt r s = .next t from h)
  | connectHoldExpiry dt e => exact event_core_wears (holdExpired_core e) (show execConnectHoldExpiry dt e s = .next t from h)
  | disconnectHoldExpiry dt e => exact event_core_wears (holdExpired_core e) (show execDisconnectHoldExpiry dt e s = .next t from h)
  | awaitResourceDeadline dt e =>
    exact event_core_wears (fun w => abandon_core e _ w) (show execAwaitResourceDeadline dt e s = .next t from h)
  | awaitAnchorDeadline dt e =>
    exact event_core_wears (fun w => by simp [anchorWaitOver]) (show execAwaitAnchorDeadline dt e s = .next t from h)
  | awaitOpenedDeadline dt e =>
    exact event_core_wears (releaseWaitOver_core e) (show execAwaitOpenedDeadline dt e s = .next t from h)
  | monitorClaimWaitExpiry dt e =>
    exact event_core_wears (monitorWaitOver_core e) (show execMonitorClaimWaitExpiry dt e s = .next t from h)
  | coolingEnd dt r => exact event_wears (f := coolingEnd r) (fun _ => rfl) (show execCoolingEnd dt r s = .next t from h)
  | senseEnd dt high => exact event_core_wears (senseOver_core high) (show execSenseEnd dt high s = .next t from h)
  | stepEnd dt => exact event_core_wears (fun w => finishSteps_core w.st) (show execStepEnd dt s = .next t from h)
  | blockWriteEnd dt => exact plainEvent_wears (writeEnd_wears _) h
  | blockWriteFailure dt => exact plainEvent_wears (writeFailure_wears _) h
  | resetAsserted dt => exact plainEvent_wears (resetAsserted_wears _) h

/-- Taking a command from the queue touches neither counts nor memory. -/
theorem step_wears {s t : State} (h : step s = .next t) : Wears True s t := by
  unfold step at h
  split at h
  · cases h
    exact .refl s
  · rename_i c rest _
    have popped : Wears True s { s with pending := rest } := .of_ledger rfl
    obtain ⟨form, ranged, -⟩ := exec_wears h
    exact popped.trans (.lowering trivial form ranged)

/-- Settles O54, command by command: cells are written by the block writes alone, and in canonical form. -/
theorem everyStepKeepsMemoryForm : Obligations.EveryStepKeepsMemoryForm := fun _ _ hs h => (step_wears h).form hs

/-- Settles O56: a count is set by the load and the power-on reset, raised by pulses, and left alone by everything else. -/
theorem wearNeverFallsBetweenPowerOnLoads : Obligations.WearNeverFallsBetweenPowerOnLoads :=
  ⟨fun _ _ hs h => (step_wears h).ranged hs, fun _ _ _ hs h hl => (exec_wears h).rises hl hs⟩

end Sys2Proof.Machine

/-! Maintenance requests (R161, R162, R169, R170): SAVE_WEAR, READ_WEAR and CLEAR_MARKS, on the state that has heard their MAINT. -/

namespace Sys2Proof.Machine

/-! ### A MAINT for this node -/

/-- The command of an operation's row. -/
def MaintOp.command (dt : Nat) : MaintOp → Instr
  | .saveWear => .saveWear dt
  | .readWear _ => .readWear dt
  | .clearMarks _ _ => .clearMarks dt
  | .readFault => .readFault dt
  | .clearFault => .clearFault dt

theorem frameCommand_maint {dt : Nat} {s : State} {f : Frame} {op : MaintOp} (h : s.Front f (.maint s.cfl.node op)) :
    frameCommand dt s.cfl.node f = op.command dt := by
  rw [frameCommand, parse_kind h.message]
  simp only [Msg.kind, h.message, if_true]
  cases op <;> rfl

theorem heard_wru (s : State) (dt : Nat) (f : Frame) (m : Msg) : (s.heard dt f m).wru = s.wru := advance_wru dt s

theorem heard_memory (s : State) (dt : Nat) (f : Frame) (m : Msg) : (s.heard dt f m).memory = s.memory := advance_memory dt s

theorem heard_maintOwed (s : State) (dt : Nat) (f : Frame) (m : Msg) : (s.heard dt f m).maintOwed = s.maintOwed := by
  have hfcu : (s.heard dt f m).fcu.answer = s.fcu.answer := advance_answer dt s
  rw [State.maintOwed, heard_wru, hfcu, State.maintOwed]

theorem heard_link (s : State) (dt : Nat) (f : Frame) (m : Msg) : (s.heard dt f m).liu.link = s.liu.link := by
  show (advance dt s).liu.link = s.liu.link
  rw [advance_liu]

/-- A MAINT that is not dropped is taken by the state that has heard it (R32, R161). -/
theorem exec_maint {dt : Nat} {s u : State} {f : Frame} {op : MaintOp} (h : s.Front f (.maint s.cfl.node op))
    (hu : u = s.heard dt f (.maint s.cfl.node op)) (hh : s.wsu.held = []) :
    exec (op.command dt) s = .next (finish (maintHeard op (Work.start u))) := by
  have hnode : s.cfl.node = (Work.start u).st.cfl.node := by rw [Work.start_st, hu, heard_cfl]
  have hact : act f.src (.maint s.cfl.node op) (Work.start u) = maintHeard op (Work.start u) := if_pos hnode
  rw [← frameCommand_maint h, exec_front_none h hh, ← hu, hact]

/-- It is dropped only in DUPLICATE_LATCH with a MAINT_DONE owed. -/
theorem heard_maint_open {dt : Nat} {s u : State} {f : Frame} {m : Msg} (hu : u = s.heard dt f m)
    (h : ¬ (s.liu.link = .duplicateLatch ∧ s.maintOwed = true)) : ¬ (u.liu.link = .duplicateLatch ∧ u.maintOwed = true) := by
  rwa [hu, heard_link, heard_maintOwed]

section
variable {u : State} (h : ¬ (u.liu.link = .duplicateLatch ∧ u.maintOwed = true))
include h

theorem maintHeard_saveWear : maintHeard .saveWear (Work.start u) = (Work.start u).upd saveWear := if_neg h

theorem maintHeard_readWear (i : Nat) : maintHeard (.readWear i) (Work.start u) = (Work.start u).upd (readWear i) := if_neg h

theorem maintHeard_clearMarks (first last : Nat) : maintHeard (.clearMarks first last) (Work.start u) =
    ⟨clearMarks first last u, [], decide (first ≤ last ∧ last ≤ 639) && u.suspectIn first last, false⟩ := if_neg h

end

/-! ### The walk of a save (R162, R163) -/

theorem find?_finRange {n : Nat} {q : Fin n → Bool} {b : Fin n} (hb : q b = true) (hl : ∀ k, k < b → q k = false) :
    (List.finRange n).find? q = some b :=
  Fin.find?_eq_find?_finRange.symm.trans (Fin.find?_eq_some_iff.2 ⟨hb, hl⟩)

section
variable {s : State} {b : Block} {walk written : Nat}

/-- The next dirty block is the lowest from the walk's position on. -/
theorem nextDirty_some (hw : walk ≤ b.val) (hd : look s.wru.dirty b = true)
    (hl : ∀ k : Block, walk ≤ k.val → k < b → look s.wru.dirty k = false) : s.nextDirty walk = some b :=
  find?_finRange (by simp [hw, hd]) fun k hk => by
    by_cases h : walk ≤ k.val
    · simp [hl k h hk]
    · simp [h]

theorem nextDirty_none (hd : ∀ k : Block, walk ≤ k.val → look s.wru.dirty k = false) : s.nextDirty walk = none := by
  refine List.find?_eq_none.2 fun k _ => ?_
  by_cases h : walk ≤ k.val
  · simp [hd k h]
  · simp [h]

theorem saveAdvance_next (h : s.nextDirty walk = some b) : saveAdvance walk written s = { s with wru := { s.wru with
    save := some ⟨b.val + 1, written, b, s.now, blockBytes s b⟩, dirty := put s.wru.dirty b false } } := by rw [saveAdvance, h]

theorem renew_wru (m : Owed) (s : State) : (s.renew m).wru = s.wru := by rw [renew_eq]

/-- With no dirty block left the save ends DONE (R165). -/
theorem saveAdvance_done (h : s.nextDirty walk = none) :
    (saveAdvance walk written s).wru = { s.wru with save := none, saveEnd := some (.saveDone written) } := by
  rw [saveAdvance, h]
  exact renew_wru _ _

/-- The walk is a matter of the WRU and of the frame on the line. -/
theorem saveAdvance_eq (walk written : Nat) (s : State) : saveAdvance walk written s =
    { s with liu := (saveAdvance walk written s).liu, wru := (saveAdvance walk written s).wru } := by
  unfold saveAdvance
  split
  · rfl
  · rw [renew_eq]

/-- The bytes of a block are its counts and marks (R194). -/
theorem blockBytes_of_eq {t : State} (hc : t.wru.counts = s.wru.counts) (hr : t.rm = s.rm) (b : Block) :
    blockBytes t b = blockBytes s b := by
  unfold blockBytes blockBody State.relay
  rw [hc, hr]

/-! ### SAVE_WEAR (R162) -/

theorem saveWear_eq (s : State) : saveWear s = { s with liu := (saveWear s).liu, wru := (saveWear s).wru } := by
  unfold saveWear
  split
  · rfl
  · split
    · rfl
    · rw [saveAdvance_eq]

theorem saveWear_counts (s : State) : (saveWear s).wru.counts = s.wru.counts := counts_of_ledger (saveWear_ledger s)

theorem saveWear_busy (h : s.wru.save ≠ none) : saveWear s = { s with wru := { s.wru with answer := some .saveBusy } } :=
  if_pos (Option.isSome_iff_ne_none.2 h)

theorem saveWear_absent (h : s.wru.save = none) (ha : s.wru.storeAbsent = true) :
    saveWear s = { s with wru := { s.wru with answer := some (.saveFailed 0 none) } } := by
  rw [saveWear, if_neg (by simp [h]), if_pos ha]

/-- The state in which a save begins: STARTED is owed (R162). -/
def State.saveStarted (s : State) : State := { s with wru := { s.wru with answer := some (.saveStarted s.dirtyCount) } }

theorem saveWear_starts (h : s.wru.save = none) (ha : s.wru.storeAbsent = false) : saveWear s = saveAdvance 0 0 s.saveStarted := by
  rw [saveWear, if_neg (by simp [h]), if_neg (by simp [ha])]
  rfl

theorem dirtyCount_zero (h : ∀ b, look s.wru.dirty b = false) : s.dirtyCount = 0 := by
  rw [State.dirtyCount, List.length_eq_zero_iff]
  exact List.filter_eq_nil_iff.2 fun b _ => by simp [h b]

/-- While an answer is owed, the end of a save is not the frame chosen (R161, R165). -/
theorem chosen_ne_saveEnd (h : s.wru.answer.isSome = true) : s.chosen ≠ some .saveEnd := by
  intro hc
  by_cases ha : s.liu.link = .active
  · by_cases hl : s.cfl.listen = true
    · rw [State.chosen, if_neg (by simp [ha]), if_pos hl] at hc
      split at hc <;> cases hc
    · have owed : Owed.wearAnswer ∈ s.owedMarks := by simp [State.owedMarks, h]
      obtain ⟨-, before⟩ := chosen_before ha (by simpa using hl) hc
      rcases before _ owed with hlt | ⟨heq, -⟩
      · exact absurd hlt (by decide)
      · exact absurd heq (by decide)
  · rw [State.chosen, if_pos ha] at hc
    cases hc

end

/-- Settles O33: the four answers by the save state, and the walk that begins or ends with the request. -/
theorem saveWearActsBySaveState : Obligations.SaveWearActsBySaveState := by
  intro dt s u f hfront hu hopen hheld
  have hwru : u.wru = s.wru := hu ▸ heard_wru s dt f _
  have hmemory : u.memory = s.memory := hu ▸ heard_memory s dt f _
  have hrm : u.rm = s.rm := hu ▸ (heard_heard s dt f _).rm
  have hcount : u.dirtyCount = s.dirtyCount := by rw [State.dirtyCount, hwru, State.dirtyCount]
  have hexec : exec (.saveWear dt) s = .next (saveWear u) := by
    have h := exec_maint hfront hu hheld
    rwa [maintHeard_saveWear (heard_maint_open hu hopen), finish_upd_start] at h
  refine ⟨saveWear u, hexec, ?_, ?_, fun hsave => ?_, fun hsave habsent => ?_, fun hsave hpresent b hb hlow => ?_,
    fun hsave hpresent hclean => ?_⟩
  · rw [saveWear_eq]
    exact hmemory
  · rw [saveWear_counts, hwru]
  · exact saveWear_busy (hwru ▸ hsave)
  · exact saveWear_absent (hwru ▸ hsave) (hwru ▸ habsent)
  · have hnext : u.saveStarted.nextDirty 0 = some b :=
      nextDirty_some (Nat.zero_le _) (show look u.wru.dirty b = true from hwru ▸ hb) fun k _ hk =>
        show look u.wru.dirty k = false from hwru ▸ hlow k hk
    have hbytes : blockBytes u.saveStarted b = blockBytes s b := blockBytes_of_eq (congrArg Wru.counts hwru) hrm b
    rw [saveWear_starts (hwru ▸ hsave) (hwru ▸ hpresent), saveAdvance_next hnext, hbytes, ← hwru, ← hcount]
    rfl
  · have hnone : u.saveStarted.nextDirty 0 = none :=
      nextDirty_none fun k _ => show look u.wru.dirty k = false from hwru ▸ hclean k
    have hdone : (saveWear u).wru =
        { s.wru with answer := some (.saveStarted 0), save := none, saveEnd := some (.saveDone 0) } := by
      rw [saveWear_starts (hwru ▸ hsave) (hwru ▸ hpresent), saveAdvance_done hnone, State.saveStarted, hcount,
        dirtyCount_zero hclean, hwru]
    exact ⟨hdone, chosen_ne_saveEnd (by rw [hdone]; rfl)⟩

/-! ### READ_WEAR (R169) -/

theorem inRange_val {n : Nat} (i : Fin n) : inRange n i.val = some i := dif_pos i.isLt

theorem inRange_none {n x : Nat} (h : n ≤ x) : inRange n x = none := dif_neg (Nat.not_lt.2 h)

theorem readWear_val (r : Relay) (s : State) : readWear r.val s = { s with wru := { s.wru with
    answer := some (.readWear r (look s.wru.counts r) (s.relay r).slow (s.relay r).suspect) } } := by
  rw [readWear, inRange_val]

theorem readWear_above {i : Nat} (h : 639 < i) (s : State) :
    readWear i s = { s with wru := { s.wru with answer := some .readWearBadArg } } := by rw [readWear, inRange_none h]

/-- A pulse leaves the answer owed alone (R169). -/
theorem pulse_answer (v : Wave) (r : Relay) (closing : Bool) (s : State) : (pulse v r closing s).wru.answer = s.wru.answer :=
  (pulse_follows v r closing s).field (fun u => u.wru.answer) fun _ => rfl

/-- Settles O34: the answer is fixed at the dispatch, by the relay's index. -/
theorem readWearAnswersCountAndMarks : Obligations.ReadWearAnswersCountAndMarks := by
  intro dt s u f i hfront hu hopen hheld
  have hwru : u.wru = s.wru := hu ▸ heard_wru s dt f _
  have hrelay : ∀ r, u.relay r = s.relay r := fun r => by rw [State.relay, hu, (heard_heard s dt f _).rm]; rfl
  have hexec : exec (.readWear dt) s = .next (readWear i u) := by
    have h := exec_maint hfront hu hheld
    rwa [maintHeard_readWear (heard_maint_open hu hopen), finish_upd_start] at h
  refine ⟨fun r hr => ⟨readWear i u, hexec, ?_, fun v x closing => pulse_answer v x closing _⟩, fun hi => ?_⟩
  · rw [← hr, readWear_val, hwru, hrelay]
  · rw [hexec, readWear_above hi]

/-! ### CLEAR_MARKS (R170) -/

/-- A block meets a range of relays where its index lies between those of the range's ends (R160). -/
theorem block_meets_span {first last : Nat} (hle : first ≤ last) (hlast : last ≤ 639) (b : Block) :
    first / 16 ≤ b.val ∧ b.val ≤ last / 16 ↔ ∃ r : Relay, blockOf r = b ∧ first ≤ r.val ∧ r.val ≤ last := by
  constructor
  · rintro ⟨hlo, hhi⟩
    refine ⟨⟨max first (16 * b.val), by omega⟩, Fin.ext ?_, ?_, ?_⟩
    · show max first (16 * b.val) / 16 = b.val
      omega
    · exact le_max_left _ _
    · show max first (16 * b.val) ≤ last
      omega
  · rintro ⟨r, rfl, hlo, hhi⟩
    exact ⟨Nat.div_le_div_right hlo, Nat.div_le_div_right hhi⟩

theorem clearSpan_relay (first last : Nat) (s : State) (r : Relay) : (clearSpan first last s).relay r =
    if first ≤ r.val ∧ r.val ≤ last then { s.relay r with slow := false, suspect := false } else s.relay r := by
  simp only [clearSpan, State.relay, look_each, inSpan, Bool.and_eq_true, decide_eq_true_eq]

theorem clearSpan_dirty (first last : Nat) (s : State) (b : Block) : look (clearSpan first last s).wru.dirty b = true ↔
    look s.wru.dirty b = true ∨ first / 16 ≤ b.val ∧ b.val ≤ last / 16 := by
  simp only [clearSpan, look_each, Bool.or_eq_true, Bool.and_eq_true, decide_eq_true_eq]

theorem clearMarks_good {first last : Nat} (h : first ≤ last ∧ last ≤ 639) (s : State) :
    clearMarks first last s = clearSpan first last s := if_pos h

theorem clearMarks_bad {first last : Nat} (h : ¬ (first ≤ last ∧ last ≤ 639)) (s : State) :
    clearMarks first last s = { s with wru := { s.wru with answer := some .clearMarksBadArg } } := if_neg h

/-- A choice pass is due only where a SUSPECT is cleared, and finds nothing where nobody waits (R86, R170). -/
theorem finish_clearMarks {first last : Nat} {u : State} (h : u.noWaiter ∨ u.suspectIn first last = false) :
    finish ⟨clearSpan first last u, [], u.suspectIn first last, false⟩ = clearSpan first last u := by
  have hne : (clearSpan first last u).ne.entries = u.ne.entries := by simp only [clearSpan]
  rcases h with hwaiter | hclean
  · have hwaiter' : (clearSpan first last u).noWaiter := noWaiter_of_entries hwaiter hne
    exact finish_noWaiter hwaiter' rfl rfl
  · rw [hclean]
    exact finish_eq rfl rfl rfl

/-- Settles O35: a range is cleared relay by relay and block by block, and nothing waits for it, or it is answered BAD_ARG. -/
theorem clearMarksClearsRange : Obligations.ClearMarksClearsRange := by
  intro dt s u f first last hfront hu hopen hheld
  have hwru : u.wru = s.wru := hu ▸ heard_wru s dt f _
  have hheard : Heard s u := hu ▸ heard_heard s dt f _
  have hsuspect : u.suspectIn first last = s.suspectIn first last := by
    simp only [State.suspectIn, State.relay, hheard.rm]
  have hexec : exec (.clearMarks dt) s = .next (finish ⟨clearMarks first last u, [],
      decide (first ≤ last ∧ last ≤ 639) && u.suspectIn first last, false⟩) := by
    have h := exec_maint hfront hu hheld
    rwa [maintHeard_clearMarks (heard_maint_open hu hopen)] at h
  refine ⟨_, hexec, fun hbad => ?_, fun hle hlast hwaits => ?_⟩
  · have hrange : ¬ (first ≤ last ∧ last ≤ 639) := by omega
    rw [finish_eq (by simp [hrange]) rfl rfl]
    exact clearMarks_bad hrange u
  · have hrange : first ≤ last ∧ last ≤ 639 := ⟨hle, hlast⟩
    have hwaits' : u.noWaiter ∨ u.suspectIn first last = false :=
      hwaits.imp (fun h => noWaiter_of_entries h (by rw [hheard.ne])) fun h => hsuspect.trans h
    rw [clearMarks_good hrange, decide_eq_true hrange, Bool.true_and, finish_clearMarks hwaits']
    have hcounts : (clearSpan first last u).wru.counts = u.wru.counts := by simp only [clearSpan]
    have hne : (clearSpan first last u).ne = u.ne := by simp only [clearSpan]
    refine ⟨by rw [hcounts, hwru], by simp only [clearSpan], hne.trans hheard.ne, fun r => ?_, fun b => ?_⟩
    · rw [clearSpan_relay, State.relay, hheard.rm]
      rfl
    · rw [clearSpan_dirty, block_meets_span hle hlast, hwru]

end Sys2Proof.Machine

/-! Blocks of the wear store: the block a power-on load takes (R167, R168), and the block write of a save that the memory
acknowledges or fails (R163, R165). -/

namespace Sys2Proof.Machine

/-! ### A block write (R163, R165) -/

/-- The state once the memory has stored the block of a save. -/
def State.stored (s : State) (v : Save) : State := { s with memory := storeBlock v.block v.bytes s.memory }

section
variable {s : State} {v : Save}

theorem exec_blockWriteEnd (dt : Nat) (s : State) : exec (.blockWriteEnd dt) s = .next (writeEnd (advance dt s)) := rfl

theorem exec_blockWriteFailure (dt : Nat) (s : State) :
    exec (.blockWriteFailure dt) s = .next (writeFailure (advance dt s)) := rfl

theorem writeEnd_stores (hr : s.running = true) (hv : s.wru.save = some v) (ht : (s.now - v.start).toNat ≤ 10000) :
    writeEnd s = saveAdvance v.walk (v.written + 1) (s.stored v) := by
  rw [writeEnd, hv]
  exact if_pos ⟨hr, ht⟩

theorem writeFailure_fails (hr : s.running = true) (hv : s.wru.save = some v) : writeFailure s = { saveFail v s with
    memory := residueMemory (Config.failedWrite s.free) v s.memory, free := s.free + 1 } := by
  rw [writeFailure, hv]
  exact if_pos hr

theorem saveFail_wru (v : Save) (s : State) : (saveFail v s).wru = { s.wru with
    save := none, dirty := put s.wru.dirty v.block true, saveEnd := some (.saveFailed v.written (some v.block)) } := renew_wru _ _

theorem saveFail_rm (v : Save) (s : State) : (saveFail v s).rm = s.rm := renew_rm _ _

/-- Whatever a failed write leaves of its block, every byte outside it stands (R165). -/
theorem residueMemory_read_outside {m : ConfigMemory} (x : Residue) (hm : Memory.wf m.cells = true) {a : Nat}
    (ha : a < blockOffset v.block.val ∨ blockOffset v.block.val + v.bytes.length ≤ a) :
    Memory.read (residueMemory x v m).cells a = Memory.read m.cells a := by
  cases x with
  | stored => exact Memory.read_writeAll_other _ _ hm ha
  | kept => rfl
  | torn => rfl

theorem saveAdvance_counts (walk written : Nat) (s : State) : (saveAdvance walk written s).wru.counts = s.wru.counts :=
  counts_of_ledger (saveAdvance_ledger walk written s)

end

/-- Settles O52: the bytes stored and the walk that goes on from them, or the save ended whatever the memory holds. -/
theorem blockWriteStoresOrFails : Obligations.BlockWriteStoresOrFails := by
  intro dt s s1 v hs1 hrun hsave hwf
  have hwru : s1.wru = s.wru := hs1 ▸ advance_wru dt s
  have hmemory : s1.memory = s.memory := hs1 ▸ advance_memory dt s
  have hpassed : Passed s s1 := hs1 ▸ advance_passed dt s
  have hrun1 : s1.running = true := by rw [hs1, advance_running, hrun]
  have hsave1 : s1.wru.save = some v := by rw [hwru, hsave]
  have hwf1 : Memory.wf s1.memory.cells = true := by rw [hmemory, hwf]
  refine ⟨fun hintime => ?_, ?_⟩
  · have hcells : (saveAdvance v.walk (v.written + 1) (s1.stored v)).memory =
        storeBlock v.block v.bytes s1.memory := by
      rw [saveAdvance_eq]
      rfl
    refine ⟨_, by rw [exec_blockWriteEnd, ← hs1, writeEnd_stores hrun1 hsave1 hintime], fun i hi => ?_, fun a ha => ?_, ?_, ?_, ?_,
      ?_, fun b hb hdirty hlow => ?_, fun hclean => ?_⟩
    · rw [hcells]
      exact Memory.read_writeAll_inside _ _ hwf1 hi
    · rw [hcells, ← hmemory]
      exact Memory.read_writeAll_other _ _ hwf1 ha
    · rw [hcells]
      exact look_put_same _ _ _
    · rw [saveAdvance_counts, ← hwru]
      rfl
    · rw [saveAdvance_eq]
      exact hpassed.rm
    · rw [saveAdvance_eq]
      exact hpassed.ne
    · have hnext : (s1.stored v).nextDirty v.walk = some b :=
        nextDirty_some hb (show look s1.wru.dirty b = true from hwru ▸ hdirty) fun k hk hkb =>
          show look s1.wru.dirty k = false from hwru ▸ hlow k hk hkb
      have hbytes : blockBytes (s1.stored v) b = blockBytes s b := blockBytes_of_eq (congrArg Wru.counts hwru) hpassed.rm b
      rw [saveAdvance_next hnext, hbytes]
      exact ⟨rfl, look_put_same _ _ _⟩
    · have hnone : (s1.stored v).nextDirty v.walk = none :=
        nextDirty_none fun k hk => show look s1.wru.dirty k = false from hwru ▸ hclean k hk
      rw [saveAdvance_done hnone]
      exact ⟨rfl, rfl⟩
  · refine ⟨_, by rw [exec_blockWriteFailure, ← hs1, writeFailure_fails hrun1 hsave1], ?_⟩
    dsimp only
    rw [saveFail_wru, saveFail_rm, hwru, hpassed.rm, ← hmemory]
    exact ⟨rfl, look_put_same _ _ _, rfl, rfl, rfl, fun a ha => residueMemory_read_outside _ hwf1 ha⟩

/-! ### A block of the store taken (R167, R168) -/

section
variable {s : State} {b : Block} {record block : MemAnswer}

theorem takeBlock_counts (count : Relay → Nat) (slow suspect : Relay → Bool) (r : Relay) :
    look (takeBlock b count slow suspect s).wru.counts r = if blockOf r = b then count r else look s.wru.counts r := by
  simp only [takeBlock, look_each]

theorem takeBlock_relay (count : Relay → Nat) (slow suspect : Relay → Bool) (r : Relay) :
    (takeBlock b count slow suspect s).relay r =
      if blockOf r = b then { s.relay r with slow := slow r, suspect := suspect r } else s.relay r := by
  simp only [takeBlock, State.relay, look_each]

/-- The block read of a load is one that gives stored values: it is acknowledged, not torn, and its check holds (R167). -/
def State.givesBlock (s : State) (b : Block) (block : MemAnswer) : Prop :=
  block = .acknowledged ∧ look s.memory.torn b = false ∧
    blockSound (Memory.readAll s.memory.cells (blockOffset b.val) 66) = true

theorem takeNext_sound (h : s.givesBlock b block) :
    takeNext b block s = takeSound b (Memory.readAll s.memory.cells (blockOffset b.val) 66) s := if_pos h

theorem takeNext_lost (h : ¬ s.givesBlock b block) :
    takeNext b block s = pendNote noteWearBlockLost (BitVec.ofNat 16 b.val) (takeLost s.judgedConfig b s) := if_neg h

theorem pendNote_wru (c : Fin 8) (d : BitVec 16) (s : State) : (pendNote c d s).wru = s.wru := renew_wru _ _

theorem pendNote_relay (c : Fin 8) (d : BitVec 16) (s : State) (r : Relay) : (pendNote c d s).relay r = s.relay r := by
  rw [State.relay, pendNote, renew_rm, State.relay]

theorem pendNote_noted (c : Fin 8) (d : BitVec 16) (s : State) : look (pendNote c d s).fcu.notes c = some d := by
  rw [pendNote_fcu]
  exact look_put_same _ _ _

/-- Relays of other blocks keep their counts and records. -/
theorem takeNext_other {r : Relay} (h : blockOf r ≠ b) :
    look (takeNext b block s).wru.counts r = look s.wru.counts r ∧ (takeNext b block s).relay r = s.relay r := by
  by_cases hs : s.givesBlock b block
  · rw [takeNext_sound hs, takeSound, takeBlock_counts, takeBlock_relay, if_neg h, if_neg h]
    exact ⟨rfl, rfl⟩
  · rw [takeNext_lost hs, pendNote_wru, pendNote_relay, takeLost, takeBlock_counts, takeBlock_relay, if_neg h, if_neg h]
    exact ⟨rfl, rfl⟩

/-- A sound block gives its relays their stored counts and, for crosspoints, their marks (R167, R194). -/
theorem takeNext_sound_relay {r : Relay} {bytes : List Byte} (hs : s.givesBlock b block) (hr : blockOf r = b)
    (hb : bytes = Memory.readAll s.memory.cells (blockOffset b.val) 66) :
    look (takeNext b block s).wru.counts r = tripleAt bytes (4 * (r.val % 16)) ∧
      ((takeNext b block s).relay r).slow = (isCrosspoint r && (storedByte bytes r 3).testBit 0) ∧
      ((takeNext b block s).relay r).suspect = (isCrosspoint r && (storedByte bytes r 3).testBit 1) := by
  rw [takeNext_sound hs, ← hb, takeSound, takeBlock_counts, takeBlock_relay, if_pos hr, if_pos hr]
  exact ⟨rfl, rfl, rfl⟩

/-- A lost block gives its relays their class thresholds and clear marks (R167). -/
theorem takeNext_lost_relay {r : Relay} (hs : ¬ s.givesBlock b block) (hr : blockOf r = b) :
    look (takeNext b block s).wru.counts r = (s.judgedConfig.params (classOf r)).threshold ∧
      ((takeNext b block s).relay r).slow = false ∧ ((takeNext b block s).relay r).suspect = false := by
  rw [takeNext_lost hs, pendNote_wru, pendNote_relay, takeLost, takeBlock_counts, takeBlock_relay, if_pos hr, if_pos hr]
  exact ⟨rfl, rfl, rfl⟩

/-- The record is judged once, and what it is judged to stands through the load (R167, R182). -/
theorem ensureJudged_config (record : MemAnswer) (s : State) :
    (ensureJudged record s).judgedConfig = (s.cfl.judged.getD (judgeRecord record s.memory)).config := by
  unfold ensureJudged
  cases hj : s.cfl.judged with
  | some j =>
    simp only [State.judgedConfig, hj]
    rfl
  | none => rfl

theorem toTake_config : (s.toTake record b).judgedConfig = (s.cfl.judged.getD (judgeRecord record s.memory)).config := by
  rw [← ensureJudged_config record s, State.toTake]
  split <;> rfl

/-- What takes a block has the counts and records of before. -/
theorem toTake_relays (r : Relay) :
    look (s.toTake record b).wru.counts r = look s.wru.counts r ∧ (s.toTake record b).relay r = s.relay r := by
  unfold State.toTake ensureJudged
  split <;> split <;> exact ⟨rfl, rfl⟩

theorem toTake_givesBlock : (s.toTake record b).givesBlock b block ↔ s.givesBlock b block := by
  rw [State.givesBlock, toTake_memory, State.givesBlock]

/-- An absent store gives every relay its class threshold and clear marks (R168). -/
theorem takeAbsent_taken (c : Configuration) (r : Relay) : look (takeAbsent c s).wru.counts r = (c.params (classOf r)).threshold ∧
    ((takeAbsent c s).relay r).slow = false ∧ ((takeAbsent c s).relay r).suspect = false := by
  simp only [takeAbsent, State.relay, look_each, and_self]

theorem exec_wearBlockRead (dt : Nat) (record block : MemAnswer) (s : State) :
    exec (.wearBlockRead dt record block) s = .next (wearBlockRead record block (advance dt s)) := rfl

end

/-- Settles O9: a sound block and a lost one are taken by their relays, and an absent store by all of them. -/
theorem wearBlockReadTakesBlock : Obligations.WearBlockReadTakesBlock := by
  intro dt record block s b hphase hload hnext cfg bytes hcfg hbytes
  obtain ⟨s1, hs1⟩ : ∃ s1, s1 = advance dt s := ⟨_, rfl⟩
  have hmemory : s1.memory = s.memory := hs1 ▸ advance_memory dt s
  have hcfl : s1.cfl = s.cfl := hs1 ▸ advance_cfl dt s
  have hcounts : s1.wru.counts = s.wru.counts := by rw [hs1, advance_wru]
  have hrelay : ∀ r, s1.relay r = s.relay r := fun r => by rw [hs1, advance_relay]
  have hphase1 : s1.cfl.phase = .loading := hcfl ▸ hphase
  have hload1 : s1.cfl.powerOnLoad = true := hcfl ▸ hload
  have hnext1 : s1.cfl.nextBlock = b.val := hcfl ▸ hnext
  have hjudged : (s1.cfl.judged.getD (judgeRecord record s1.memory)).config = cfg := by rw [hcfl, hmemory, hcfg]
  have hgives : (s1.toTake record b).givesBlock b block ↔
      block = .acknowledged ∧ look s.memory.torn b = false ∧ blockSound bytes = true := by
    rw [toTake_givesBlock, State.givesBlock, hmemory, hbytes]
  refine ⟨wearBlockRead record block s1, by rw [exec_wearBlockRead, ← hs1], ?_, fun hpresent => ?_, fun habsent => ?_⟩
  · exact (wearBlockRead_keeps_store record block s1).1.trans hmemory
  · rw [wearBlockRead_takes hphase1 hload1 hnext1 hpresent]
    refine ⟨rfl, fun r hr => ?_, fun hsound r hr => ?_, fun hlost => ⟨fun r hr => ?_, ?_⟩⟩
    · obtain ⟨htaken, hrecord⟩ := takeNext_other (s := s1.toTake record b) (block := block) hr
      obtain ⟨hcount, hkept⟩ := toTake_relays (s := s1) (record := record) (b := b) r
      exact ⟨(htaken.trans hcount).trans (congrArg (look · r) hcounts), (hrecord.trans hkept).trans (hrelay r)⟩
    · exact takeNext_sound_relay (hgives.2 hsound) hr (by rw [toTake_memory, hmemory, hbytes])
    · rw [← hjudged, ← toTake_config (b := b)]
      exact takeNext_lost_relay (fun hs => hlost (hgives.1 hs)) hr
    · show look (takeNext b block (s1.toTake record b)).fcu.notes noteWearBlockLost = _
      rw [takeNext_lost fun hs => hlost (hgives.1 hs)]
      exact pendNote_noted _ _ _
  · rw [wearBlockRead_absent hphase1 hload1 hnext1 habsent, ensureJudged_config, hjudged]
    refine ⟨rfl, ?_, pendNote_noted _ _ _, fun r => ?_⟩
    · show (pendNote noteStoreAbsent 0#16 (takeAbsent cfg (ensureJudged record s1))).wru.storeAbsent = true
      rw [pendNote_wru]
      rfl
    · show look (pendNote noteStoreAbsent 0#16 (takeAbsent cfg (ensureJudged record s1))).wru.counts r = _ ∧
        ((pendNote noteStoreAbsent 0#16 (takeAbsent cfg (ensureJudged record s1))).relay r).slow = false ∧
        ((pendNote noteStoreAbsent 0#16 (takeAbsent cfg (ensureJudged record s1))).relay r).suspect = false
      rw [pendNote_wru, pendNote_relay]
      exact takeAbsent_taken cfg r

end Sys2Proof.Machine

/-! Maintenance requests about the first-fault record (R176, R177): READ_FAULT and CLEAR_FAULT, on the state that has heard their
MAINT, and what a later capture finds (R171–R174). -/

namespace Sys2Proof.Machine

/-! ### Captures against the record (R171, R173) -/

/-- A capture is judged against the record alone: the answer owed stands, whether the capture is judged or held. -/
theorem capture_answer (c : Capture) (s : State) : (capture c s).fcu.answer = s.fcu.answer := by
  unfold capture
  split
  · rw [judgeCapture_eq]
  · rfl

theorem capture_fills_empty {c : Capture} {s : State} (hrun : s.running = true) (hempty : s.fcu.record = none)
    (hq : qualifies s.cfl.config.severe c = true) : (capture c s).fcu.record = some ⟨c, s.fcu.millis, 1⟩ := by
  rw [capture, if_pos hrun, judgeCapture, if_pos hq, hempty]

theorem capture_unqualified {c : Capture} {s : State} (hrun : s.running = true)
    (hq : qualifies s.cfl.config.severe c = false) : capture c s = s := by
  rw [capture, if_pos hrun, judgeCapture, if_neg (by simp [hq])]

/-! ### The requests dispatched -/

theorem heard_record (s : State) (dt : Nat) (f : Frame) (m : Msg) : (s.heard dt f m).fcu.record = s.fcu.record :=
  advance_record dt s

theorem heard_running (s : State) (dt : Nat) (f : Frame) (m : Msg) : (s.heard dt f m).running = s.running := by
  rw [State.running, heard_cfl, State.running]

section
variable {dt : Nat} {s u : State} {f : Frame}

theorem exec_readFault (hfront : s.Front f (.maint s.cfl.node .readFault))
    (hu : u = s.heard dt f (.maint s.cfl.node .readFault))
    (hopen : ¬ (s.liu.link = .duplicateLatch ∧ s.maintOwed = true)) (hheld : s.wsu.held = []) :
    exec (.readFault dt) s = .next (readFault u) := by
  have htaken : maintHeard .readFault (Work.start u) = (Work.start u).upd readFault := if_neg (heard_maint_open hu hopen)
  have h := exec_maint hfront hu hheld
  rwa [htaken, finish_upd_start] at h

theorem exec_clearFault (hfront : s.Front f (.maint s.cfl.node .clearFault))
    (hu : u = s.heard dt f (.maint s.cfl.node .clearFault))
    (hopen : ¬ (s.liu.link = .duplicateLatch ∧ s.maintOwed = true)) (hheld : s.wsu.held = []) :
    exec (.clearFault dt) s = .next (clearFault u) := by
  have htaken : maintHeard .clearFault (Work.start u) = (Work.start u).upd clearFault := if_neg (heard_maint_open hu hopen)
  have h := exec_maint hfront hu hheld
  rwa [htaken, finish_upd_start] at h

end

/-! ### READ_FAULT (R176) -/

theorem readFault_full {s : State} {r : FaultRecord} (h : s.fcu.record = some r) :
    readFault s = { s with fcu := { s.fcu with answer := some (.readFault r) } } := by rw [readFault, h]

theorem readFault_empty {s : State} (h : s.fcu.record = none) :
    readFault s = { s with fcu := { s.fcu with answer := some .readFaultEmpty } } := by rw [readFault, h]

@[simp] theorem readFault_record (s : State) : (readFault s).fcu.record = s.fcu.record := rfl

/-- Settles O36: the record as it stands fixes the answer, and no later capture changes it. -/
theorem readFaultAnswersRecord : Obligations.ReadFaultAnswersRecord := by
  intro dt s u f hfront hu hopen hheld
  have hrecord : u.fcu.record = s.fcu.record := hu ▸ heard_record s dt f _
  refine ⟨readFault u, exec_readFault hfront hu hopen hheld, ?_, fun r hfull => ?_, fun hempty => ?_, fun c => ?_⟩
  · rw [State.faultDriven, readFault_record, hrecord, State.faultDriven]
  · exact readFault_full (hrecord.trans hfull)
  · exact readFault_empty (hrecord.trans hempty)
  · exact capture_answer c _

/-! ### CLEAR_FAULT (R177) -/

@[simp] theorem clearFault_record (s : State) : (clearFault s).fcu.record = none := rfl

@[simp] theorem clearFault_running (s : State) : (clearFault s).running = s.running := rfl

/-- Settles O37: with the record emptied, the next capture that qualifies fills it as the first. -/
theorem clearFaultEmptiesRecord : Obligations.ClearFaultEmptiesRecord := by
  intro dt s u f hfront hu hopen hheld
  have hrecord : u.fcu.record = s.fcu.record := hu ▸ heard_record s dt f _
  have hcount : u.fcu.occurrences = s.fcu.occurrences := by rw [Fcu.occurrences, hrecord, Fcu.occurrences]
  have hrun : (clearFault u).running = true := by rw [clearFault_running, hu, heard_running, hfront.running]
  refine ⟨clearFault u, exec_clearFault hfront hu hopen hheld, ?_, ?_, fun c => ⟨fun hq => ?_, fun hq => ?_⟩⟩
  · rw [State.faultDriven, clearFault_record, Option.isSome_none]
  · rw [clearFault, hcount]
    rfl
  · have hfilled := capture_fills_empty hrun (clearFault_record u) hq
    exact ⟨hfilled, by rw [State.faultDriven, hfilled, Option.isSome_some]⟩
  · rw [capture_unqualified hrun hq, clearFault_record]

end Sys2Proof.Machine

/-! The power-on reset and the part it leaves (R180, R181): what the assertion makes of the configuration memory, every block's
reset record over it, and the invariants that the part right after reset meets. -/

namespace Sys2Proof.Machine

/-! ### What the assertion of a reset leaves of the memory (R25, R166) -/

/-- The frame on the line is cut off: no free value is used and the commands that wait stand. -/
theorem cutFrame_outside (s : State) : (cutFrame s).free = s.free ∧ (cutFrame s).pending = s.pending := by
  unfold cutFrame
  split
  · rename_i o _
    have k := ownOutcome_objected o s
    rw [k.free, k.pending, (countObjection_eq _).1]
    exact ⟨rfl, rfl⟩
  · exact ⟨rfl, rfl⟩

/-- The memory once a reset cuts a save: its bytes stand, and the block under way is torn (R166). -/
theorem cutSave_memory {s : State} (ho : s.liu.own = none) : (cutSave s).memory.cells = s.memory.cells ∧
    ∀ b, look (cutSave s).memory.torn b = (look s.memory.torn b || decide (s.wru.save.map Save.block = some b)) := by
  cases hv : s.wru.save with
  | none =>
    rw [cutSave_none hv]
    exact ⟨rfl, fun b => by simp⟩
  | some v =>
    rw [cutSave_some hv ho]
    refine ⟨rfl, fun b => ?_⟩
    by_cases hb : v.block = b
    · subst hb
      simp
    · simp [hb]

/-- A save is a matter of the WRU and the memory: no free value is used and the commands that wait stand. -/
theorem cutSave_outside {s : State} (ho : s.liu.own = none) : (cutSave s).free = s.free ∧ (cutSave s).pending = s.pending := by
  cases hv : s.wru.save with
  | none => rw [cutSave_none hv]; exact ⟨rfl, rfl⟩
  | some v => rw [cutSave_some hv ho]; exact ⟨rfl, rfl⟩

/-- The assertion of a reset leaves the memory's bytes, and tears the block of a save that it cuts; in a reset there is nothing
left to cut (R166, R180). -/
theorem resetAsserted_memory (s : State) : (resetAsserted s).memory.cells = s.memory.cells ∧
    ∀ b, look (resetAsserted s).memory.torn b =
      (look s.memory.torn b || (decide (s.cfl.phase ≠ .inReset) && decide (s.wru.save.map Save.block = some b))) := by
  by_cases h : s.cfl.phase = .inReset
  · rw [resetAsserted, if_pos h]
    exact ⟨rfl, fun b => by simp [h]⟩
  · obtain ⟨-, hmem, hsave, hown⟩ := cutFrame_parts (enterReset s)
    obtain ⟨hcells, htorn⟩ := cutSave_memory hown
    rw [resetAsserted_eq h rfl]
    refine ⟨hcells.trans (by rw [hmem]; rfl), fun b => (htorn b).trans ?_⟩
    rw [hmem, hsave, decide_eq_true h, Bool.true_and]
    rfl

/-- What is cut off at a reset ends without the outside: no free value is used and the commands that wait stand. -/
theorem resetAsserted_outside (s : State) :
    (resetAsserted s).free = s.free ∧ (resetAsserted s).pending = s.pending := by
  by_cases h : s.cfl.phase = .inReset
  · rw [resetAsserted, if_pos h]
    exact ⟨rfl, rfl⟩
  · obtain ⟨-, -, -, hown⟩ := cutFrame_parts (enterReset s)
    obtain ⟨hfree, hpending⟩ := cutSave_outside hown
    obtain ⟨hfree', hpending'⟩ := cutFrame_outside (enterReset s)
    rw [resetAsserted_eq h rfl]
    exact ⟨hfree.trans hfree', hpending.trans hpending'⟩

/-! ### POWER_ON_RESET (R180, R181) -/

/-- Settles O4: the blocks take their reset records, and what is outside them is what the assertion left. -/
theorem powerOnResetGivesResetState : Obligations.PowerOnResetGivesResetState := by
  intro dt straps s
  obtain ⟨hcells, htorn⟩ := resetAsserted_memory (advance dt s)
  obtain ⟨hfree, hpending⟩ := resetAsserted_outside (advance dt s)
  simp only [advance_memory, advance_cfl, advance_wru, advance_free, advance_pending] at hcells htorn hfree hpending
  exact ⟨powerOn straps (advance dt s), exec_powerOnReset dt straps s, rfl, rfl, rfl, rfl, rfl, rfl, rfl, rfl, rfl, rfl, rfl,
    rfl, rfl, rfl, rfl, hcells, htorn, hfree, hpending⟩

/-! ### The part right after reset (R111, R180) -/

theorem State.reset_creditOk : State.reset.creditOk := creditOk_of_none rfl (costsOk_of_ranged defaulted_ranged) rfl

/-- The counts stand at 0 until the load takes the stored ones, and no record is judged yet. -/
theorem State.reset_wearOk : State.reset.wearOk where
  counts r := by simp [State.reset, Wru.reset]
  thresholds := thresholdsOk_of_ranged defaulted_ranged
  judged _ h := by cases h

theorem State.reset_marksOk : State.reset.marksOk :=
  marksOk_of_idle rfl fun r _ => by simp [State.reset, Rm.reset, State.relay, RelayRec.reset]

/-- Settles O60: the memory is blank, no credit meter runs, the counts and marks are clear, the link and the SNU are idle, and
no site is VALID. -/
theorem resetMeetsEveryKeptProperty : Obligations.ResetMeetsEveryKeptProperty :=
  ⟨rfl, State.reset_creditOk, State.reset_wearOk, linkOk_of_reset rfl, queuesOk_of_invalid rfl,
    State.reset_marksOk⟩

end Sys2Proof.Machine

/-! The step and its command (chapter 95): the front of the queue runs, and each command answers a next state, as a plain event
or as an event with a condition. -/

namespace Sys2Proof.Machine

/-! ### The front of the queue -/

theorem step_of_pending {c : Instr} {rest : List Instr} {s : State} (h : s.pending = c :: rest) :
    step s = exec c { s with pending := rest } := by
  rw [step, h]

/-- Settles O1: the step takes the command from the queue and runs it. -/
theorem stepRunsFrontCommand : Obligations.StepRunsFrontCommand := fun _ _ _ h => step_of_pending h

/-! ### What a command answers -/

theorem plainEvent_next (dt : Nat) (f : State → State) (s : State) : ∃ t, plainEvent dt f s = .next t :=
  ⟨f (advance dt s), rfl⟩

/-- Where its condition does not hold, an event lets its time pass and answers all the same (notes/assumptions/5.md). -/
theorem event_next (dt : Nat) (due : State → Bool) (f : Work → Work) (s : State) : ∃ t, event dt due f s = .next t :=
  ⟨if due (advance dt s) then finish (f (Work.start (advance dt s))) else advance dt s, rfl⟩

/-- Settles O2, command by command: each meaning is one of the two forms of event. -/
theorem everyCommandAnswersNext : Obligations.EveryCommandAnswersNext := by
  intro c s
  cases c with
  | powerOnReset | coldPinReset | warmKeep | configurationLoadEnd | wearBlockRead | listenPeriodEnd | resetAsserted =>
    exact plainEvent_next _ _ s
  | idlePoint | deferredFrameStart | lostContention | readbackFault | checkFieldEnd | objectionSlotRead =>
    exact plainEvent_next _ _ s
  | source | abort | claim | release | cancel | beacon | clear | route | unroute | monitor | fence | saveWear | readWear
  | clearMarks | readFault | clearFault | status | ready | note | maintDone | maintForAnotherTargetNode =>
    exact plainEvent_next _ _ s
  | beaconPeriodBoundary | blockWriteEnd | blockWriteFailure => exact plainEvent_next _ _ s
  | arbiterDispatch | creditBoundary | settleEnd | connectHoldExpiry | disconnectHoldExpiry | awaitResourceDeadline
  | awaitAnchorDeadline | awaitOpenedDeadline | monitorClaimWaitExpiry | coolingEnd | senseEnd | stepEnd =>
    rw [exec]
    exact event_next _ _ _ s

end Sys2Proof.Machine
